-- ==== Sys2Proof/Word.lean ====
section
/-! DEFINITION. The words of the image bus: bytes, 16-bit words, 18-bit word addresses, master numbers. -/

namespace Sys2Proof

/-- One lane of a word. -/
abbrev Byte := BitVec 8

/-- An image-bus word (00_scope, conventions). -/
abbrev Word := BitVec 16

/-- An image-bus word address, 0x00000 to 0x3FFFF (00_scope, conventions). -/
abbrev Addr := BitVec 18

/-- A master number, 0 to 7 (R116). -/
abbrev Master := Fin 8

/-- A power group number, 0 to 3 (R65). -/
abbrev GroupNum := Fin 4

end Sys2Proof
end

