-- ==== Sys2Proof/Config.lean ====
section
/-! DEFINITION. What the part fixes by itself, and the free values the spec leaves open. -/

namespace Sys2Proof.Config

/-- FREE VALUE. The n-th byte of bank contents that the spec calls unknown (R147: a write that ends in
error leaves the contents of the addressed word unknown). It has no body: nothing can be proved of it. -/
opaque freeByte : Nat → Byte

/-- FREE VALUE. The parity bit that a bank holds with the n-th unknown byte (R147, log 8). -/
opaque freeParity : Nat → Bool

/-- R159: the ring holds up to 64 entries. -/
def ringCapacity : Nat := 64

/-- R159: the dropped count stays at 255. -/
def droppedMax : Nat := 255

/-- R58: the settle time, in tenths. -/
def settleTime : Nat := 80

/-- R148: a bank fails when its consecutive-error count reaches 3. -/
def failCount : Nat := 3

/-- R167: the start-up load makes up to three attempts. -/
def loadAttempts : Nat := 3

/-- R158, R87: the master number that stands for the part itself, and for VACANT in captures. -/
def partMaster : Nat := 15

/-- R165: the format tag of a settings image. -/
def formatTag : Nat := 0x6480

/-- R165: the longest body that fits the settings memory behind the header. -/
def maxBody : Nat := 2040

/-- R165: the bytes of a body before its door records. -/
def bodyBase : Nat := 589

/-- 00_scope: the most doors the part serves. -/
def maxDoors : Nat := 96

/-- R165: the bytes the settings memory holds. -/
def settingsBytes : Nat := 2048

/-- R121: the end of the address space, in words. -/
def addressSpace : Nat := 262144

end Sys2Proof.Config
end

