-- ==== Sys2Proof/Syntax.lean ====
section
/-! DEFINITION. The commands of the block: one constructor per row of spec/opcode_table.json. -/

namespace Sys2Proof

/-- One byte lane (00_scope, terms). -/
inductive Lane | low | high
  deriving DecidableEq, Repr

/-- The lanes of an access: LOW (bits 7-0), HIGH (bits 15-8) or BOTH (R116). -/
inductive Lanes | low | high | both
  deriving DecidableEq, Repr

/-- The direction of an access, with the data of a write (R116). -/
inductive Op | read | write (data : Word)
  deriving DecidableEq, Repr

/-- One upstream access as the arbiter presents it (R116). -/
structure Access where
  master : Master
  addr   : Addr
  lanes  : Lanes
  op     : Op
  deriving DecidableEq, Repr

/-- The two static memory banks (09). -/
inductive BankId | bankA | bankB
  deriving DecidableEq, Repr

/-- The four debounced inputs of a door (R3). -/
inductive Input | cl | ol | lo | lc
  deriving DecidableEq, Repr

/-- A word with the parity bit of each of its bytes, as it passes between the part and a bank (R147). -/
structure BankWord where
  data       : Word
  lowParity  : Bool
  highParity : Bool
  deriving DecidableEq, Repr

/-- How the two bank accesses of a copy step ended (R147, R154, log 9): whether the source completed its read, with the
bits in which what it returned differs from what it holds, and whether the target completed its write, where one was
made. -/
structure CopyOutcome where
  read    : Option BankWord
  written : Bool
  deriving DecidableEq, Repr

/-- The commands. An access row is the arrival of that access at the upstream port: a whole-word write
(lanes BOTH) unless the row carries lanes, whose data is `value`, or for the STATION and TRANSFER rows the
row's own request or kind in bits 2-0 below `rest` (bits 15-3). Log 1. -/
inductive Instr
  /-- POWER_ON (R166). -/
  | powerOn
  /-- RESET: the line is asserted (R166). -/
  | reset
  /-- RESET_RELEASE, with the LANE strap as sampled then (R166). -/
  | resetRelease (laneStrap : Bool)
  /-- LOAD_ATTEMPT_END: the bytes the memory acknowledged, and the present lines (R146, R165, R167). -/
  | loadAttemptEnd (image : List Byte) (presentA presentB : Bool)
  /-- START_UP_HOLD (R118). -/
  | startUpHold (a : Access)
  /-- TRANSPARENT_ACCESS (R119). -/
  | transparentAccess (a : Access)
  /-- SINGLE_LANE_WRITE (R122). -/
  | singleLaneWrite (m : Master) (addr : Addr) (lane : Lane) (byte : Byte)
  /-- FORWARDED_WRITE (R129). -/
  | forwardedWrite (m : Master) (addr : Addr) (lanes : Lanes) (data : Word)
  /-- FORWARDED_READ (R150). -/
  | forwardedRead (m : Master) (addr : Addr) (lanes : Lanes)
  /-- BANK_ACCESS_END: the bank completed its access (R148); of a read, the bits in which what it returned differs from
  what it holds (R147, log 9). -/
  | bankAccessEnd (bank : BankId) (flipped : BankWord)
  /-- BANK_COMPLETION_TIMEOUT (R147). -/
  | bankCompletionTimeout (bank : BankId)
  /-- COPY_STEP (R154): how its two bank accesses ended. -/
  | copyStep (outcome : CopyOutcome)
  /-- STATION_NONE (R32). -/
  | stationNone (m : Master) (addr : Addr) (rest : BitVec 13)
  /-- STATION_CLOSE (R33). -/
  | stationClose (m : Master) (addr : Addr) (rest : BitVec 13)
  /-- STATION_OPEN (R33). -/
  | stationOpen (m : Master) (addr : Addr) (rest : BitVec 13)
  /-- STATION_STOP (R34). -/
  | stationStop (m : Master) (addr : Addr) (rest : BitVec 13)
  /-- STATION_ISOLATE (R35). -/
  | stationIsolate (m : Master) (addr : Addr) (rest : BitVec 13)
  /-- STATION_RESTORE (R36). -/
  | stationRestore (m : Master) (addr : Addr) (rest : BitVec 13)
  /-- SENSOR_REPORT (R6). -/
  | sensorReport (m : Master) (addr : Addr) (word : Word)
  /-- DEBOUNCE_EXPIRY of one input's timer, with those the same report started (R11). -/
  | debounceExpiry (door : Nat) (input : Input)
  /-- FRESHNESS_EXPIRY (R14). -/
  | freshnessExpiry (door : Nat)
  /-- SLOT_GRANT: the arbiter's step at a group (R73). -/
  | slotGrant (group : GroupNum)
  /-- PREWARN_EXPIRY (R29). -/
  | prewarnExpiry (door : Nat)
  /-- TRAVEL_EXPIRY (R31). -/
  | travelExpiry (door : Nat)
  /-- RECLOSE_EXPIRY (R40). -/
  | recloseExpiry (door : Nat)
  /-- TRIP_TIMER_EXPIRY (R53). -/
  | tripTimerExpiry (door : Nat)
  /-- RETRY_EXPIRY (R55). -/
  | retryExpiry (door : Nat)
  /-- SETTLE_EXPIRY (R58). -/
  | settleExpiry (door : Nat)
  /-- MODE (R81). -/
  | mode (m : Master) (addr : Addr) (value : Word)
  /-- ZONE_CLOSE (R83). -/
  | zoneClose (m : Master) (addr : Addr) (value : Word)
  /-- DOOR_CLEAR (R59). -/
  | doorClear (m : Master) (addr : Addr) (value : Word)
  /-- ALARM_ACK (R107). -/
  | alarmAck (m : Master) (addr : Addr) (value : Word)
  /-- BASELINE (R62). -/
  | baseline (m : Master) (addr : Addr) (value : Word)
  /-- CAPTURE_RELEASE (R162). -/
  | captureRelease (m : Master) (addr : Addr) (value : Word)
  /-- RELOAD (R168). -/
  | reload (m : Master) (addr : Addr) (value : Word)
  /-- RELOAD_ATTEMPT_END: the bytes the memory acknowledged (R165, R169). -/
  | reloadAttemptEnd (image : List Byte)
  /-- APPLY of the held image (R169, R170). -/
  | apply
  /-- RESYNC (R153). -/
  | resync (m : Master) (addr : Addr) (value : Word)
  /-- TRANSFER_REQUEST (R92). -/
  | transferRequest (m : Master) (addr : Addr) (rest : BitVec 13)
  /-- TRANSFER_ACCEPT (R93). -/
  | transferAccept (m : Master) (addr : Addr) (rest : BitVec 13)
  /-- TRANSFER_DECLINE (R93). -/
  | transferDecline (m : Master) (addr : Addr) (rest : BitVec 13)
  /-- TRANSFER_CANCEL (R93). -/
  | transferCancel (m : Master) (addr : Addr) (rest : BitVec 13)
  /-- TRANSFER_RELINQUISH (R93). -/
  | transferRelinquish (m : Master) (addr : Addr) (rest : BitVec 13)
  /-- HEARTBEAT (R88). -/
  | heartbeat (m : Master) (addr : Addr) (value : Word)
  /-- ATTACH (R98). -/
  | attach (m : Master) (addr : Addr) (value : Word)
  /-- HEARTBEAT_EXPIRY of a station (R90). -/
  | heartbeatExpiry (station : Master)
  /-- TRANSFER_TIMER_EXPIRY (R94). -/
  | transferTimerExpiry
  /-- FLASH_PHASE_EXPIRY (R111). -/
  | flashPhaseExpiry
  /-- REFILL_INSTANT of a meter (R141). -/
  | refillInstant (meter : Fin 8)
  /-- SERVED_READ (R128). -/
  | servedRead (m : Master) (addr : Addr) (lanes : Lanes)
  deriving DecidableEq, Repr

end Sys2Proof
end

