-- ==== Sys2Proof/WellFormed.lean ====
section
/-! DEFINITION. What a command's operands must meet to name something of the part. -/

namespace Sys2Proof

/-- Doors are numbered 0 to 95 (00_scope, conventions). -/
def doorOk (d : Nat) : Bool := d < Config.maxDoors

/-- The settings memory holds up to 2,048 bytes (R165). -/
def imageOk (bytes : List Byte) : Bool := bytes.length ≤ Config.settingsBytes

/-- The check. The other operands are of types every value of which the spec gives a meaning. -/
def Instr.wellFormed : Instr → Bool
  | .powerOn => true
  | .reset => true
  | .resetRelease _ => true
  | .loadAttemptEnd image _ _ => imageOk image
  | .startUpHold _ => true
  | .transparentAccess _ => true
  | .singleLaneWrite _ _ _ _ => true
  | .forwardedWrite _ _ _ _ => true
  | .forwardedRead _ _ _ => true
  | .bankAccessEnd _ _ => true
  | .bankCompletionTimeout _ => true
  | .copyStep _ => true
  | .stationNone _ _ _ => true
  | .stationClose _ _ _ => true
  | .stationOpen _ _ _ => true
  | .stationStop _ _ _ => true
  | .stationIsolate _ _ _ => true
  | .stationRestore _ _ _ => true
  | .sensorReport _ _ _ => true
  | .debounceExpiry d _ => doorOk d
  | .freshnessExpiry d => doorOk d
  | .slotGrant _ => true
  | .prewarnExpiry d => doorOk d
  | .travelExpiry d => doorOk d
  | .recloseExpiry d => doorOk d
  | .tripTimerExpiry d => doorOk d
  | .retryExpiry d => doorOk d
  | .settleExpiry d => doorOk d
  | .mode _ _ _ => true
  | .zoneClose _ _ _ => true
  | .doorClear _ _ _ => true
  | .alarmAck _ _ _ => true
  | .baseline _ _ _ => true
  | .captureRelease _ _ _ => true
  | .reload _ _ _ => true
  | .reloadAttemptEnd image => imageOk image
  | .apply => true
  | .resync _ _ _ => true
  | .transferRequest _ _ _ => true
  | .transferAccept _ _ _ => true
  | .transferDecline _ _ _ => true
  | .transferCancel _ _ _ => true
  | .transferRelinquish _ _ _ => true
  | .heartbeat _ _ _ => true
  | .attach _ _ _ => true
  | .heartbeatExpiry _ => true
  | .transferTimerExpiry => true
  | .flashPhaseExpiry => true
  | .refillInstant _ => true
  | .servedRead _ _ _ => true

end Sys2Proof
end

