-- ==== Sys2Proof/Decode.lean ====
section
/-! DEFINITION. The rows of spec/opcode_table.json that give bits: none, so no word spells a command. -/

namespace Sys2Proof

/-- The command that a word spells by the table's bits. Every row of the table has an empty field list. -/
def decodeTableWord (_nbits _w : Nat) : Option Instr := none

end Sys2Proof
end

