-- ==== Sys2Proof/Machine/State.lean ====
section
/-! DEFINITION. All the state the spec gives the part, block by block (00_scope, "Blocks of the part"), as plain data,
and the state that a reset leaves. A moment in time is a count of tenths since entry to RUNNING. -/

namespace Sys2Proof.Machine

/-! ## Door table (01, 02, 03, 06) -/

/-- R2: a POWERED door, with its power group, or an INDICATED one, which has none. -/
inductive DoorClass | powered (group : GroupNum) | indicated
  deriving DecidableEq, Repr

/-- R1: the static part of a door record. -/
structure DoorStatic where
  cls             : DoorClass
  zone            : Fin 16
  scanner         : Master
  travelLimit     : Nat
  initialBaseline : Nat
  margin          : Nat
  deriving DecidableEq, Repr

/-- R3: a value for each of the inputs CL, OL, LO and LC. -/
structure Four (α : Type) where
  cl : α
  ol : α
  lo : α
  lc : α
  deriving DecidableEq, Repr

/-- R10, R11: a running debounce timer: the moment it expires, and which report of the door started it (log 12). -/
structure DebounceTimer where
  expiry : Nat
  report : Nat
  deriving DecidableEq, Repr

/-- R3: the input part of a door record. -/
structure InputPart where
  lastSeq   : Option (BitVec 2)
  reported  : Bool
  raw       : Four Bool
  debounced : Four Bool
  timers    : Four (Option DebounceTimer)
  pw        : Bool
  ob        : Bool
  pressure  : Nat
  /-- the freshness timer: its start while it runs -/
  freshness : Option Nat
  stale     : Bool
  /-- the model's own: how many fresh reports the door has had (log 12) -/
  reports   : Nat
  deriving DecidableEq, Repr

/-- R4. -/
inductive Position | unknown | closed | opened | between | conflict
  deriving DecidableEq, Repr

/-- R20: CLOSE or OPEN. -/
inductive Direction | toClose | toOpen
  deriving DecidableEq, Repr

/-- R20: why a door is bound somewhere. -/
inductive Origin | station | mode | zone | retry | localReq
  deriving DecidableEq, Repr

/-- R20: the drive state, with the direction, the origin and the timers that the state has. A timer is the moment
it expires. A WARNING door has direction CLOSE (R26). -/
inductive Drive
  | resting
  | queued (dir : Direction) (origin : Origin)
  | warning (origin : Origin) (prewarn : Nat)
  | moving (dir : Direction) (origin : Origin) (travel : Nat)
  | recloseWait (reclose : Nat)
  | tripped (retry : Nat)
  | isolated
  deriving DecidableEq, Repr

/-- R20. -/
inductive Inhibit | none | latched | stalled
  deriving DecidableEq, Repr

/-- R48: the alert cause. -/
inductive Cause | obstruction | pressure | both
  deriving DecidableEq, Repr

/-- R48: the protection part of a door record. -/
structure Protection where
  /-- the alert flag, raised with its cause -/
  alert     : Option Cause
  mark      : Bool
  peak      : Option Nat
  tripTimer : Option Nat
  settle    : Option Nat
  tripCount : Nat
  baseline  : Nat
  /-- the baseline state: HOT when set, COLD when clear -/
  hot       : Bool
  deriving DecidableEq, Repr

/-- R102. -/
inductive AlarmState | normal | activeUnack | activeAck | clearedUnack
  deriving DecidableEq, Repr

/-- R102: a value for each of the seven alarm kinds. -/
structure Seven (α : Type) where
  doorOpen   : α
  tripped    : α
  latched    : α
  stalled    : α
  stale      : α
  conflict   : α
  drivePower : α
  deriving DecidableEq, Repr

/-- One door record: R1, R3, R4, R20, R48, R102. -/
structure Door where
  /-- the static part, where one is in force (R1) -/
  static    : Option DoorStatic
  inp       : InputPart
  position  : Position
  drive     : Drive
  hold      : Bool
  inhibit   : Inhibit
  prot      : Protection
  alarms    : Seven AlarmState
  powerSeen : Bool
  deriving DecidableEq, Repr

/-! ## Power group arbiter (04) -/

/-- R65: one power group record. -/
structure Group where
  slotCount : Option Nat
  holders   : List Nat
  queue     : List Nat
  deriving DecidableEq, Repr

/-- The door table and the arbiter, which act on each other (R22). -/
structure Yard where
  doors  : List Door
  groups : Vector Group 4
  deriving DecidableEq, Repr

/-! ## Settings (11) -/

/-- R79. -/
inductive VesselMode | localControl | doorsClosed
  deriving DecidableEq, Repr

/-- R126: unauthorized behaviours. -/
inductive Behaviour | drop | trap | restrict
  deriving DecidableEq, Repr

/-- R165: the settings-wide values of the general section that an apply replaces (R170), times in tenths. -/
structure Timing where
  debounce      : Nat
  activeLimit   : Nat
  idleLimit     : Nat
  prewarn       : Nat
  reclose       : Nat
  retryDelay    : Nat
  tripDelay     : Nat
  retryLimit    : Nat
  heartbeat     : Nat
  transfer      : Nat
  flashPeriod   : Nat
  flashOn       : Nat
  deriving DecidableEq, Repr

/-- R120: a window's kind, with the door base of the kinds that have one. -/
inductive WindowKind
  | plain
  | command (doorBase : Nat)
  | sensor (doorBase : Nat)
  | indication (doorBase : Nat)
  | order
  | capture
  | status
  deriving DecidableEq, Repr

/-- R120: an enabled window. A disabled entry is an absent one: its other fields are never examined (R121). -/
structure Window where
  base   : Addr
  length : Nat
  kind   : WindowKind
  deriving DecidableEq, Repr

/-- R133. -/
inductive RuleDirection | read | write | either
  deriving DecidableEq, Repr

/-- R133: a rule's action, with the fields that are present for it. -/
inductive Action
  | permit
  | refuse
  | refuseQuiet
  | force (value mask : Word)
  | trap
  | meter (m : Fin 8)
  deriving DecidableEq, Repr

/-- R133: an enabled rule. A disabled rule is an absent one: its other fields are never judged. -/
structure Rule where
  /-- the master set, bit n for master n -/
  masters   : BitVec 8
  /-- the window index, absent for ANY -/
  window    : Option (Fin 16)
  direction : RuleDirection
  value     : Word
  mask      : Word
  invert    : Bool
  action    : Action
  deriving DecidableEq, Repr

/-- R165: a master's role in a settings image, with a scanner's range. -/
inductive RoleSetting | absent | station | scanner (first count : Nat) | service | observer
  deriving DecidableEq, Repr

/-- R165: a master record of a settings image. -/
structure MasterSetting where
  role      : RoleSetting
  behaviour : Behaviour
  deriving DecidableEq, Repr

/-- R165: a meter record of a settings image. -/
structure MeterSetting where
  rate  : Nat
  burst : Nat
  deriving DecidableEq, Repr

/-- R165: a good settings image. -/
structure Settings where
  timing        : Timing
  defaultMode   : VesselMode
  defaultHolder : Option Master
  fittedA       : Bool
  fittedB       : Bool
  imageSize     : Nat
  /-- bit n gives map entry n: clear for bank A, set for bank B -/
  readMap       : Word
  masters       : Vector MasterSetting 8
  windows       : List (Option Window)
  rules         : List (Option Rule)
  meters        : Vector MeterSetting 8
  slotCounts    : Vector Nat 4
  doors         : List DoorStatic
  deriving DecidableEq, Repr

/-! ## Part state and loader (11) -/

/-- R166, R167: in reset, LOADING with the number of the attempt in progress, RUNNING or TRANSPARENT. -/
inductive PartState | inReset | loading (attempt : Nat) | running | transparent
  deriving DecidableEq, Repr

/-- R166. -/
inductive ResetCause | powerOn | resetLine
  deriving DecidableEq, Repr

/-- R168: the reload state, with the held image of APPLY_PENDING. -/
inductive ReloadState | idle | reloading | applyPending (held : Settings)
  deriving DecidableEq, Repr

/-- R164, R168. -/
structure Loader where
  reload           : ReloadState
  lastReloadFailed : Bool
  deriving DecidableEq, Repr

/-! ## Masters, rules' meters (05, 07, 08) -/

/-- R125: a master's role in force. A STATION is LIVE with its heartbeat timer's start, or LAPSED with none
(R84); a SCANNER has its range and its authorization (R97). -/
inductive Role
  | absent
  | station (heartbeat : Option Nat)
  | scanner (first count : Nat) (authorized : Bool)
  | service
  | observer
  deriving DecidableEq, Repr

/-- R125: a master record. -/
structure MasterRec where
  role      : Role
  behaviour : Behaviour
  deriving DecidableEq, Repr

/-- R141: a rate meter; `refills` counts the refill instants that have passed since `start`. -/
structure Meter where
  rate     : Nat
  burst    : Nat
  tokens   : Nat
  exceeded : Bool
  start    : Nat
  refills  : Nat
  deriving DecidableEq, Repr

/-! ## Vessel mode and command stations (05) -/

/-- R86: the pending-transfer record: its requester and its transfer timer's start. -/
structure Transfer where
  requester : Master
  start     : Nat
  deriving DecidableEq, Repr

/-- The vessel mode and command-station unit: R79, R85 (no holder is VACANT), R86. -/
structure UnitState where
  mode     : Option VesselMode
  holder   : Option Master
  transfer : Option Transfer
  deriving DecidableEq, Repr

/-! ## Alarm lines (06) -/

/-- R110, R111: the GENERAL_ALARM line; FLASHING has its phase and the moment its phase timer expires. -/
inductive GeneralAlarm | off | steady | flashing (onPhase : Bool) (expiry : Nat)
  deriving DecidableEq, Repr

/-- The output lines: READY (R118), GENERAL_ALARM, DOORS_NOT_CLOSED (R112), PART_FAULT (R113). -/
structure Lines where
  ready          : Bool
  generalAlarm   : GeneralAlarm
  doorsNotClosed : Bool
  partFault      : Bool
  deriving DecidableEq, Repr

/-! ## Mirror unit (09) -/

/-- R145. -/
inductive BankState | notFitted | inService | resync | failed
  deriving DecidableEq, Repr

/-- Cells by lane address, LOW lane of word a at 2a, HIGH lane at 2a + 1 (log 7). -/
abbrev Memory := List Host.Cell

/-- R147: what a bank holds: bytes, and with each byte its parity bit, as a cell of 0 or 1. -/
structure Contents where
  bytes  : Memory
  parity : Memory
  deriving DecidableEq, Repr

/-- R145: a bank record, and what the bank holds. -/
structure Bank where
  state : BankState
  count : Nat
  mem   : Contents
  deriving DecidableEq, Repr

/-- R145, R150: the bank records, the read distribution map, the image size and the copy record. -/
structure Mirror where
  bankA     : Bank
  bankB     : Bank
  readMap   : Word
  imageSize : Nat
  /-- the copy's source, present while a bank is in RESYNC -/
  source    : Option BankId
  cursor    : Nat
  imageLost : Bool
  /-- the model's own: how many free bytes have been used (log 8) -/
  free      : Nat
  deriving DecidableEq, Repr

/-! ## Access path (07) -/

/-- R122: a present lane assembly slot. -/
structure Slot where
  addr : Addr
  lane : Lane
  byte : Byte
  deriving DecidableEq, Repr

/-- R116: a response: DONE, with the read data of a read, or ERROR, whose read data is zero. -/
inductive Response | done (data : Option Word) | error
  deriving DecidableEq, Repr

/-- R149: one bank's part in a forwarded write: not written; outstanding; ended but not yet counted, since bank
A's ending is counted first; counted. `serving` says whether the bank was IN_SERVICE when the write was forwarded. -/
inductive Leg
  | unused
  | outstanding (serving : Bool)
  | ended (serving clean : Bool)
  | counted (serving clean : Bool)
  deriving DecidableEq, Repr

/-- What follows when a forwarded write has ended: the response alone (R129, R132), or the sensor take of a door's
report that arrived at a moment (R131). -/
inductive AfterWrite | answerOnly | sensorTake (door : Nat) (word : Word) (arrival : Nat)
  deriving DecidableEq, Repr

/-- R129, R119: the bank accesses that the unanswered access waits for. -/
inductive Waiting
  | write (addr : Addr) (lanes : Lanes) (data : Word) (legA legB : Leg) (after : AfterWrite)
  | read (addr : Addr) (lanes : Lanes) (bank : BankId) (retry : Bool)
  | transparent
  deriving DecidableEq, Repr

/-- R116, R118: the upstream port: idle, an access held at the start-up hold, or an access in progress. -/
inductive Upstream
  | idle
  | held (a : Access)
  | waiting (a : Access) (w : Waiting)
  deriving DecidableEq, Repr

/-- The access path: LANE mode (R122), window table (R120), lane assembly slots (R122), upstream port and response. -/
structure PathState where
  laneMode : Bool
  windows  : List (Option Window)
  slots    : Vector (Option Slot) 8
  upstream : Upstream
  response : Option Response
  deriving DecidableEq, Repr

/-! ## Capture ring (10) -/

/-- R158: a capture entry. -/
structure Entry where
  kind   : Nat
  master : Nat
  addr   : Addr
  detail : Nat
  data   : Word
  time   : Word
  deriving DecidableEq, Repr

/-- R158: the ring, oldest entry first. -/
structure Ring where
  entries : List Entry
  dropped : Nat
  deriving DecidableEq, Repr

/-! ## The whole part -/

/-- The state of the block. A table that is not in force is the empty table (log 5); the door records stand all the
same, at their reset values. -/
structure State where
  part       : PartState
  resetKind  : ResetCause
  resetCause : ResetCause
  clock      : Nat
  timing     : Option Timing
  path       : PathState
  masters    : Vector MasterRec 8
  rules      : List (Option Rule)
  meters     : Vector Meter 8
  yard       : Yard
  command    : UnitState
  lines      : Lines
  mirror     : Mirror
  ring       : Ring
  loader     : Loader
  /-- the commands that wait, the next one first -/
  pending    : List Instr
  deriving DecidableEq, Repr

/-- A command that stops the part: the spec has none (every refusal is the response ERROR, every failure is a
state the part goes on in), so no fault exists. -/
inductive Fault
  deriving DecidableEq, Repr

/-- Refusals. -/
inductive Refusal
  /-- Raised by exec's arm of a command that has no meaning yet; no arm raises it any more. Safe: the model stops. -/
  | notModelled (mnemonic : String)
  deriving DecidableEq, Repr

/-! ## Reset (R166: every piece of state takes its reset value) -/

/-- R3: the input part of a record after reset. -/
def InputPart.blank : InputPart :=
  let off : Four Bool := { cl := false, ol := false, lo := false, lc := false }
  { lastSeq := none, reported := false, raw := off, debounced := off
    timers := { cl := none, ol := none, lo := none, lc := none }
    pw := false, ob := false, pressure := 0, freshness := none, stale := false, reports := 0 }

/-- R48: the protection part of a record after reset. -/
def Protection.blank : Protection :=
  { alert := none, mark := false, peak := none, tripTimer := none, settle := none, tripCount := 0
    baseline := 0, hot := false }

/-- R102: the alarm states of a record after reset. -/
def Seven.normal : Seven AlarmState :=
  { doorOpen := .normal, tripped := .normal, latched := .normal, stalled := .normal, stale := .normal
    conflict := .normal, drivePower := .normal }

/-- R1, R3, R4, R20, R48, R102: a door record after reset, with no static part in force. -/
def Door.blank : Door :=
  { static := none, inp := InputPart.blank, position := .unknown, drive := .resting, hold := false
    inhibit := .none, prot := Protection.blank, alarms := Seven.normal, powerSeen := false }

/-- No master table in force: every master ABSENT. DROP stands where the spec gives no behaviour (log 5). -/
def MasterRec.blank : MasterRec := { role := .absent, behaviour := .drop }

/-- R141: no meters in force. -/
def Meter.blank : Meter :=
  { rate := 0, burst := 0, tokens := 0, exceeded := false, start := 0, refills := 0 }

/-- R65: a group record after reset. -/
def Group.blank : Group := { slotCount := none, holders := [], queue := [] }

/-- R65: the yard after reset. How many records stand while no door count is in force is log 5. -/
def Yard.blank : Yard :=
  { doors := List.replicate Config.maxDoors Door.blank, groups := Vector.replicate 4 Group.blank }

/-- A bank that nothing has written (log 7). -/
def Contents.blank : Contents := { bytes := [], parity := [] }

/-- R145: a bank record after reset, over what the bank holds. -/
def Bank.blank (mem : Contents) : Bank := { state := .notFitted, count := 0, mem := mem }

/-- R145: the mirror unit after reset, over what the banks hold. -/
def Mirror.blank (memA memB : Contents) (free : Nat) : Mirror :=
  { bankA := Bank.blank memA, bankB := Bank.blank memB, readMap := 0, imageSize := 0, source := none,
    cursor := 0, imageLost := false, free := free }

/-- The access path after reset. -/
def PathState.blank : PathState :=
  { laneMode := false, windows := [], slots := Vector.replicate 8 none, upstream := .idle,
    response := none }

/-- The part as power-on puts it: reset begun, RESET not yet released (R166). -/
def State.reset : State :=
  { part := .inReset
    resetKind := .powerOn
    resetCause := .powerOn
    clock := 0
    timing := none
    path := PathState.blank
    masters := Vector.replicate 8 MasterRec.blank
    rules := []
    meters := Vector.replicate 8 Meter.blank
    yard := Yard.blank
    command := { mode := none, holder := none, transfer := none }
    lines := { ready := false, generalAlarm := .off, doorsNotClosed := false, partFault := false }
    mirror := Mirror.blank Contents.blank Contents.blank 0
    ring := { entries := [], dropped := 0 }
    loader := { reload := .idle, lastReloadFailed := false }
    pending := [] }

end Sys2Proof.Machine
end

