-- ==== Sys2Proof/Machine/Ops.lean ====
section
/-! DEFINITION. The named operations over the state that every block uses: lanes and bank contents, the capture ring,
the response, records and tables by number, timers, the clock. -/

namespace Sys2Proof.Machine

/-! ## Tables of fixed size -/

/-- A table with one record per master, meter or slot number. -/
def eight {α : Type} (f : Fin 8 → α) : Vector α 8 :=
  #v[f 0, f 1, f 2, f 3, f 4, f 5, f 6, f 7]

/-- A table with one record per power group. -/
def four {α : Type} (f : Fin 4 → α) : Vector α 4 := #v[f 0, f 1, f 2, f 3]

/-- The master numbers in order. -/
def masterNumbers : List Master := [0, 1, 2, 3, 4, 5, 6, 7]

/-- The group numbers in order. -/
def groupNumbers : List GroupNum := [0, 1, 2, 3]

/-- One record of a table replaced. -/
def setAt {α : Type} {n : Nat} (v : Vector α n) (i : Fin n) (x : α) : Vector α n :=
  v.set i.val x i.isLt

/-! ## Lanes (R116, R124) -/

/-- The bits that the lanes select. -/
def laneMask : Lanes → Word
  | .low => 0x00FF
  | .high => 0xFF00
  | .both => 0xFFFF

/-- A word on some lanes, zero in the other (R124, R151). -/
def onLanes (l : Lanes) (w : Word) : Word := w &&& laneMask l

/-- A byte in its lane position, the other byte zero (R123, R124). -/
def inLane (l : Lane) (b : Byte) : Word :=
  match l with
  | .low => b.setWidth 16
  | .high => b.setWidth 16 <<< 8

/-- The word that two halves make: the LOW-lane byte in bits 7-0, the HIGH-lane byte in bits 15-8 (R122). -/
def joinHalves (l : Lane) (b other : Byte) : Word :=
  match l with
  | .low => inLane .low b ||| inLane .high other
  | .high => inLane .low other ||| inLane .high b

/-- The byte that a word has in a lane. -/
def laneByte (l : Lane) (w : Word) : Byte :=
  match l with
  | .low => w.setWidth 8
  | .high => (w >>> 8).setWidth 8

/-- R147: the parity bit that the part generates for a byte: the exclusive-or of its bits (log 25). -/
def parityBit (b : Byte) : Bool := (List.range 8).foldl (fun p i => p ^^ b.getLsbD i) false

end Sys2Proof.Machine

namespace Sys2Proof

/-- The lanes of a single-lane access. -/
def Lane.lanes : Lane → Lanes
  | .low => .low
  | .high => .high

/-- The single lane of an access, if it has one. -/
def Lanes.single? : Lanes → Option Lane
  | .low => some .low
  | .high => some .high
  | .both => none

/-- The written data, zero in a lane that is not written (log 15). -/
def Access.written (a : Access) : Word :=
  match a.op with
  | .read => 0
  | .write w => Machine.onLanes a.lanes w

/-- Whether an access is a write (R116). -/
def Access.isWrite (a : Access) : Bool :=
  match a.op with
  | .read => false
  | .write _ => true

/-- What a bank returns on a read of a word it holds, some of whose bits may be flipped (log 9). -/
def BankWord.returned (held flipped : BankWord) : BankWord :=
  { data := held.data ^^^ flipped.data
    lowParity := held.lowParity ^^ flipped.lowParity
    highParity := held.highParity ^^ flipped.highParity }

/-- R147: one returned byte matches its parity. -/
def BankWord.laneGood (r : BankWord) : Lane → Bool
  | .low => Machine.parityBit (Machine.laneByte .low r.data) == r.lowParity
  | .high => Machine.parityBit (Machine.laneByte .high r.data) == r.highParity

/-- R147: every selected byte matches its parity; a byte outside the selected lanes is not checked. -/
def BankWord.good (r : BankWord) : Lanes → Bool
  | .low => r.laneGood .low
  | .high => r.laneGood .high
  | .both => r.laneGood .low && r.laneGood .high

end Sys2Proof

namespace Sys2Proof.Machine

/-! ## Bank contents (R147), in canonical form: addresses strictly rising, no cell listed that reads 0 unlisted -/

/-- What a cell that nothing has written reads as (log 7). -/
def Memory.unlisted : Byte := 0

/-- The cell at a lane address. -/
def Memory.read : Memory → Nat → Byte
  | [], _ => Memory.unlisted
  | (k, v) :: rest, a => if k = a then v else Memory.read rest a

/-- A list with one cell listed in front, unless it reads so unlisted. -/
def Memory.list (a : Nat) (b : Byte) (rest : Memory) : Memory :=
  if b = Memory.unlisted then rest else (a, b) :: rest

/-- One cell written. -/
def Memory.write : Memory → Nat → Byte → Memory
  | [], a, b => Memory.list a b []
  | (k, v) :: rest, a, b =>
    if a < k then Memory.list a b ((k, v) :: rest)
    else if a = k then Memory.list a b rest
    else (k, v) :: Memory.write rest a b

/-- The canonical form. -/
abbrev Memory.wf (m : Memory) : Prop :=
  m.Pairwise (fun x y => x.1 < y.1) ∧ ∀ c ∈ m, c.2 ≠ Memory.unlisted

/-- The canonical form of a bank's bytes and parity bits. -/
abbrev Contents.wf (m : Contents) : Prop :=
  m.bytes.wf ∧ m.parity.wf ∧ ∀ c ∈ m.parity, c.2 = 1

/-- What a bank holds at a lane address: the byte and its parity bit. -/
def Contents.read (m : Contents) (k : Nat) : Byte × Bool := (m.bytes.read k, (m.parity.read k).getLsbD 0)

/-- A byte stored with a parity bit. -/
def Contents.put (m : Contents) (k : Nat) (b : Byte) (p : Bool) : Contents :=
  { bytes := m.bytes.write k b, parity := m.parity.write k (if p then 1 else 0) }

/-- R147: a byte written: it is stored with the parity bit that the part generates for it. -/
def Contents.writeByte (m : Contents) (k : Nat) (b : Byte) : Contents := m.put k b (parityBit b)

/-- The lane address of a word's byte (log 7). -/
def laneAddr (a : Addr) : Lane → Nat
  | .low => 2 * a.toNat
  | .high => 2 * a.toNat + 1

/-- The word at an address, with its parity bits. -/
def Contents.readWord (m : Contents) (a : Addr) : BankWord :=
  let low := m.read (laneAddr a .low)
  let high := m.read (laneAddr a .high)
  { data := joinHalves .low low.1 high.1, lowParity := low.2, highParity := high.2 }

/-- The lanes of a word written: the selected lanes alone are stored (R147). -/
def Contents.writeLanes (m : Contents) (a : Addr) (l : Lanes) (w : Word) : Contents :=
  match l with
  | .low => m.writeByte (laneAddr a .low) (laneByte .low w)
  | .high => m.writeByte (laneAddr a .high) (laneByte .high w)
  | .both =>
    (m.writeByte (laneAddr a .low) (laneByte .low w)).writeByte (laneAddr a .high) (laneByte .high w)

/-- A word left unknown: two free bytes with free parity bits (R147, log 8). -/
def Contents.forget (m : Contents) (a : Addr) (free : Nat) : Contents :=
  (m.put (laneAddr a .low) (Config.freeByte free) (Config.freeParity free)).put (laneAddr a .high)
    (Config.freeByte (free + 1)) (Config.freeParity (free + 1))

/-! ## Captures (R158, R159) -/

/-- What a rule says of a capture it makes; the ring adds the time. -/
structure Capture where
  kind   : Nat
  master : Nat
  addr   : Addr
  detail : Nat
  data   : Word
  deriving DecidableEq, Repr

/-- R159: an entry at the tail, or dropped and counted where the ring is full. -/
def Ring.push (r : Ring) (e : Entry) : Ring :=
  if r.entries.length < Config.ringCapacity then { r with entries := r.entries ++ [e] }
  else { r with dropped := min (r.dropped + 1) Config.droppedMax }

/-- R162: the oldest entries removed, the dropped count zeroed. -/
def Ring.release (r : Ring) (n : Nat) : Ring := { entries := r.entries.drop n, dropped := 0 }

/-- The time stamp: tenths since entry to RUNNING, modulo 65,536 (00_scope, conventions). -/
def State.timeStamp (s : State) : Word := BitVec.ofNat 16 s.clock

/-- R158: the entry a capture makes now. -/
def State.entryOf (s : State) (c : Capture) : Entry :=
  { kind := c.kind, master := c.master, addr := c.addr, detail := c.detail, data := c.data,
    time := s.timeStamp }

/-- A capture appended. -/
def State.capture (s : State) (c : Capture) : State := { s with ring := s.ring.push (s.entryOf c) }

/-- Several captures of one take, in their order. -/
def State.captures (s : State) (cs : List Capture) : State := cs.foldl State.capture s

/-- A capture the part makes by itself, with no address (R160). -/
def Capture.ofPart (kind detail : Nat) (data : Word) : Capture :=
  { kind := kind, master := Config.partMaster, addr := 0, detail := detail, data := data }

/-- A capture that a master's access makes. -/
def Capture.ofMaster (kind : Nat) (m : Master) (addr : Addr) (detail : Nat) (data : Word) :
    Capture :=
  { kind := kind, master := m.val, addr := addr, detail := detail, data := data }

/-! ## Access path -/

/-- The response given: the port is idle again (R116). -/
def State.answer (s : State) (r : Response) : State :=
  { s with path := { s.path with upstream := .idle, response := some r } }

/-- The upstream port changed, with no response given. -/
def State.setUpstream (s : State) (u : Upstream) : State :=
  { s with path := { s.path with upstream := u, response := none } }

/-- One master's lane assembly slot replaced. -/
def State.setSlot (s : State) (m : Master) (slot : Option Slot) : State :=
  { s with path := { s.path with slots := setAt s.path.slots m slot } }

/-! ## Masters (R125) -/

/-- R125: a role's authorization. -/
def Role.authorized : Role → Bool
  | .absent => false
  | .station hb => hb.isSome
  | .scanner _ _ auth => auth
  | .service => true
  | .observer => true

/-- R84: a LIVE station. -/
def Role.live : Role → Bool
  | .station (some _) => true
  | _ => false

/-- A master of role STATION, LIVE or LAPSED. -/
def Role.isStation : Role → Bool
  | .station _ => true
  | _ => false

/-- A master of role SCANNER. -/
def Role.isScanner : Role → Bool
  | .scanner _ _ _ => true
  | _ => false

/-- A master of role SERVICE. -/
def Role.isService : Role → Bool
  | .service => true
  | _ => false

/-- A master's role in force. -/
def State.role (s : State) (m : Master) : Role := (s.masters.get m).role

/-- A master's role replaced, its behaviour kept. -/
def State.setRole (s : State) (m : Master) (r : Role) : State :=
  { s with masters := setAt s.masters m { s.masters.get m with role := r } }

/-! ## Timings, doors -/

/-- Timings where none are in force: every one zero (log 5). -/
def Timing.blank : Timing :=
  { debounce := 0, activeLimit := 0, idleLimit := 0, prewarn := 0, reclose := 0, retryDelay := 0,
    tripDelay := 0, retryLimit := 0, heartbeat := 0, transfer := 0, flashPeriod := 0, flashOn := 0 }

/-- The settings-wide timings in force. -/
def State.times (s : State) : Timing := s.timing.getD Timing.blank

/-- What stands for the static part of a record that has none in force: an INDICATED door that no master owns. No door
logic runs on such a record (R1, log 5). -/
def DoorStatic.blank : DoorStatic :=
  { cls := .indicated, zone := 0, scanner := 0, travelLimit := 0, initialBaseline := 0, margin := 0 }

/-- R1: a record's static part. -/
def Door.st (x : Door) : DoorStatic := x.static.getD DoorStatic.blank

/-- R1: the door's owning scanner. -/
def Door.owner (x : Door) : Option Master := x.static.map (·.scanner)

/-- A door record. -/
def State.door? (s : State) (d : Nat) : Option Door := s.yard.doors[d]?

/-- R1: the number of door records: the door count, where settings are in force. -/
def State.doorCount (s : State) : Nat := s.yard.doors.length

/-- One door record changed. -/
def Yard.modify (y : Yard) (d : Nat) (f : Door → Door) : Yard :=
  { y with doors := y.doors.modify d f }

/-- One group record changed. -/
def Yard.modifyGroup (y : Yard) (g : GroupNum) (f : Group → Group) : Yard :=
  { y with groups := setAt y.groups g (f (y.groups.get g)) }

/-- The yard replaced. -/
def State.setYard (s : State) (y : Yard) : State := { s with yard := y }

/-- What the door table reads from the other blocks: the clock, the timings, the vessel mode, the masters. -/
structure Env where
  clock   : Nat
  times   : Timing
  mode    : Option VesselMode
  masters : Vector MasterRec 8
  deriving DecidableEq, Repr

/-- The door table's surroundings as they stand. -/
def State.env (s : State) : Env :=
  { clock := s.clock, times := s.times, mode := s.command.mode, masters := s.masters }

/-- R17: whether a door's owning scanner is authorized. -/
def Env.authorized (e : Env) (x : Door) : Bool :=
  match x.owner with
  | some m => (e.masters.get m).role.authorized
  | none => false

/-- R79: the vessel mode is DOORS_CLOSED. -/
def Env.doorsClosed (e : Env) : Bool := e.mode == some .doorsClosed

/-! ## Bits -/

/-- A flag as a one-bit field at a bit position. -/
def bitAt (b : Bool) (n : Nat) : Word := if b then (1 : Word) <<< n else 0

/-- A number as a field whose lowest bit stands at a bit position. -/
def fieldAt (v : Nat) (n : Nat) : Word := BitVec.ofNat 16 v <<< n

end Sys2Proof.Machine
end

