-- ==== Sys2Proof/Machine/Operands.lean ====
section
/-! DEFINITION. The operands of an access: the fields of every word the part takes (12_word_formats), the window an
address falls in (R120), and the bank a read is mapped to (R150). -/

namespace Sys2Proof.Machine

/-- The number that `len` bits of a word form, from bit `lo` up (12_word_formats). -/
def field (w : Word) (lo len : Nat) : Nat := (w.extractLsb' lo len).toNat

/-! ## Station command word (R32, 12.1) -/

/-- REQUEST, bits 2-0. -/
def requestOf (w : Word) : Nat := field w 0 3

/-- CHECK, bits 14-8. -/
def checkOf (w : Word) : Nat := field w 8 7

/-- The reserved bits 7-3 and 15 are clear. -/
def reservedClear (w : Word) : Bool := w &&& 0x80F8 == 0

/-- R32: the word is judged as a whole. -/
def stationWordOk (w : Word) (door : Nat) : Bool :=
  checkOf w == door && reservedClear w && requestOf w < 6

/-- A word whose bits 2-0 are a request or a kind and whose bits 15-3 are given. -/
def lowField (rest : BitVec 13) (n : BitVec 3) : Word := rest ++ n

/-! ## Sensor word (12.1) -/

/-- A sensor report's fields. -/
structure Report where
  inputs   : Four Bool
  pw       : Bool
  ob       : Bool
  seq      : BitVec 2
  pressure : Nat
  deriving DecidableEq, Repr

/-- The fields of a sensor word. -/
def reportOf (w : Word) : Report :=
  { inputs := { cl := w.getLsbD 0, ol := w.getLsbD 1, lo := w.getLsbD 2, lc := w.getLsbD 3 }
    pw := w.getLsbD 4
    ob := w.getLsbD 5
    seq := w.extractLsb' 6 2
    pressure := field w 8 8 }

/-! ## Order words (12.1, R172) -/

/-- MODE: 1 LOCAL_CONTROL, 2 DOORS_CLOSED, nothing else (R81). -/
def modeOf (w : Word) : Option VesselMode :=
  if w = 1 then some .localControl else if w = 2 then some .doorsClosed else none

/-- R79: the number a mode is served and captured with. -/
def modeCode : VesselMode → Nat
  | .localControl => 1
  | .doorsClosed => 2

/-- The door selection of DOOR_CLEAR and ALARM_ACK. -/
inductive DoorSelect | one (door : Nat) | all
  deriving DecidableEq, Repr

/-- DOOR_CLEAR and ALARM_ACK: bits 14-7 clear; with bit 15 set all doors, otherwise the door of bits 6-0, below the
door count (R59, R107). -/
def doorSelectOf (w : Word) (doorCount : Nat) : Option DoorSelect :=
  if w &&& 0x7F80 ≠ 0 then none
  else if w.getLsbD 15 then some .all
  else if field w 0 7 < doorCount then some (.one (field w 0 7))
  else none

/-- CAPTURE_RELEASE: bits 15-7 clear, a count of 1 to 64 (R162). -/
def releaseCountOf (w : Word) : Option Nat :=
  if w &&& 0xFF80 ≠ 0 then none
  else if 1 ≤ field w 0 7 ∧ field w 0 7 ≤ 64 then some (field w 0 7)
  else none

/-- RELOAD and RESYNC: bit 0 set, bits 15-1 clear (R153, R168). -/
def confirmOf (w : Word) : Bool := w == 1

/-- R91: the kinds of TRANSFER. -/
inductive TransferKind | request | accept | decline | cancel | relinquish
  deriving DecidableEq, Repr

/-- TRANSFER: a kind of 1 to 5 in bits 2-0, bits 15-3 clear (R91). -/
def transferKindOf (w : Word) : Option TransferKind :=
  if w = 1 then some .request
  else if w = 2 then some .accept
  else if w = 3 then some .decline
  else if w = 4 then some .cancel
  else if w = 5 then some .relinquish
  else none

/-- ATTACH: bits 15-14 clear (R98); the first door of bits 6-0 and the count of bits 13-7. -/
def attachOf (w : Word) : Option (Nat × Nat) :=
  if w &&& 0xC000 ≠ 0 then none else some (field w 0 7, field w 7 7)

/-- Bit n of a zone mask (R62, R83). -/
def zoneSelected (mask : Word) (zone : Fin 16) : Bool := mask.getLsbD zone.val

/-! ## Windows (R120) -/

/-- What window lookup finds: the window's index if an enabled window contains the address, the kind, and the offset. -/
structure Found where
  window : Option Nat
  kind   : WindowKind
  offset : Nat
  deriving DecidableEq, Repr

/-- R120: a window contains an address at or above its base and below its base plus its length. -/
def Window.contains (w : Window) (a : Addr) : Bool :=
  w.base.toNat ≤ a.toNat && a.toNat < w.base.toNat + w.length

/-- The lowest-indexed enabled window that contains the address; PLAIN, with no index, where none does. -/
def findWindow (a : Addr) : List (Option Window) → Nat → Found
  | [], _ => { window := none, kind := .plain, offset := a.toNat }
  | none :: rest, i => findWindow a rest (i + 1)
  | some w :: rest, i =>
    if w.contains a then { window := some i, kind := w.kind, offset := a.toNat - w.base.toNat }
    else findWindow a rest (i + 1)

/-- R120: window lookup. -/
def State.lookup (s : State) (a : Addr) : Found := findWindow a s.path.windows 0

/-- R122: the kinds whose single-lane writes are assembled. -/
def WindowKind.assembled : WindowKind → Bool
  | .command _ => true
  | .sensor _ => true
  | .order => true
  | .plain => false
  | .indication _ => false
  | .capture => false
  | .status => false

/-! ## Read distribution (R150) -/

/-- The hash of an address: its four 4-bit groups and its 2-bit group combined by exclusive-or. -/
def readIndex (a : Addr) : BitVec 4 :=
  a.extractLsb' 0 4 ^^^ a.extractLsb' 4 4 ^^^ a.extractLsb' 8 4 ^^^ a.extractLsb' 12 4 ^^^
    (a.extractLsb' 16 2).setWidth 4

/-- The bank the read map names for an address. -/
def mappedBank (readMap : Word) (a : Addr) : BankId :=
  if readMap.getLsbD (readIndex a).toNat then .bankB else .bankA

end Sys2Proof.Machine
end

