-- ==== Sys2Proof/Machine/Flags.lean ====
section
/-! DEFINITION. The flags computed from the state: door positions (R4), the attributes of a drive state, the alarm
conditions and states (R102 to R106), the alarm lines (R110 to R113). -/

namespace Sys2Proof.Machine

/-! ## Drive state attributes (R13, R20, R66, R67) -/

/-- R20: the direction, present in QUEUED, WARNING and MOVING. -/
def Drive.direction : Drive → Option Direction
  | .queued dir _ => some dir
  | .warning _ _ => some .toClose
  | .moving dir _ _ => some dir
  | .resting => none
  | .recloseWait _ => none
  | .tripped _ => none
  | .isolated => none

/-- R20: the origin, present with the direction. -/
def Drive.origin : Drive → Option Origin
  | .queued _ o => some o
  | .warning o _ => some o
  | .moving _ o _ => some o
  | .resting => none
  | .recloseWait _ => none
  | .tripped _ => none
  | .isolated => none

/-- R13: QUEUED, WARNING or MOVING: the states of the active freshness limit. -/
def Drive.bound : Drive → Bool
  | .queued _ _ => true
  | .warning _ _ => true
  | .moving _ _ _ => true
  | .resting => false
  | .recloseWait _ => false
  | .tripped _ => false
  | .isolated => false

/-- R66: WARNING or MOVING: the states that hold a motion slot. -/
def Drive.hasSlot : Drive → Bool
  | .warning _ _ => true
  | .moving _ _ _ => true
  | _ => false

/-- R67: QUEUED: the state that has a queue entry. -/
def Drive.isQueued : Drive → Bool
  | .queued _ _ => true
  | _ => false

/-- R49: MOVING with direction CLOSE: the state of a closing run. -/
def Drive.closingRun : Drive → Bool
  | .moving .toClose _ _ => true
  | _ => false

/-- R20: ISOLATED. -/
def Drive.isIsolated : Drive → Bool
  | .isolated => true
  | _ => false

/-- R67: the queue class: closes of any origin, then opens of origin LOCAL, then opens of origin STATION. -/
def Drive.queueClass : Drive → Nat
  | .queued .toClose _ => 1
  | .queued .toOpen .localReq => 2
  | _ => 3

/-- R114: the code a drive state is served with. -/
def Drive.code : Drive → Nat
  | .resting => 0
  | .queued _ _ => 1
  | .warning _ _ => 2
  | .moving _ _ _ => 3
  | .recloseWait _ => 4
  | .tripped _ => 5
  | .isolated => 6

/-- R20: origins other than LOCAL are remote. -/
def Origin.remote : Origin → Bool
  | .localReq => false
  | _ => true

/-- R20: a direction's target position. -/
def Direction.target : Direction → Position
  | .toClose => .closed
  | .toOpen => .opened

/-- R2: a POWERED door. -/
def Door.powered (d : Door) : Bool :=
  match d.st.cls with
  | .powered _ => true
  | .indicated => false

/-! ## Position (R4) -/

/-- R4: the position, from the input part and the owning scanner's authorization. -/
def derivePosition (authorized : Bool) (i : InputPart) : Position :=
  if i.stale || !i.reported || !authorized then .unknown
  else
    match i.debounced.cl, i.debounced.ol with
    | true, false => .closed
    | false, true => .opened
    | false, false => .between
    | true, true => .conflict

/-- The position R4 gives a door as the records stand. -/
def Env.positionOf (e : Env) (d : Door) : Position :=
  derivePosition (e.authorized d) d.inp

/-- OPEN or BETWEEN (R41, R103). -/
def Position.standsOpen : Position → Bool
  | .opened => true
  | .between => true
  | _ => false

/-- R114: the code a position is served with. -/
def Position.code : Position → Nat
  | .unknown => 0
  | .closed => 1
  | .opened => 2
  | .between => 3
  | .conflict => 4

/-! ## Alarm conditions (R103) -/

/-- A function on each of the seven kinds. -/
def Seven.map {α β : Type} (f : α → β) (v : Seven α) : Seven β :=
  { doorOpen := f v.doorOpen, tripped := f v.tripped, latched := f v.latched, stalled := f v.stalled,
    stale := f v.stale, conflict := f v.conflict, drivePower := f v.drivePower }

/-- A function on two values of each of the seven kinds. -/
def Seven.zip {α β γ : Type} (f : α → β → γ) (v : Seven α) (w : Seven β) : Seven γ :=
  { doorOpen := f v.doorOpen w.doorOpen, tripped := f v.tripped w.tripped,
    latched := f v.latched w.latched, stalled := f v.stalled w.stalled, stale := f v.stale w.stale,
    conflict := f v.conflict w.conflict, drivePower := f v.drivePower w.drivePower }

/-- The seven values in the order of R115. -/
def Seven.list {α : Type} (v : Seven α) : List α :=
  [v.doorOpen, v.tripped, v.latched, v.stalled, v.stale, v.conflict, v.drivePower]

/-- R103: DOOR_OPEN is excused while the door is held, waits to reclose or is bound to close. -/
def Door.openExcused (d : Door) : Bool :=
  d.hold || (match d.drive with | .recloseWait _ => true | _ => false) ||
    d.drive.direction == some .toClose

/-- R103: the conditions of the seven kinds. -/
def conditions (doorsClosed : Bool) (d : Door) : Seven Bool :=
  { doorOpen :=
      doorsClosed && !d.drive.isIsolated && d.position.standsOpen && !(d.powered && d.openExcused)
    tripped := (match d.drive with | .tripped _ => true | _ => false)
    latched := d.inhibit == .latched
    stalled := d.inhibit == .stalled
    stale := d.inp.stale
    conflict := d.position == .conflict
    drivePower := d.powered && !d.drive.isIsolated && d.powerSeen && !d.inp.pw }

/-! ## Alarm states (R105, R106) -/

/-- R104, R105: a condition's value taken against the state. -/
def AlarmState.evaluate (holds : Bool) : AlarmState → AlarmState
  | .normal => if holds then .activeUnack else .normal
  | .activeUnack => if holds then .activeUnack else .clearedUnack
  | .activeAck => if holds then .activeAck else .normal
  | .clearedUnack => if holds then .activeUnack else .clearedUnack

/-- R106. -/
def AlarmState.acknowledge : AlarmState → AlarmState
  | .normal => .normal
  | .activeUnack => .activeAck
  | .activeAck => .activeAck
  | .clearedUnack => .normal

/-- R110: ACTIVE_UNACK or CLEARED_UNACK. -/
def AlarmState.unack : AlarmState → Bool
  | .activeUnack => true
  | .clearedUnack => true
  | _ => false

/-- R114: ACTIVE_UNACK or ACTIVE_ACK. -/
def AlarmState.active : AlarmState → Bool
  | .activeUnack => true
  | .activeAck => true
  | _ => false

/-- R115: the code an alarm state is served with. -/
def AlarmState.code : AlarmState → Nat
  | .normal => 0
  | .activeUnack => 1
  | .activeAck => 2
  | .clearedUnack => 3

/-- Whether some alarm state of a door is unacknowledged (R114). -/
def Door.anyUnack (d : Door) : Bool := d.alarms.list.any AlarmState.unack

/-- Whether some alarm state of a door is active (R114). -/
def Door.anyActive (d : Door) : Bool := d.alarms.list.any AlarmState.active

/-- R104: all conditions of one door evaluated. -/
def Door.evaluate (doorsClosed : Bool) (d : Door) : Door :=
  { d with alarms := d.alarms.zip (fun a c => AlarmState.evaluate c a) (conditions doorsClosed d) }

/-- R104: what the alarm conditions of a door depend on. -/
structure AlarmInputs where
  position  : Position
  drive     : Nat
  direction : Option Direction
  hold      : Bool
  inhibit   : Inhibit
  stale     : Bool
  pw        : Bool
  powerSeen : Bool
  deriving DecidableEq, Repr

/-- R104: a door's alarm inputs as they stand. -/
def Door.alarmInputs (d : Door) : AlarmInputs :=
  { position := d.position, drive := d.drive.code, direction := d.drive.direction, hold := d.hold,
    inhibit := d.inhibit, stale := d.inp.stale, pw := d.inp.pw, powerSeen := d.powerSeen }

/-- R104: each door whose alarm inputs differ from those it had before the take is evaluated. -/
def evaluateChanged (doorsClosed : Bool) : List Door → List Door → List Door
  | b :: before, d :: doors =>
    (if b.alarmInputs = d.alarmInputs then d else d.evaluate doorsClosed) ::
      evaluateChanged doorsClosed before doors
  | _, doors => doors.map (Door.evaluate doorsClosed)

/-! ## Alarm lines -/

/-- R110, R111: the GENERAL_ALARM line judged again: it enters FLASHING in its on phase, and stays in its phase while
it stays FLASHING. -/
def judgeGeneralAlarm (clock flashOn : Nat) (doors : List Door) (now : GeneralAlarm) :
    GeneralAlarm :=
  if doors.any Door.anyUnack then
    match now with
    | .flashing p e => .flashing p e
    | .off => .flashing true (clock + flashOn)
    | .steady => .flashing true (clock + flashOn)
  else if doors.any Door.anyActive then .steady
  else .off

/-- R112: some door that is not ISOLATED has a position other than CLOSED, in DOORS_CLOSED. -/
def judgeDoorsNotClosed (doorsClosed : Bool) (doors : List Door) : Bool :=
  doorsClosed && doors.any (fun d => !d.drive.isIsolated && d.position != .closed)

/-- R113: the part is TRANSPARENT, a bank is FAILED, or the image is lost. -/
def judgePartFault (part : PartState) (m : Mirror) : Bool :=
  part == .transparent || m.bankA.state == .failed || m.bankB.state == .failed || m.imageLost

/-- R110: whether the GENERAL_ALARM output is on. -/
def GeneralAlarm.output : GeneralAlarm → Bool
  | .off => false
  | .steady => true
  | .flashing onPhase _ => onPhase

/-- R110, R112: the two door lines judged at the end of a take. -/
def State.judgeDoorLines (s : State) : State :=
  { s with lines :=
    { s.lines with
      generalAlarm :=
        judgeGeneralAlarm s.clock s.times.flashOn s.yard.doors s.lines.generalAlarm
      doorsNotClosed := judgeDoorsNotClosed s.env.doorsClosed s.yard.doors } }

/-- R113: the PART_FAULT line judged again. -/
def State.judgeFault (s : State) : State :=
  { s with lines := { s.lines with partFault := judgePartFault s.part s.mirror } }

/-- R104: the end of a take of door events, `before` being the yard as the take found it. -/
def State.endTake (before : Yard) (s : State) : State :=
  State.judgeDoorLines
    { s with yard :=
      { s.yard with doors := evaluateChanged s.env.doorsClosed before.doors s.yard.doors } }

/-- R82, R109: the end of a take after which every door is evaluated. -/
def State.endTakeAll (s : State) : State := State.endTake { s.yard with doors := [] } s

end Sys2Proof.Machine
end

