-- ==== Sys2Proof/Machine/Protection.lean ====
section
/-! DEFINITION. Closing protection (03): the begin and end of a closing run, baseline learning, the alert evaluation. -/

namespace Sys2Proof.Machine

/-- R49: at the beginning of a run the alert is clear, the mark is clear, the peak and the trip timer are absent. -/
def Protection.beginRun (p : Protection) : Protection :=
  { p with alert := none, mark := false, peak := none, tripTimer := none }

/-- R61: a quarter of the way toward the peak, the quotient rounded toward zero. -/
def learnedBaseline (baseline peak : Nat) : Nat :=
  ((baseline : Int) + ((peak : Int) - (baseline : Int)).tdiv 4).toNat

/-- R61: a clean close is learned from; a run that was alerted or that evaluated no report teaches nothing. -/
def Protection.learn (p : Protection) : Protection :=
  match p.mark, p.peak with
  | false, some peak =>
    if p.hot then { p with baseline := learnedBaseline p.baseline peak }
    else { p with baseline := peak, hot := true }
  | _, _ => p

/-- R52, R58: the end of a run; one that ends with completion is learned from and starts the settle timer. -/
def Protection.endRun (completed : Bool) (clock : Nat) (p : Protection) : Protection :=
  (if completed then { p.learn with settle := some (clock + Config.settleTime) } else p).beginRun

/-- R58: the settle timer cancelled. -/
def Protection.cancelSettle (p : Protection) : Protection := { p with settle := none }

/-- R50: the pressure test: HOT, and PRESSURE above the baseline plus the margin where that is below 255. -/
def pressureTest (p : Protection) (margin pressure : Nat) : Bool :=
  p.hot && p.baseline + margin < 255 && p.baseline + margin < pressure

/-- R50: the alert cause that an evaluation finds, none where the alert condition does not hold. -/
def causeOf (obstruction pressure : Bool) : Option Cause :=
  match obstruction, pressure with
  | true, true => some .both
  | true, false => some .obstruction
  | false, true => some .pressure
  | false, false => none

/-- R50: the peak pressure takes a higher PRESSURE. -/
def raisePeak (peak : Option Nat) (pressure : Nat) : Nat :=
  match peak with
  | none => pressure
  | some p => max p pressure

/-- R51: an evaluation's result taken against the alert flag; `tripAt` is the moment a trip timer started now expires. -/
def Protection.takeResult (p : Protection) (result : Option Cause) (tripAt : Nat) : Protection :=
  match p.alert, result with
  | none, some c => { p with alert := some c, mark := true, tripTimer := some tripAt }
  | none, none => p
  | some _, some c => { p with alert := some c }
  | some _, none => { p with alert := none, tripTimer := none }

/-- R50, R51: one fresh report evaluated on a closing door. -/
def Protection.evaluate (p : Protection) (margin : Nat) (ob : Bool) (pressure tripAt : Nat) :
    Protection :=
  { p with peak := some (raisePeak p.peak pressure) }.takeResult
    (causeOf ob (pressureTest p margin pressure)) tripAt

/-- R62: a BASELINE order's effect on a door. -/
def Door.resetBaseline (d : Door) : Door :=
  { d with prot := { d.prot with baseline := d.st.initialBaseline, hot := false } }

/-- R54: the detail of a DOOR_TRIPPED capture (log 20). -/
def causeCode : Option Cause → Nat
  | none => 0
  | some .obstruction => 1
  | some .pressure => 2
  | some .both => 3

end Sys2Proof.Machine
end

