-- ==== Sys2Proof/Machine/Drive.lean ====
section
/-! DEFINITION. The drive machine and the power group arbiter (02, 04): the change of a drive state and what it hands on
(R22), staleness (R14), the enforcement check, motion requests, position changes, local requests, grants. -/

namespace Sys2Proof.Machine

/-! ## The arbiter (R66 to R71, R75) -/

/-- R67: the class of a queued door. -/
def Yard.classOf (y : Yard) (d : Nat) : Nat :=
  match y.doors[d]? with
  | some x => x.drive.queueClass
  | none => 3

/-- R68: an entry placed at the tail of its class. -/
def Yard.enqueue (y : Yard) (cls d : Nat) (queue : List Nat) : List Nat :=
  queue.takeWhile (fun e => y.classOf e ≤ cls) ++ d :: queue.dropWhile (fun e => y.classOf e ≤ cls)

/-- R66, R75: the slot holder set: a door is in it while its drive state holds a slot. -/
def updateHolders (d : Nat) (new : Drive) (holders : List Nat) : List Nat :=
  if new.hasSlot then (if holders.contains d then holders else holders ++ [d])
  else holders.filter (· != d)

/-- R68, R70, R71: the wait queue: a door has an entry while it is QUEUED; an entry moves to the tail of its class
when it joins and when its class changes. -/
def Yard.updateQueue (y : Yard) (d : Nat) (old new : Drive) (queue : List Nat) : List Nat :=
  if new.isQueued then
    if old.isQueued && old.queueClass == new.queueClass then queue
    else y.enqueue new.queueClass d (queue.filter (· != d))
  else queue.filter (· != d)

/-- R22 step 1: what the arbiter takes of a door's change from `old` to `new`; the door has its new state. -/
def Yard.arbiterTake (y : Yard) (d : Nat) (x : Door) (old new : Drive) : Yard :=
  match x.st.cls with
  | .indicated => y
  | .powered g =>
    y.modifyGroup g fun r =>
      { r with holders := updateHolders d new r.holders, queue := y.updateQueue d old new r.queue }

/-! ## A change of drive state (R22) -/

/-- R22 step 3: the closing run that the change begins or ends. -/
def Yard.runTake (y : Yard) (e : Env) (d : Nat) (old new : Drive) (completed : Bool) : Yard :=
  if old.closingRun && !new.closingRun then
    y.modify d fun x => { x with prot := x.prot.endRun completed e.clock }
  else if !old.closingRun && new.closingRun then
    y.modify d fun x => { x with prot := x.prot.beginRun }
  else y

/-- R22 steps 1 and 3 of a door whose freshness timer is not judged (it is stopped: R14, log 13). -/
def Yard.changeStopped (y : Yard) (e : Env) (d : Nat) (new : Drive) : Yard :=
  match y.doors[d]? with
  | none => y
  | some x =>
    ((y.modify d fun z => { z with drive := new }).arbiterTake d x x.drive new).runTake e d
      x.drive new false

/-- R39: what an LO fall does to the drive state; none where it does nothing. -/
def loFallDrive (e : Env) (x : Door) : Option Drive :=
  if !x.powered then none
  else
    match x.drive with
    | .queued .toOpen _ => some .resting
    | .moving .toOpen _ _ =>
      some (if e.doorsClosed then .recloseWait (e.clock + e.times.reclose) else .resting)
    | .resting =>
      if e.doorsClosed && x.hold then some (.recloseWait (e.clock + e.times.reclose)) else none
    | _ => none

/-- R14 step 3, R18: raw and debounced LO clear, every debounce timer cancelled. -/
def InputPart.loseSight (i : InputPart) : InputPart :=
  { i with
    raw := { i.raw with lo := false }
    debounced := { i.debounced with lo := false }
    timers := { cl := none, ol := none, lo := none, lc := none } }

/-- R14, R5: position UNKNOWN, with the settle timer cancelled where the door stood CLOSED (R58). No completion and no
enforcement check can follow from UNKNOWN (R30, R41). -/
def Door.positionLost (x : Door) : Door :=
  { x with
    position := .unknown
    prot := if x.position = .closed then x.prot.cancelSettle else x.prot }

/-- R14: the door becomes stale; an LO that was set falls. A door already stale is unchanged. -/
def Yard.goStale (y : Yard) (e : Env) (d : Nat) : Yard :=
  match y.doors[d]? with
  | none => y
  | some x =>
    if x.inp.stale then y
    else
      let y1 := y.modify d fun z =>
        { z with inp := { z.inp.loseSight with stale := true, freshness := none } }.positionLost
      if x.inp.debounced.lo then
        let y2 := y1.modify d fun z => { z with hold := false }
        match loFallDrive e x with
        | some new => y2.changeStopped e d new
        | none => y2
      else y1

/-- R13: the freshness limit of a drive state. -/
def Env.freshnessLimit (e : Env) (drive : Drive) : Nat :=
  if drive.bound then e.times.activeLimit else e.times.idleLimit

/-- R13: a running freshness timer judged against its limit: it expires at once where the elapsed time meets it. -/
def Yard.judgeFreshness (y : Yard) (e : Env) (d : Nat) : Yard :=
  match y.doors[d]? with
  | none => y
  | some x =>
    match x.inp.freshness with
    | none => y
    | some start =>
      if start + e.freshnessLimit x.drive ≤ e.clock then y.goStale e d else y

/-- R22: a change of a door's drive state, handed on in order: the arbiter, the freshness limit, the closing run.
`completed` says whether a run that this change ends ends with completion (R52). -/
def Yard.changeDrive (y : Yard) (e : Env) (d : Nat) (new : Drive) (completed : Bool) : Yard :=
  match y.doors[d]? with
  | none => y
  | some x =>
    let y1 := (y.modify d fun z => { z with drive := new }).arbiterTake d x x.drive new
    let y2 := if x.drive.bound = new.bound then y1 else y1.judgeFreshness e d
    y2.runTake e d x.drive new completed

/-! ## Enforcement (R41) -/

/-- R41: the conditions of the enforcement check. -/
def Door.enforceable (e : Env) (x : Door) : Bool :=
  e.doorsClosed && x.powered && x.inhibit == .none && x.drive == .resting && !x.hold &&
    x.position.standsOpen

/-- R41: the enforcement check of one door: a close of origin MODE, which queues the RESTING door (R23). -/
def Yard.enforce (y : Yard) (e : Env) (d : Nat) : Yard :=
  match y.doors[d]? with
  | none => y
  | some x =>
    if x.enforceable e then y.changeDrive e d (.queued .toClose .mode) false else y

/-- The enforcement check of every door, in door-number order (R42, R170). -/
def Yard.enforceAll (y : Yard) (e : Env) : Yard :=
  (List.range y.doors.length).foldl (fun z d => z.enforce e d) y

/-- A door brought to RESTING, which it enters (R20): the enforcement check runs. -/
def Yard.rest (y : Yard) (e : Env) (d : Nat) (completed : Bool) : Yard :=
  (y.changeDrive e d .resting completed).enforce e d

/-! ## Motion requests (R23 to R27) -/

/-- R25: the origin that a request in the door's direction leaves. -/
def updatedOrigin (old request : Origin) : Origin :=
  if old.remote then request else .localReq

/-- R26, R28: where a door that holds a slot goes: WARNING for a remote close with prewarn, otherwise MOVING. -/
def startDrive (e : Env) (x : Door) (dir : Direction) (origin : Origin) : Drive :=
  if dir = .toClose ∧ origin.remote ∧ 0 < e.times.prewarn then
    .warning origin (e.clock + e.times.prewarn)
  else .moving dir origin (e.clock + x.st.travelLimit)

/-- R23, R25 to R27: the drive state that a motion request not yet satisfied gives; none for ISOLATED, which no
request reaches. -/
def requestedDrive (e : Env) (x : Door) (dir : Direction) (origin : Origin) : Option Drive :=
  match x.drive with
  | .resting => some (.queued dir origin)
  | .queued d o => some (.queued dir (if d = dir then updatedOrigin o origin else origin))
  | .warning o p =>
    if dir = .toClose then
      if origin = .localReq then some (.moving .toClose .localReq (e.clock + x.st.travelLimit))
      else some (.warning (updatedOrigin o origin) p)
    else some (startDrive e x dir origin)
  | .moving d o t =>
    if d = dir then some (.moving d (updatedOrigin o origin) t)
    else some (startDrive e x dir origin)
  | .recloseWait _ => some (.queued dir origin)
  | .tripped _ => some (.queued dir origin)
  | .isolated => none

/-- R23, R24: a motion request that has passed its source's gates. One whose target is the door's position is
satisfied: the door rests. -/
def Yard.motionRequest (y : Yard) (e : Env) (d : Nat) (dir : Direction) (origin : Origin) : Yard :=
  match y.doors[d]? with
  | none => y
  | some x =>
    if x.position = dir.target then
      match x.drive with
      | .resting => y
      | .isolated => y
      | _ => y.rest e d false
    else
      match requestedDrive e x dir origin with
      | some new => y.changeDrive e d new false
      | none => y

/-! ## Position changes (R5, R30) -/

/-- R30: whether a door bound somewhere has reached its target. -/
def Drive.reached (drive : Drive) (p : Position) : Bool :=
  match drive.direction with
  | some dir => p == dir.target
  | none => false

/-- R5, R30: a change of position handed on: completion, the enforcement check, the settle timer. -/
def Yard.positionChange (y : Yard) (e : Env) (d : Nat) (old new : Position) : Yard :=
  match y.doors[d]? with
  | none => y
  | some x =>
    let y1 := if x.drive.reached new then y.changeDrive e d .resting true else y
    let y2 := y1.enforce e d
    if old = .closed then y2.modify d fun z => { z with prot := z.prot.cancelSettle } else y2

/-- R4: the position derived afresh, and a change handed on. -/
def Yard.rederive (y : Yard) (e : Env) (d : Nat) : Yard :=
  match y.doors[d]? with
  | none => y
  | some x =>
    let p := e.positionOf x
    if p = x.position then y
    else (y.modify d fun z => { z with position := p }).positionChange e d x.position p

/-! ## Local requests (R37 to R39) -/

/-- R37, R38: the doors on which a local rise acts. -/
def Door.takesLocal (x : Door) : Bool := x.powered && !x.drive.isIsolated

/-- R37: an LO rise: in DOORS_CLOSED the hold flag is set first; then an open of origin LOCAL. -/
def Yard.loRise (y : Yard) (e : Env) (d : Nat) : Yard :=
  match y.doors[d]? with
  | none => y
  | some x =>
    if x.takesLocal then
      (if e.doorsClosed then y.modify d fun z => { z with hold := true } else y).motionRequest e d
        .toOpen .localReq
    else y

/-- R38: an LC rise: ignored while debounced LO is set, otherwise a close of origin LOCAL. -/
def Yard.lcRise (y : Yard) (e : Env) (d : Nat) : Yard :=
  match y.doors[d]? with
  | none => y
  | some x =>
    if x.takesLocal && !x.inp.debounced.lo then y.motionRequest e d .toClose .localReq else y

/-- R39: an LO fall: the hold flag is cleared; a local or queued opening stops, a held door waits to reclose. -/
def Yard.loFall (y : Yard) (e : Env) (d : Nat) : Yard :=
  match y.doors[d]? with
  | none => y
  | some x =>
    let y1 := y.modify d fun z => { z with hold := false }
    match loFallDrive e x with
    | some .resting => y1.rest e d false
    | some new => y1.changeDrive e d new false
    | none => y1

/-! ## Grants (R72, R73) -/

/-- R72: a slot is free and a door waits. -/
def Group.grantDue (g : Group) : Bool :=
  g.holders.length < g.slotCount.getD 0 && !g.queue.isEmpty

/-- R28: the head of the queue granted: it goes to WARNING or MOVING. -/
def Yard.grantHead (y : Yard) (e : Env) (d : Nat) : Yard :=
  match y.doors[d]? with
  | none => y
  | some x =>
    match x.drive with
    | .queued dir origin => y.changeDrive e d (startDrive e x dir origin) false
    | _ => y

/-- R73: grants at one group until every slot is held or the queue is empty; `fuel` bounds them by the queue. -/
def Yard.grants (y : Yard) (e : Env) (g : GroupNum) : Nat → Yard
  | 0 => y
  | fuel + 1 =>
    if (y.groups.get g).grantDue then
      match (y.groups.get g).queue with
      | d :: _ => (y.grantHead e d).grants e g fuel
      | [] => y
    else y

/-- R73: the arbiter's step at a group. -/
def Yard.grantGroup (y : Yard) (e : Env) (g : GroupNum) : Yard :=
  y.grants e g (y.groups.get g).queue.length

/-- R82 step 5: the due grants of every group, those due before the take included (log 28). -/
def Yard.grantAll (y : Yard) (e : Env) : Yard :=
  groupNumbers.foldl (fun z g => z.grantGroup e g) y

end Sys2Proof.Machine
end

