-- ==== Sys2Proof/Machine/Doors.lean ====
section
/-! DEFINITION. What happens to the doors: the sensor take (R6 to R15), trips (R53), the door timers' expiries, station
requests (R32 to R36), mode changes (R42, R43), zone closing (R44), DOOR_CLEAR (R59), BASELINE (R62), ATTACH (R17, R18). -/

namespace Sys2Proof.Machine

/-! ## Trips (R53, R54) -/

/-- R53 step 2: the trip count after a trip. -/
def Door.trippedCount (x : Door) : Nat :=
  if x.inhibit = .latched then x.prot.tripCount else x.prot.tripCount + 1

/-- R53 step 3: the trip latches the door. -/
def Door.tripLatches (e : Env) (x : Door) : Bool := e.times.retryLimit < x.trippedCount

/-- R53 steps 3 to 5: where a tripped door goes. -/
def Door.tripDrive (e : Env) (x : Door) : Drive :=
  if x.tripLatches e then .resting
  else if x.drive.origin = some .localReq then
    (if e.doorsClosed then .recloseWait (e.clock + e.times.reclose) else .resting)
  else .tripped (e.clock + e.times.retryDelay)

/-- R54: the captures of a trip. -/
def Door.tripCaptures (e : Env) (d : Nat) (x : Door) : List Capture :=
  Capture.ofPart 11 (causeCode x.prot.alert) (BitVec.ofNat 16 d) ::
    (if x.tripLatches e then [Capture.ofPart 12 x.trippedCount (BitVec.ofNat 16 d)] else [])

/-- R53 steps 2 and 3: the count and the inhibit a trip leaves. -/
def Door.countTrip (e : Env) (x : Door) : Door :=
  { x with
    inhibit := if x.tripLatches e then .latched else x.inhibit
    prot := { x.prot with tripCount := x.trippedCount } }

/-- R53: a trip, with its captures. -/
def Yard.trip (y : Yard) (e : Env) (d : Nat) : Yard × List Capture :=
  match y.doors[d]? with
  | none => (y, [])
  | some x =>
    let y1 := (y.modify d fun z => z.countTrip e).changeDrive e d (x.tripDrive e) false
    (if x.tripDrive e = .resting then y1.enforce e d else y1, x.tripCaptures e d)

/-! ## The sensor take -/

/-- R10: one debounced input and its timer after a fresh report, from its raw value. -/
def debounceInput (time arrival report : Nat) (raw debounced : Bool)
    (timer : Option DebounceTimer) : Bool × Option DebounceTimer :=
  if raw = debounced then (debounced, none)
  else
    match timer with
    | some t => (debounced, some t)
    | none =>
      if time = 0 then (raw, none)
      else (debounced, some { expiry := arrival + time, report := report })

/-- R8, R9, R10: the input part after a fresh report that is not a recovering one. -/
def InputPart.takeFresh (i : InputPart) (time arrival : Nat) (r : Report) : InputPart :=
  let cl := debounceInput time arrival i.reports r.inputs.cl i.debounced.cl i.timers.cl
  let ol := debounceInput time arrival i.reports r.inputs.ol i.debounced.ol i.timers.ol
  let lo := debounceInput time arrival i.reports r.inputs.lo i.debounced.lo i.timers.lo
  let lc := debounceInput time arrival i.reports r.inputs.lc i.debounced.lc i.timers.lc
  { i with
    lastSeq := some r.seq
    raw := r.inputs
    debounced := { cl := cl.1, ol := ol.1, lo := lo.1, lc := lc.1 }
    timers := { cl := cl.2, ol := ol.2, lo := lo.2, lc := lc.2 }
    pw := r.pw
    ob := r.ob
    pressure := r.pressure
    freshness := some arrival
    reports := i.reports + 1 }

/-- R15: the input part after a recovering report. -/
def InputPart.takeRecovering (i : InputPart) (arrival : Nat) (r : Report) : InputPart :=
  { lastSeq := some r.seq
    reported := true
    raw := r.inputs
    debounced := r.inputs
    timers := { cl := none, ol := none, lo := none, lc := none }
    pw := r.pw
    ob := r.ob
    pressure := r.pressure
    freshness := some arrival
    stale := false
    reports := i.reports + 1 }

/-- R8, R15: the input part after a fresh report, by the two flags as its take finds them (log 18). -/
def InputPart.takeReport (i : InputPart) (time arrival : Nat) (r : Report) : InputPart :=
  if i.stale || !i.reported then i.takeRecovering arrival r else i.takeFresh time arrival r

/-- R12 step 3: an LO rise or fall delivered. A rise is delivered while LO is still set (log 13). -/
def Yard.deliverLo (y : Yard) (e : Env) (d : Nat) (before after : Bool) : Yard :=
  match before, after with
  | false, true =>
    if ((y.doors[d]?).map (·.inp.debounced.lo)).getD false then y.loRise e d else y
  | true, false => y.loFall e d
  | _, _ => y

/-- R12 step 4: an LC rise delivered; an LC fall has no effect (R38). -/
def Yard.deliverLc (y : Yard) (e : Env) (d : Nat) (before after : Bool) : Yard :=
  if !before && after then y.lcRise e d else y

/-- R12 steps 2 to 4: the results of a change of inputs handed on. -/
def Yard.deliver (y : Yard) (e : Env) (d : Nat) (before after : Four Bool) : Yard :=
  ((y.rederive e d).deliverLo e d before.lo after.lo).deliverLc e d before.lc after.lc

/-- R12 step 5, R50, R51: the alert evaluation of a report on a door that is still closing; with trip delay 0 an
alert that rises trips the door. -/
def Yard.evaluateAlert (y : Yard) (e : Env) (d : Nat) (r : Report) : Yard × List Capture :=
  match y.doors[d]? with
  | none => (y, [])
  | some x =>
    if x.drive.closingRun then
      let p := x.prot.evaluate x.st.margin r.ob r.pressure (e.clock + e.times.tripDelay)
      let y1 := y.modify d fun z => { z with prot := p }
      if x.prot.alert = none ∧ p.alert ≠ none ∧ e.times.tripDelay = 0 then y1.trip e d else (y1, [])
    else (y, [])

/-- R6 to R15: the sensor take of a report that arrived at a moment. A report whose take begins the closing run is not
evaluated for it (R49). -/
def Yard.sensorTake (y : Yard) (e : Env) (d : Nat) (w : Word) (arrival : Nat) :
    Yard × List Capture :=
  match y.doors[d]? with
  | none => (y, [])
  | some x =>
    let r := reportOf w
    if x.inp.lastSeq = some r.seq then (y, [])
    else
      let inp := x.inp.takeReport e.times.debounce arrival r
      let y1 := (y.modify d fun z => { z with inp := inp, powerSeen := true }).deliver e d
        x.inp.debounced inp.debounced
      if x.drive.closingRun then y1.evaluateAlert e d r else (y1, [])

/-! ## Expiries at a door -/

/-- One of four values by input. -/
def Four.of {α : Type} (v : Four α) : Input → α
  | .cl => v.cl
  | .ol => v.ol
  | .lo => v.lo
  | .lc => v.lc

/-- R11: one input whose timer was started by the report: the debounced value takes the raw value. -/
def expireInput (report : Nat) (raw debounced : Bool) (timer : Option DebounceTimer) :
    Bool × Option DebounceTimer :=
  match timer with
  | some t => if t.report = report then (raw, none) else (debounced, some t)
  | none => (debounced, none)

/-- R11: the timers that one report started expire together. -/
def InputPart.expire (i : InputPart) (report : Nat) : InputPart :=
  let cl := expireInput report i.raw.cl i.debounced.cl i.timers.cl
  let ol := expireInput report i.raw.ol i.debounced.ol i.timers.ol
  let lo := expireInput report i.raw.lo i.debounced.lo i.timers.lo
  let lc := expireInput report i.raw.lc i.debounced.lc i.timers.lc
  { i with
    debounced := { cl := cl.1, ol := ol.1, lo := lo.1, lc := lc.1 }
    timers := { cl := cl.2, ol := ol.2, lo := lo.2, lc := lc.2 } }

/-- R11: a debounce expiry of the timers that a report started. -/
def Yard.debounceExpiry (y : Yard) (e : Env) (d : Nat) (report : Nat) : Yard :=
  match y.doors[d]? with
  | none => y
  | some x =>
    let inp := x.inp.expire report
    (y.modify d fun z => { z with inp := inp }).deliver e d x.inp.debounced inp.debounced

/-- R14: a freshness expiry: the timer stops and the door becomes stale. -/
def Yard.freshnessExpiry (y : Yard) (e : Env) (d : Nat) : Yard :=
  (y.goStale e d).modify d fun z => { z with inp := { z.inp with freshness := none } }

/-- R29: a prewarn expiry: the WARNING door goes to MOVING. -/
def Yard.prewarnExpiry (y : Yard) (e : Env) (d : Nat) : Yard :=
  match y.doors[d]? with
  | none => y
  | some x =>
    match x.drive with
    | .warning o _ => y.changeDrive e d (.moving .toClose o (e.clock + x.st.travelLimit)) false
    | _ => y

/-- R31: the inhibit a travel expiry leaves. -/
def Inhibit.stall : Inhibit → Inhibit
  | .latched => .latched
  | _ => .stalled

/-- R31: a travel expiry: the door is stopped as stalled. -/
def Yard.travelExpiry (y : Yard) (e : Env) (d : Nat) : Yard :=
  (y.modify d fun z => { z with inhibit := z.inhibit.stall }).rest e d false

/-- R40: a reclose expiry. -/
def Yard.recloseExpiry (y : Yard) (e : Env) (d : Nat) : Yard := y.rest e d false

/-- R55: a retry expiry: a close request of origin RETRY. -/
def Yard.retryExpiry (y : Yard) (e : Env) (d : Nat) : Yard := y.motionRequest e d .toClose .retry

/-- R58: a settle expiry. -/
def Yard.settleExpiry (y : Yard) (d : Nat) : Yard :=
  y.modify d fun z =>
    { z with prot :=
      { z.prot with
        settle := none
        tripCount := if z.inhibit = .none then 0 else z.prot.tripCount } }

/-! ## Station requests (R32 to R36) -/

/-- R160: the details of a REQUEST_REFUSED capture. -/
inductive RequestRefusal | badRequest | notPowered | isolated | inhibited | mode
  deriving DecidableEq, Repr

/-- R160: a request refusal's number. -/
def RequestRefusal.code : RequestRefusal → Nat
  | .badRequest => 1
  | .notPowered => 2
  | .isolated => 3
  | .inhibited => 4
  | .mode => 5

/-- R33: the tests of a station CLOSE, in order; none where it passes. -/
def Door.closeRefusal (x : Door) : Option RequestRefusal :=
  if !x.powered then some .notPowered
  else if x.drive.isIsolated then some .isolated
  else if x.inhibit ≠ .none then some .inhibited
  else none

/-- R33: the tests of a station OPEN, in order. -/
def Door.openRefusal (e : Env) (x : Door) : Option RequestRefusal :=
  match x.closeRefusal with
  | some r => some r
  | none => if e.doorsClosed then some .mode else none

/-- R34: the tests of a station STOP. The spec gives them no order: that an INDICATED door in DOORS_CLOSED is refused
with NOT_POWERED and not with MODE is log 26. -/
def Door.stopRefusal (e : Env) (x : Door) : Option RequestRefusal :=
  if !x.powered then some .notPowered else if e.doorsClosed then some .mode else none

/-- A station request's result: refused with a detail, or the yard it leaves. -/
abbrev RequestResult := Except RequestRefusal Yard

/-- R32: NONE is taken and changes nothing. -/
def Yard.stationNone (y : Yard) : RequestResult := .ok y

/-- R33: a station CLOSE. -/
def Yard.stationClose (y : Yard) (e : Env) (d : Nat) (x : Door) : RequestResult :=
  match x.closeRefusal with
  | some r => .error r
  | none => .ok (y.motionRequest e d .toClose .station)

/-- R33: a station OPEN. -/
def Yard.stationOpen (y : Yard) (e : Env) (d : Nat) (x : Door) : RequestResult :=
  match x.openRefusal e with
  | some r => .error r
  | none => .ok (y.motionRequest e d .toOpen .station)

/-- R34: a station STOP. -/
def Yard.stationStop (y : Yard) (e : Env) (d : Nat) (x : Door) : RequestResult :=
  match x.stopRefusal e with
  | some r => .error r
  | none =>
    match x.drive with
    | .resting => .ok y
    | .isolated => .ok y
    | _ => .ok (y.rest e d false)

/-- R35: a station ISOLATE. -/
def Yard.stationIsolate (y : Yard) (e : Env) (d : Nat) (x : Door) : RequestResult :=
  if x.drive.isIsolated then .ok y
  else .ok ((y.modify d fun z => { z with hold := false }).changeDrive e d .isolated false)

/-- R36: a station RESTORE. -/
def Yard.stationRestore (y : Yard) (e : Env) (d : Nat) (x : Door) : RequestResult :=
  if x.drive.isIsolated then
    .ok ((y.modify d fun z =>
      { z with hold := z.hold || (x.powered && e.doorsClosed && x.inp.debounced.lo) }).rest e d false)
  else .ok y

/-- R32: a station command word taken for a door: judged as a whole, then by its REQUEST. -/
def Yard.stationRequest (y : Yard) (e : Env) (d : Nat) (w : Word) : RequestResult :=
  match y.doors[d]? with
  | none => .error .badRequest
  | some x =>
    if stationWordOk w d then
      match requestOf w with
      | 0 => y.stationNone
      | 1 => y.stationClose e d x
      | 2 => y.stationOpen e d x
      | 3 => y.stationStop e d x
      | 4 => y.stationIsolate e d x
      | _ => y.stationRestore e d x
    else .error .badRequest

/-! ## Orders on the doors -/

/-- R42: what a change to DOORS_CLOSED does to a POWERED door that is not ISOLATED; none where it does nothing. -/
def toDoorsClosedDrive (e : Env) (x : Door) : Option Drive :=
  match x.drive with
  | .queued .toOpen .station => some .resting
  | .moving .toOpen .station _ => some (startDrive e x .toClose .mode)
  | _ => none

/-- R42: one door taken on a change to DOORS_CLOSED; then its hold flag is set where debounced LO is set. -/
def Yard.toDoorsClosed (y : Yard) (e : Env) (d : Nat) : Yard :=
  match y.doors[d]? with
  | none => y
  | some x =>
    if x.takesLocal then
      let y1 :=
        match toDoorsClosedDrive e x with
        | some new => y.changeDrive e d new false
        | none => y
      y1.modify d fun z => { z with hold := z.hold || z.inp.debounced.lo }
    else y

/-- R43: what a change to LOCAL_CONTROL does to a door; none where it does nothing. -/
def toLocalControlDrive (x : Door) : Option Drive :=
  match x.drive with
  | .queued .toClose .mode => some .resting
  | .warning .mode _ => some .resting
  | .recloseWait _ => some .resting
  | _ => none

/-- R43: one door taken on a change to LOCAL_CONTROL; its hold flag is cleared. -/
def Yard.toLocalControl (y : Yard) (e : Env) (d : Nat) : Yard :=
  match y.doors[d]? with
  | none => y
  | some x =>
    let y1 :=
      match toLocalControlDrive x with
      | some new => y.changeDrive e d new false
      | none => y
    y1.modify d fun z => { z with hold := false }

/-- R82 steps 3 to 5: every door taken for the new mode (already in `e`), the enforcement checks, the grants. R82 step 5
names the grants that steps 3 and 4 make due (log 11); that a grant which was due at a group before the MODE write is taken
here as well is the model's choice: log 28. -/
def Yard.modeChange (y : Yard) (e : Env) : Yard :=
  let doors := List.range y.doors.length
  if e.doorsClosed then
    ((doors.foldl (fun z d => z.toDoorsClosed e d) y).enforceAll e).grantAll e
  else (doors.foldl (fun z d => z.toLocalControl e d) y).grantAll e

/-- R44: one door of a zone close, passed over where a station CLOSE would be refused. -/
def Yard.zoneCloseDoor (y : Yard) (e : Env) (mask : Word) (d : Nat) : Yard :=
  match y.doors[d]? with
  | none => y
  | some x =>
    if zoneSelected mask x.st.zone && x.closeRefusal.isNone then y.motionRequest e d .toClose .zone
    else y

/-- R44, R83: a zone close, in door-number order. -/
def Yard.zoneClose (y : Yard) (e : Env) (mask : Word) : Yard :=
  (List.range y.doors.length).foldl (fun z d => z.zoneCloseDoor e mask d) y

/-- R59: one door cleared. -/
def Yard.clearDoor (y : Yard) (e : Env) (d : Nat) : Yard :=
  match y.doors[d]? with
  | none => y
  | some x =>
    let y1 := y.modify d fun z =>
      { z with inhibit := .none, prot := { z.prot with tripCount := 0 } }
    match x.drive with
    | .tripped _ => y1.rest e d false
    | _ => y1.enforce e d

/-- The doors an order names: one, or all in door-number order. -/
def Yard.forSelected (y : Yard) (sel : DoorSelect) (f : Yard → Nat → Yard) : Yard :=
  match sel with
  | .one d => f y d
  | .all => (List.range y.doors.length).foldl f y

/-- R106: one door acknowledged. -/
def Yard.acknowledgeDoor (y : Yard) (d : Nat) : Yard :=
  y.modify d fun z => { z with alarms := z.alarms.map AlarmState.acknowledge }

/-- R62: the doors of the masked zones, of either class, take their initial baseline, COLD. -/
def Yard.baseline (y : Yard) (mask : Word) : Yard :=
  { y with doors := y.doors.map fun x =>
    if zoneSelected mask x.st.zone then x.resetBaseline else x }

/-! ## The owning scanner (R17, R18) -/

/-- R17: every door of the list that is not stale becomes stale. -/
def Yard.staleDoors (y : Yard) (e : Env) (doors : List Nat) : Yard :=
  doors.foldl (fun z d => z.goStale e d) y

/-- The doors a scanner owns (R1). -/
def Yard.ownedBy (y : Yard) (m : Master) : List Nat :=
  (List.range y.doors.length).filter fun d => (y.doors[d]?).bind Door.owner == some m

/-- R18: SEQ and the reported flag cleared; the position is then UNKNOWN (R4). -/
def Door.forgetReports (x : Door) : Door :=
  { x with inp := { x.inp with lastSeq := none, reported := false } }.positionLost

/-- R18: one door of a matching ATTACH; a fresh door loses sight, with its LO fall. -/
def Yard.reattachDoor (y : Yard) (e : Env) (d : Nat) : Yard :=
  match y.doors[d]? with
  | none => y
  | some x =>
    let y1 := y.modify d Door.forgetReports
    if x.inp.reported && !x.inp.stale then
      let y2 := y1.modify d fun z => { z with inp := z.inp.loseSight }
      if x.inp.debounced.lo then y2.loFall e d else y2
    else y1

/-- R98: every door a scanner owns taken for a matching ATTACH. -/
def Yard.reattach (y : Yard) (e : Env) (m : Master) : Yard :=
  (y.ownedBy m).foldl (fun z d => z.reattachDoor e d) y

end Sys2Proof.Machine
end

