-- ==== Sys2Proof/Machine/Mirror.lean ====
section
/-! DEFINITION. The mirror unit (09): bank accesses and their counts, forwarded writes and reads, image loss,
resynchronisation. -/

namespace Sys2Proof.Machine

/-- The other bank. -/
def otherBank : BankId → BankId
  | .bankA => .bankB
  | .bankB => .bankA

/-- R148: the number of a bank in captures. -/
def bankCode : BankId → Nat
  | .bankA => 0
  | .bankB => 1

/-- A bank record. -/
def Mirror.bank (m : Mirror) : BankId → Bank
  | .bankA => m.bankA
  | .bankB => m.bankB

/-- A bank record changed. -/
def Mirror.modifyBank (m : Mirror) (b : BankId) (f : Bank → Bank) : Mirror :=
  match b with
  | .bankA => { m with bankA := f m.bankA }
  | .bankB => { m with bankB := f m.bankB }

/-- R150: a bank that upstream reads may be made to. -/
def Mirror.serves (m : Mirror) (b : BankId) : Bool := (m.bank b).state == .inService

/-- R147: a write that a bank completed: the selected lanes are stored. -/
def Mirror.store (m : Mirror) (b : BankId) (a : Addr) (l : Lanes) (w : Word) : Mirror :=
  m.modifyBank b fun r => { r with mem := r.mem.writeLanes a l w }

/-- R147: a write that a bank did not complete leaves the addressed word unknown. -/
def Mirror.forget (m : Mirror) (b : BankId) (a : Addr) : Mirror :=
  { m.modifyBank b fun r => { r with mem := r.mem.forget a m.free } with free := m.free + 2 }

/-! ## Errors (R148, R152, R156) -/

/-- R148: whose access a bank access belongs to: an upstream access's master, or a copy step. -/
inductive AccessOwner | upstream (m : Master) | copyStep
  deriving DecidableEq, Repr

/-- R148: the master number a bank's captures carry. -/
def AccessOwner.code : AccessOwner → Nat
  | .upstream m => m.val
  | .copyStep => Config.partMaster

/-- The cursor as a word address. -/
def Mirror.cursorAddr (m : Mirror) : Addr := BitVec.ofNat 18 m.cursor

/-- R152: the image lost flag set, with its IMAGE_LOST capture. -/
def Mirror.loseImage (m : Mirror) (detail : Nat) (addr : Addr) : Mirror × List Capture :=
  ({ m with imageLost := true },
    [{ kind := 24, master := Config.partMaster, addr := addr, detail := detail, data := 0 }])

/-- R152: the detail and address of an image loss that a bank access's error makes. -/
def lossCause (owner : AccessOwner) (addr cursor : Addr) : Nat × Addr :=
  match owner with
  | .upstream _ => (1, addr)
  | .copyStep => (2, cursor)

/-- R156: a resync aborted: the source absent, the cursor 0, a RESYNC_ABORTED capture. -/
def Mirror.abort (m : Mirror) (target : BankId) (detail : Nat) : Mirror × List Capture :=
  ({ m with source := none, cursor := 0 },
    [{ kind := 23, master := Config.partMaster, addr := m.cursorAddr, detail := detail,
       data := BitVec.ofNat 16 (bankCode target) }])

/-- R148, R152, R156: a bank that fails on an access, with what follows for a copy and for the image. -/
def Mirror.failBank (m : Mirror) (b : BankId) (owner : AccessOwner) (addr : Addr) :
    Mirror × List Capture :=
  let failed : Capture :=
    { kind := 21, master := owner.code, addr := addr, detail := 0,
      data := BitVec.ofNat 16 (bankCode b) }
  let m1 := m.modifyBank b fun r => { r with state := .failed }
  let loss := lossCause owner addr m.cursorAddr
  match m.source with
  | some src =>
    if src = b then
      let aborted := (m1.modifyBank (otherBank b) fun r => { r with state := .failed }).abort
        (otherBank b) 1
      let lost := aborted.1.loseImage loss.1 loss.2
      (lost.1, failed :: (aborted.2 ++ lost.2))
    else
      let aborted := m1.abort b 2
      (aborted.1, failed :: aborted.2)
  | none =>
    if m1.serves .bankA || m1.serves .bankB then (m1, [failed])
    else
      let lost := m1.loseImage loss.1 loss.2
      (lost.1, failed :: lost.2)

/-- R148: the details of a BANK_ERROR capture. -/
inductive BankFault | readParity | readTimeout | writeTimeout
  deriving DecidableEq, Repr

/-- R148: a bank error's number. -/
def BankFault.code : BankFault → Nat
  | .readParity => 1
  | .readTimeout => 2
  | .writeTimeout => 3

/-- R148: a bank access that ended clean. -/
def Mirror.countClean (m : Mirror) (b : BankId) : Mirror :=
  m.modifyBank b fun r => { r with count := 0 }

/-- R148: a bank access that ended in error, counted; at 3 the bank fails. -/
def Mirror.countError (m : Mirror) (b : BankId) (owner : AccessOwner) (addr : Addr)
    (fault : BankFault) : Mirror × List Capture :=
  let n := min ((m.bank b).count + 1) Config.failCount
  let erred : Capture :=
    { kind := 20, master := owner.code, addr := addr, detail := fault.code,
      data := BitVec.ofNat 16 (bankCode b + 256 * n) }
  let m1 := m.modifyBank b fun r => { r with count := n }
  if n = Config.failCount ∧ (m.bank b).state ≠ .failed then
    let f := m1.failBank b owner addr
    (f.1, erred :: f.2)
  else (m1, [erred])

/-- R155: after an upstream write's error at the target of a copy, a cursor above the address is set back to it. -/
def Mirror.setBack (m : Mirror) (b : BankId) (addr : Addr) : Mirror :=
  if m.source = some (otherBank b) ∧ addr.toNat < m.cursor then { m with cursor := addr.toNat }
  else m

/-- The mirror unit's changes and captures taken into the state, with PART_FAULT judged at the end (R113). -/
def State.takeMirror (s : State) (r : Mirror × List Capture) : State :=
  (State.captures { s with mirror := r.1 } r.2).judgeFault

/-! ## Resynchronisation (R153, R154, R157) -/

/-- R146, R153: a bank put in RESYNC from the other. -/
def Mirror.startResync (m : Mirror) (target : BankId) : Mirror :=
  { m.modifyBank target fun r => { r with state := .resync, count := 0 } with
    source := some (otherBank target), cursor := 0 }

/-- R157: the copy complete. -/
def Mirror.completeResync (m : Mirror) (target : BankId) : Mirror × List Capture :=
  ({ m.modifyBank target fun r => { r with state := .inService, count := 0 } with
      source := none, cursor := 0 },
    [Capture.ofPart 22 0 (BitVec.ofNat 16 (bankCode target))])

/-- R147: what a bank returns on a read of a word, some of whose bits may be flipped. -/
def Mirror.fetch (m : Mirror) (b : BankId) (a : Addr) (flipped : BankWord) : BankWord :=
  ((m.bank b).mem.readWord a).returned flipped

/-- R154: the word read at the cursor written to the target; both accesses are clean. -/
def Mirror.copyWord (m : Mirror) (src : BankId) (w : Word) : Mirror :=
  ((m.countClean src).store (otherBank src) m.cursorAddr .both w).countClean (otherBank src)

/-- R154, R157: a copy step whose two accesses ended clean: the cursor advances, or the copy is complete. -/
def Mirror.copyClean (m : Mirror) (src : BankId) (w : Word) : Mirror × List Capture :=
  let m1 := m.copyWord src w
  if m.imageSize ≤ m.cursor + 1 then m1.completeResync (otherBank src)
  else ({ m1 with cursor := m.cursor + 1 }, [])

/-- R154, R156: a copy step whose source read ended in error. -/
def Mirror.copyReadError (m : Mirror) (src : BankId) (fault : BankFault) : Mirror × List Capture :=
  m.countError src .copyStep m.cursorAddr fault

/-- R154, R156: a copy step whose target write ended in error, after a clean read. -/
def Mirror.copyWriteError (m : Mirror) (src : BankId) : Mirror × List Capture :=
  ((m.countClean src).forget (otherBank src) m.cursorAddr).countError (otherBank src) .copyStep
    m.cursorAddr .writeTimeout

/-- R147, R154: one copy step: the word at the cursor is read with lanes BOTH, its parity checked, and what was read is
written to the target. -/
def Mirror.copyStep (m : Mirror) (outcome : CopyOutcome) : Mirror × List Capture :=
  match m.source with
  | none => (m, [])
  | some src =>
    match outcome.read with
    | none => m.copyReadError src .readTimeout
    | some flipped =>
      let r := m.fetch src m.cursorAddr flipped
      if r.good .both then
        if outcome.written then m.copyClean src r.data else m.copyWriteError src
      else m.copyReadError src .readParity

/-! ## Forwarded writes (R149, R155) -/

/-- R149: a bank's part in a write forwarded now. -/
def Mirror.legOf (m : Mirror) (b : BankId) : Leg :=
  match (m.bank b).state with
  | .inService => .outstanding true
  | .resync => .outstanding false
  | .notFitted => .unused
  | .failed => .unused

/-- R149: a leg that holds nothing up any more. -/
def Leg.settled : Leg → Bool
  | .unused => true
  | .counted _ _ => true
  | .outstanding _ => false
  | .ended _ _ => false

/-- R149: a bank that was IN_SERVICE when the write was forwarded ended its write clean. -/
def Leg.servedClean : Leg → Bool
  | .counted true true => true
  | _ => false

/-- R149: a leg whose bank access ends now, not yet counted. -/
def Leg.finish (clean : Bool) : Leg → Leg
  | .outstanding serving => .ended serving clean
  | l => l

/-- R148, R155: one ended leg counted. -/
def Mirror.countLeg (m : Mirror) (b : BankId) (owner : AccessOwner) (addr : Addr) (clean : Bool) :
    Mirror × List Capture :=
  if clean then (m.countClean b, [])
  else
    let r := m.countError b owner addr .writeTimeout
    (r.1.setBack b addr, r.2)

/-- An ended leg is counted; any other stays as it is. -/
def State.countLeg (s : State) (b : BankId) (owner : AccessOwner) (addr : Addr) (l : Leg) :
    State × Leg :=
  match l with
  | .ended serving clean =>
    (s.takeMirror (s.mirror.countLeg b owner addr clean), .counted serving clean)
  | l => (s, l)

/-- R149: what is left of the legs once every ending that may be counted has been, bank A's before bank B's. -/
def State.countLegs (s : State) (owner : AccessOwner) (addr : Addr) (legA legB : Leg) :
    State × Leg × Leg :=
  let ra := s.countLeg .bankA owner addr legA
  if ra.2.settled then
    let rb := ra.1.countLeg .bankB owner addr legB
    (rb.1, ra.2, rb.2)
  else (ra.1, ra.2, legB)

/-- R149: the response of a write whose legs have all been counted. -/
def writeResponse (legA legB : Leg) : Response :=
  if legA.servedClean || legB.servedClean then .done none else .error

/-- R6 to R15 at the whole part: the sensor take of a door's report. -/
def State.sensorTake (s : State) (d : Nat) (w : Word) (arrival : Nat) : State :=
  let r := s.yard.sensorTake s.env d w arrival
  ((s.setYard r.1).captures r.2).endTake s.yard

/-- R129, R131, R132: what follows the end of a forwarded write. -/
def State.afterWrite (s : State) (after : AfterWrite) : State :=
  match after with
  | .answerOnly => s
  | .sensorTake d w arrival => s.sensorTake d w arrival

/-- R149: the write goes on waiting, or is answered where every leg is settled. -/
def State.settleWrite (s : State) (a : Access) (addr : Addr) (l : Lanes) (w : Word)
    (legA legB : Leg) (after : AfterWrite) : State :=
  if legA.settled && legB.settled then (s.afterWrite after).answer (writeResponse legA legB)
  else s.setUpstream (.waiting a (.write addr l w legA legB after))

/-- Whether a leg's bank access is outstanding. -/
def Leg.isOutstanding : Leg → Bool
  | .outstanding _ => true
  | _ => false

/-- R147, R149: a bank ends its part of the forwarded write, clean or not. -/
def State.writeEnd (s : State) (a : Access) (addr : Addr) (l : Lanes) (w : Word) (legA legB : Leg)
    (after : AfterWrite) (b : BankId) (clean : Bool) : State :=
  let mine := match b with | .bankA => legA | .bankB => legB
  if mine.isOutstanding then
    let s1 := { s with mirror := if clean then s.mirror.store b addr l w else s.mirror.forget b addr }
    let endA := match b with | .bankA => legA.finish clean | .bankB => legA
    let endB := match b with | .bankA => legB | .bankB => legB.finish clean
    let r := s1.countLegs (.upstream a.master) addr endA endB
    r.1.settleWrite a addr l w r.2.1 r.2.2 after
  else s

/-- R149, R152: a write forwarded to the image. While the image is lost no bank is written: a PLAIN write is answered
ERROR, a SENSOR write or a taken order DONE (`lostResponse`). -/
def State.forwardWrite (s : State) (a : Access) (addr : Addr) (l : Lanes) (w : Word)
    (after : AfterWrite) (lostResponse : Response) : State :=
  if s.mirror.imageLost then (s.afterWrite after).answer lostResponse
  else s.settleWrite a addr l w (s.mirror.legOf .bankA) (s.mirror.legOf .bankB) after

/-! ## Forwarded reads (R150, R151) -/

/-- R150: the bank a read is made to first; none where no bank is IN_SERVICE. -/
def Mirror.readBank (m : Mirror) (addr : Addr) : Option BankId :=
  let mapped := mappedBank m.readMap addr
  if m.serves mapped then some mapped
  else if m.serves (otherBank mapped) then some (otherBank mapped)
  else none

/-- R150, R152: a read forwarded to the image. -/
def State.forwardRead (s : State) (a : Access) (addr : Addr) (l : Lanes) : State :=
  if s.mirror.imageLost then s.answer .error
  else
    match s.mirror.readBank addr with
    | some b => s.setUpstream (.waiting a (.read addr l b false))
    | none => s.answer .error

/-- R151: a read that ended clean is answered with the selected lanes of the word read. -/
def State.readClean (s : State) (l : Lanes) (b : BankId) (w : Word) : State :=
  State.answer { s with mirror := s.mirror.countClean b } (.done (some (onLanes l w)))

/-- R151: a read that ended in error is counted, and retried once on the other bank if that is IN_SERVICE then. -/
def State.readError (s : State) (a : Access) (addr : Addr) (l : Lanes) (b : BankId) (retry : Bool)
    (fault : BankFault) : State :=
  let s1 := s.takeMirror (s.mirror.countError b (.upstream a.master) addr fault)
  if !retry && s1.mirror.serves (otherBank b) then
    s1.setUpstream (.waiting a (.read addr l (otherBank b) true))
  else s1.answer .error

/-- R147, R151: a bank completes a read, which the parity of the selected bytes makes clean or an error. -/
def State.readEnd (s : State) (a : Access) (addr : Addr) (l : Lanes) (b : BankId) (retry : Bool)
    (flipped : BankWord) : State :=
  let r := s.mirror.fetch b addr flipped
  if r.good l then s.readClean l b r.data else s.readError a addr l b retry .readParity

/-! ## TRANSPARENT (R119) -/

/-- R119: bank A ends the access that was forwarded to it unchanged. -/
def State.transparentEnd (s : State) (a : Access) (flipped : BankWord) : State :=
  match a.op with
  | .write w => State.answer { s with mirror := s.mirror.store .bankA a.addr a.lanes w } (.done none)
  | .read =>
    let r := s.mirror.fetch .bankA a.addr flipped
    if r.good a.lanes then s.answer (.done (some (onLanes a.lanes r.data))) else s.answer .error

/-- R119, R147: bank A does not complete the access in time. -/
def State.transparentTimeout (s : State) (a : Access) : State :=
  match a.op with
  | .write _ => State.answer { s with mirror := s.mirror.forget .bankA a.addr } .error
  | .read => s.answer .error

/-! ## Abandoned accesses (R118) -/

/-- R118, log 8: the words that the outstanding writes of an abandoned access may or may not have reached. -/
def Mirror.abandonWrites (m : Mirror) (a : Access) : Waiting → Mirror
  | .write addr _ _ legA legB _ =>
    let m1 := if legA.isOutstanding then m.forget .bankA addr else m
    if legB.isOutstanding then m1.forget .bankB addr else m1
  | .read _ _ _ _ => m
  | .transparent =>
    match a.op with
    | .write _ => m.forget .bankA a.addr
    | .read => m

end Sys2Proof.Machine
end

