-- ==== Sys2Proof/Machine/Words.lean ====
section
/-! DEFINITION. The words the part serves (12.2, R171): command, indication, capture and status words. -/

namespace Sys2Proof.Machine

/-! ## Served command word (R45) -/

/-- R45: COMMAND: 1 CLOSE, 2 OPEN, 0 STOP. -/
def Drive.commandCode : Drive → Nat
  | .moving .toClose _ _ => 1
  | .moving .toOpen _ _ => 2
  | _ => 0

/-- R45: WARN. -/
def Drive.warn : Drive → Bool
  | .warning _ _ => true
  | .moving .toClose o _ => o.remote
  | _ => false

/-- R45, R7: the SEQ echo, 0 while the last accepted SEQ is absent. -/
def InputPart.seqEcho (i : InputPart) : Nat := (i.lastSeq.map BitVec.toNat).getD 0

/-- R45: the served command word of a door. -/
def Door.commandWord (d : Nat) (x : Door) : Word :=
  fieldAt x.drive.commandCode 0 ||| bitAt x.drive.warn 2 ||| fieldAt x.inp.seqEcho 3 |||
    fieldAt d 8 ||| bitAt x.inp.stale 15

/-! ## Indication words (R114, R115) -/

/-- R114: INHIBIT. -/
def Inhibit.code : Inhibit → Nat
  | .none => 0
  | .latched => 1
  | .stalled => 2

/-- R114: a door's indication state word. -/
def Door.stateWord (x : Door) : Word :=
  fieldAt x.position.code 0 ||| fieldAt x.drive.code 3 |||
    bitAt (x.drive.direction == some .toOpen) 6 ||| fieldAt x.inhibit.code 7 ||| bitAt x.hold 9 |||
    fieldAt x.prot.tripCount 10 ||| bitAt x.anyUnack 14 ||| bitAt x.anyActive 15

/-- R115: a door's indication alarm word. -/
def Door.alarmWord (x : Door) : Word :=
  fieldAt x.alarms.doorOpen.code 0 ||| fieldAt x.alarms.tripped.code 2 |||
    fieldAt x.alarms.latched.code 4 ||| fieldAt x.alarms.stalled.code 6 |||
    fieldAt x.alarms.stale.code 8 ||| fieldAt x.alarms.conflict.code 10 |||
    fieldAt x.alarms.drivePower.code 12 ||| bitAt x.prot.hot 14 ||| bitAt (!x.powered) 15

/-! ## Capture window (R161) -/

/-- R161: word 0 of an entry: KIND, MASTER, ADDRESS bits 17-16, DETAIL. -/
def Entry.word0 (e : Entry) : Word :=
  fieldAt e.kind 0 ||| fieldAt e.master 6 ||| fieldAt (e.addr >>> 16).toNat 10 |||
    fieldAt e.detail 12

/-- R161: the word at an offset of a CAPTURE window. -/
def Ring.word (r : Ring) (offset : Nat) : Word :=
  match offset, r.entries with
  | 4, es => BitVec.ofNat 16 es.length
  | 5, _ => BitVec.ofNat 16 r.dropped
  | 0, e :: _ => e.word0
  | 1, e :: _ => e.addr.setWidth 16
  | 2, e :: _ => e.data
  | 3, e :: _ => e.time
  | _, _ => 0

/-! ## Status words (R164) -/

/-- R164: RESET_CAUSE. -/
def ResetCause.code : ResetCause → Nat
  | .powerOn => 0
  | .resetLine => 1

/-- R168: RELOAD_STATE. -/
def ReloadState.code : ReloadState → Nat
  | .idle => 0
  | .reloading => 1
  | .applyPending _ => 2

/-- R145: a bank state's code. -/
def BankState.code : BankState → Nat
  | .notFitted => 0
  | .inService => 1
  | .resync => 2
  | .failed => 3

/-- Status word 0. -/
def State.status0 (s : State) : Word :=
  fieldAt s.resetCause.code 0 ||| fieldAt ((s.command.mode.map modeCode).getD 0) 1 |||
    fieldAt ((s.command.holder.map Fin.val).getD 0) 3 ||| bitAt s.command.holder.isNone 6 |||
    fieldAt ((s.command.transfer.map (·.requester.val)).getD 0) 7 |||
    bitAt s.command.transfer.isSome 10 ||| fieldAt s.loader.reload.code 11 |||
    bitAt s.loader.lastReloadFailed 13

/-- Status word 1. -/
def Mirror.status1 (m : Mirror) : Word :=
  fieldAt m.bankA.state.code 0 ||| fieldAt m.bankB.state.code 2 ||| fieldAt m.bankA.count 4 |||
    fieldAt m.bankB.count 6 ||| bitAt m.imageLost 8

/-- Status word 2: the cursor divided by 4 while a bank is in RESYNC. -/
def Mirror.status2 (m : Mirror) : Word :=
  if m.source.isSome then BitVec.ofNat 16 (m.cursor / 4) else 0

/-- Status word 3: the slot holder set sizes. -/
def Yard.status3 (y : Yard) : Word :=
  fieldAt (y.groups.get 0).holders.length 0 ||| fieldAt (y.groups.get 1).holders.length 4 |||
    fieldAt (y.groups.get 2).holders.length 8 ||| fieldAt (y.groups.get 3).holders.length 12

/-- Status words 4 and 5: the queue lengths of two groups. -/
def Yard.queueWord (y : Yard) (g h : GroupNum) : Word :=
  fieldAt (y.groups.get g).queue.length 0 ||| fieldAt (y.groups.get h).queue.length 8

/-- Status word 6: authorized masters in the low byte, LIVE stations in the high byte. -/
def State.status6 (s : State) : Word :=
  masterNumbers.foldl
    (fun w m => w ||| bitAt (s.role m).authorized m.val ||| bitAt (s.role m).live (8 + m.val)) 0

/-- R164: the status word at an offset. -/
def State.statusWord (s : State) (offset : Nat) : Word :=
  match offset with
  | 0 => s.status0
  | 1 => s.mirror.status1
  | 2 => s.mirror.status2
  | 3 => s.yard.status3
  | 4 => s.yard.queueWord 0 1
  | 5 => s.yard.queueWord 2 3
  | 6 => s.status6
  | 7 => s.timeStamp
  | _ => 0

/-! ## The served word of an access (R128) -/

/-- A word composed from a door record; 0 where there is none, which no window in force reaches (R121). -/
def State.doorWord (s : State) (d : Nat) (f : Door → Word) : Word :=
  ((s.door? d).map f).getD 0

/-- R128: the word served at an offset of a window of a kind; PLAIN, SENSOR and ORDER words are not served. -/
def State.servedWord (s : State) (kind : WindowKind) (offset : Nat) : Word :=
  match kind with
  | .command doorBase => s.doorWord (doorBase + offset) (Door.commandWord (doorBase + offset))
  | .indication doorBase =>
    if offset % 2 = 0 then s.doorWord (doorBase + offset / 2) Door.stateWord
    else s.doorWord (doorBase + offset / 2) Door.alarmWord
  | .capture => s.ring.word offset
  | .status => s.statusWord offset
  | .plain => 0
  | .sensor _ => 0
  | .order => 0

end Sys2Proof.Machine
end

