-- ==== Sys2Proof/Machine/Orders.lean ====
section
/-! DEFINITION. The vessel mode and command-station unit (05) and the takes of the eleven orders (R80, R132). -/

namespace Sys2Proof.Machine

/-- R160: the details of an ORDER_REFUSED capture. -/
inductive OrderRefusal | writer | badValue | state | busy
  deriving DecidableEq, Repr

/-- R160: an order refusal's number. -/
def OrderRefusal.code : OrderRefusal → Nat
  | .writer => 1
  | .badValue => 2
  | .state => 3
  | .busy => 4

/-- R80: an order's take: refused with a detail; taken, with the state it leaves; or, for ATTACH alone, a mismatch
(R98), which changes the state and is answered ERROR. -/
inductive OrderResult
  | refused (detail : OrderRefusal)
  | taken (s : State)
  | mismatch (s : State)
  deriving DecidableEq, Repr

/-! ## Holder, transfer, lapse (R85 to R94) -/

/-- R87: a holder as a master number, 15 for VACANT. -/
def holderCode : Option Master → Nat
  | some m => m.val
  | none => Config.partMaster

/-- R87: who makes a capture: a master's order at an address, or the part. -/
inductive CaptureSource | order (m : Master) (addr : Addr) | part
  deriving DecidableEq, Repr

/-- A capture of a kind from its source. -/
def CaptureSource.capture (src : CaptureSource) (kind detail : Nat) (data : Word) : Capture :=
  match src with
  | .order m addr => Capture.ofMaster kind m addr detail data
  | .part => Capture.ofPart kind detail data

/-- R87: a change of holder, with its HOLDER_CHANGED capture; a pending transfer has ended (R86). -/
def State.changeHolder (s : State) (src : CaptureSource) (new : Option Master) (detail : Nat) :
    State :=
  State.capture { s with command := { s.command with holder := new, transfer := none } }
    (src.capture 17 detail
      (fieldAt (holderCode new) 0 ||| fieldAt (holderCode s.command.holder) 8))

/-- R87: the end of a pending transfer without a change of holder, with its TRANSFER_ENDED capture. -/
def State.endTransfer (s : State) (src : CaptureSource) (requester : Master) (detail : Nat) :
    State :=
  State.capture { s with command := { s.command with transfer := none } }
    (src.capture 18 detail (fieldAt requester.val 0))

/-- R90 step 2: the detail of a STATION_LAPSED capture. -/
def State.lapseDetail (s : State) (m : Master) : Nat :=
  if s.command.holder = some m then 1
  else if s.command.transfer.map (·.requester) = some m then 2
  else 0

/-- R90: a station lapses. -/
def State.lapse (s : State) (m : Master) : State :=
  let s1 := (s.setRole m (.station none)).capture
    (Capture.ofPart 16 (s.lapseDetail m) (fieldAt m.val 0))
  match s1.command.transfer with
  | some t =>
    if t.requester = m then s1.endTransfer .part m 4
    else if s1.command.holder = some m then s1.changeHolder .part (some t.requester) 6
    else s1
  | none => if s1.command.holder = some m then s1.changeHolder .part none 5 else s1

/-! ## MODE, ZONE_CLOSE (R81 to R83) -/

/-- R82: a change of vessel mode. -/
def State.changeMode (s : State) (m : Master) (addr : Addr) (v : VesselMode) : State :=
  let old := (s.command.mode.map modeCode).getD 0
  let s1 := State.capture { s with command := { s.command with mode := some v } }
    (Capture.ofMaster 19 m addr old (fieldAt (modeCode v) 0))
  (s1.setYard (s1.yard.modeChange s1.env)).endTakeAll

/-- R81: the MODE order. -/
def State.takeMode (s : State) (m : Master) (addr : Addr) (w : Word) : OrderResult :=
  if s.command.holder ≠ some m then .refused .writer
  else
    match modeOf w with
    | none => .refused .badValue
    | some v => if s.command.mode = some v then .taken s else .taken (s.changeMode m addr v)

/-- R83: the ZONE_CLOSE order. -/
def State.takeZoneClose (s : State) (m : Master) (w : Word) : OrderResult :=
  if s.command.holder ≠ some m then .refused .writer
  else .taken ((s.setYard (s.yard.zoneClose s.env w)).endTake s.yard)

/-! ## DOOR_CLEAR, ALARM_ACK, BASELINE (R59, R62, R107) -/

/-- R59: the DOOR_CLEAR order. -/
def State.takeDoorClear (s : State) (m : Master) (w : Word) : OrderResult :=
  if s.command.holder ≠ some m then .refused .writer
  else
    match doorSelectOf w s.doorCount with
    | none => .refused .badValue
    | some sel =>
      .taken ((s.setYard (s.yard.forSelected sel fun y d => y.clearDoor s.env d)).endTake s.yard)

/-- R107: the ALARM_ACK order. -/
def State.takeAlarmAck (s : State) (m : Master) (w : Word) : OrderResult :=
  if !(s.role m).isStation then .refused .writer
  else
    match doorSelectOf w s.doorCount with
    | none => .refused .badValue
    | some sel => .taken ((s.setYard (s.yard.forSelected sel Yard.acknowledgeDoor)).endTake s.yard)

/-- R62: the BASELINE order. -/
def State.takeBaseline (s : State) (m : Master) (w : Word) : OrderResult :=
  if s.command.holder = some m ∨ (s.role m).isService then .taken (s.setYard (s.yard.baseline w))
  else .refused .writer

/-! ## CAPTURE_RELEASE, RELOAD, RESYNC (R153, R162, R168) -/

/-- R162: the CAPTURE_RELEASE order. -/
def State.takeCaptureRelease (s : State) (m : Master) (w : Word) : OrderResult :=
  if (s.role m).isStation || (s.role m).isService then
    match releaseCountOf w with
    | none => .refused .badValue
    | some n => .taken { s with ring := s.ring.release n }
  else .refused .writer

/-- R168: the RELOAD order; a held image is discarded. -/
def State.takeReload (s : State) (m : Master) (w : Word) : OrderResult :=
  if !(s.role m).isService then .refused .writer
  else if !confirmOf w then .refused .badValue
  else if s.loader.reload = .reloading then .refused .busy
  else .taken { s with loader := { s.loader with reload := .reloading } }

/-- R153: the bank that a RESYNC order would put in RESYNC, or why it is refused. -/
def Mirror.resyncTarget (m : Mirror) : Except OrderRefusal BankId :=
  if m.bankA.state = .resync ∨ m.bankB.state = .resync then .error .busy
  else if m.imageLost then .error .state
  else
    match m.bankA.state, m.bankB.state with
    | .failed, .inService => .ok .bankA
    | .inService, .failed => .ok .bankB
    | _, _ => .error .state

/-- R153: the RESYNC order. -/
def State.takeResync (s : State) (m : Master) (w : Word) : OrderResult :=
  if s.command.holder = some m ∨ (s.role m).isService then
    if !confirmOf w then .refused .badValue
    else
      match s.mirror.resyncTarget with
      | .error r => .refused r
      | .ok b => .taken (State.judgeFault { s with mirror := s.mirror.startResync b })
  else .refused .writer

/-! ## TRANSFER (R91 to R93) -/

/-- R91, R92: TRANSFER REQUEST: command taken while VACANT, or the pending record created. -/
def State.takeRequest (s : State) (m : Master) (addr : Addr) : OrderResult :=
  match s.command.holder, s.command.transfer with
  | none, _ => .taken (s.changeHolder (.order m addr) (some m) 1)
  | some h, none =>
    if h = m then .refused .state
    else
      .taken { s with command :=
        { s.command with transfer := some { requester := m, start := s.clock } } }
  | some _, some _ => .refused .state

/-- R91, R93: TRANSFER ACCEPT: the requester becomes holder. -/
def State.takeAccept (s : State) (m : Master) (addr : Addr) : OrderResult :=
  match s.command.transfer with
  | some t =>
    if s.command.holder = some m then .taken (s.changeHolder (.order m addr) (some t.requester) 2)
    else .refused .state
  | none => .refused .state

/-- R91, R93: TRANSFER DECLINE. -/
def State.takeDecline (s : State) (m : Master) (addr : Addr) : OrderResult :=
  match s.command.transfer with
  | some t =>
    if s.command.holder = some m then .taken (s.endTransfer (.order m addr) t.requester 1)
    else .refused .state
  | none => .refused .state

/-- R91, R93: TRANSFER CANCEL. -/
def State.takeCancel (s : State) (m : Master) (addr : Addr) : OrderResult :=
  match s.command.transfer with
  | some t =>
    if t.requester = m then .taken (s.endTransfer (.order m addr) t.requester 2)
    else .refused .state
  | none => .refused .state

/-- R91, R93: TRANSFER RELINQUISH. -/
def State.takeRelinquish (s : State) (m : Master) (addr : Addr) : OrderResult :=
  if s.command.holder = some m then
    match s.command.transfer with
    | some t => .taken (s.changeHolder (.order m addr) (some t.requester) 4)
    | none => .taken (s.changeHolder (.order m addr) none 3)
  else .refused .state

/-- R91: the TRANSFER order: writer, value, then the kind against holder and record. -/
def State.takeTransfer (s : State) (m : Master) (addr : Addr) (w : Word) : OrderResult :=
  if !(s.role m).isStation then .refused .writer
  else
    match transferKindOf w with
    | none => .refused .badValue
    | some .request => s.takeRequest m addr
    | some .accept => s.takeAccept m addr
    | some .decline => s.takeDecline m addr
    | some .cancel => s.takeCancel m addr
    | some .relinquish => s.takeRelinquish m addr

/-! ## HEARTBEAT, ATTACH (R88, R98) -/

/-- R88: the HEARTBEAT order: the station is LIVE with its timer started at the write. -/
def State.takeHeartbeat (s : State) (m : Master) : OrderResult :=
  if (s.role m).isStation then .taken (s.setRole m (.station (some s.clock)))
  else .refused .writer

/-- R98: the ATTACH order of a scanner with its range. -/
def State.attachScanner (s : State) (m : Master) (addr : Addr) (w : Word) (first count : Nat)
    (was : Bool) (given : Nat × Nat) : OrderResult :=
  if given = (first, count) then
    let s1 := s.setRole m (.scanner first count true)
    .taken (((s1.setYard (s1.yard.reattach s1.env m)).capture
      (Capture.ofMaster 14 m addr 0 w)).endTake s.yard)
  else
    let s1 := s.setRole m (.scanner first count false)
    .mismatch (((s1.setYard (s1.yard.staleDoors s1.env (s1.yard.ownedBy m))).capture
      (Capture.ofMaster 15 m addr (if was then 1 else 0) w)).endTake s.yard)

/-- R98: the ATTACH order. -/
def State.takeAttach (s : State) (m : Master) (addr : Addr) (w : Word) : OrderResult :=
  match s.role m with
  | .scanner first count was =>
    match attachOf w with
    | none => .refused .badValue
    | some given => s.attachScanner m addr w first count was given
  | _ => .refused .writer

/-! ## The order of an offset (R132) -/

/-- R132: the take of the order at an offset of an ORDER window. -/
def State.takeOrder (s : State) (offset : Nat) (m : Master) (addr : Addr) (w : Word) :
    OrderResult :=
  match offset with
  | 0 => s.takeMode m addr w
  | 1 => s.takeZoneClose m w
  | 2 => s.takeDoorClear m w
  | 3 => s.takeAlarmAck m w
  | 4 => s.takeBaseline m w
  | 5 => s.takeCaptureRelease m w
  | 6 => s.takeReload m w
  | 7 => s.takeResync m w
  | 8 => s.takeTransfer m addr w
  | 9 => s.takeHeartbeat m
  | _ => s.takeAttach m addr w

end Sys2Proof.Machine
end

