-- ==== Sys2Proof/Machine/AccessPath.lean ====
section
/-! DEFINITION. The access path (07) with the access rules and rate meters (08): the stages of R117, one definition each,
and the arrival of an access. -/

namespace Sys2Proof.Machine

/-- What a stage leaves: the access ended there, or it goes on, perhaps rewritten. -/
inductive Stage
  | ended (s : State)
  | goesOn (s : State) (a : Access)
  deriving DecidableEq, Repr

/-- An access refused with ERROR and no capture. -/
def State.refuse (s : State) : State := s.answer .error

/-- An access refused with ERROR and a capture. -/
def State.refuseWith (s : State) (c : Capture) : State := (s.capture c).answer .error

/-! ## Lane assembly (R122 to R124) -/

/-- R123: the capture of an abandoned slot, by an access (master, detail 1) or an apply (15, detail 2). -/
def abandonCapture (master detail : Nat) (slot : Slot) : Capture :=
  { kind := 8, master := master, addr := slot.addr, detail := detail, data := inLane slot.lane slot.byte }

/-- R123: a master's present slot abandoned by its own access. -/
def State.abandonSlot (s : State) (m : Master) : State :=
  match s.path.slots.get m with
  | some slot => (s.setSlot m none).capture (abandonCapture m.val 1 slot)
  | none => s

/-- R124: the detail of a LANE_REFUSED capture. -/
def laneCode : Lane → Nat
  | .low => 1
  | .high => 2

/-- R122: a byte held in the master's slot, which is absent or whose byte it replaces; DONE at once. -/
def State.holdByte (s : State) (a : Access) (l : Lane) (b : Byte) : Stage :=
  .ended ((s.setSlot a.master (some { addr := a.addr, lane := l, byte := b })).answer (.done none))

/-- R122: a single-lane write to an assembled word in LANE mode. -/
def State.assemble (s : State) (a : Access) (l : Lane) (b : Byte) : Stage :=
  match s.path.slots.get a.master with
  | none => s.holdByte a l b
  | some slot =>
    if slot.addr = a.addr then
      if slot.lane = l then s.holdByte a l b
      else
        .goesOn (s.setSlot a.master none)
          { a with lanes := .both, op := .write (joinHalves l b slot.byte) }
    else (s.abandonSlot a.master).holdByte a l b

/-- R122, R124: a write's single lane, where its word is one of the assembled kinds. -/
def assembledLane (a : Access) (f : Found) : Option Lane :=
  if a.isWrite && f.kind.assembled then a.lanes.single? else none

/-- R122 to R124: the lane assembly stage. -/
def State.laneStage (s : State) (a : Access) (f : Found) : Stage :=
  match assembledLane a f with
  | some l =>
    if s.role a.master = .absent then .ended s.refuse
    else if s.path.laneMode then s.assemble a l (laneByte l a.written)
    else .ended (s.refuseWith (Capture.ofMaster 7 a.master a.addr (laneCode l) a.written))
  | none => .goesOn (s.abandonSlot a.master) a

/-! ## Master check (R126, R127) -/

/-- R160: the details of a WRITE_REFUSED capture. -/
inductive WriteRefusal | unauthorized | readOnly | notHolder | notOwner | role | outsideImage
  deriving DecidableEq, Repr

/-- R160: a write refusal's number. -/
def WriteRefusal.code : WriteRefusal → Nat
  | .unauthorized => 1
  | .readOnly => 2
  | .notHolder => 3
  | .notOwner => 4
  | .role => 5
  | .outsideImage => 6

/-- A write refused with a WRITE_REFUSED capture. -/
def State.refuseWrite (s : State) (a : Access) (r : WriteRefusal) : State :=
  s.refuseWith (Capture.ofMaster 2 a.master a.addr r.code a.written)

/-- R97: a door lies in a scanner's range. -/
def inRange (first count door : Nat) : Bool := first ≤ door && door < first + count

/-- R127: why the permission matrix refuses a write, none where it allows it. -/
def State.matrixRefusal (s : State) (m : Master) (f : Found) : Option WriteRefusal :=
  match f.kind with
  | .plain => if s.role m = .observer then some .role else none
  | .command _ => if s.command.holder = some m then none else some .notHolder
  | .sensor doorBase =>
    match s.role m with
    | .scanner first count _ =>
      if inRange first count (doorBase + f.offset) then none else some .notOwner
    | _ => some .notOwner
  | .indication _ => some .readOnly
  | .capture => some .readOnly
  | .status => some .readOnly
  | .order => none

/-- R127: the permission matrix. It refuses no read. -/
def State.matrix (s : State) (a : Access) (f : Found) : Stage :=
  if a.isWrite then
    match s.matrixRefusal a.master f with
    | some r => .ended (s.refuseWrite a r)
    | none => .goesOn s a
  else .goesOn s a

/-- R126: the writes excepted from every unauthorized behaviour: a SCANNER's ATTACH, a STATION's HEARTBEAT. -/
def excepted (r : Role) (a : Access) (f : Found) : Bool :=
  a.isWrite && f.kind == .order &&
    ((r.isScanner && f.offset == 10) || (r.isStation && f.offset == 9))

/-- R126: the reads that RESTRICT keeps. -/
def WindowKind.restrictKeeps : WindowKind → Bool
  | .indication _ => true
  | .status => true
  | _ => false

/-- R126: an access taken by an unauthorized master's behaviour. -/
def State.unauthorized (s : State) (a : Access) (f : Found) : Stage :=
  if a.isWrite then
    match (s.masters.get a.master).behaviour with
    | .trap => .ended (s.refuseWrite a .unauthorized)
    | .drop => .ended s.refuse
    | .restrict => .ended s.refuse
  else
    match (s.masters.get a.master).behaviour with
    | .restrict => if f.kind.restrictKeeps then s.matrix a f else .ended s.refuse
    | .drop => s.matrix a f
    | .trap => s.matrix a f

/-- R126: the master check stage. -/
def State.masterStage (s : State) (a : Access) (f : Found) : Stage :=
  let r := s.role a.master
  if r = .absent then .ended s.refuse
  else if r.authorized || excepted r a f then s.matrix a f
  else s.unauthorized a f

/-! ## Rule list (R134 to R142) -/

/-- R134: the direction test. -/
def RuleDirection.holds : RuleDirection → Bool → Bool
  | .read, isWrite => !isWrite
  | .write, isWrite => isWrite
  | .either, _ => true

/-- R134: the window test. -/
def windowTest (window : Option (Fin 16)) (found : Option Nat) : Bool :=
  match window with
  | none => true
  | some k => found == some k.val

/-- R134: the data test. -/
def Rule.dataTest (r : Rule) (a : Access) : Bool :=
  if a.isWrite then a.written &&& r.mask == r.value &&& r.mask else r.mask == 0

/-- R135: the basic result of a rule. -/
def Rule.basic (r : Rule) (a : Access) (f : Found) : Bool :=
  r.masters.getLsbD a.master.val && windowTest r.window f.window &&
    r.direction.holds a.isWrite && r.dataTest a

/-- R135: whether a rule matches; a read matches no rule that looks at data. -/
def Rule.matchesAccess (r : Rule) (a : Access) (f : Found) : Bool :=
  (r.basic a f != r.invert) && (a.isWrite || r.mask == 0)

/-- R136: the first enabled rule that matches, with its index. -/
def firstMatch (a : Access) (f : Found) : List (Option Rule) → Nat → Option (Nat × Rule)
  | [], _ => none
  | none :: rest, i => firstMatch a f rest (i + 1)
  | some r :: rest, i => if r.matchesAccess a f then some (i, r) else firstMatch a f rest (i + 1)

/-- R137, R139: detail 1 for a read, 2 for a write. -/
def directionCode (isWrite : Bool) : Nat := if isWrite then 2 else 1

/-- R138: the data that FORCE leaves, on the written lanes alone. -/
def forced (a : Access) (w value mask : Word) : Word :=
  let m := onLanes a.lanes mask
  (w &&& ~~~m) ||| (value &&& m)

/-- R138: an access after FORCE: a write is rewritten, a read goes on unchanged. -/
def Access.force (a : Access) (value mask : Word) : Access :=
  match a.op with
  | .read => a
  | .write w => { a with op := .write (Machine.forced a w value mask) }

/-- One meter replaced. -/
def State.setMeter (s : State) (m : Fin 8) (r : Meter) : State :=
  { s with meters := setAt s.meters m r }

/-- R140, R142: an access that pays a token, or is refused for want of one. -/
def State.payToken (s : State) (a : Access) (rule : Nat) (m : Fin 8) : Stage :=
  let r := s.meters.get m
  if 0 < r.tokens then .goesOn (s.setMeter m { r with tokens := r.tokens - 1 }) a
  else if r.exceeded then .ended s.refuse
  else
    .ended ((s.setMeter m { r with exceeded := true }).refuseWith
      (Capture.ofMaster 6 a.master a.addr m.val (BitVec.ofNat 16 rule)))

/-- R137 to R140: the deciding rule's action. -/
def State.act (s : State) (a : Access) (rule : Nat) (action : Action) : Stage :=
  match action with
  | .permit => .goesOn s a
  | .refuse =>
    .ended (s.refuseWith
      (Capture.ofMaster 4 a.master a.addr (directionCode a.isWrite) (BitVec.ofNat 16 rule)))
  | .refuseQuiet => .ended s.refuse
  | .force value mask => .goesOn s (Access.force a value mask)
  | .trap =>
    .goesOn (s.capture
      (Capture.ofMaster 5 a.master a.addr (directionCode a.isWrite) (BitVec.ofNat 16 rule))) a
  | .meter m => s.payToken a rule m

/-- R136: the rule list stage. -/
def State.ruleStage (s : State) (a : Access) (f : Found) : Stage :=
  match firstMatch a f s.rules 0 with
  | none => .goesOn s a
  | some (i, r) => s.act a i r.action

/-! ## Kind processing (R128 to R132). `orig` is the access as the arbiter presented it -/

/-- R128: a served read. -/
def State.serve (s : State) (a : Access) (f : Found) : State :=
  s.answer (.done (some (onLanes a.lanes (s.servedWord f.kind f.offset))))

/-- R129: an address below the image size. -/
def Mirror.insideImage (m : Mirror) (addr : Addr) : Bool := addr.toNat < m.imageSize

/-- R129: a read forwarded, or refused outside the image. -/
def State.plainRead (s : State) (orig a : Access) : State :=
  if s.mirror.insideImage a.addr then s.forwardRead orig a.addr a.lanes
  else s.refuseWith (Capture.ofMaster 3 a.master a.addr 6 0)

/-- R129: a PLAIN write forwarded, or refused outside the image. -/
def State.plainWrite (s : State) (orig a : Access) (w : Word) : State :=
  if s.mirror.insideImage a.addr then s.forwardWrite orig a.addr a.lanes w .answerOnly .error
  else s.refuseWrite a .outsideImage

/-- R130, R32: a station request for a door. -/
def State.stationWrite (s : State) (a : Access) (door : Nat) (w : Word) : State :=
  match s.yard.stationRequest s.env door w with
  | .ok y => ((s.setYard y).endTake s.yard).answer (.done none)
  | .error r => s.refuseWith (Capture.ofMaster 9 a.master a.addr r.code w)

/-- R131: a sensor report forwarded, then taken; taken and answered DONE while the image is lost. -/
def State.sensorWrite (s : State) (orig a : Access) (door : Nat) (w : Word) : State :=
  s.forwardWrite orig a.addr a.lanes w (.sensorTake door w s.clock) (.done none)

/-- R80, R132: an order taken and forwarded, or refused. -/
def State.orderWrite (s : State) (orig a : Access) (offset : Nat) (w : Word) : State :=
  match s.takeOrder offset a.master a.addr w with
  | .taken t => t.forwardWrite orig a.addr a.lanes w .answerOnly (.done none)
  | .refused r => s.refuseWith (Capture.ofMaster 10 a.master a.addr r.code w)
  | .mismatch t => t.answer .error

/-- R128 to R132: the processing of a kind. Writes to the read-only kinds end at the master check. -/
def State.process (s : State) (orig a : Access) (f : Found) : State :=
  match a.op with
  | .read =>
    match f.kind with
    | .plain => s.plainRead orig a
    | .sensor _ => s.plainRead orig a
    | .order => s.plainRead orig a
    | .command _ => s.serve a f
    | .indication _ => s.serve a f
    | .capture => s.serve a f
    | .status => s.serve a f
  | .write w =>
    match f.kind with
    | .plain => s.plainWrite orig a w
    | .sensor doorBase => s.sensorWrite orig a (doorBase + f.offset) w
    | .order => s.orderWrite orig a f.offset w
    | .command doorBase => s.stationWrite a (doorBase + f.offset) w
    | .indication _ => s.refuseWrite a .readOnly
    | .capture => s.refuseWrite a .readOnly
    | .status => s.refuseWrite a .readOnly

/-! ## The whole path (R117) -/

/-- A stage followed by the next. -/
def Stage.andThen (st : Stage) (next : State → Access → Stage) : Stage :=
  match st with
  | .ended s => .ended s
  | .goesOn s a => next s a

/-- R117 stages 4 to 6: lane assembly, master check, rule list. -/
def State.admission (s : State) (a : Access) (f : Found) : Stage :=
  (s.laneStage a f).andThen fun s1 a1 =>
    (s1.masterStage a1 f).andThen fun s2 a2 => s2.ruleStage a2 f

/-- R117 stages 3 to 8, in RUNNING: window lookup, the stages that let the access in, its kind's processing. -/
def State.runAccess (s : State) (a : Access) : State :=
  let f := s.lookup a.addr
  match s.admission a f with
  | .ended t => t
  | .goesOn t b => t.process a b f

/-- R117, R118, R119: an access presented at the idle upstream port, by the part state. -/
def State.present (s : State) (a : Access) : State :=
  match s.part with
  | .inReset => s.setUpstream (.held a)
  | .loading _ => s.setUpstream (.held a)
  | .transparent => s.setUpstream (.waiting a .transparent)
  | .running => s.runAccess a

/-- R116: the arrival of an access. The arbiter presents none while one is unanswered (log 4). -/
def State.arrive (s : State) (a : Access) : State :=
  if s.path.upstream = .idle then s.present a else s

/-- A whole-word write (lanes BOTH). -/
def wordWrite (m : Master) (addr : Addr) (w : Word) : Access :=
  { master := m, addr := addr, lanes := .both, op := .write w }

/-- A read. -/
def readOf (m : Master) (addr : Addr) (l : Lanes) : Access :=
  { master := m, addr := addr, lanes := l, op := .read }

end Sys2Proof.Machine
end

