-- ==== Sys2Proof/Machine/Settings.lean ====
section
/-! DEFINITION. The settings image (R165): a load attempt over the bytes that the settings memory acknowledged, with the
checks of R121 and R133, down to the settings it gives or the cause of its fault. -/

namespace Sys2Proof.Machine

/-- R165: the faults of a load attempt. -/
inductive LoadFault | noAcknowledge | badTag | tooLong | crcMismatch | rangeViolation
  deriving DecidableEq, Repr

/-- R165: a load fault's cause number, the detail of RELOAD_FAILED. -/
def LoadFault.code : LoadFault → Nat
  | .noAcknowledge => 1
  | .badTag => 2
  | .tooLong => 3
  | .crcMismatch => 4
  | .rangeViolation => 5

/-! ## Bytes, fields and tables -/

/-- A byte of a body. -/
def byteAt (b : List Byte) (o : Nat) : Nat := (b.getD o 0).toNat

/-- A two-byte field, high byte first. -/
def wordAt (b : List Byte) (o : Nat) : Nat := byteAt b o * 256 + byteAt b (o + 1)

/-- A three-byte field, high byte first. -/
def tripleAt (b : List Byte) (o : Nat) : Nat := byteAt b o * 65536 + wordAt b (o + 1)

/-- A field's value, if it lies in the range the manual gives for it. -/
def within (lo hi v : Nat) : Option Nat := if lo ≤ v ∧ v ≤ hi then some v else none

/-- A flag byte: 0 clear, 1 set, nothing else. -/
def flagByte (v : Nat) : Option Bool :=
  match v with
  | 0 => some false
  | 1 => some true
  | _ => none

/-- A number as an element of `Fin n`. -/
def finOf (n v : Nat) : Option (Fin n) := if h : v < n then some ⟨v, h⟩ else none

/-- A value that must meet a check. -/
def checked {α : Type} (ok : Bool) (x : α) : Option α := if ok then some x else none

/-- All the values of a list, if none is missing. -/
def allSome {α : Type} : List (Option α) → Option (List α)
  | [] => some []
  | none :: _ => none
  | some x :: rest => (allSome rest).map (x :: ·)

/-- A table of eight records, if none is missing. -/
def eightSome {α : Type} (f : Fin 8 → Option α) : Option (Vector α 8) := do
  let a ← f 0
  let b ← f 1
  let c ← f 2
  let d ← f 3
  let e ← f 4
  let g ← f 5
  let h ← f 6
  let i ← f 7
  some #v[a, b, c, d, e, g, h, i]

/-- A table of four records, if none is missing. -/
def fourSome {α : Type} (f : Fin 4 → Option α) : Option (Vector α 4) := do
  let a ← f 0
  let b ← f 1
  let c ← f 2
  let d ← f 3
  some #v[a, b, c, d]

/-! ## CRC-16 (R165): polynomial 0x1021, initial value 0xFFFF, most significant bit first, no final inversion -/

/-- `n` bit steps of the register. -/
def crcShift (crc : Word) : Nat → Word
  | 0 => crc
  | n + 1 => crcShift (if crc.getMsbD 0 then (crc <<< 1) ^^^ 0x1021 else crc <<< 1) n

/-- One byte taken in. -/
def crcByte (crc : Word) (b : Byte) : Word := crcShift (crc ^^^ (b.setWidth 16 <<< 8)) 8

/-- The register after a body, as a number; the match has it evaluated byte by byte. -/
def crcFrom : Nat → List Byte → Nat
  | crc, [] => crc
  | crc, b :: rest =>
    match (crcByte (BitVec.ofNat 16 crc) b).toNat with
    | 0 => crcFrom 0 rest
    | n + 1 => crcFrom (n + 1) rest

/-- The CRC of a body. -/
def crcOf (body : List Byte) : Word := BitVec.ofNat 16 (crcFrom 0xFFFF body)

/-! ## Sections of a body -/

/-- The general section's timings. -/
def timingOf (b : List Byte) : Option Timing := do
  let debounce ← within 0 20 (byteAt b 0)
  let activeLimit ← within 2 50 (byteAt b 1)
  let idleLimit ← within 5 300 (wordAt b 2)
  let prewarn ← within 0 100 (byteAt b 4)
  let reclose ← within 10 300 (wordAt b 5)
  let retryDelay ← within 10 600 (wordAt b 7)
  let tripDelay ← within 0 30 (byteAt b 9)
  let retryLimit ← within 0 7 (byteAt b 10)
  let heartbeat ← within 10 100 (byteAt b 11)
  let transfer ← within 50 600 (wordAt b 12)
  let flashPeriod ← within 2 40 (byteAt b 16)
  let flashOn ← within 1 flashPeriod (byteAt b 17)
  some { debounce, activeLimit, idleLimit, prewarn, reclose, retryDelay, tripDelay, retryLimit, heartbeat,
         transfer, flashPeriod, flashOn }

/-- The default mode byte. -/
def defaultModeOf (v : Nat) : Option VesselMode :=
  match v with
  | 1 => some .localControl
  | 2 => some .doorsClosed
  | _ => none

/-- The default holder byte, a master number or 15 for VACANT. -/
def defaultHolderOf (v : Nat) : Option (Option Master) :=
  if v = Config.partMaster then some none else (finOf 8 v).map some

/-- Where the master table, the windows, the rules, the meters, the groups and the doors stand in a body. -/
def masterBase (m : Fin 8) : Nat := 25 + 4 * m.val

/-- A window record's offset in a body. -/
def windowBase (i : Nat) : Nat := 57 + 8 * i

/-- A rule record's offset in a body. -/
def ruleBase (i : Nat) : Nat := 185 + 12 * i

/-- A meter record's offset in a body. -/
def meterBase (m : Fin 8) : Nat := 569 + 2 * m.val

/-- A group's byte in a body. -/
def groupBase (g : Fin 4) : Nat := 585 + g.val

/-- A door record's offset in a body. -/
def doorBaseOf (d : Nat) : Nat := Config.bodyBase + 8 * d

/-- A master record's role, with the range of a scanner, which lies within the door count. -/
def roleOf (b : List Byte) (o doorCount : Nat) : Option RoleSetting :=
  match byteAt b o with
  | 0 => some .absent
  | 1 => some .station
  | 2 => do
    let first ← within 0 95 (byteAt b (o + 2))
    let count ← within 1 96 (byteAt b (o + 3))
    checked (first + count ≤ doorCount) (.scanner first count)
  | 3 => some .service
  | 4 => some .observer
  | _ => none

/-- A master record's unauthorized behaviour. -/
def behaviourOf (v : Nat) : Option Behaviour :=
  match v with
  | 0 => some .drop
  | 1 => some .trap
  | 2 => some .restrict
  | _ => none

/-- A master record. -/
def masterOf (b : List Byte) (doorCount : Nat) (m : Fin 8) : Option MasterSetting := do
  let role ← roleOf b (masterBase m) doorCount
  let behaviour ← behaviourOf (byteAt b (masterBase m + 1))
  some { role, behaviour }

/-- R121: the door base and the number of doors of a window, which do not exceed the door count. -/
def doorSpan (doorBase doors doorCount : Nat) : Option Nat :=
  checked (doorBase ≤ 95 && 1 ≤ doors && doorBase + doors ≤ doorCount) doorBase

/-- R121: an enabled window's kind, by its length and what its kind asks. `below` says that the window lies below the
image size. -/
def windowKindOf (kind length doorBase doorCount : Nat) (below : Bool) : Option WindowKind :=
  match kind with
  | 0 => checked (1 ≤ length && length ≤ 4096 && below) .plain
  | 1 => (doorSpan doorBase length doorCount).map .command
  | 2 => if below then (doorSpan doorBase length doorCount).map .sensor else none
  | 3 =>
    if length % 2 = 0 then (doorSpan doorBase (length / 2) doorCount).map .indication else none
  | 4 => checked (length == 11 && below) .order
  | 5 => checked (length == 6) .capture
  | 6 => checked (length == 8) .status
  | _ => none

/-- An enabled window record. -/
def enabledWindowOf (b : List Byte) (o doorCount imageSize : Nat) : Option Window := do
  let base ← within 0 (Config.addressSpace - 1) (tripleAt b (o + 2))
  let length := wordAt b (o + 5)
  let kind ← windowKindOf (byteAt b (o + 1)) length (byteAt b (o + 7)) doorCount
    (base + length ≤ imageSize)
  checked (base + length ≤ Config.addressSpace) { base := BitVec.ofNat 18 base, length, kind }

/-- A window record; a disabled one gives no window, and its other fields are not examined (R121). -/
def windowOf (b : List Byte) (doorCount imageSize : Nat) (i : Nat) : Option (Option Window) := do
  let enabled ← flagByte (byteAt b (windowBase i))
  if enabled then (enabledWindowOf b (windowBase i) doorCount imageSize).map some else some none

/-- R133: a rule's direction. -/
def ruleDirectionOf (v : Nat) : Option RuleDirection :=
  match v with
  | 0 => some .read
  | 1 => some .write
  | 2 => some .either
  | _ => none

/-- R133: a rule's action, with the fields that are present for it. -/
def actionOf (b : List Byte) (o action : Nat) : Option Action :=
  match action with
  | 0 => some .permit
  | 1 => some .refuse
  | 2 => some .refuseQuiet
  | 3 =>
    some (.force (BitVec.ofNat 16 (wordAt b (o + 8))) (BitVec.ofNat 16 (wordAt b (o + 10))))
  | 4 => some .trap
  | 5 => (finOf 8 (byteAt b (o + 3))).map .meter
  | _ => none

/-- R133: a rule's window: ANY, or the index of an enabled window. -/
def ruleWindowOf (windows : List (Option Window)) (v : Nat) : Option (Option (Fin 16)) :=
  if v = 255 then some none
  else
    match finOf 16 v with
    | none => none
    | some k => checked ((windows.getD k.val none).isSome) (some k)

/-- An enabled rule record. -/
def enabledRuleOf (b : List Byte) (o : Nat) (windows : List (Option Window)) : Option Rule := do
  let flags := byteAt b o
  let direction ← ruleDirectionOf (flags / 4 % 4)
  let action ← actionOf b o (flags / 16)
  let window ← ruleWindowOf windows (byteAt b (o + 2))
  some
    { masters := BitVec.ofNat 8 (byteAt b (o + 1)), window, direction
      value := BitVec.ofNat 16 (wordAt b (o + 4)), mask := BitVec.ofNat 16 (wordAt b (o + 6))
      invert := flags / 2 % 2 == 1, action }

/-- A rule record; a disabled one gives no rule, and its other fields are not judged (R133). -/
def ruleOf (b : List Byte) (windows : List (Option Window)) (i : Nat) : Option (Option Rule) :=
  if byteAt b (ruleBase i) % 2 = 1 then (enabledRuleOf b (ruleBase i) windows).map some
  else some none

/-- A meter record. -/
def meterOf (b : List Byte) (m : Fin 8) : Option MeterSetting := do
  let rate ← within 1 255 (byteAt b (meterBase m))
  let burst ← within 1 255 (byteAt b (meterBase m + 1))
  some { rate, burst }

/-- A group's slot count. -/
def slotCountOf (b : List Byte) (g : Fin 4) : Option Nat := within 1 8 (byteAt b (groupBase g))

/-- A door's class, with the power group of a POWERED door. -/
def doorClassOf (cls group : Nat) : Option DoorClass :=
  match cls with
  | 0 => (finOf 4 group).map .powered
  | 1 => some .indicated
  | _ => none

/-- R1: a door's scanner field names a scanner whose range holds the door. -/
def scannerHolds (masters : Vector MasterSetting 8) (m : Master) (d : Nat) : Bool :=
  match (masters.get m).role with
  | .scanner first count => inRange first count d
  | _ => false

/-- A door record. -/
def doorOf (b : List Byte) (masters : Vector MasterSetting 8) (d : Nat) : Option DoorStatic := do
  let o := doorBaseOf d
  let cls ← doorClassOf (byteAt b o) (byteAt b (o + 2))
  let zone ← finOf 16 (byteAt b (o + 1))
  let scanner ← finOf 8 (byteAt b (o + 3))
  let travelLimit ← within 10 600 (wordAt b (o + 4))
  let margin ← within 1 255 (byteAt b (o + 7))
  checked (scannerHolds masters scanner d)
    { cls, zone, scanner, travelLimit, initialBaseline := byteAt b (o + 6), margin }

/-! ## Checks over several records -/

/-- A master setting of role STATION. -/
def MasterSetting.isStation (m : MasterSetting) : Bool := m.role == .station

/-- R165: at most three masters have role STATION. -/
def stationsOk (masters : Vector MasterSetting 8) : Bool :=
  (masterNumbers.filter fun m => (masters.get m).isStation).length ≤ 3

/-- R165: the default holder is VACANT or a STATION. -/
def holderOk (masters : Vector MasterSetting 8) (holder : Option Master) : Bool :=
  match holder with
  | none => true
  | some m => (masters.get m).isStation

/-- Whether two scanners' ranges have a door in common. -/
def rangesMeet (a b : RoleSetting) : Bool :=
  match a, b with
  | .scanner f c, .scanner g k => f < g + k && g < f + c
  | _, _ => false

/-- R165: no two scanners' ranges overlap. -/
def rangesOk (masters : Vector MasterSetting 8) : Bool :=
  masterNumbers.all fun m => masterNumbers.all fun k =>
    m == k || !rangesMeet (masters.get m).role (masters.get k).role

/-! ## Load attempts -/

/-- R165: the settings that a body gives, none where a check for cause 5 fails. `inForce` is the image size that a
reload's checks use. -/
def settingsOf (b : List Byte) (inForce : Option Nat) : Option Settings := do
  let timing ← timingOf b
  let defaultMode ← defaultModeOf (byteAt b 14)
  let defaultHolder ← defaultHolderOf (byteAt b 15)
  let doorCount ← within 1 Config.maxDoors (byteAt b 18)
  let _ ← checked (b.length == Config.bodyBase + 8 * doorCount) ()
  let fittedA ← flagByte (byteAt b 20)
  let fittedB ← flagByte (byteAt b 21)
  let imageSize := (byteAt b 22 + 1) * 1024
  let masters ← eightSome (masterOf b doorCount)
  let windows ← allSome
    ((List.range 16).map (windowOf b doorCount (inForce.getD imageSize)))
  let rules ← allSome ((List.range 32).map (ruleOf b windows))
  let meters ← eightSome (meterOf b)
  let slotCounts ← fourSome (slotCountOf b)
  let doors ← allSome ((List.range doorCount).map (doorOf b masters))
  checked (stationsOk masters && holderOk masters defaultHolder && rangesOk masters)
    { timing, defaultMode, defaultHolder, fittedA, fittedB, imageSize
      readMap := BitVec.ofNat 16 (wordAt b 23), masters, windows, rules, meters, slotCounts, doors }

/-- R165: what a load attempt gives over the bytes that the memory acknowledged, from byte 0 on: bytes beyond the header
and the body are not read, and missing ones were not acknowledged. -/
def loadAttempt (bytes : List Byte) (inForce : Option Nat) : Except LoadFault Settings :=
  let length := wordAt bytes 4
  let body := (bytes.drop 8).take length
  if bytes.length < 8 then .error .noAcknowledge
  else if wordAt bytes 0 ≠ Config.formatTag ∨ wordAt bytes 2 ≠ 1 then .error .badTag
  else if Config.maxBody < length then .error .tooLong
  else if body.length < length then .error .noAcknowledge
  else if crcOf body ≠ BitVec.ofNat 16 (wordAt bytes 6) then .error .crcMismatch
  else
    match settingsOf body inForce with
    | some settings => .ok settings
    | none => .error .rangeViolation

end Sys2Proof.Machine
end

