-- ==== Sys2Proof/Machine/System.lean ====
section
/-! DEFINITION. Resets (R118, R166), start-up loading (R167), entry to RUNNING and to TRANSPARENT. -/

namespace Sys2Proof.Machine

/-! ## New records -/

/-- The record of a door whose freshness timer starts at a moment: at entry to RUNNING (R3, R20, R48, R102), or added by
an apply (R19). -/
def Door.fresh (st : DoorStatic) (start : Nat) : Door :=
  { Door.blank with
    static := some st
    inp := { InputPart.blank with freshness := some start }
    prot := { Protection.blank with baseline := st.initialBaseline } }

/-- R141, R144: a meter filled at a moment. -/
def Meter.full (m : MeterSetting) (start : Nat) : Meter :=
  { rate := m.rate, burst := m.burst, tokens := m.burst, exceeded := false, start := start, refills := 0 }

/-- R84, R97, R125: a role newly taken: a STATION is LIVE from a moment, a SCANNER unauthorized. -/
def RoleSetting.enter (start : Nat) : RoleSetting → Role
  | .absent => .absent
  | .station => .station (some start)
  | .scanner first count => .scanner first count false
  | .service => .service
  | .observer => .observer

/-! ## Reset (R118, R166) -/

/-- R118: the access in progress, as the arbiter presented it, goes back to the start-up hold. -/
def Upstream.hold : Upstream → Upstream
  | .idle => .idle
  | .held a => .held a
  | .waiting a _ => .held a

/-- R118: what an abandoned access leaves in the banks. A copy step is taken whole (R154), so that a reset finds none in
flight and the target's word at the cursor stands as it was: log 27. -/
def State.abandoned (s : State) : Mirror :=
  match s.path.upstream with
  | .waiting a w => s.mirror.abandonWrites a w
  | .held _ => s.mirror
  | .idle => s.mirror

/-- R166: the kind of a reset in progress: a power-on during which RESET is asserted stays a power-on. -/
def State.lineKind (s : State) : ResetCause :=
  if s.part = .inReset then s.resetKind else .resetLine

/-- R166: a reset begun: every piece of state takes its reset value. The banks are not the part's: they keep what they
hold (log 7). The unanswered access stays held (R118), and the commands that wait still wait. -/
def State.beginReset (s : State) (kind : ResetCause) : State :=
  { State.reset with
    resetKind := kind
    path := { PathState.blank with upstream := s.path.upstream.hold }
    mirror := Mirror.blank s.abandoned.bankA.mem s.abandoned.bankB.mem s.abandoned.free
    pending := s.pending }

/-- R166: RESET released, or power-on ended: the cause recorded, the strap sampled, LOADING entered. -/
def State.release (s : State) (laneStrap : Bool) : State :=
  { s with
    part := .loading 1
    resetCause := s.resetKind
    path := { s.path with laneMode := laneStrap } }

/-! ## Entry to RUNNING (R146, R158, R167) -/

/-- R146: the mirror unit at entry to RUNNING, by present and fitted of each bank. -/
def Mirror.enter (m : Mirror) (img : Settings) (presentA presentB : Bool) : Mirror × List Capture :=
  let m1 :=
    { Mirror.blank m.bankA.mem m.bankB.mem m.free with
      readMap := img.readMap, imageSize := img.imageSize }
  match presentA && img.fittedA, presentB && img.fittedB with
  | true, true => ((m1.modifyBank .bankA fun r => { r with state := .inService }).startResync .bankB, [])
  | true, false => (m1.modifyBank .bankA fun r => { r with state := .inService }, [])
  | false, true => (m1.modifyBank .bankB fun r => { r with state := .inService }, [])
  | false, false => m1.loseImage 3 0

/-- R167: the tables of a good image in force, and each block's entry values. -/
def State.takeTables (s : State) (img : Settings) : State :=
  { s with
    part := .running
    clock := 0
    timing := some img.timing
    path := { s.path with windows := img.windows, slots := Vector.replicate 8 none }
    masters := eight fun m =>
      { role := (img.masters.get m).role.enter 0, behaviour := (img.masters.get m).behaviour }
    rules := img.rules
    meters := eight fun m => Meter.full (img.meters.get m) 0
    yard :=
      { doors := img.doors.map fun st => Door.fresh st 0
        groups := four fun g =>
          { slotCount := some (img.slotCounts.get g), holders := [], queue := [] } }
    command := { mode := some img.defaultMode, holder := img.defaultHolder, transfer := none }
    ring := { entries := [], dropped := 0 }
    loader := { reload := .idle, lastReloadFailed := false } }

/-- R158: the PART_STARTED capture. -/
def State.startedCapture (s : State) (attempts : Nat) : Capture :=
  Capture.ofPart 1 s.resetCause.code (BitVec.ofNat 16 attempts)

/-- R118: READY high; the access at the start-up hold is taken from its first stage. -/
def State.openPort (s : State) : State :=
  let s1 := { s with lines := { s.lines with ready := true } }
  match s.path.upstream with
  | .held a => State.present { s1 with path := { s1.path with upstream := .idle } } a
  | _ => s1

/-- R167: entry to RUNNING, before READY: PART_STARTED first, any IMAGE_LOST after it, alarms and lines judged. -/
def State.enterRunning (s : State) (img : Settings) (attempts : Nat) (presentA presentB : Bool) :
    State :=
  let r := s.mirror.enter img presentA presentB
  (((s.takeTables img).capture (s.startedCapture attempts)).takeMirror r).endTakeAll

/-! ## Entry to TRANSPARENT (R146, R167) -/

/-- R146: the mirror unit in TRANSPARENT: bank A IN_SERVICE, bank B FAILED, no count, no copy, the image not lost. -/
def Mirror.enterTransparent (m : Mirror) : Mirror :=
  { Mirror.blank m.bankA.mem m.bankB.mem m.free with
    bankA := { state := .inService, count := 0, mem := m.bankA.mem }
    bankB := { state := .failed, count := 0, mem := m.bankB.mem } }

/-- R113, R146, R167: TRANSPARENT, before READY: PART_FAULT on. -/
def State.enterTransparent (s : State) : State :=
  State.judgeFault { s with part := .transparent, mirror := s.mirror.enterTransparent }

/-- R167: the start-up load's attempt ended with a fault. -/
def State.loadFault (s : State) (attempt : Nat) : State :=
  if attempt < Config.loadAttempts then { s with part := .loading (attempt + 1) }
  else s.enterTransparent.openPort

/-- R167: a load attempt of the start-up load ends. -/
def State.loadEnd (s : State) (attempt : Nat) (image : List Byte) (presentA presentB : Bool) : State :=
  match loadAttempt image none with
  | .ok img => (s.enterRunning img attempt presentA presentB).openPort
  | .error _ => s.loadFault attempt

/-! ## Meanings -/

/-- POWER_ON (R166). -/
def execPowerOn (s : State) : Host.Outcome State Fault Refusal := .next (s.beginReset .powerOn)

/-- RESET (R166). -/
def execReset (s : State) : Host.Outcome State Fault Refusal := .next (s.beginReset s.lineKind)

/-- RESET_RELEASE (R166). -/
def execResetRelease (laneStrap : Bool) (s : State) : Host.Outcome State Fault Refusal :=
  .next (if s.part = .inReset then s.release laneStrap else s)

/-- LOAD_ATTEMPT_END (R167). -/
def execLoadAttemptEnd (image : List Byte) (presentA presentB : Bool) (s : State) :
    Host.Outcome State Fault Refusal :=
  match s.part with
  | .loading attempt => .next (s.loadEnd attempt image presentA presentB)
  | _ => .next s

end Sys2Proof.Machine
end

