-- ==== Sys2Proof/Machine/Apply.lean ====
section
/-! DEFINITION. Reloads and the apply (R100, R168 to R170, with R19, R77, R109, R111, R123, R144). -/

namespace Sys2Proof.Machine

/-- R169, R170: no door is QUEUED, WARNING or MOVING. -/
def Yard.still (y : Yard) : Bool := y.doors.all fun x => !x.drive.bound

/-! ## Step 1: tables replaced -/

/-- R97, R100, R125: a master's role under its new setting: a STATION that stays one keeps its liveness, a SCANNER with
an unchanged range its authorization. -/
def Role.adjust (old : Role) (new : RoleSetting) (clock : Nat) : Role :=
  match new, old with
  | .station, .station hb => .station hb
  | .scanner f c, .scanner g k auth => .scanner f c (auth && f == g && c == k)
  | r, _ => r.enter clock

/-- R19: the door records under the new static parts: kept ones keep the rest, others are added or discarded. -/
def replaceDoors (clock : Nat) : List Door → List DoorStatic → List Door
  | _, [] => []
  | [], st :: rest => Door.fresh st clock :: replaceDoors clock [] rest
  | x :: doors, st :: rest => { x with static := some st } :: replaceDoors clock doors rest

/-- R111: an apply that changes the flash pattern begins the on phase of a FLASHING line afresh. -/
def GeneralAlarm.repattern (now : GeneralAlarm) (old new : Timing) (clock : Nat) : GeneralAlarm :=
  match now with
  | .flashing p e =>
    if old.flashPeriod = new.flashPeriod ∧ old.flashOn = new.flashOn then .flashing p e
    else .flashing true (clock + new.flashOn)
  | .steady => .steady
  | .off => .off

/-- R170 step 1: the new tables in force whole. -/
def State.replaceTables (s : State) (img : Settings) : State :=
  { s with
    timing := some img.timing
    path := { s.path with windows := img.windows }
    masters := eight fun m =>
      { role := (s.role m).adjust (img.masters.get m).role s.clock
        behaviour := (img.masters.get m).behaviour }
    rules := img.rules
    meters := eight fun m => Meter.full (img.meters.get m) s.clock
    yard :=
      { doors := replaceDoors s.clock s.yard.doors img.doors
        groups := four fun g => { s.yard.groups.get g with slotCount := some (img.slotCounts.get g) } }
    lines :=
      { s.lines with generalAlarm := s.lines.generalAlarm.repattern s.times img.timing s.clock } }

/-! ## Step 2: slots discarded (R123) -/

/-- R123: one master's slot discarded by an apply. -/
def State.discardSlot (s : State) (m : Master) : State :=
  match s.path.slots.get m with
  | some slot => (s.setSlot m none).capture (abandonCapture Config.partMaster 2 slot)
  | none => s

/-- R123: every present slot discarded, in master-number order. -/
def State.discardSlots (s : State) : State := masterNumbers.foldl State.discardSlot s

/-! ## Step 3: masters adjusted (R100) -/

/-- R89: a station whose timer meets the limit in force lapses. -/
def State.judgeHeartbeat (s : State) (m : Master) : State :=
  match s.role m with
  | .station (some start) => if start + s.times.heartbeat ≤ s.clock then s.lapse m else s
  | _ => s

/-- R100 step 3: a requester that is no longer STATION. -/
def State.dropRequester (s : State) : State :=
  match s.command.transfer with
  | some t =>
    if (s.role t.requester).isStation then s else s.endTransfer .part t.requester 5
  | none => s

/-- R100 step 4: a holder that is no longer STATION. -/
def State.dropHolder (s : State) : State :=
  match s.command.holder with
  | some h =>
    if (s.role h).isStation then s
    else
      match s.command.transfer with
      | some t => s.changeHolder .part (some t.requester) 8
      | none => s.changeHolder .part none 7
  | none => s

/-- R94: a transfer timer that meets the limit in force expires. -/
def State.judgeTransfer (s : State) : State :=
  match s.command.transfer with
  | some t =>
    if t.start + s.times.transfer ≤ s.clock then s.endTransfer .part t.requester 3 else s
  | none => s

/-- R100 step 6: a SCANNER that leaves the role or whose range changes. -/
def Role.losesDoors (old : Role) (new : RoleSetting) : Bool :=
  match old with
  | .scanner f c _ => new != .scanner f c
  | _ => false

/-- R19, R100 step 6: the doors that such scanners owned before the apply. -/
def lostDoors (before : List Door) (masters : Vector MasterRec 8) (img : Settings) : List Nat :=
  (List.range before.length).filter fun d =>
    match before[d]? with
    | some x =>
      match x.owner with
      | some m => ((masters.get m).role).losesDoors (img.masters.get m).role
      | none => false
    | none => false

/-- R170 step 3: masters adjusted; `old` is the part before the apply. -/
def State.adjustMasters (s old : State) (img : Settings) : State :=
  let s1 := ((masterNumbers.foldl State.judgeHeartbeat s).dropRequester).dropHolder.judgeTransfer
  s1.setYard (s1.yard.staleDoors s1.env (lostDoors old.yard.doors old.masters img))

/-! ## Steps 4 to 6: doors -/

/-- R170 step 4: a door that is INDICATED under the new settings and was not before. -/
def Door.becomeIndicated (x : Door) : Door :=
  { x with
    drive := if x.drive.isIsolated then .isolated else .resting
    hold := false
    inhibit := .none }

/-- R56, R170 step 4: a trip count under the new retry limit. -/
def Door.clampTrips (retryLimit : Nat) (x : Door) : Door :=
  { x with prot :=
    { x.prot with
      tripCount := if x.inhibit = .latched then retryLimit + 1 else min x.prot.tripCount retryLimit } }

/-- R170 step 4: one door adjusted; `old` is its record before the apply. -/
def Door.adjust (retryLimit : Nat) (old : Option Door) (x : Door) : Door :=
  Door.clampTrips retryLimit
    (if (old.map Door.powered).getD false && !x.powered then x.becomeIndicated else x)

/-- R170 step 4: every door adjusted. -/
def adjustDoors (retryLimit : Nat) : List Door → List Door → List Door
  | _, [] => []
  | [], x :: doors => x.adjust retryLimit none :: adjustDoors retryLimit [] doors
  | o :: before, x :: doors => x.adjust retryLimit (some o) :: adjustDoors retryLimit before doors

/-- R170 steps 4 to 6: doors adjusted, freshness judged, positions derived, in door-number order. -/
def Yard.settleApply (y : Yard) (e : Env) (before : List Door) : Yard :=
  let doors := List.range y.doors.length
  let y1 := { y with doors := adjustDoors e.times.retryLimit before y.doors }
  let y2 := doors.foldl (fun z d => z.judgeFreshness e d) y1
  doors.foldl (fun z d => z.rederive e d) y2

/-- R170: the apply of an image, with RELOAD_DONE's detail. -/
def State.applyImage (s : State) (img : Settings) (detail : Nat) : State :=
  let s1 := ((s.replaceTables img).discardSlots).adjustMasters s img
  let s2 := s1.setYard (s1.yard.settleApply s1.env s.yard.doors)
  let s3 := s2.capture (Capture.ofPart 25 detail 0)
  (s3.setYard (s3.yard.enforceAll s3.env)).endTakeAll

/-! ## The loader (R169) -/

/-- The reload state changed. -/
def State.setReload (s : State) (r : ReloadState) : State :=
  { s with loader := { s.loader with reload := r } }

/-- R169: LAST_RELOAD_FAILED. -/
def State.markReload (s : State) (failed : Bool) : State :=
  { s with loader := { s.loader with lastReloadFailed := failed } }

/-- R169: a reload's attempt ended with a fault. -/
def State.reloadFault (s : State) (f : LoadFault) : State :=
  ((s.setReload .idle).markReload true).capture (Capture.ofPart 26 f.code 0)

/-- R169: a reload's attempt ended good: the image is applied at once, or held. -/
def State.reloadGood (s : State) (img : Settings) : State :=
  if s.yard.still then ((s.setReload .idle).markReload false).applyImage img 1
  else (s.setReload (.applyPending img)).markReload false

/-- R165, R169: a reload's attempt ends; its checks use the image size in force. -/
def State.reloadEnd (s : State) (image : List Byte) : State :=
  match loadAttempt image (some s.mirror.imageSize) with
  | .ok img => s.reloadGood img
  | .error f => s.reloadFault f

/-- R169: the held image, where its apply is due. -/
def State.dueApply (s : State) : Option Settings :=
  match s.loader.reload with
  | .applyPending img => if s.yard.still then some img else none
  | .reloading => none
  | .idle => none

/-! ## Meanings -/

/-- RELOAD_ATTEMPT_END (R169). -/
def execReloadAttemptEnd (image : List Byte) (s : State) : Host.Outcome State Fault Refusal :=
  .next (if s.part = .running ∧ s.loader.reload = .reloading then s.reloadEnd image else s)

/-- APPLY (R169, R170). -/
def execApply (s : State) : Host.Outcome State Fault Refusal :=
  match s.dueApply with
  | some img => .next ((s.setReload .idle).applyImage img 2)
  | none => .next s

end Sys2Proof.Machine
end

