-- ==== Sys2Proof/Machine/Accesses.lean ====
section
/-! DEFINITION. The commands that are the arrival of an access (log 1): the access each row stands for, presented at the
upstream port. What becomes of it is decided by the access path (R117). -/

namespace Sys2Proof.Machine

/-- The outcome of an access's arrival. -/
def State.arrival (s : State) (a : Access) : Host.Outcome State Fault Refusal := .next (s.arrive a)

/-- A word whose bits 2-0 are a request or a kind, written to an address. -/
def lowWrite (m : Master) (addr : Addr) (rest : BitVec 13) (n : BitVec 3) : Access :=
  wordWrite m addr (lowField rest n)

/-- START_UP_HOLD (R118). -/
def execStartUpHold (a : Access) (s : State) : Host.Outcome State Fault Refusal := s.arrival a

/-- TRANSPARENT_ACCESS (R119). -/
def execTransparentAccess (a : Access) (s : State) : Host.Outcome State Fault Refusal := s.arrival a

/-- SINGLE_LANE_WRITE (R122 to R124). -/
def execSingleLaneWrite (m : Master) (addr : Addr) (lane : Lane) (byte : Byte) (s : State) :
    Host.Outcome State Fault Refusal :=
  s.arrival { master := m, addr := addr, lanes := lane.lanes, op := .write (inLane lane byte) }

/-- FORWARDED_WRITE (R129). -/
def execForwardedWrite (m : Master) (addr : Addr) (lanes : Lanes) (data : Word) (s : State) :
    Host.Outcome State Fault Refusal :=
  s.arrival { master := m, addr := addr, lanes := lanes, op := .write data }

/-- FORWARDED_READ (R129, R150). -/
def execForwardedRead (m : Master) (addr : Addr) (lanes : Lanes) (s : State) :
    Host.Outcome State Fault Refusal :=
  s.arrival (readOf m addr lanes)

/-- SERVED_READ (R128). -/
def execServedRead (m : Master) (addr : Addr) (lanes : Lanes) (s : State) :
    Host.Outcome State Fault Refusal :=
  s.arrival (readOf m addr lanes)

/-- STATION_NONE (R32). -/
def execStationNone (m : Master) (addr : Addr) (rest : BitVec 13) (s : State) :
    Host.Outcome State Fault Refusal :=
  s.arrival (lowWrite m addr rest 0)

/-- STATION_CLOSE (R33). -/
def execStationClose (m : Master) (addr : Addr) (rest : BitVec 13) (s : State) :
    Host.Outcome State Fault Refusal :=
  s.arrival (lowWrite m addr rest 1)

/-- STATION_OPEN (R33). -/
def execStationOpen (m : Master) (addr : Addr) (rest : BitVec 13) (s : State) :
    Host.Outcome State Fault Refusal :=
  s.arrival (lowWrite m addr rest 2)

/-- STATION_STOP (R34). -/
def execStationStop (m : Master) (addr : Addr) (rest : BitVec 13) (s : State) :
    Host.Outcome State Fault Refusal :=
  s.arrival (lowWrite m addr rest 3)

/-- STATION_ISOLATE (R35). -/
def execStationIsolate (m : Master) (addr : Addr) (rest : BitVec 13) (s : State) :
    Host.Outcome State Fault Refusal :=
  s.arrival (lowWrite m addr rest 4)

/-- STATION_RESTORE (R36). -/
def execStationRestore (m : Master) (addr : Addr) (rest : BitVec 13) (s : State) :
    Host.Outcome State Fault Refusal :=
  s.arrival (lowWrite m addr rest 5)

/-- SENSOR_REPORT (R6, R131). -/
def execSensorReport (m : Master) (addr : Addr) (word : Word) (s : State) :
    Host.Outcome State Fault Refusal :=
  s.arrival (wordWrite m addr word)

/-- MODE (R81). -/
def execMode (m : Master) (addr : Addr) (value : Word) (s : State) :
    Host.Outcome State Fault Refusal :=
  s.arrival (wordWrite m addr value)

/-- ZONE_CLOSE (R83). -/
def execZoneClose (m : Master) (addr : Addr) (value : Word) (s : State) :
    Host.Outcome State Fault Refusal :=
  s.arrival (wordWrite m addr value)

/-- DOOR_CLEAR (R59). -/
def execDoorClear (m : Master) (addr : Addr) (value : Word) (s : State) :
    Host.Outcome State Fault Refusal :=
  s.arrival (wordWrite m addr value)

/-- ALARM_ACK (R107). -/
def execAlarmAck (m : Master) (addr : Addr) (value : Word) (s : State) :
    Host.Outcome State Fault Refusal :=
  s.arrival (wordWrite m addr value)

/-- BASELINE (R62). -/
def execBaseline (m : Master) (addr : Addr) (value : Word) (s : State) :
    Host.Outcome State Fault Refusal :=
  s.arrival (wordWrite m addr value)

/-- CAPTURE_RELEASE (R162). -/
def execCaptureRelease (m : Master) (addr : Addr) (value : Word) (s : State) :
    Host.Outcome State Fault Refusal :=
  s.arrival (wordWrite m addr value)

/-- RELOAD (R168). -/
def execReload (m : Master) (addr : Addr) (value : Word) (s : State) :
    Host.Outcome State Fault Refusal :=
  s.arrival (wordWrite m addr value)

/-- RESYNC (R153). -/
def execResync (m : Master) (addr : Addr) (value : Word) (s : State) :
    Host.Outcome State Fault Refusal :=
  s.arrival (wordWrite m addr value)

/-- TRANSFER_REQUEST (R92). -/
def execTransferRequest (m : Master) (addr : Addr) (rest : BitVec 13) (s : State) :
    Host.Outcome State Fault Refusal :=
  s.arrival (lowWrite m addr rest 1)

/-- TRANSFER_ACCEPT (R93). -/
def execTransferAccept (m : Master) (addr : Addr) (rest : BitVec 13) (s : State) :
    Host.Outcome State Fault Refusal :=
  s.arrival (lowWrite m addr rest 2)

/-- TRANSFER_DECLINE (R93). -/
def execTransferDecline (m : Master) (addr : Addr) (rest : BitVec 13) (s : State) :
    Host.Outcome State Fault Refusal :=
  s.arrival (lowWrite m addr rest 3)

/-- TRANSFER_CANCEL (R93). -/
def execTransferCancel (m : Master) (addr : Addr) (rest : BitVec 13) (s : State) :
    Host.Outcome State Fault Refusal :=
  s.arrival (lowWrite m addr rest 4)

/-- TRANSFER_RELINQUISH (R93). -/
def execTransferRelinquish (m : Master) (addr : Addr) (rest : BitVec 13) (s : State) :
    Host.Outcome State Fault Refusal :=
  s.arrival (lowWrite m addr rest 5)

/-- HEARTBEAT (R88). -/
def execHeartbeat (m : Master) (addr : Addr) (value : Word) (s : State) :
    Host.Outcome State Fault Refusal :=
  s.arrival (wordWrite m addr value)

/-- ATTACH (R98). -/
def execAttach (m : Master) (addr : Addr) (value : Word) (s : State) :
    Host.Outcome State Fault Refusal :=
  s.arrival (wordWrite m addr value)

end Sys2Proof.Machine
end

