-- ==== Sys2Proof/Machine/Banks.lean ====
section
/-! DEFINITION. The bank ports: the end of a bank access, a bank access not completed (R147, R148, R151, R119), the copy
step (R154). -/

namespace Sys2Proof.Machine

/-- R148, R149, R151, R119: a bank completes the access that waits for it; any other completion is none (log 4). -/
def State.bankEnd (s : State) (b : BankId) (flipped : BankWord) : State :=
  match s.path.upstream with
  | .waiting a (.write addr l w legA legB after) => s.writeEnd a addr l w legA legB after b true
  | .waiting a (.read addr l bank retry) =>
    if bank = b then s.readEnd a addr l b retry flipped else s
  | .waiting a .transparent => if b = .bankA then s.transparentEnd a flipped else s
  | .held _ => s
  | .idle => s

/-- R147, R149, R151, R119: a bank does not complete the access that waits for it. -/
def State.bankTimeout (s : State) (b : BankId) : State :=
  match s.path.upstream with
  | .waiting a (.write addr l w legA legB after) => s.writeEnd a addr l w legA legB after b false
  | .waiting a (.read addr l bank retry) =>
    if bank = b then s.readError a addr l b retry .readTimeout else s
  | .waiting a .transparent => if b = .bankA then s.transparentTimeout a else s
  | .held _ => s
  | .idle => s

/-- R154: a step runs while a bank is in RESYNC and no upstream access needs the banks. -/
def State.copyRuns (s : State) : Bool := s.mirror.source.isSome && s.path.upstream == .idle

/-- BANK_ACCESS_END (R148). -/
def execBankAccessEnd (bank : BankId) (flipped : BankWord) (s : State) :
    Host.Outcome State Fault Refusal :=
  .next (s.bankEnd bank flipped)

/-- BANK_COMPLETION_TIMEOUT (R147). -/
def execBankCompletionTimeout (bank : BankId) (s : State) : Host.Outcome State Fault Refusal :=
  .next (s.bankTimeout bank)

/-- COPY_STEP (R154). -/
def execCopyStep (outcome : CopyOutcome) (s : State) : Host.Outcome State Fault Refusal :=
  .next (if s.copyRuns then s.takeMirror (s.mirror.copyStep outcome) else s)

end Sys2Proof.Machine
end

