-- ==== Sys2Proof/Machine/Expiries.lean ====
section
/-! DEFINITION. The commands of the clock and the arbiter's own step: timer expiries, refill instants, grants. An expiry
is taken where its timer runs and the clock has reached its moment (log 3); elsewhere nothing happens (log 4). -/

namespace Sys2Proof.Machine

/-- The moment of a running timer is reached. -/
def State.reached (s : State) (timer : Option Nat) : Bool :=
  match timer with
  | some t => t ≤ s.clock
  | none => false

/-- An expiry taken where its timer runs and its moment is reached. -/
def State.atExpiry (s : State) (timer : Option Nat) (take : State → State) : State :=
  if s.reached timer then take s else s

/-- A take of door events: the yard changed, the captures made, the alarms evaluated. -/
def State.doorTake (s : State) (f : Yard → Env → Yard) (cs : List Capture) : State :=
  ((s.setYard (f s.yard s.env)).captures cs).endTake s.yard

/-- A timer of a door. -/
def State.doorTimer (s : State) (d : Nat) (get : Door → Option Nat) : Option Nat :=
  (s.door? d).bind get

/-! ## The moments at which a door's timers expire -/

/-- R10: an input's debounce timer. -/
def Door.debounceTimer (x : Door) (i : Input) : Option DebounceTimer := x.inp.timers.of i

/-- R13: the freshness timer under the limit of the drive state. -/
def Door.freshnessAt (t : Timing) (x : Door) : Option Nat :=
  x.inp.freshness.map (· + (if x.drive.bound then t.activeLimit else t.idleLimit))

/-- R26: the prewarn timer. -/
def Door.prewarnAt (x : Door) : Option Nat :=
  match x.drive with
  | .warning _ p => some p
  | _ => none

/-- R28: the travel timer. -/
def Door.travelAt (x : Door) : Option Nat :=
  match x.drive with
  | .moving _ _ t => some t
  | _ => none

/-- R39: the reclose timer. -/
def Door.recloseAt (x : Door) : Option Nat :=
  match x.drive with
  | .recloseWait t => some t
  | _ => none

/-- R53: the retry timer. -/
def Door.retryAt (x : Door) : Option Nat :=
  match x.drive with
  | .tripped t => some t
  | _ => none

/-- R51, R52: the trip timer, which runs in a closing run alone. -/
def Door.tripAt (x : Door) : Option Nat := if x.drive.closingRun then x.prot.tripTimer else none

/-- R58: the settle timer. -/
def Door.settleAt (x : Door) : Option Nat := x.prot.settle

/-- R84: a LIVE station's heartbeat timer. -/
def State.heartbeatAt (s : State) (m : Master) : Option Nat :=
  match s.role m with
  | .station (some start) => some (start + s.times.heartbeat)
  | _ => none

/-- R86: the transfer timer. -/
def State.transferAt (s : State) : Option Nat :=
  s.command.transfer.map (·.start + s.times.transfer)

/-- R111: the phase timer. -/
def GeneralAlarm.phaseAt : GeneralAlarm → Option Nat
  | .flashing _ e => some e
  | .steady => none
  | .off => none

/-- R141: the next refill instant of a meter in force, rounded down to a tenth (log 14). -/
def Meter.refillAt (m : Meter) : Option Nat :=
  if m.rate = 0 then none else some (m.start + 10 * (m.refills + 1) / m.rate)

/-! ## Takes -/

/-- R11: the take of an input's debounce expiry, with the timers that the same report started. -/
def State.takeDebounce (s : State) (d report : Nat) : State :=
  s.doorTake (fun y e => y.debounceExpiry e d report) []

/-- R53: the take of a trip. -/
def State.takeTrip (s : State) (d : Nat) : State :=
  s.doorTake (fun y e => (y.trip e d).1) (s.yard.trip s.env d).2

/-- R31: the DOOR_STALLED capture. -/
def stalledCapture (d : Nat) : Capture := Capture.ofPart 13 0 (BitVec.ofNat 16 d)

/-- R111: the phase that follows. -/
def GeneralAlarm.nextPhase (now : GeneralAlarm) (clock : Nat) (t : Timing) : GeneralAlarm :=
  match now with
  | .flashing true _ =>
    if t.flashPeriod ≤ t.flashOn then .flashing true (clock + t.flashOn)
    else .flashing false (clock + (t.flashPeriod - t.flashOn))
  | .flashing false _ => .flashing true (clock + t.flashOn)
  | .steady => .steady
  | .off => .off

/-- R111: the take of a phase expiry. -/
def State.takePhase (s : State) : State :=
  { s with lines :=
    { s.lines with generalAlarm := s.lines.generalAlarm.nextPhase s.clock s.times } }

/-- R141: a refill instant. -/
def Meter.refill (m : Meter) : Meter :=
  if m.tokens < m.burst then
    { m with tokens := m.tokens + 1, exceeded := false, refills := m.refills + 1 }
  else { m with refills := m.refills + 1 }

/-- R94: the take of the transfer timer's expiry. -/
def State.takeTransferExpiry (s : State) : State :=
  match s.command.transfer with
  | some t => s.endTransfer .part t.requester 3
  | none => s

/-! ## Meanings -/

/-- DEBOUNCE_EXPIRY (R11). -/
def execDebounceExpiry (door : Nat) (input : Input) (s : State) :
    Host.Outcome State Fault Refusal :=
  match (s.door? door).bind (·.debounceTimer input) with
  | some t => .next (s.atExpiry (some t.expiry) (·.takeDebounce door t.report))
  | none => .next s

/-- FRESHNESS_EXPIRY (R14). -/
def execFreshnessExpiry (door : Nat) (s : State) : Host.Outcome State Fault Refusal :=
  .next (s.atExpiry (s.doorTimer door (·.freshnessAt s.times))
    (·.doorTake (fun y e => y.freshnessExpiry e door) []))

/-- SLOT_GRANT (R73): all the grants due at the group (log 10). -/
def execSlotGrant (group : GroupNum) (s : State) : Host.Outcome State Fault Refusal :=
  .next (if (s.yard.groups.get group).grantDue then
    s.doorTake (fun y e => y.grantGroup e group) [] else s)

/-- PREWARN_EXPIRY (R29). -/
def execPrewarnExpiry (door : Nat) (s : State) : Host.Outcome State Fault Refusal :=
  .next (s.atExpiry (s.doorTimer door Door.prewarnAt)
    (·.doorTake (fun y e => y.prewarnExpiry e door) []))

/-- TRAVEL_EXPIRY (R31). -/
def execTravelExpiry (door : Nat) (s : State) : Host.Outcome State Fault Refusal :=
  .next (s.atExpiry (s.doorTimer door Door.travelAt)
    (·.doorTake (fun y e => y.travelExpiry e door) [stalledCapture door]))

/-- RECLOSE_EXPIRY (R40). -/
def execRecloseExpiry (door : Nat) (s : State) : Host.Outcome State Fault Refusal :=
  .next (s.atExpiry (s.doorTimer door Door.recloseAt)
    (·.doorTake (fun y e => y.recloseExpiry e door) []))

/-- TRIP_TIMER_EXPIRY (R53). -/
def execTripTimerExpiry (door : Nat) (s : State) : Host.Outcome State Fault Refusal :=
  .next (s.atExpiry (s.doorTimer door Door.tripAt) (·.takeTrip door))

/-- RETRY_EXPIRY (R55). -/
def execRetryExpiry (door : Nat) (s : State) : Host.Outcome State Fault Refusal :=
  .next (s.atExpiry (s.doorTimer door Door.retryAt)
    (·.doorTake (fun y e => y.retryExpiry e door) []))

/-- SETTLE_EXPIRY (R58). -/
def execSettleExpiry (door : Nat) (s : State) : Host.Outcome State Fault Refusal :=
  .next (s.atExpiry (s.doorTimer door Door.settleAt)
    (·.doorTake (fun y _ => y.settleExpiry door) []))

/-- HEARTBEAT_EXPIRY (R90). -/
def execHeartbeatExpiry (station : Master) (s : State) : Host.Outcome State Fault Refusal :=
  .next (s.atExpiry (s.heartbeatAt station) (·.lapse station))

/-- TRANSFER_TIMER_EXPIRY (R94). -/
def execTransferTimerExpiry (s : State) : Host.Outcome State Fault Refusal :=
  .next (s.atExpiry s.transferAt State.takeTransferExpiry)

/-- FLASH_PHASE_EXPIRY (R111). -/
def execFlashPhaseExpiry (s : State) : Host.Outcome State Fault Refusal :=
  .next (s.atExpiry s.lines.generalAlarm.phaseAt State.takePhase)

/-- REFILL_INSTANT (R141). -/
def execRefillInstant (meter : Fin 8) (s : State) : Host.Outcome State Fault Refusal :=
  .next (s.atExpiry (s.meters.get meter).refillAt
    fun t => t.setMeter meter (t.meters.get meter).refill)

end Sys2Proof.Machine
end

