-- ==== Sys2Proof/Machine/Clock.lean ====
section
/-! DEFINITION. The tick: what an empty queue lets happen (log 2). In RUNNING a command that the state itself has made due
is put on the queue, one at a time, so that what it changes is seen by the next; where none is due the clock moves on by
one tenth. In every other part state the block idles. -/

namespace Sys2Proof.Machine

/-- A command, where its moment is reached. -/
def dueAt (clock : Nat) (timer : Option Nat) (c : Instr) : List Instr :=
  match timer with
  | some t => if t ≤ clock then [c] else []
  | none => []

/-- The expiries due at one door. -/
def Door.due (clock : Nat) (t : Timing) (d : Nat) (x : Door) : List Instr :=
  dueAt clock ((x.debounceTimer .cl).map (·.expiry)) (.debounceExpiry d .cl) ++
    dueAt clock ((x.debounceTimer .ol).map (·.expiry)) (.debounceExpiry d .ol) ++
    dueAt clock ((x.debounceTimer .lo).map (·.expiry)) (.debounceExpiry d .lo) ++
    dueAt clock ((x.debounceTimer .lc).map (·.expiry)) (.debounceExpiry d .lc) ++
    dueAt clock (x.freshnessAt t) (.freshnessExpiry d) ++
    dueAt clock x.prewarnAt (.prewarnExpiry d) ++
    dueAt clock x.travelAt (.travelExpiry d) ++
    dueAt clock x.recloseAt (.recloseExpiry d) ++
    dueAt clock x.tripAt (.tripTimerExpiry d) ++
    dueAt clock x.retryAt (.retryExpiry d) ++
    dueAt clock x.settleAt (.settleExpiry d)

/-- The expiries due at the doors of a list, the first of which has the number `d`. -/
def dueAtDoors (clock : Nat) (t : Timing) : Nat → List Door → List Instr
  | _, [] => []
  | d, x :: doors => x.due clock t d ++ dueAtDoors clock t (d + 1) doors

/-- R73, R169: the part's own steps that are due: grants, and the apply of a held image. -/
def State.dueSteps (s : State) : List Instr :=
  (groupNumbers.filter fun g => (s.yard.groups.get g).grantDue).map Instr.slotGrant ++
    (if s.dueApply.isSome then [.apply] else [])

/-- The expiries and refill instants that are due. -/
def State.dueExpiries (s : State) : List Instr :=
  dueAtDoors s.clock s.times 0 s.yard.doors ++
    masterNumbers.flatMap (fun m => dueAt s.clock (s.heartbeatAt m) (.heartbeatExpiry m)) ++
    dueAt s.clock s.transferAt .transferTimerExpiry ++
    dueAt s.clock s.lines.generalAlarm.phaseAt .flashPhaseExpiry ++
    masterNumbers.flatMap fun m => dueAt s.clock (s.meters.get m).refillAt (.refillInstant m)

/-- The commands that are due: the part's own steps first, or, where it has none, the expiries. -/
def State.due (s : State) : List Instr :=
  match s.dueSteps with
  | [] => s.dueExpiries
  | steps => steps

/-- The tick. -/
def State.tick (s : State) : State :=
  if s.part = .running then
    match s.due with
    | [] => { s with clock := s.clock + 1 }
    | c :: _ => { s with pending := [c] }
  else s

end Sys2Proof.Machine
end

