-- ==== Sys2Proof/Machine/Dispatch.lean ====
section
/-! DEFINITION. The meaning of each command, one arm per constructor of Instr. -/

namespace Sys2Proof.Machine

/-- A command's effect on everything but the queue. -/
def exec (i : Instr) (s : State) : Host.Outcome State Fault Refusal :=
  match i with
  | .powerOn => Sys2Proof.Machine.execPowerOn s
  | .reset => Sys2Proof.Machine.execReset s
  | .resetRelease laneStrap => Sys2Proof.Machine.execResetRelease laneStrap s
  | .loadAttemptEnd image presentA presentB => Sys2Proof.Machine.execLoadAttemptEnd image presentA presentB s
  | .startUpHold a => Sys2Proof.Machine.execStartUpHold a s
  | .transparentAccess a => Sys2Proof.Machine.execTransparentAccess a s
  | .singleLaneWrite m addr lane byte => Sys2Proof.Machine.execSingleLaneWrite m addr lane byte s
  | .forwardedWrite m addr lanes data => Sys2Proof.Machine.execForwardedWrite m addr lanes data s
  | .forwardedRead m addr lanes => Sys2Proof.Machine.execForwardedRead m addr lanes s
  | .bankAccessEnd bank flipped => Sys2Proof.Machine.execBankAccessEnd bank flipped s
  | .bankCompletionTimeout bank => Sys2Proof.Machine.execBankCompletionTimeout bank s
  | .copyStep outcome => Sys2Proof.Machine.execCopyStep outcome s
  | .stationNone m addr rest => Sys2Proof.Machine.execStationNone m addr rest s
  | .stationClose m addr rest => Sys2Proof.Machine.execStationClose m addr rest s
  | .stationOpen m addr rest => Sys2Proof.Machine.execStationOpen m addr rest s
  | .stationStop m addr rest => Sys2Proof.Machine.execStationStop m addr rest s
  | .stationIsolate m addr rest => Sys2Proof.Machine.execStationIsolate m addr rest s
  | .stationRestore m addr rest => Sys2Proof.Machine.execStationRestore m addr rest s
  | .sensorReport m addr word => Sys2Proof.Machine.execSensorReport m addr word s
  | .debounceExpiry door input => Sys2Proof.Machine.execDebounceExpiry door input s
  | .freshnessExpiry door => Sys2Proof.Machine.execFreshnessExpiry door s
  | .slotGrant group => Sys2Proof.Machine.execSlotGrant group s
  | .prewarnExpiry door => Sys2Proof.Machine.execPrewarnExpiry door s
  | .travelExpiry door => Sys2Proof.Machine.execTravelExpiry door s
  | .recloseExpiry door => Sys2Proof.Machine.execRecloseExpiry door s
  | .tripTimerExpiry door => Sys2Proof.Machine.execTripTimerExpiry door s
  | .retryExpiry door => Sys2Proof.Machine.execRetryExpiry door s
  | .settleExpiry door => Sys2Proof.Machine.execSettleExpiry door s
  | .mode m addr value => Sys2Proof.Machine.execMode m addr value s
  | .zoneClose m addr value => Sys2Proof.Machine.execZoneClose m addr value s
  | .doorClear m addr value => Sys2Proof.Machine.execDoorClear m addr value s
  | .alarmAck m addr value => Sys2Proof.Machine.execAlarmAck m addr value s
  | .baseline m addr value => Sys2Proof.Machine.execBaseline m addr value s
  | .captureRelease m addr value => Sys2Proof.Machine.execCaptureRelease m addr value s
  | .reload m addr value => Sys2Proof.Machine.execReload m addr value s
  | .reloadAttemptEnd image => Sys2Proof.Machine.execReloadAttemptEnd image s
  | .apply => Sys2Proof.Machine.execApply s
  | .resync m addr value => Sys2Proof.Machine.execResync m addr value s
  | .transferRequest m addr rest => Sys2Proof.Machine.execTransferRequest m addr rest s
  | .transferAccept m addr rest => Sys2Proof.Machine.execTransferAccept m addr rest s
  | .transferDecline m addr rest => Sys2Proof.Machine.execTransferDecline m addr rest s
  | .transferCancel m addr rest => Sys2Proof.Machine.execTransferCancel m addr rest s
  | .transferRelinquish m addr rest => Sys2Proof.Machine.execTransferRelinquish m addr rest s
  | .heartbeat m addr value => Sys2Proof.Machine.execHeartbeat m addr value s
  | .attach m addr value => Sys2Proof.Machine.execAttach m addr value s
  | .heartbeatExpiry station => Sys2Proof.Machine.execHeartbeatExpiry station s
  | .transferTimerExpiry => Sys2Proof.Machine.execTransferTimerExpiry s
  | .flashPhaseExpiry => Sys2Proof.Machine.execFlashPhaseExpiry s
  | .refillInstant meter => Sys2Proof.Machine.execRefillInstant meter s
  | .servedRead m addr lanes => Sys2Proof.Machine.execServedRead m addr lanes s

end Sys2Proof.Machine
end

