-- ==== Sys2Proof/Safety.lean ====
section
/-! DEFINITION. The words that statements about the part are made of: an access that reaches the processing of its kind,
what one door's event may change, and the laws that the spec names as laws of the part. -/

namespace Sys2Proof.Machine

/-! ## Accesses -/

/-- R117: an access that arrives at the idle port of the RUNNING part, finds this word, meets no lane slot, and is let
through by the master check; the rule list is still to come. -/
abbrev Admitted (s : State) (a : Access) (f : Found) : Prop :=
  s.part = .running ∧ s.path.upstream = .idle ∧ s.lookup a.addr = f ∧
    s.path.slots.get a.master = none ∧ assembledLane a f = none ∧
    ((s.role a.master).authorized || excepted (s.role a.master) a f) = true ∧
    (a.isWrite = true → s.matrixRefusal a.master f = none)

/-- R117, R136: such an access that no enabled rule matches: it reaches the processing of its kind unchanged. -/
abbrev Reaches (s : State) (a : Access) (f : Found) : Prop :=
  Admitted s a f ∧ firstMatch a f s.rules 0 = none

/-- R132: a whole-word write that reaches the order at an offset of an ORDER window. -/
abbrev ReachesOrder (s : State) (m : Master) (addr : Addr) (w : Word) (offset : Nat) : Prop :=
  Reaches s (wordWrite m addr w)
    { window := (s.lookup addr).window, kind := .order, offset := offset }

/-- R130: a whole-word write that reaches a door's command word. -/
abbrev ReachesDoor (s : State) (m : Master) (addr : Addr) (w : Word) (doorBase offset : Nat) : Prop :=
  Reaches s (wordWrite m addr w)
    { window := (s.lookup addr).window, kind := .command doorBase, offset := offset }

/-- R131: a whole-word write that reaches a door's sensor word. -/
abbrev ReachesSensor (s : State) (m : Master) (addr : Addr) (w : Word) (doorBase offset : Nat) : Prop :=
  Reaches s (wordWrite m addr w)
    { window := (s.lookup addr).window, kind := .sensor doorBase, offset := offset }

/-- R80, R132: the part after a taken order's effects: the word is forwarded to the image, DONE while it is lost. -/
def State.forwardOrder (s : State) (m : Master) (addr : Addr) (w : Word) : State :=
  s.forwardWrite (wordWrite m addr w) addr .both w .answerOnly (.done none)

/-- R80: the part after a refused order: ORDER_REFUSED and ERROR, nothing else. -/
def State.refuseOrder (s : State) (m : Master) (addr : Addr) (w : Word) (detail : Nat) : State :=
  s.refuseWith (Capture.ofMaster 10 m addr detail w)

/-- R32: the part after a refused request: REQUEST_REFUSED and ERROR, nothing else. -/
def State.refuseRequest (s : State) (m : Master) (addr : Addr) (w : Word) (detail : Nat) : State :=
  s.refuseWith (Capture.ofMaster 9 m addr detail w)

/-- The access that a command stands for (log 1). -/
def accessOf : Instr → Option Access
  | .startUpHold a => some a
  | .transparentAccess a => some a
  | .singleLaneWrite m addr lane byte =>
    some { master := m, addr := addr, lanes := lane.lanes, op := .write (inLane lane byte) }
  | .forwardedWrite m addr lanes data =>
    some { master := m, addr := addr, lanes := lanes, op := .write data }
  | .forwardedRead m addr lanes => some (readOf m addr lanes)
  | .servedRead m addr lanes => some (readOf m addr lanes)
  | .stationNone m addr rest => some (wordWrite m addr (rest ++ 0#3))
  | .stationClose m addr rest => some (wordWrite m addr (rest ++ 1#3))
  | .stationOpen m addr rest => some (wordWrite m addr (rest ++ 2#3))
  | .stationStop m addr rest => some (wordWrite m addr (rest ++ 3#3))
  | .stationIsolate m addr rest => some (wordWrite m addr (rest ++ 4#3))
  | .stationRestore m addr rest => some (wordWrite m addr (rest ++ 5#3))
  | .sensorReport m addr word => some (wordWrite m addr word)
  | .mode m addr value => some (wordWrite m addr value)
  | .zoneClose m addr value => some (wordWrite m addr value)
  | .doorClear m addr value => some (wordWrite m addr value)
  | .alarmAck m addr value => some (wordWrite m addr value)
  | .baseline m addr value => some (wordWrite m addr value)
  | .captureRelease m addr value => some (wordWrite m addr value)
  | .reload m addr value => some (wordWrite m addr value)
  | .resync m addr value => some (wordWrite m addr value)
  | .transferRequest m addr rest => some (wordWrite m addr (rest ++ 1#3))
  | .transferAccept m addr rest => some (wordWrite m addr (rest ++ 2#3))
  | .transferDecline m addr rest => some (wordWrite m addr (rest ++ 3#3))
  | .transferCancel m addr rest => some (wordWrite m addr (rest ++ 4#3))
  | .transferRelinquish m addr rest => some (wordWrite m addr (rest ++ 5#3))
  | .heartbeat m addr value => some (wordWrite m addr value)
  | .attach m addr value => some (wordWrite m addr value)
  | _ => none

/-- The word that the bank accesses of an unanswered access address. -/
def Waiting.addr (a : Access) : Waiting → Addr
  | .write addr _ _ _ _ _ => addr
  | .read addr _ _ _ => addr
  | .transparent => a.addr

/-- R118, log 8: a bank access of an unanswered access is a write to this bank that has not ended. -/
def Waiting.writes (a : Access) (b : BankId) : Waiting → Prop
  | .write _ _ _ legA legB _ =>
    ∃ serving, (match b with | .bankA => legA | .bankB => legB) = Leg.outstanding serving
  | .read _ _ _ _ => False
  | .transparent => b = .bankA ∧ a.isWrite = true

/-! ## The end of a take -/

/-- R110 to R112: the door lines as the end of a take judges them, of a GENERAL_ALARM line that stood at `now`. -/
structure LinesJudged (t : State) (now : GeneralAlarm) : Prop where
  staysFlashing : (∃ x ∈ t.yard.doors, ∃ a ∈ x.alarms.list, a = .activeUnack ∨ a = .clearedUnack) →
    ∀ p e, now = .flashing p e → t.lines.generalAlarm = .flashing p e
  entersFlashing : (∃ x ∈ t.yard.doors, ∃ a ∈ x.alarms.list, a = .activeUnack ∨ a = .clearedUnack) →
    now = .off ∨ now = .steady → t.lines.generalAlarm = .flashing true (t.clock + t.times.flashOn)
  steady : (∀ x ∈ t.yard.doors, ∀ a ∈ x.alarms.list, a ≠ .activeUnack ∧ a ≠ .clearedUnack) →
    (∃ x ∈ t.yard.doors, ∃ a ∈ x.alarms.list, a = .activeAck) → t.lines.generalAlarm = .steady
  off : (∀ x ∈ t.yard.doors, ∀ a ∈ x.alarms.list, a = .normal) → t.lines.generalAlarm = .off
  doors : t.lines.doorsNotClosed = true ↔ t.command.mode = some .doorsClosed ∧
    ∃ x ∈ t.yard.doors, x.drive ≠ .isolated ∧ x.position ≠ .closed

/-- R104: every condition of a door evaluated: its alarm states, before the take those of `x`, follow R105 against the
record `z` as the take has left it. -/
abbrev Evaluated (t : State) (x z : Door) : Prop :=
  z.alarms = x.alarms.zip (fun a holds => AlarmState.evaluate holds a)
    (conditions (t.command.mode == some .doorsClosed) z)

/-- R104: a take of door events that finds the part as `s` and leaves `t` ends with the evaluation against the yard of
`s`: what came before it in the take had changed no alarm state and no line. What the end does is O42 and O43. -/
def TakeEnds (s t : State) : Prop :=
  ∃ u : State, t = State.endTake s.yard u ∧ u.lines = s.lines ∧
    ∀ k, (u.door? k).map (·.alarms) = (s.door? k).map (·.alarms)

/-! ## Frames -/

/-- What an event at one door leaves unchanged: everything but that door's record, its group, the door lines and the
ring. The door keeps its static part, and the take ends with R104's evaluation. -/
structure OneDoor (d : Nat) (s t : State) : Prop where
  rest : t = { s with
    yard := t.yard
    ring := t.ring
    lines := { s.lines with
      generalAlarm := t.lines.generalAlarm
      doorsNotClosed := t.lines.doorsNotClosed } }
  others : ∀ k, k ≠ d → t.door? k = s.door? k
  static : (t.door? d).map (·.static) = (s.door? d).map (·.static)
  groups : ∀ g : GroupNum, (∀ x, s.door? d = some x → x.st.cls ≠ .powered g) →
    t.yard.groups.get g = s.yard.groups.get g
  ends : TakeEnds s t

/-- A freshness timer does not meet a limit yet (R13). -/
def InputPart.within (i : InputPart) (clock limit : Nat) : Prop :=
  ∀ start, i.freshness = some start → clock < start + limit

/-- R71, R75: a POWERED door has left its group's queue and slot holder set. -/
def LeavesGroup (d : Nat) (x : Door) (s t : State) : Prop :=
  ∀ g, x.st.cls = .powered g →
    (t.yard.groups.get g).queue = (s.yard.groups.get g).queue.filter (· != d) ∧
    (t.yard.groups.get g).holders = (s.yard.groups.get g).holders.filter (· != d) ∧
    (t.yard.groups.get g).slotCount = (s.yard.groups.get g).slotCount

/-- R66: a POWERED door that holds a slot keeps it: its group is as it was. -/
def KeepsSlot (d : Nat) (x : Door) (s t : State) : Prop :=
  ∀ g, x.st.cls = .powered g → d ∈ (s.yard.groups.get g).holders →
    d ∉ (s.yard.groups.get g).queue → t.yard.groups.get g = s.yard.groups.get g

/-- A door's record as an event leaves it, but for its alarm states, which follow R104. -/
def Door.sameButAlarms (x z : Door) : Prop := z = { x with alarms := z.alarms }

/-- The record of a door after an event, found in the part after it. -/
def DoorAfter (d : Nat) (t : State) (holds : Door → Prop) : Prop := ∃ z, t.door? d = some z ∧ holds z

/-- R41: the conditions of the enforcement check but for the drive state, of a door with this hold flag. -/
abbrev Enforced (s : State) (x : Door) (hold : Bool) : Prop :=
  s.command.mode = some .doorsClosed ∧ x.powered = true ∧ x.inhibit = .none ∧ hold = false ∧
    (x.position = .opened ∨ x.position = .between)

/-- R13: a freshness timer that meets neither limit yet, so that no change of drive state makes the door stale. -/
def InTouch (s : State) (x : Door) : Prop :=
  x.inp.within s.clock s.times.activeLimit ∧ x.inp.within s.clock s.times.idleLimit

/-- R49, R52: the protection part at the beginning and after the end of a closing run. -/
def Protection.noRun (p : Protection) : Protection :=
  { p with alert := none, mark := false, peak := none, tripTimer := none }

/-- The protection part of a door whose drive state leaves `old`, without completion: a closing run ends (R52). -/
def Protection.leaving (p : Protection) (old : Drive) : Protection :=
  if old.closingRun then p.noRun else p

/-- What a take of many doors leaves unchanged: everything but the door records, the groups, the door lines and the
ring. Every door keeps its static part. -/
structure ManyDoors (s t : State) : Prop where
  rest : t = { s with
    yard := t.yard
    ring := t.ring
    lines := { s.lines with
      generalAlarm := t.lines.generalAlarm
      doorsNotClosed := t.lines.doorsNotClosed } }
  static : ∀ d, (t.door? d).map (·.static) = (s.door? d).map (·.static)

/-- R68: a POWERED door joins its group's queue: a close behind the closes, an open of origin STATION last. -/
def JoinsQueue (d : Nat) (dir : Direction) (x : Door) (s t : State) : Prop :=
  ∀ g, x.st.cls = .powered g →
    d ∉ (s.yard.groups.get g).queue → d ∉ (s.yard.groups.get g).holders →
    (t.yard.groups.get g).holders = (s.yard.groups.get g).holders ∧
    (t.yard.groups.get g).slotCount = (s.yard.groups.get g).slotCount ∧
    (t.yard.groups.get g).queue =
      match dir with
      | .toClose =>
        (s.yard.groups.get g).queue.takeWhile (fun e => s.yard.classOf e ≤ 1) ++
          d :: (s.yard.groups.get g).queue.dropWhile (fun e => s.yard.classOf e ≤ 1)
      | .toOpen => (s.yard.groups.get g).queue ++ [d]

/-! ## The groups after a take of many doors (R66 to R71, R75) -/

/-- R66: a door in WARNING or MOVING. -/
def State.slotted (t : State) (d : Nat) : Bool :=
  match t.door? d with
  | some x => x.drive.hasSlot
  | none => false

/-- R67: a QUEUED door. -/
def State.waiting (t : State) (d : Nat) : Bool :=
  match t.door? d with
  | some x => x.drive.isQueued
  | none => false

/-- R67: a door of a group that is QUEUED to close, class 1. -/
def State.waitsToClose (t : State) (g : GroupNum) (d : Nat) : Bool :=
  match t.door? d with
  | some x => x.st.cls == .powered g && x.drive.isQueued && x.drive.direction == some .toClose
  | none => false

/-- R42, R43: a door in this drive state gives up its queue entry or its slot when the vessel mode changes. -/
def Drive.leavesAt (new : VesselMode) : Drive → Bool
  | .queued .toOpen .station => new == .doorsClosed
  | .queued .toClose .mode => new == .localControl
  | .warning .mode _ => new == .localControl
  | _ => false

/-- R71, R75: a take in which no door joins: each group keeps its holders and its entries, in their order, but for the
doors that have left WARNING and MOVING, or QUEUED. -/
def DoorsLeave (s t : State) : Prop :=
  ∀ g,
    let r := s.yard.groups.get g
    t.yard.groups.get g =
      { slotCount := r.slotCount, holders := r.holders.filter t.slotted, queue := r.queue.filter t.waiting }

/-- R69: a take in which doors join as closes: in each group the closes that were waiting keep their places, the doors
that join, or turn from an open (R70), stand behind them in door-number order, and the opens that still wait come after.
A door that leaves QUEUED, or WARNING and MOVING, has left its group (R71, R75). -/
def ClosesJoin (s t : State) : Prop :=
  ∀ g,
    let r := s.yard.groups.get g
    let joins (d : Nat) : Bool := t.waitsToClose g d && !s.waitsToClose g d
    t.yard.groups.get g =
      { slotCount := r.slotCount
        holders := r.holders.filter t.slotted
        queue := r.queue.filter (fun d => s.waitsToClose g d && t.waitsToClose g d) ++
          (List.range s.doorCount).filter joins ++
          r.queue.filter fun d => t.waiting d && !t.waitsToClose g d }

/-- R32: the CHECK field is the door index and the reserved bits are clear. -/
abbrev WordFor (w : Word) (d : Nat) : Prop := field w 8 7 = d ∧ w &&& 0x80F8 = 0

/-- R25: the origin that a request of origin STATION in the door's direction leaves. -/
def stationOrigin : Origin → Origin
  | .localReq => .localReq
  | .station => .station
  | .mode => .station
  | .zone => .station
  | .retry => .station

/-- R25, R26: where a station's request takes a door that is bound somewhere and not at the request's target. -/
def stationRebinds (s : State) (x : Door) (dir : Direction) : Drive → Drive
  | .queued d o => if d = dir then .queued dir (stationOrigin o) else .queued dir .station
  | .warning o p =>
    match dir with
    | .toClose => .warning (stationOrigin o) p
    | .toOpen => .moving .toOpen .station (s.clock + x.st.travelLimit)
  | .moving d o t =>
    if d = dir then .moving d (stationOrigin o) t
    else if dir = .toClose ∧ 0 < s.times.prewarn then .warning .station (s.clock + s.times.prewarn)
    else .moving dir .station (s.clock + x.st.travelLimit)
  | other => other

/-! ## A door's group, and what its inputs deliver (R12) -/

/-- R66 to R71, R75: the group of a POWERED door follows its drive state, which an event has taken from `x`'s to `z`'s. The
entry goes with QUEUED; one that joins, or whose class changes, takes the tail of its class, and any other keeps its
place. A slot is kept in WARNING and MOVING, and released elsewhere. -/
def GroupFollows (d : Nat) (x z : Door) (s t : State) : Prop :=
  ∀ g, x.st.cls = .powered g →
    let r := s.yard.groups.get g
    let others := r.queue.filter (· != d)
    let behind (e : Nat) : Bool := s.yard.classOf e ≤ z.drive.queueClass
    (d ∈ r.queue ↔ x.drive.isQueued = true) → (d ∈ r.holders ↔ x.drive.hasSlot = true) →
    t.yard.groups.get g =
      { slotCount := r.slotCount
        holders := if z.drive.hasSlot then r.holders else r.holders.filter (· != d)
        queue :=
          if z.drive.isQueued then
            if x.drive.isQueued && x.drive.queueClass == z.drive.queueClass then r.queue
            else others.takeWhile behind ++ d :: others.dropWhile behind
          else others }

/-- R30, R41: the drive state that a change of position to `p` leaves: a door at its target rests, and the enforcement
check queues a RESTING one where its conditions hold. -/
def arrives (s : State) (x : Door) (p : Position) : Drive :=
  if p = x.position then x.drive
  else if x.drive.direction.map Direction.target = some p ∨ x.drive = .resting then
    if Enforced s { x with position := p } x.hold then .queued .toClose .mode else .resting
  else x.drive

/-- R23, R25 to R27: where a request of origin LOCAL takes a door that is not at the request's target. -/
def localBinds (s : State) (x : Door) (dir : Direction) : Drive → Drive
  | .resting => .queued dir .localReq
  | .queued _ _ => .queued dir .localReq
  | .warning _ _ => .moving dir .localReq (s.clock + x.st.travelLimit)
  | .moving d _ tr => .moving dir .localReq (if d = dir then tr else s.clock + x.st.travelLimit)
  | .recloseWait _ => .queued dir .localReq
  | .tripped _ => .queued dir .localReq
  | .isolated => .isolated

/-- R24: the same of a door at position `p`: it rests where that is the target. -/
def localAsks (s : State) (x : Door) (p : Position) (dir : Direction) (drive : Drive) : Drive :=
  if p = dir.target then .resting else localBinds s x dir drive

/-- R39, R41: where an LO fall takes a POWERED door, which has position `p` and the hold flag of `x`. -/
def localFalls (s : State) (x : Door) (p : Position) : Drive → Drive
  | .queued .toOpen _ =>
    if Enforced s { x with position := p } false then .queued .toClose .mode else .resting
  | .moving .toOpen _ _ =>
    if s.command.mode = some .doorsClosed then .recloseWait (s.clock + s.times.reclose) else .resting
  | .resting =>
    if s.command.mode = some .doorsClosed ∧ x.hold = true then .recloseWait (s.clock + s.times.reclose)
    else .resting
  | other => other

/-- R9, R10, R15: the debounced inputs that a fresh report leaves: all raw values where it recovers the door; otherwise
the raw value of an input with no timer running where the debounce time is 0. -/
def takenInputs (s : State) (x : Door) (raw : Four Bool) : Four Bool :=
  let take (k : Input) : Bool :=
    if x.inp.stale = true ∨ x.inp.reported = false ∨ (x.inp.timers.of k = none ∧ s.times.debounce = 0) then raw.of k
    else x.inp.debounced.of k
  { cl := take .cl, ol := take .ol, lo := take .lo, lc := take .lc }

/-- R39: where an LO fall takes a door whose position is UNKNOWN: a door that has lost sight (R14, R18). -/
def sightlessFalls (s : State) (x : Door) : Drive :=
  if x.powered = false then x.drive
  else
    match x.drive with
    | .queued .toOpen _ => .resting
    | .moving .toOpen _ _ =>
      if s.command.mode = some .doorsClosed then .recloseWait (s.clock + s.times.reclose) else .resting
    | .resting =>
      if s.command.mode = some .doorsClosed ∧ x.hold = true then .recloseWait (s.clock + s.times.reclose)
      else .resting
    | other => other

/-- R12, R37 to R39: the drive state that a change of the debounced inputs to `after` leaves, with the position `p` they
give: the position first, then LO, then LC. -/
def deliveredDrive (s : State) (x : Door) (after : Four Bool) (p : Position) : Drive :=
  let d1 := arrives s x p
  if x.powered = false ∨ d1 = .isolated then d1
  else if x.inp.debounced.lo = false ∧ after.lo = true then localAsks s x p .toOpen d1
  else
    let d2 := if x.inp.debounced.lo = true ∧ after.lo = false then localFalls s x p d1 else d1
    if x.inp.debounced.lc = false ∧ after.lc = true ∧ after.lo = false then localAsks s x p .toClose d2
    else d2

/-- R37, R39: the local hold flag that such a change leaves. -/
def deliveredHold (s : State) (x : Door) (after : Four Bool) : Bool :=
  if x.inp.debounced.lo = true ∧ after.lo = false then false
  else
    x.hold || decide (x.inp.debounced.lo = false ∧ after.lo = true ∧ x.powered = true ∧
      x.drive ≠ .isolated ∧ s.command.mode = some .doorsClosed)

/-- R52, R58, R61: such a change completes a closing run. -/
def completesRun (x z : Door) : Prop :=
  x.drive.closingRun = true ∧ x.position ≠ .closed ∧ z.position = .closed

/-- R12: what a change of a door's debounced inputs from `x`'s to `z`'s delivers. A run it completes is learned from and
starts the settle timer; a run it ends otherwise is not; a settle timer ends with the position CLOSED. -/
structure Delivered (s t : State) (d : Nat) (x z : Door) : Prop where
  drive : z.drive = deliveredDrive s x z.inp.debounced z.position
  hold : z.hold = deliveredHold s x z.inp.debounced
  group : GroupFollows d x z s t
  completed : completesRun x z →
    z.prot.settle = some (s.clock + 80) ∧ z.prot.tripCount = x.prot.tripCount ∧
    z.prot.alert = none ∧ z.prot.tripTimer = none ∧ z.prot.peak = none ∧ z.prot.mark = false ∧
    (x.prot.mark = true ∨ x.prot.peak = none →
      z.prot.baseline = x.prot.baseline ∧ z.prot.hot = x.prot.hot) ∧
    ∀ peak, x.prot.mark = false → x.prot.peak = some peak → z.prot.hot = true ∧
      (x.prot.hot = false → z.prot.baseline = peak) ∧
      (x.prot.hot = true → (z.prot.baseline : Int) =
        x.prot.baseline + ((peak : Int) - x.prot.baseline).tdiv 4)
  stands : ¬ completesRun x z → x.drive.closingRun = false ∨ z.drive.closingRun = false →
    let p := { x.prot with
      settle := if x.position = .closed ∧ z.position ≠ .closed then none else x.prot.settle }
    z.prot = if x.drive.closingRun = z.drive.closingRun then p else p.noRun

/-- R28: a door that has been QUEUED with this direction and origin, or granted from there. -/
def QueuedOrGranted (s : State) (x : Door) (dir : Direction) (o : Origin) (drive : Drive) : Prop :=
  drive = .queued dir o ∨ drive =
    if dir = .toClose ∧ o ≠ .localReq ∧ 0 < s.times.prewarn then .warning o (s.clock + s.times.prewarn)
    else .moving dir o (s.clock + x.st.travelLimit)

/-! ## What is due (log 2, log 3) -/

/-- R73, R169: a step of the part's own that the state has made due. -/
inductive OwnStep (s : State) : Instr → Prop
  | grant (g : GroupNum) (free : (s.yard.groups.get g).holders.length < (s.yard.groups.get g).slotCount.getD 0)
    (waits : (s.yard.groups.get g).queue ≠ []) : OwnStep s (.slotGrant g)
  | apply (img : Settings) (held : s.loader.reload = .applyPending img)
    (still : ∀ d x, s.door? d = some x → x.drive.bound = false) : OwnStep s .apply

/-- An expiry whose timer runs and whose moment the clock has reached. -/
inductive TimerReached (s : State) : Instr → Prop
  | debounce (d : Nat) (x : Door) (i : Input) (tm : DebounceTimer) (door : s.door? d = some x)
    (runs : x.inp.timers.of i = some tm) (h : tm.expiry ≤ s.clock) : TimerReached s (.debounceExpiry d i)
  | freshness (d : Nat) (x : Door) (start : Nat) (door : s.door? d = some x)
    (runs : x.inp.freshness = some start)
    (h : start + (if x.drive.bound then s.times.activeLimit else s.times.idleLimit) ≤ s.clock) :
    TimerReached s (.freshnessExpiry d)
  | prewarn (d : Nat) (x : Door) (o : Origin) (e : Nat) (door : s.door? d = some x)
    (runs : x.drive = .warning o e) (h : e ≤ s.clock) : TimerReached s (.prewarnExpiry d)
  | travel (d : Nat) (x : Door) (dir : Direction) (o : Origin) (e : Nat) (door : s.door? d = some x)
    (runs : x.drive = .moving dir o e) (h : e ≤ s.clock) : TimerReached s (.travelExpiry d)
  | reclose (d : Nat) (x : Door) (e : Nat) (door : s.door? d = some x)
    (runs : x.drive = .recloseWait e) (h : e ≤ s.clock) : TimerReached s (.recloseExpiry d)
  | trip (d : Nat) (x : Door) (o : Origin) (tr e : Nat) (door : s.door? d = some x)
    (closes : x.drive = .moving .toClose o tr) (runs : x.prot.tripTimer = some e) (h : e ≤ s.clock) :
    TimerReached s (.tripTimerExpiry d)
  | retry (d : Nat) (x : Door) (e : Nat) (door : s.door? d = some x)
    (runs : x.drive = .tripped e) (h : e ≤ s.clock) : TimerReached s (.retryExpiry d)
  | settle (d : Nat) (x : Door) (e : Nat) (door : s.door? d = some x)
    (runs : x.prot.settle = some e) (h : e ≤ s.clock) : TimerReached s (.settleExpiry d)
  | heartbeat (m : Master) (start : Nat) (runs : s.role m = .station (some start))
    (h : start + s.times.heartbeat ≤ s.clock) : TimerReached s (.heartbeatExpiry m)
  | transfer (p : Transfer) (runs : s.command.transfer = some p)
    (h : p.start + s.times.transfer ≤ s.clock) : TimerReached s .transferTimerExpiry
  | phase (on : Bool) (e : Nat) (runs : s.lines.generalAlarm = .flashing on e) (h : e ≤ s.clock) :
    TimerReached s .flashPhaseExpiry
  | refill (k : Fin 8) (runs : 0 < (s.meters.get k).rate)
    (h : (s.meters.get k).start + 10 * ((s.meters.get k).refills + 1) / (s.meters.get k).rate ≤ s.clock) :
    TimerReached s (.refillInstant k)

/-! ## Bank ports -/

/-- A command by which a bank ends its part of a forwarded write, clean or not. -/
inductive EndsWrite (b : BankId) : Bool → Instr → Prop
  | clean (flipped : BankWord) : EndsWrite b true (.bankAccessEnd b flipped)
  | error : EndsWrite b false (.bankCompletionTimeout b)

/-- A command by which a bank ends a read of some lanes of a word in error, with the detail of its BANK_ERROR (R147,
R148). -/
inductive ReadErrs (m : Mirror) (b : BankId) (addr : Addr) (lanes : Lanes) : Instr → Nat → Prop
  | parity (flipped : BankWord) (bad : (m.fetch b addr flipped).good lanes = false) :
    ReadErrs m b addr lanes (.bankAccessEnd b flipped) 1
  | timeout : ReadErrs m b addr lanes (.bankCompletionTimeout b) 2

/-- A copy step whose source read ends in error, with the detail of its BANK_ERROR (R147, R148, R154). -/
inductive CopyReadErrs (m : Mirror) (src : BankId) : Option BankWord → Nat → Prop
  | parity (flipped : BankWord) (bad : (m.fetch src m.cursorAddr flipped).good .both = false) :
    CopyReadErrs m src (some flipped) 1
  | timeout : CopyReadErrs m src none 2

/-- A ring entry made now (R158). -/
def State.entryNow (s : State) (kind master : Nat) (addr : Addr) (detail data : Nat) : Entry :=
  { kind := kind, master := master, addr := addr, detail := detail, data := BitVec.ofNat 16 data
    time := s.timeStamp }

/-- Entries pushed in their order. -/
def Ring.pushAll (r : Ring) (es : List Entry) : Ring := es.foldl Ring.push r

/-! ## Command at an apply (R100) -/

/-- Who holds command, which transfer is pending, and the entries made on the way. -/
structure Hand where
  holder   : Option Master
  transfer : Option Transfer
  made     : List Entry
  deriving DecidableEq, Repr

/-- R87: command passed on: HOLDER_CHANGED, and no transfer is pending. -/
def Hand.pass (s : State) (h : Hand) (new : Option Master) (detail : Nat) : Hand :=
  let code (k : Option Master) : Nat := match k with | some m => m.val | none => 15
  { holder := new, transfer := none
    made := h.made ++ [s.entryNow 17 15 0 detail (code new + 256 * code h.holder)] }

/-- R87: a transfer ended with the holder kept: TRANSFER_ENDED. -/
def Hand.drop (s : State) (h : Hand) (requester : Master) (detail : Nat) : Hand :=
  { h with transfer := none, made := h.made ++ [s.entryNow 18 15 0 detail requester.val] }

/-- R90: a station lapses: STATION_LAPSED, then what follows for command or its request. -/
def Hand.lapse (s : State) (h : Hand) (m : Master) : Hand :=
  let asks := h.transfer.map (·.requester) = some m
  let detail := if h.holder = some m then 1 else if asks then 2 else 0
  let h1 := { h with made := h.made ++ [s.entryNow 16 15 0 detail m.val] }
  if asks then h1.drop s m 4
  else if h.holder = some m then
    match h.transfer with
    | some p => h1.pass s (some p.requester) 6
    | none => h1.pass s none 5
  else h1

/-- R100 step 1: the stations that stay STATION and whose timer meets the new limit lapse, in master-number order. -/
def Hand.lapses (s : State) (img : Settings) (h : Hand) : Hand :=
  masterNumbers.foldl (fun h m =>
    match s.role m with
    | .station (some start) =>
      if (img.masters.get m).role = RoleSetting.station ∧ start + img.timing.heartbeat ≤ s.clock then h.lapse s m
      else h
    | _ => h) h

/-- R100 steps 3 and 4: a requester, then a holder, that is no longer STATION. -/
def Hand.release (s : State) (img : Settings) (h : Hand) : Hand :=
  let h1 := match h.transfer with
    | some p => if (img.masters.get p.requester).role = RoleSetting.station then h else h.drop s p.requester 5
    | none => h
  match h1.holder, h1.transfer with
  | some m, some p =>
    if (img.masters.get m).role = RoleSetting.station then h1 else h1.pass s (some p.requester) 8
  | some m, none => if (img.masters.get m).role = RoleSetting.station then h1 else h1.pass s none 7
  | none, _ => h1

/-- R100 step 5: a transfer timer that meets the new limit expires. -/
def Hand.expire (s : State) (img : Settings) (h : Hand) : Hand :=
  match h.transfer with
  | some p => if p.start + img.timing.transfer ≤ s.clock then h.drop s p.requester 3 else h
  | none => h

/-- R100 steps 1 and 3 to 5: command after an apply, with the entries it makes. -/
def State.handAfter (s : State) (img : Settings) : Hand :=
  ((Hand.lapses s img
    { holder := s.command.holder, transfer := s.command.transfer, made := [] }).release s img).expire s img

/-- R123: the entries of the slots that an apply discards, in master-number order. -/
def State.splitEntries (s : State) : List Entry :=
  masterNumbers.filterMap fun m => (s.path.slots.get m).map fun sl =>
    { kind := 8, master := 15, addr := sl.addr, detail := 2
      data := match sl.lane with | .low => sl.byte.setWidth 16 | .high => sl.byte.setWidth 16 <<< 8
      time := s.timeStamp }

/-- R13, R19, R100 step 6: an apply makes a door stale that is not: its owner leaves the SCANNER role or changes its
range, or its freshness timer meets the new limit. -/
def GoesStale (s : State) (img : Settings) (x : Door) : Prop :=
  x.inp.stale = false ∧
    ((∃ m first count auth, x.owner = some m ∧ s.role m = .scanner first count auth ∧
        (img.masters.get m).role ≠ .scanner first count) ∨
      ∃ start, x.inp.freshness = some start ∧ start + img.timing.idleLimit ≤ s.clock)

/-! ## Good settings images (R1, R121, R133, R165) -/

/-- R165: a master record of a body with `n` doors. -/
structure MasterReads (b : List Byte) (n : Nat) (m : Fin 8) (r : MasterSetting) : Prop where
  role : byteAt b (25 + 4 * m.val) =
    match r.role with | .absent => 0 | .station => 1 | .scanner _ _ => 2 | .service => 3 | .observer => 4
  behaviour : byteAt b (26 + 4 * m.val) = match r.behaviour with | .drop => 0 | .trap => 1 | .restrict => 2
  range : ∀ first count, r.role = .scanner first count →
    first = byteAt b (27 + 4 * m.val) ∧ count = byteAt b (28 + 4 * m.val) ∧
      first ≤ 95 ∧ 1 ≤ count ∧ count ≤ 96 ∧ first + count ≤ n

/-- R121, R165: an enabled window record at an offset, of a body with `n` doors, under an image size. -/
structure WindowReads (b : List Byte) (o n imageSize : Nat) (w : Window) : Prop where
  base : w.base.toNat = tripleAt b (o + 2)
  length : w.length = wordAt b (o + 5)
  ends : w.base.toNat + w.length ≤ 262144
  kind :
    let is (k : Nat) := byteAt b (o + 1) = k
    let below := w.base.toNat + w.length ≤ imageSize
    let covers (doors base : Nat) := base = byteAt b (o + 7) ∧ base ≤ 95 ∧ 1 ≤ doors ∧ base + doors ≤ n
    match w.kind with
    | .plain => is 0 ∧ 1 ≤ w.length ∧ w.length ≤ 4096 ∧ below
    | .command d => is 1 ∧ covers w.length d
    | .sensor d => is 2 ∧ covers w.length d ∧ below
    | .indication d => is 3 ∧ w.length % 2 = 0 ∧ covers (w.length / 2) d
    | .order => is 4 ∧ w.length = 11 ∧ below
    | .capture => is 5 ∧ w.length = 6
    | .status => is 6 ∧ w.length = 8

/-- R133, R165: an enabled rule record at an offset, under a window table. -/
structure RuleReads (b : List Byte) (o : Nat) (windows : List (Option Window)) (r : Rule) : Prop where
  invert : r.invert = decide (byteAt b o / 2 % 2 = 1)
  direction : byteAt b o / 4 % 4 = match r.direction with | .read => 0 | .write => 1 | .either => 2
  masters : r.masters.toNat = byteAt b (o + 1)
  window : match r.window with
    | none => byteAt b (o + 2) = 255
    | some k => byteAt b (o + 2) = k.val ∧ ∃ w, windows[k.val]? = some (some w)
  value : r.value.toNat = wordAt b (o + 4)
  mask : r.mask.toNat = wordAt b (o + 6)
  action :
    let is (k : Nat) := byteAt b o / 16 = k
    match r.action with
    | .permit => is 0
    | .refuse => is 1
    | .refuseQuiet => is 2
    | .force v k => is 3 ∧ v.toNat = wordAt b (o + 8) ∧ k.toNat = wordAt b (o + 10)
    | .trap => is 4
    | .meter m => is 5 ∧ m.val = byteAt b (o + 3)

/-- R1, R165: a door record of a body. -/
structure DoorReads (b : List Byte) (masters : Vector MasterSetting 8) (d : Nat) (st : DoorStatic) : Prop where
  cls : match st.cls with
    | .powered g => byteAt b (589 + 8 * d) = 0 ∧ g.val = byteAt b (591 + 8 * d)
    | .indicated => byteAt b (589 + 8 * d) = 1
  zone : st.zone.val = byteAt b (590 + 8 * d)
  scanner : st.scanner.val = byteAt b (592 + 8 * d)
  owned : ∃ first count, (masters.get st.scanner).role = .scanner first count ∧ first ≤ d ∧ d < first + count
  travel : st.travelLimit = wordAt b (593 + 8 * d) ∧ 10 ≤ st.travelLimit ∧ st.travelLimit ≤ 600
  baseline : st.initialBaseline = byteAt b (595 + 8 * d)
  margin : st.margin = byteAt b (596 + 8 * d) ∧ 1 ≤ st.margin

/-- A value read from a field, within the range that the manual gives for it. -/
abbrev Reads (value field lo hi : Nat) : Prop := value = field ∧ lo ≤ value ∧ value ≤ hi

/-- R165: a body whose every field lies in its range and which meets every check gives these settings. -/
structure GoodImage (b : List Byte) (inForce : Option Nat) (img : Settings) : Prop where
  debounce : Reads img.timing.debounce (byteAt b 0) 0 20
  activeLimit : Reads img.timing.activeLimit (byteAt b 1) 2 50
  idleLimit : Reads img.timing.idleLimit (wordAt b 2) 5 300
  prewarn : Reads img.timing.prewarn (byteAt b 4) 0 100
  reclose : Reads img.timing.reclose (wordAt b 5) 10 300
  retryDelay : Reads img.timing.retryDelay (wordAt b 7) 10 600
  tripDelay : Reads img.timing.tripDelay (byteAt b 9) 0 30
  retryLimit : Reads img.timing.retryLimit (byteAt b 10) 0 7
  heartbeat : Reads img.timing.heartbeat (byteAt b 11) 10 100
  transfer : Reads img.timing.transfer (wordAt b 12) 50 600
  flashPeriod : Reads img.timing.flashPeriod (byteAt b 16) 2 40
  flashOn : Reads img.timing.flashOn (byteAt b 17) 1 img.timing.flashPeriod
  mode : byteAt b 14 = match img.defaultMode with | .localControl => 1 | .doorsClosed => 2
  holder : match img.defaultHolder with
    | none => byteAt b 15 = 15
    | some m => byteAt b 15 = m.val ∧ (img.masters.get m).role = .station
  doorCount : Reads img.doors.length (byteAt b 18) 1 96
  length : b.length = 589 + 8 * img.doors.length
  fitted : byteAt b 20 = img.fittedA.toNat ∧ byteAt b 21 = img.fittedB.toNat
  imageSize : img.imageSize = 1024 * (byteAt b 22 + 1)
  readMap : img.readMap.toNat = wordAt b 23
  masters : ∀ m, MasterReads b img.doors.length m (img.masters.get m)
  stations : (masterNumbers.filter fun m => (img.masters.get m).role == .station).length ≤ 3
  ranges : ∀ m k first count first' count', m ≠ k → (img.masters.get m).role = .scanner first count →
    (img.masters.get k).role = .scanner first' count' → first + count ≤ first' ∨ first' + count' ≤ first
  windows : img.windows.length = 16 ∧ ∀ i, i < 16 →
    (img.windows[i]? = some none ∧ byteAt b (57 + 8 * i) = 0) ∨
      ∃ w, img.windows[i]? = some (some w) ∧ byteAt b (57 + 8 * i) = 1 ∧
        WindowReads b (57 + 8 * i) img.doors.length (inForce.getD img.imageSize) w
  rules : img.rules.length = 32 ∧ ∀ i, i < 32 →
    (img.rules[i]? = some none ∧ byteAt b (185 + 12 * i) % 2 = 0) ∨
      ∃ r, img.rules[i]? = some (some r) ∧ byteAt b (185 + 12 * i) % 2 = 1 ∧
        RuleReads b (185 + 12 * i) img.windows r
  meters : ∀ m : Fin 8, Reads (img.meters.get m).rate (byteAt b (569 + 2 * m.val)) 1 255 ∧
    Reads (img.meters.get m).burst (byteAt b (570 + 2 * m.val)) 1 255
  slotCounts : ∀ g : Fin 4, Reads (img.slotCounts.get g) (byteAt b (585 + g.val)) 1 8
  doors : ∀ d st, img.doors[d]? = some st → DoorReads b img.masters d st

/-- R165: the CRC register after one more bit of the body. -/
def crcBit (crc : Word) (bit : Bool) : Word :=
  if crc.getLsbD 15 != bit then (crc <<< 1) ^^^ 0x1021 else crc <<< 1

/-! ## Laws of the part -/

/-- R159: the ring holds 0 to 64 entries, the dropped count 0 to 255. -/
def Ring.lawful (r : Ring) : Prop := r.entries.length ≤ 64 ∧ r.dropped ≤ 255

/-- The bank contents are in their canonical form (log 7). -/
def Mirror.canonical (m : Mirror) : Prop := m.bankA.mem.wf ∧ m.bankB.mem.wf

/-- R145, R146, R152, R156: counts of 0 to 3; a source present exactly while the other bank is in RESYNC, and then
IN_SERVICE; the cursor 0 without a copy and inside the image with one; in RUNNING the image lost exactly while no bank is
IN_SERVICE. -/
structure Mirror.lawful (part : PartState) (m : Mirror) : Prop where
  counts : m.bankA.count ≤ 3 ∧ m.bankB.count ≤ 3
  copyToB : m.source = some .bankA ↔ m.bankB.state = .resync
  copyToA : m.source = some .bankB ↔ m.bankA.state = .resync
  source : ∀ b, m.source = some b → (m.bank b).state = .inService
  cursor : (m.source = none → m.cursor = 0) ∧ (m.source ≠ none → m.cursor < m.imageSize)
  image : part = .running → 0 < m.imageSize
  lost : part = .running → (m.imageLost = true ↔ m.serves .bankA = false ∧ m.serves .bankB = false)

/-- R85, R86: the holder is a LIVE station; while a transfer is pending there is a holder, and the requester is a LIVE
station other than it. -/
def State.commandLawful (s : State) : Prop :=
  (∀ h, s.command.holder = some h → (s.role h).live = true) ∧
    ∀ t, s.command.transfer = some t →
      s.command.holder ≠ none ∧ s.command.holder ≠ some t.requester ∧ (s.role t.requester).live = true

/-- R21, R66, R67: in each group the slot holders are the doors in WARNING or MOVING, at most as many as the slot count,
and the queue entries are the QUEUED doors, once each and in class order; INDICATED doors are RESTING or ISOLATED. -/
structure Yard.arbiterLawful (y : Yard) : Prop where
  once : ∀ g, (y.groups.get g).holders.Nodup ∧ (y.groups.get g).queue.Nodup
  holders : ∀ g d, d ∈ (y.groups.get g).holders ↔
    ∃ x, y.doors[d]? = some x ∧ x.st.cls = .powered g ∧ x.drive.hasSlot = true
  queue : ∀ g d, d ∈ (y.groups.get g).queue ↔
    ∃ x, y.doors[d]? = some x ∧ x.st.cls = .powered g ∧ x.drive.isQueued = true
  slots : ∀ g, (y.groups.get g).holders.length ≤ (y.groups.get g).slotCount.getD 0
  order : ∀ g, (y.groups.get g).queue.Pairwise fun a b => y.classOf a ≤ y.classOf b
  indicated : ∀ (d : Nat) (x : Door), y.doors[d]? = some x → x.st.cls = .indicated →
    x.drive = .resting ∨ x.drive = .isolated

/-- R56: a trip count never exceeds the retry limit plus 1, and equals it exactly when the inhibit is LATCHED. -/
def State.tripLawful (s : State) : Prop :=
  ∀ d x, s.door? d = some x →
    x.prot.tripCount ≤ s.times.retryLimit + 1 ∧
      (x.prot.tripCount = s.times.retryLimit + 1 ↔ x.inhibit = .latched)

/-- R23, R55: a door whose inhibit is not NONE is never in WARNING, and never QUEUED or MOVING with a remote origin; a
TRIPPED door's inhibit is NONE. -/
def State.inhibitLawful (s : State) : Prop :=
  ∀ d x, s.door? d = some x → x.inhibit ≠ .none →
    (∀ o p, x.drive ≠ .warning o p) ∧ (∀ r, x.drive ≠ .tripped r) ∧
      ∀ o, x.drive.origin = some o → o = .localReq

/-- R3, R20, R48, R65, R102: outside RUNNING every door record and group record holds its reset values; no reload is under
way (R168), and no access waits for more than a start-up hold or bank A (R118, R119). -/
def State.dormant (s : State) : Prop :=
  s.part ≠ .running → s.yard = Yard.blank ∧ s.loader.reload = .idle ∧
    ∀ a w, s.path.upstream = .waiting a w → w = .transparent

/-- R1: every door of a settings image is owned by a SCANNER of it. -/
def Settings.owned (img : Settings) : Prop :=
  ∀ st ∈ img.doors, ∃ first count, (img.masters.get st.scanner).role = .scanner first count

/-- R1, R4: every door's owner is a SCANNER, in force and in a held image, and every position is the one R4 gives; a
record with no static part in force has no owner. -/
def State.positionLawful (s : State) : Prop :=
  (∀ d x, s.door? d = some x →
    (∀ m, x.owner = some m → (s.role m).isScanner = true) ∧ x.position = s.env.positionOf x) ∧
    ∀ img, s.loader.reload = .applyPending img → img.owned

/-- R116: while an access is unanswered no response stands. -/
def State.portLawful (s : State) : Prop := s.path.upstream = .idle ∨ s.path.response = none

/-- A law that every step keeps. -/
def KeptByStep (law : State → Prop) : Prop := ∀ s t, law s → step s = .next t → law t

end Sys2Proof.Machine
end

