-- ==== Sys2Proof/Certificates/Slice0/Obligations.lean ====
section
/-! DEFINITION. The statements for the provers. OBLIGATIONS.json lists them with the rules they rest on. -/

open Sys2Proof Sys2Proof.Machine

/-! ## The queue, the tick -/

/-- O1. A step with a command waiting is that command's meaning on the rest of the queue. The queue is the model's
interface: log 2. -/
def Obligations.FrontCommandIsExecuted : Prop :=
  ∀ (c : Instr) (s : State) (rest : List Instr),
    s.pending = c :: rest → step s = exec c { s with pending := rest }

/-- O2. An empty queue is the tick (log 2): outside RUNNING the block idles; in RUNNING a due command is put on the
queue, and where none is due the clock moves on by a tenth. Due are the part's own steps, a grant where a slot is free
and a door waits and the apply of a held image where no door is bound, or, where there is none of them, the expiries
whose timer runs and whose moment is reached; nothing else is. The tick, and that the part's own steps come before
expiries, are the model's choice: log 2, log 3. -/
def Obligations.EmptyQueueTicks : Prop :=
  ∀ s : State,
    (s.pending = [] →
      (s.part ≠ .running → step s = .next s) ∧
      (s.part = .running → s.due = [] → step s = .next { s with clock := s.clock + 1 }) ∧
      ∀ c cs, s.part = .running → s.due = c :: cs → step s = .next { s with pending := [c] }) ∧
    ∀ c, c ∈ s.due ↔ OwnStep s c ∨ ((∀ k, ¬ OwnStep s k) ∧ TimerReached s c)

/-! ## Reset and loading -/

/-- O3. POWER_ON and RESET, in any state, begin a reset: every piece of state takes its reset value. The access in
progress stays unanswered and is held; the queue stays; the banks keep what they hold, but for the word that an
abandoned write addresses, in a bank whose write had not ended: an abandoned read leaves both banks as they were.
Every door record stands at the reset values of R3, R20, R48 and R102, with no static part. RESET during a power-on
leaves the kind a power-on. That State.reset is a power-on reset in progress is log 6; that the banks keep their
contents is log 7, the word of an abandoned write log 8, that an access during the reset is held log 19; that no copy
step is in flight then is log 27; that 96 records stand while no door count is in force is log 5. -/
def Obligations.ResetBegins : Prop :=
  ∀ (c : Instr) (s : State), c = .powerOn ∨ c = .reset →
    ∃ t, exec c s = .next t ∧
      t = { State.reset with
        resetKind := t.resetKind
        path := { PathState.blank with upstream := t.path.upstream }
        mirror := Mirror.blank t.mirror.bankA.mem t.mirror.bankB.mem t.mirror.free
        pending := s.pending } ∧
      (∀ d, d < 96 → t.door? d = some
        { static := none
          inp :=
            { lastSeq := none, reported := false
              raw := { cl := false, ol := false, lo := false, lc := false }
              debounced := { cl := false, ol := false, lo := false, lc := false }
              timers := { cl := none, ol := none, lo := none, lc := none }
              pw := false, ob := false, pressure := 0, freshness := none, stale := false, reports := 0 }
          position := .unknown, drive := .resting, hold := false, inhibit := .none
          prot :=
            { alert := none, mark := false, peak := none, tripTimer := none, settle := none
              tripCount := 0, baseline := 0, hot := false }
          alarms :=
            { doorOpen := .normal, tripped := .normal, latched := .normal, stalled := .normal
              stale := .normal, conflict := .normal, drivePower := .normal }
          powerSeen := false }) ∧
      (c = .powerOn → t.resetKind = .powerOn) ∧
      (c = .reset → t.resetKind = if s.part = .inReset then s.resetKind else .resetLine) ∧
      (s.path.upstream = .idle → t.path.upstream = .idle) ∧
      (∀ a, s.path.upstream = .held a → t.path.upstream = .held a) ∧
      (∀ a w, s.path.upstream = .waiting a w → t.path.upstream = .held a) ∧
      ((∀ a w, s.path.upstream ≠ .waiting a w) → ∀ b k,
        (t.mirror.bank b).mem.read k = (s.mirror.bank b).mem.read k) ∧
      ∀ a w, s.path.upstream = .waiting a w → ∀ b,
        (¬ w.writes a b → ∀ k, (t.mirror.bank b).mem.read k = (s.mirror.bank b).mem.read k) ∧
        ∀ k, k ≠ laneAddr (w.addr a) .low → k ≠ laneAddr (w.addr a) .high →
          (t.mirror.bank b).mem.read k = (s.mirror.bank b).mem.read k

/-- O4. RESET_RELEASE records the cause, samples the strap, enters LOADING and begins the first attempt, and changes
nothing else. START_UP_HOLD: an access that arrives in reset or in LOADING is held unanswered, and nothing else
changes. That an access which arrives while RESET is asserted is held too is log 19. -/
def Obligations.ReleaseLoadsAndAccessesAreHeld : Prop :=
  (∀ (s : State) (strap : Bool), s.part = .inReset →
    exec (.resetRelease strap) s = .next { s with
      part := .loading 1
      resetCause := s.resetKind
      path := { s.path with laneMode := strap } }) ∧
  ∀ (s : State) (a : Access), s.part = .inReset ∨ (∃ n, s.part = .loading n) → s.path.upstream = .idle →
    exec (.startUpHold a) s = .next { s with
      path := { s.path with upstream := .held a, response := none } }

/-- O5. LOAD_ATTEMPT_END with a fault: a first or second fault begins the next attempt; a third enters TRANSPARENT,
with READY high, PART_FAULT on, bank A IN_SERVICE and bank B FAILED, and a held access forwarded to bank A. -/
def Obligations.FaultyAttemptLeadsOn : Prop :=
  ∀ (s : State) (n : Nat) (image : List Byte) (presentA presentB : Bool) (f : LoadFault),
    s.part = .loading n → loadAttempt image none = .error f →
    (n < 3 → exec (.loadAttemptEnd image presentA presentB) s = .next { s with part := .loading (n + 1) }) ∧
    (3 ≤ n → ∃ t, exec (.loadAttemptEnd image presentA presentB) s = .next t ∧
      t = { s with
        part := .transparent
        path := { s.path with upstream := t.path.upstream, response := t.path.response }
        lines := { s.lines with ready := true, partFault := true }
        mirror := { Mirror.blank Contents.blank Contents.blank s.mirror.free with
          bankA := { state := .inService, count := 0, mem := s.mirror.bankA.mem }
          bankB := { state := .failed, count := 0, mem := s.mirror.bankB.mem } } } ∧
      (s.path.upstream = .idle →
        t.path.upstream = .idle ∧ t.path.response = s.path.response) ∧
      ∀ a, s.path.upstream = .held a →
        t.path.upstream = .waiting a .transparent ∧ t.path.response = none)

/-- O6. LOAD_ATTEMPT_END with a good image and no access held: RUNNING, with the tables of the image in force and every
block at its entry values: every door has a new record, its freshness timer running from the entry (R3, R20, R48, R102).
The bytes and the present lines are operands: log 9. That DOORS_NOT_CLOSED is judged at entry,
where no door is CLOSED yet, is log 21. -/
def Obligations.GoodAttemptEntersRunning : Prop :=
  ∀ (s : State) (n : Nat) (image : List Byte) (presentA presentB : Bool) (img : Settings),
    s.part = .loading n → loadAttempt image none = .ok img → s.path.upstream = .idle →
    ∃ t, exec (.loadAttemptEnd image presentA presentB) s = .next t ∧
      t.part = .running ∧ t.clock = 0 ∧ t.timing = some img.timing ∧ t.resetCause = s.resetCause ∧
      t.path = { s.path with windows := img.windows, slots := Vector.replicate 8 none } ∧
      t.rules = img.rules ∧ t.pending = s.pending ∧
      (∀ m : Fin 8,
        (t.masters.get m).behaviour = (img.masters.get m).behaviour ∧
        ((img.masters.get m).role = .absent → t.role m = .absent) ∧
        ((img.masters.get m).role = .station → t.role m = .station (some 0)) ∧
        (∀ f k, (img.masters.get m).role = .scanner f k → t.role m = .scanner f k false) ∧
        ((img.masters.get m).role = .service → t.role m = .service) ∧
        ((img.masters.get m).role = .observer → t.role m = .observer)) ∧
      (∀ m : Fin 8, t.meters.get m =
        { rate := (img.meters.get m).rate, burst := (img.meters.get m).burst
          tokens := (img.meters.get m).burst, exceeded := false, start := 0, refills := 0 }) ∧
      (t.yard.doors = img.doors.map fun st =>
        { static := some st
          inp :=
            { lastSeq := none, reported := false
              raw := { cl := false, ol := false, lo := false, lc := false }
              debounced := { cl := false, ol := false, lo := false, lc := false }
              timers := { cl := none, ol := none, lo := none, lc := none }
              pw := false, ob := false, pressure := 0, freshness := some 0, stale := false, reports := 0 }
          position := .unknown, drive := .resting, hold := false, inhibit := .none
          prot :=
            { alert := none, mark := false, peak := none, tripTimer := none, settle := none
              tripCount := 0, baseline := st.initialBaseline, hot := false }
          alarms :=
            { doorOpen := .normal, tripped := .normal, latched := .normal, stalled := .normal
              stale := .normal, conflict := .normal, drivePower := .normal }
          powerSeen := false }) ∧
      (∀ g : Fin 4, t.yard.groups.get g =
        { slotCount := some (img.slotCounts.get g), holders := [], queue := [] }) ∧
      t.command = { mode := some img.defaultMode, holder := img.defaultHolder, transfer := none } ∧
      t.loader = { reload := .idle, lastReloadFailed := false } ∧
      t.lines.ready = true ∧ t.lines.generalAlarm = .off ∧
      (t.lines.doorsNotClosed = true ↔ img.defaultMode = .doorsClosed ∧ img.doors ≠ []) ∧
      t.lines.partFault = (!(presentA && img.fittedA) && !(presentB && img.fittedB)) ∧
      t.ring =
        { entries :=
            { kind := 1, master := 15, addr := 0, detail := s.resetCause.code
              data := BitVec.ofNat 16 n, time := 0 } ::
            (if (presentA && img.fittedA) || (presentB && img.fittedB) then []
             else [{ kind := 24, master := 15, addr := 0, detail := 3, data := 0, time := 0 }])
          dropped := 0 } ∧
      t.mirror.readMap = img.readMap ∧ t.mirror.imageSize = img.imageSize ∧ t.mirror.cursor = 0 ∧
      t.mirror.bankA =
        { state := if presentA && img.fittedA then .inService else .notFitted
          count := 0, mem := s.mirror.bankA.mem } ∧
      t.mirror.bankB =
        { state :=
            if presentB && img.fittedB then
              (if presentA && img.fittedA then .resync else .inService)
            else .notFitted
          count := 0, mem := s.mirror.bankB.mem } ∧
      t.mirror.source =
        (if (presentA && img.fittedA) && (presentB && img.fittedB) then some .bankA else none) ∧
      t.mirror.imageLost = (!(presentA && img.fittedA) && !(presentB && img.fittedB))

/-- O7. An access held at the start-up hold is taken, when the load ends, as a new arrival at the part that the load
would have left with no access held; while the load goes on it stays held. -/
def Obligations.HeldAccessProceeds : Prop :=
  ∀ (s : State) (a : Access) (n : Nat) (image : List Byte) (presentA presentB : Bool),
    s.part = .loading n → s.path.upstream = .held a →
    ∃ u : State, exec (.loadAttemptEnd image presentA presentB)
        { s with path := { s.path with upstream := .idle } } = .next u ∧
      ((∃ k, u.part = .loading k) → exec (.loadAttemptEnd image presentA presentB) s =
        .next { u with path := { u.path with upstream := .held a } }) ∧
      (u.part = .running ∨ u.part = .transparent →
        exec (.loadAttemptEnd image presentA presentB) s = .next (u.arrive a))

/-- O8. R165's order of faults: too few bytes, a wrong tag or version, a body that would not fit, a body not
acknowledged whole, a wrong CRC, a failed range check; and only an attempt with none of them is good. The CRC takes each
byte from its most significant bit, polynomial 0x1021, initial value 0xFFFF, no inversion. The range checks: a body whose
fields all lie in the ranges of R1, R121, R133 and R165 and which meets every check of cause 5 gives the settings that
its fields spell, and any other body is a range violation. That the header is judged once its 8 bytes have been read is
log 9. -/
def Obligations.LoadAttemptFaults : Prop :=
  (crcOf [] = 0xFFFF ∧ ∀ (body : List Byte) (byte : Byte), crcOf (body ++ [byte]) =
    [7, 6, 5, 4, 3, 2, 1, 0].foldl (fun crc i => crcBit crc (byte.getLsbD i)) (crcOf body)) ∧
  (∀ (body : List Byte) (inForce : Option Nat),
    (∀ img, settingsOf body inForce = some img ↔ GoodImage body inForce img) ∧
    (settingsOf body inForce = none ↔ ∀ img, ¬ GoodImage body inForce img)) ∧
  ∀ (image : List Byte) (inForce : Option Nat),
    let body := (image.drop 8).take (wordAt image 4)
    (image.length < 8 → loadAttempt image inForce = .error .noAcknowledge) ∧
    (8 ≤ image.length →
      (wordAt image 0 ≠ 0x6480 ∨ wordAt image 2 ≠ 1 → loadAttempt image inForce = .error .badTag) ∧
      (wordAt image 0 = 0x6480 → wordAt image 2 = 1 →
        (2040 < wordAt image 4 → loadAttempt image inForce = .error .tooLong) ∧
        (wordAt image 4 ≤ 2040 → image.length < 8 + wordAt image 4 →
          loadAttempt image inForce = .error .noAcknowledge) ∧
        (wordAt image 4 ≤ 2040 → 8 + wordAt image 4 ≤ image.length →
          (crcOf body ≠ BitVec.ofNat 16 (wordAt image 6) →
            loadAttempt image inForce = .error .crcMismatch) ∧
          (crcOf body = BitVec.ofNat 16 (wordAt image 6) →
            (settingsOf body inForce = none → loadAttempt image inForce = .error .rangeViolation) ∧
            ∀ img, settingsOf body inForce = some img → loadAttempt image inForce = .ok img))))

/-! ## TRANSPARENT -/

/-- O9. TRANSPARENT_ACCESS is forwarded to bank A unchanged. Bank A's completion or want of it answers it: a write
DONE, or ERROR with nothing but the addressed word of bank A in doubt; a read DONE with what the bank returns where every
selected byte matches its parity, or ERROR. No capture is made and no count kept. The free bytes of an uncompleted write
are log 8; the bits a bank returns flipped are log 9, the sense of the parity log 25; that a write's DONE carries no data
is log 23. -/
def Obligations.TransparentAccessIsBankAs : Prop :=
  (∀ (s : State) (a : Access), s.part = .transparent → s.path.upstream = .idle →
    exec (.transparentAccess a) s = .next { s with
      path := { s.path with upstream := .waiting a .transparent, response := none } }) ∧
  ∀ (s : State) (a : Access), s.path.upstream = .waiting a .transparent →
    (∀ w flipped, a.op = .write w → exec (.bankAccessEnd .bankA flipped) s = .next { s with
      path := { s.path with upstream := .idle, response := some (.done none) }
      mirror := { s.mirror with
        bankA := { s.mirror.bankA with mem := s.mirror.bankA.mem.writeLanes a.addr a.lanes w } } }) ∧
    (∀ flipped, a.op = .read →
      let r := s.mirror.fetch .bankA a.addr flipped
      (r.good a.lanes = true → exec (.bankAccessEnd .bankA flipped) s = .next { s with
        path := { s.path with
          upstream := .idle, response := some (.done (some (onLanes a.lanes r.data))) } }) ∧
      (r.good a.lanes = false → exec (.bankAccessEnd .bankA flipped) s = .next { s with
        path := { s.path with upstream := .idle, response := some .error } })) ∧
    (a.op = .read → exec (.bankCompletionTimeout .bankA) s = .next { s with
      path := { s.path with upstream := .idle, response := some .error } }) ∧
    ∀ w, a.op = .write w → ∃ t, exec (.bankCompletionTimeout .bankA) s = .next t ∧
      t = { s with
        path := { s.path with upstream := .idle, response := some .error }
        mirror := { s.mirror with
          bankA := { s.mirror.bankA with mem := t.mirror.bankA.mem }
          free := t.mirror.free } } ∧
      ∀ k, k ≠ laneAddr a.addr .low → k ≠ laneAddr a.addr .high →
        t.mirror.bankA.mem.read k = s.mirror.bankA.mem.read k

/-! ## The access path -/

/-- O10. Every access row is the arrival of its access (log 1), and in RUNNING at the idle port an arrival ends in
exactly one of two ways: answered, or waiting for the banks with no response yet. That the rows are arrivals which the
path judges is log 1. -/
def Obligations.AccessRowsArrive : Prop :=
  (∀ (c : Instr) (s : State) (a : Access), accessOf c = some a → exec c s = .next (s.arrive a)) ∧
  ∀ (s : State) (a : Access), s.part = .running → s.path.upstream = .idle →
    ((s.arrive a).path.upstream = .idle ∧ (s.arrive a).path.response ≠ none) ∨
    ((∃ w, (s.arrive a).path.upstream = .waiting a w) ∧ (s.arrive a).path.response = none)

/-- O11. Window lookup finds the lowest-indexed enabled window that contains the address, which is one whose base is at
most the address and whose end, base plus length, is above it; an address that none contains is PLAIN with no index. -/
def Obligations.LookupFindsTheLowestWindow : Prop :=
  ∀ (s : State) (a : Addr),
    let contains (w : Window) : Prop := w.base.toNat ≤ a.toNat ∧ a.toNat < w.base.toNat + w.length
    (∀ (k : Nat) (w : Window), s.path.windows[k]? = some (some w) → contains w →
      (∀ (j : Nat) (v : Window), j < k → s.path.windows[j]? = some (some v) → ¬ contains v) →
      s.lookup a = { window := some k, kind := w.kind, offset := a.toNat - w.base.toNat }) ∧
    ((∀ (k : Nat) (w : Window), s.path.windows[k]? = some (some w) → ¬ contains w) →
      (s.lookup a).window = none ∧ (s.lookup a).kind = .plain)

/-- O12. SINGLE_LANE_WRITE to a word of a COMMAND, SENSOR or ORDER window. From an ABSENT master: ERROR and nothing
else. In WORD mode: ERROR and LANE_REFUSED. In LANE mode, by the master's slot: absent, the byte is held; present at
the same lane of the same word, the byte is replaced; present at another word, the slot is abandoned with
SPLIT_ABANDONED and the byte held; present at the other lane of the same word, the slot is gone and the whole word goes
on through the master check, the rule list and its kind's processing. The zero in the lane not written is log 15. -/
def Obligations.SingleLaneWrites : Prop :=
  ∀ (s : State) (m : Master) (addr : Addr) (lane : Lane) (byte : Byte) (f : Found),
    s.part = .running → s.path.upstream = .idle → s.lookup addr = f → f.kind.assembled = true →
    let c := Instr.singleLaneWrite m addr lane byte
    let data := match lane with | .low => byte.setWidth 16 | .high => byte.setWidth 16 <<< 8
    let held : State → State := fun t => { t with
      path := { t.path with
        slots := setAt t.path.slots m (some { addr := addr, lane := lane, byte := byte })
        upstream := .idle
        response := some (.done none) } }
    (s.role m = .absent →
      exec c s = .next { s with path := { s.path with upstream := .idle, response := some .error } }) ∧
    (s.role m ≠ .absent → s.path.laneMode = false →
      exec c s = .next { s with
        ring := s.ring.push
          { kind := 7, master := m.val, addr := addr
            detail := match lane with | .low => 1 | .high => 2
            data := data, time := s.timeStamp }
        path := { s.path with upstream := .idle, response := some .error } }) ∧
    (s.role m ≠ .absent → s.path.laneMode = true →
      (s.path.slots.get m = none → exec c s = .next (held s)) ∧
      (∀ b, s.path.slots.get m = some { addr := addr, lane := lane, byte := b } →
        exec c s = .next (held s)) ∧
      (∀ sl, s.path.slots.get m = some sl → sl.addr ≠ addr →
        exec c s = .next (held { s with
          ring := s.ring.push
            { kind := 8, master := m.val, addr := sl.addr, detail := 1
              data := match sl.lane with
                | .low => sl.byte.setWidth 16 | .high => sl.byte.setWidth 16 <<< 8
              time := s.timeStamp } })) ∧
      ∀ sl, s.path.slots.get m = some sl → sl.addr = addr → sl.lane ≠ lane →
        let word := match lane with
          | .low => data ||| (sl.byte.setWidth 16 <<< 8) | .high => data ||| sl.byte.setWidth 16
        let gone := { s with path := { s.path with slots := setAt s.path.slots m none } }
        exec c s = .next
          (match (gone.masterStage (wordWrite m addr word) f).andThen fun t b => t.ruleStage b f with
          | .ended t => t
          | .goesOn t b => t.process
              { master := m, addr := addr, lanes := lane.lanes, op := .write data } b f))

/-- O13. Any other access of a master with a present slot abandons it first: SPLIT_ABANDONED, and the access goes on as
if the slot had never been. -/
def Obligations.OtherAccessesAbandonTheSlot : Prop :=
  ∀ (s : State) (a : Access) (sl : Slot), s.part = .running → s.path.upstream = .idle →
    s.path.slots.get a.master = some sl → assembledLane a (s.lookup a.addr) = none →
    s.arrive a = State.arrive { s with
      path := { s.path with slots := setAt s.path.slots a.master none }
      ring := s.ring.push
        { kind := 8, master := a.master.val, addr := sl.addr, detail := 1
          data := match sl.lane with
            | .low => sl.byte.setWidth 16 | .high => sl.byte.setWidth 16 <<< 8
          time := s.timeStamp } } a

/-- O14. The master check (R126). The zero that TRAP records for a lane not written is log 15. -/
def Obligations.MasterCheck : Prop :=
  ∀ (s : State) (a : Access) (f : Found),
    (s.role a.master = .absent → s.masterStage a f = .ended (s.answer .error)) ∧
    ((s.role a.master).authorized = true → s.masterStage a f = s.matrix a f) ∧
    (∀ first count, s.role a.master = .scanner first count false → a.isWrite = true →
      f.kind = .order → f.offset = 10 → s.masterStage a f = s.matrix a f) ∧
    (s.role a.master = .station none → a.isWrite = true →
      f.kind = .order → f.offset = 9 → s.masterStage a f = s.matrix a f) ∧
    ((s.role a.master = .station none ∧ ¬ (a.isWrite = true ∧ f.kind = .order ∧ f.offset = 9)) ∨
      (∃ first count, s.role a.master = .scanner first count false ∧
        ¬ (a.isWrite = true ∧ f.kind = .order ∧ f.offset = 10)) →
      (a.isWrite = true → (s.masters.get a.master).behaviour = .drop →
        s.masterStage a f = .ended (s.answer .error)) ∧
      (a.isWrite = true → (s.masters.get a.master).behaviour = .restrict →
        s.masterStage a f = .ended (s.answer .error)) ∧
      (a.isWrite = true → (s.masters.get a.master).behaviour = .trap →
        s.masterStage a f = .ended ((s.capture
          { kind := 2, master := a.master.val, addr := a.addr, detail := 1
            data := a.written }).answer .error)) ∧
      (a.isWrite = false → (s.masters.get a.master).behaviour ≠ .restrict →
        s.masterStage a f = s.matrix a f) ∧
      (a.isWrite = false → (s.masters.get a.master).behaviour = .restrict →
        ((∃ b, f.kind = .indication b) ∨ f.kind = .status → s.masterStage a f = s.matrix a f) ∧
        ((∀ b, f.kind ≠ .indication b) → f.kind ≠ .status →
          s.masterStage a f = .ended (s.answer .error))))

/-- O15. The permission matrix (R127). The zero that a refusal records for a lane not written is log 15. -/
def Obligations.PermissionMatrix : Prop :=
  ∀ (s : State) (a : Access) (f : Found),
    let refused (detail : Nat) : Stage := .ended ((s.capture
      { kind := 2, master := a.master.val, addr := a.addr, detail := detail
        data := a.written }).answer .error)
    (a.isWrite = false → s.matrix a f = .goesOn s a) ∧
    (a.isWrite = true →
      (f.kind = .plain → s.matrix a f =
        if s.role a.master = .observer then refused 5 else .goesOn s a) ∧
      (∀ b, f.kind = .command b → s.matrix a f =
        if s.command.holder = some a.master then .goesOn s a else refused 3) ∧
      (∀ b, f.kind = .sensor b →
        (∀ first count auth, s.role a.master = .scanner first count auth → s.matrix a f =
          if first ≤ b + f.offset ∧ b + f.offset < first + count then .goesOn s a else refused 4) ∧
        ((s.role a.master).isScanner = false → s.matrix a f = refused 4)) ∧
      ((∃ b, f.kind = .indication b) ∨ f.kind = .capture ∨ f.kind = .status →
        s.matrix a f = refused 2) ∧
      (f.kind = .order → s.matrix a f = .goesOn s a))

/-- O16. A rule's tests and its match (R134, R135); the first enabled matching rule decides by its action, and where
none matches the access goes on unchanged (R136). -/
def Obligations.FirstMatchingRuleDecides : Prop :=
  (∀ (r : Rule) (a : Access) (f : Found),
    let window := r.window = none ∨ ∃ k, r.window = some k ∧ f.window = some k.val
    let data (w : Word) := ∀ i, i < 16 → r.mask.getLsbD i = true → w.getLsbD i = r.value.getLsbD i
    let master := r.masters.getLsbD a.master.val = true
    (∀ w, a.op = .write w →
      (r.matchesAccess a f = true ↔
        ((master ∧ window ∧ r.direction ≠ .read ∧ data (onLanes a.lanes w)) ↔ r.invert = false))) ∧
    (a.op = .read →
      (r.matchesAccess a f = true ↔
        r.mask = 0 ∧ ((master ∧ window ∧ r.direction ≠ .write) ↔ r.invert = false)))) ∧
  (∀ (s : State) (a : Access) (f : Found),
    (firstMatch a f s.rules 0 = none → s.ruleStage a f = .goesOn s a) ∧
    ∀ i r, firstMatch a f s.rules 0 = some (i, r) → s.ruleStage a f = s.act a i r.action) ∧
  ∀ (a : Access) (f : Found) (rules : List (Option Rule)),
    (∀ i r, firstMatch a f rules 0 = some (i, r) ↔
      rules[i]? = some (some r) ∧ r.matchesAccess a f = true ∧
        ∀ (j : Nat) (q : Rule), j < i → rules[j]? = some (some q) → q.matchesAccess a f = false) ∧
    (firstMatch a f rules 0 = none ↔
      ∀ (j : Nat) (q : Rule), rules[j]? = some (some q) → q.matchesAccess a f = false)

/-- O17. What the deciding rule does with an access at the rule list (R137 to R140, R142), and that this decides an
access that the master check has let through. -/
def Obligations.RuleActions : Prop :=
  ∀ (s : State) (a : Access) (f : Found) (i : Nat) (r : Rule), firstMatch a f s.rules 0 = some (i, r) →
    let dir := if a.isWrite then 2 else 1
    (r.action = .permit → s.ruleStage a f = .goesOn s a) ∧
    (r.action = .refuse → s.ruleStage a f = .ended ((s.capture
      { kind := 4, master := a.master.val, addr := a.addr, detail := dir
        data := BitVec.ofNat 16 i }).answer .error)) ∧
    (r.action = .refuseQuiet → s.ruleStage a f = .ended (s.answer .error)) ∧
    (r.action = .trap → s.ruleStage a f = .goesOn (s.capture
      { kind := 5, master := a.master.val, addr := a.addr, detail := dir
        data := BitVec.ofNat 16 i }) a) ∧
    (∀ v k, r.action = .force v k → a.op = .read → s.ruleStage a f = .goesOn s a) ∧
    (∀ v k w, r.action = .force v k → a.op = .write w → ∃ w',
      s.ruleStage a f = .goesOn s { a with op := .write w' } ∧
      ∀ j, j < 16 → w'.getLsbD j =
        if (k &&& laneMask a.lanes).getLsbD j then v.getLsbD j else w.getLsbD j) ∧
    (∀ k, r.action = .meter k →
      let paid := { s.meters.get k with tokens := (s.meters.get k).tokens - 1 }
      let marked := { s.meters.get k with exceeded := true }
      (0 < (s.meters.get k).tokens →
        s.ruleStage a f = .goesOn { s with meters := setAt s.meters k paid } a) ∧
      ((s.meters.get k).tokens = 0 → (s.meters.get k).exceeded = true →
        s.ruleStage a f = .ended (s.answer .error)) ∧
      ((s.meters.get k).tokens = 0 → (s.meters.get k).exceeded = false →
        s.ruleStage a f = .ended ((State.capture { s with meters := setAt s.meters k marked }
          { kind := 6, master := a.master.val, addr := a.addr, detail := k.val
            data := BitVec.ofNat 16 i }).answer .error))) ∧
    (Admitted s a f → s.arrive a =
      match s.ruleStage a f with
      | .ended t => t
      | .goesOn t b => t.process a b f)

/-- O18. FORWARDED_WRITE. To a PLAIN word outside the image: ERROR and WRITE_REFUSED 6. Inside, with the image lost:
ERROR and nothing else. Inside, with a bank in use: the write is made to every bank that is IN_SERVICE or RESYNC and to
no other, and waits. To a word of a read-only kind: ERROR and WRITE_REFUSED 2. The zero that a refusal records for a lane
not written is log 15. -/
def Obligations.ForwardedWrites : Prop :=
  ∀ (s : State) (m : Master) (addr : Addr) (lanes : Lanes) (data : Word) (f : Found),
    let a : Access := { master := m, addr := addr, lanes := lanes, op := .write data }
    let leg (b : BankState) : Leg := match b with
      | .inService => .outstanding true | .resync => .outstanding false
      | .notFitted => .unused | .failed => .unused
    let refused (detail : Nat) : State := { s with
      ring := s.ring.push
        { kind := 2, master := m.val, addr := addr, detail := detail
          data := onLanes lanes data, time := s.timeStamp }
      path := { s.path with upstream := .idle, response := some .error } }
    (Reaches s a f → f.kind = .plain →
      (s.mirror.imageSize ≤ addr.toNat →
        exec (.forwardedWrite m addr lanes data) s = .next (refused 6)) ∧
      (addr.toNat < s.mirror.imageSize → s.mirror.imageLost = true →
        exec (.forwardedWrite m addr lanes data) s = .next
          { s with path := { s.path with upstream := .idle, response := some .error } }) ∧
      (addr.toNat < s.mirror.imageSize → s.mirror.imageLost = false →
        (leg s.mirror.bankA.state ≠ .unused ∨ leg s.mirror.bankB.state ≠ .unused) →
        exec (.forwardedWrite m addr lanes data) s = .next { s with path := { s.path with
          upstream := .waiting a (.write addr lanes data (leg s.mirror.bankA.state)
            (leg s.mirror.bankB.state) .answerOnly)
          response := none } })) ∧
    (s.part = .running → s.path.upstream = .idle → s.lookup addr = f →
      s.path.slots.get m = none → (s.role m).authorized = true →
      (∃ b, f.kind = .indication b) ∨ f.kind = .capture ∨ f.kind = .status →
      exec (.forwardedWrite m addr lanes data) s = .next (refused 2))

/-- O19. FORWARDED_READ of a PLAIN, SENSOR or ORDER word. Outside the image: ERROR and READ_REFUSED 6. Inside, with the
image lost: ERROR and nothing else. Otherwise it is made to the bank that the read map names by the hash of the address
if that bank is IN_SERVICE, or else to the other if that is. -/
def Obligations.ForwardedReads : Prop :=
  ∀ (s : State) (m : Master) (addr : Addr) (lanes : Lanes) (f : Found),
    Reaches s (readOf m addr lanes) f →
    f.kind = .plain ∨ (∃ b, f.kind = .sensor b) ∨ f.kind = .order →
    let index := addr.extractLsb' 0 4 ^^^ addr.extractLsb' 4 4 ^^^ addr.extractLsb' 8 4 ^^^
      addr.extractLsb' 12 4 ^^^ (addr.extractLsb' 16 2).setWidth 4
    let mapped := if s.mirror.readMap.getLsbD index.toNat then BankId.bankB else .bankA
    let reads (b : BankId) : State := { s with path := { s.path with
      upstream := .waiting (readOf m addr lanes) (.read addr lanes b false), response := none } }
    (s.mirror.imageSize ≤ addr.toNat → exec (.forwardedRead m addr lanes) s = .next { s with
      ring := s.ring.push
        { kind := 3, master := m.val, addr := addr, detail := 6, data := 0, time := s.timeStamp }
      path := { s.path with upstream := .idle, response := some .error } }) ∧
    (addr.toNat < s.mirror.imageSize → s.mirror.imageLost = true →
      exec (.forwardedRead m addr lanes) s = .next
        { s with path := { s.path with upstream := .idle, response := some .error } }) ∧
    (addr.toNat < s.mirror.imageSize → s.mirror.imageLost = false →
      ((s.mirror.bank mapped).state = .inService →
        exec (.forwardedRead m addr lanes) s = .next (reads mapped)) ∧
      ((s.mirror.bank mapped).state ≠ .inService →
        (s.mirror.bank (otherBank mapped)).state = .inService →
        exec (.forwardedRead m addr lanes) s = .next (reads (otherBank mapped))))

/-- O20. SERVED_READ of a COMMAND, INDICATION, CAPTURE or STATUS word: DONE at once with the selected lanes of the
word, and nothing but the port and the response changes. -/
def Obligations.ServedReads : Prop :=
  ∀ (s : State) (m : Master) (addr : Addr) (lanes : Lanes) (f : Found),
    Reaches s (readOf m addr lanes) f →
    let served (w : Word) : State := { s with path := { s.path with
      upstream := .idle, response := some (.done (some (w &&& laneMask lanes))) } }
    (∀ b x, f.kind = .command b → s.door? (b + f.offset) = some x →
      exec (.servedRead m addr lanes) s = .next (served (x.commandWord (b + f.offset)))) ∧
    (∀ b k x, f.kind = .indication b → f.offset = 2 * k → s.door? (b + k) = some x →
      exec (.servedRead m addr lanes) s = .next (served x.stateWord)) ∧
    (∀ b k x, f.kind = .indication b → f.offset = 2 * k + 1 → s.door? (b + k) = some x →
      exec (.servedRead m addr lanes) s = .next (served x.alarmWord)) ∧
    (f.kind = .capture →
      exec (.servedRead m addr lanes) s = .next (served (s.ring.word f.offset))) ∧
    (f.kind = .status →
      exec (.servedRead m addr lanes) s = .next (served (s.statusWord f.offset)))

/-- O21. The served words as numbers: the command word of a door (R45), its indication words (R114, R115), the words of
the capture window (R161) and the status words (R164). -/
def Obligations.ServedWordsCarryTheirFields : Prop :=
  (∀ (d : Nat) (x : Door), d < 96 →
    (x.commandWord d).toNat =
      (match x.drive with | .moving .toClose _ _ => 1 | .moving .toOpen _ _ => 2 | _ => 0) +
      (match x.drive with
        | .warning _ _ => 4
        | .moving .toClose o _ => (if o = .localReq then 0 else 4)
        | _ => 0) +
      8 * (match x.inp.lastSeq with | some q => q.toNat | none => 0) +
      256 * d + (if x.inp.stale then 32768 else 0)) ∧
  (∀ x : Door, x.prot.tripCount < 16 →
    x.stateWord.toNat =
      (match x.position with
        | .unknown => 0 | .closed => 1 | .opened => 2 | .between => 3 | .conflict => 4) +
      8 * (match x.drive with
        | .resting => 0 | .queued _ _ => 1 | .warning _ _ => 2 | .moving _ _ _ => 3
        | .recloseWait _ => 4 | .tripped _ => 5 | .isolated => 6) +
      64 * (match x.drive with | .queued .toOpen _ => 1 | .moving .toOpen _ _ => 1 | _ => 0) +
      128 * (match x.inhibit with | .none => 0 | .latched => 1 | .stalled => 2) +
      512 * x.hold.toNat + 1024 * x.prot.tripCount + 16384 * x.anyUnack.toNat +
      32768 * x.anyActive.toNat) ∧
  (∀ x : Door,
    let code (a : AlarmState) : Nat := match a with
      | .normal => 0 | .activeUnack => 1 | .activeAck => 2 | .clearedUnack => 3
    x.alarmWord.toNat = code x.alarms.doorOpen + 4 * code x.alarms.tripped +
      16 * code x.alarms.latched + 64 * code x.alarms.stalled + 256 * code x.alarms.stale +
      1024 * code x.alarms.conflict + 4096 * code x.alarms.drivePower + 16384 * x.prot.hot.toNat +
      32768 * (!x.powered).toNat) ∧
  (∀ (r : Ring), r.lawful →
    (r.word 4).toNat = r.entries.length ∧ (r.word 5).toNat = r.dropped ∧
    (r.entries = [] → ∀ k, k < 4 → r.word k = 0) ∧
    ∀ e es, r.entries = e :: es → e.kind < 64 → e.master < 16 → e.detail < 16 →
      (r.word 0).toNat =
        e.kind + 64 * e.master + 1024 * (e.addr.toNat / 65536) + 4096 * e.detail ∧
      (r.word 1).toNat = e.addr.toNat % 65536 ∧ r.word 2 = e.data ∧ r.word 3 = e.time) ∧
  ∀ s : State,
    let bank (b : BankState) : Nat := match b with
      | .notFitted => 0 | .inService => 1 | .resync => 2 | .failed => 3
    let m := s.mirror
    let holders (g : GroupNum) := (s.yard.groups.get g).holders.length
    let queued (g : GroupNum) := (s.yard.groups.get g).queue.length
    (s.statusWord 0).toNat =
      (match s.resetCause with | .powerOn => 0 | .resetLine => 1) +
      2 * (match s.command.mode with | none => 0 | some .localControl => 1 | some .doorsClosed => 2) +
      8 * (match s.command.holder with | some h => h.val | none => 0) +
      64 * s.command.holder.isNone.toNat +
      128 * (match s.command.transfer with | some p => p.requester.val | none => 0) +
      1024 * s.command.transfer.isSome.toNat +
      2048 * (match s.loader.reload with | .idle => 0 | .reloading => 1 | .applyPending _ => 2) +
      8192 * s.loader.lastReloadFailed.toNat ∧
    (m.bankA.count ≤ 3 → m.bankB.count ≤ 3 → (s.statusWord 1).toNat =
      bank m.bankA.state + 4 * bank m.bankB.state + 16 * m.bankA.count + 64 * m.bankB.count +
      256 * m.imageLost.toNat) ∧
    (m.cursor < 262144 → (s.statusWord 2).toNat = if m.source = none then 0 else m.cursor / 4) ∧
    ((∀ g, holders g < 16) → (s.statusWord 3).toNat =
      holders 0 + 16 * holders 1 + 256 * holders 2 + 4096 * holders 3) ∧
    ((∀ g, queued g < 256) →
      (s.statusWord 4).toNat = queued 0 + 256 * queued 1 ∧
      (s.statusWord 5).toNat = queued 2 + 256 * queued 3) ∧
    (∀ k : Master, (s.statusWord 6).getLsbD k.val = (s.role k).authorized ∧
      (s.statusWord 6).getLsbD (8 + k.val) = (s.role k).live) ∧
    (s.statusWord 7).toNat = s.clock % 65536

/-- O22. R130's law: a write to a COMMAND word, whatever becomes of it, makes no bank access: the port is idle after it
and the mirror unit is as it was. -/
def Obligations.CommandWritesReachNoBank : Prop :=
  ∀ (s : State) (a : Access) (b : Nat), s.part = .running → s.path.upstream = .idle →
    (s.lookup a.addr).kind = .command b → a.isWrite = true →
    (s.arrive a).mirror = s.mirror ∧ (s.arrive a).path.upstream = .idle

/-! ## The banks -/

/-- O23. The end of a forwarded read's bank access. Clean, where every selected byte matches its parity: DONE with the
selected lanes of the word read, the bank's count 0. In error: counted, with BANK_ERROR; then retried once on the other
bank if that is IN_SERVICE, or answered ERROR. An error that is the third in a row makes the bank FAILED, and the read is
retried all the same; where no bank is left IN_SERVICE the image is lost. The third error of the source of a copy aborts
the copy: both banks are FAILED, RESYNC_ABORTED is made, and the image is lost. The bits a bank returns flipped are log 9,
the sense of the parity log 25. -/
def Obligations.BankReadEnds : Prop :=
  ∀ (s : State) (a : Access) (addr : Addr) (lanes : Lanes) (b : BankId) (retry : Bool),
    s.path.upstream = .waiting a (.read addr lanes b retry) →
    let m (n : Nat) : Mirror := s.mirror.modifyBank b fun r => { r with count := n }
    let failed : Mirror := s.mirror.modifyBank b fun r => { r with count := 3, state := .failed }
    let n := (s.mirror.bank b).count + 1
    let code := bankCode b
    let other := otherBank b
    let idle (r : Response) : PathState := { s.path with upstream := .idle, response := some r }
    let again : PathState := { s.path with
      upstream := .waiting a (.read addr lanes other true), response := none }
    (∀ flipped, (s.mirror.fetch b addr flipped).good lanes = true →
      exec (.bankAccessEnd b flipped) s = .next { s with
        mirror := m 0
        path := idle (.done (some (onLanes lanes (s.mirror.fetch b addr flipped).data))) }) ∧
    ∀ c detail, ReadErrs s.mirror b addr lanes c detail →
      let erred : Ring := s.ring.push (s.entryNow 20 a.master.val addr detail (code + 256 * n))
      let down : Ring := erred.push (s.entryNow 21 a.master.val addr 0 code)
      (n < 3 →
        ((retry = false ∧ (s.mirror.bank other).state = .inService) →
          exec c s = .next { s with
            mirror := m n
            ring := erred
            lines := { s.lines with partFault := judgePartFault s.part (m n) }
            path := again }) ∧
        (¬(retry = false ∧ (s.mirror.bank other).state = .inService) →
          exec c s = .next { s with
            mirror := m n
            ring := erred
            lines := { s.lines with partFault := judgePartFault s.part (m n) }
            path := idle .error })) ∧
      (n = 3 → (s.mirror.bank b).state = .inService → s.mirror.source = none →
        ((s.mirror.bank other).state = .inService →
          exec c s = .next { s with
            mirror := failed
            ring := down
            lines := { s.lines with partFault := true }
            path := if retry then idle .error else again }) ∧
        ((s.mirror.bank other).state ≠ .inService →
          exec c s = .next { s with
            mirror := { failed with imageLost := true }
            ring := down.push (s.entryNow 24 15 addr 1 0)
            lines := { s.lines with partFault := true }
            path := idle .error })) ∧
      (n = 3 → (s.mirror.bank b).state = .inService → s.mirror.source = some b →
        exec c s = .next { s with
          mirror := { failed.modifyBank other fun r => { r with state := .failed } with
            source := none, cursor := 0, imageLost := true }
          ring := (down.push (s.entryNow 23 15 s.mirror.cursorAddr 1 (bankCode other))).push
            (s.entryNow 24 15 addr 1 0)
          lines := { s.lines with partFault := true }
          path := idle .error })

/-- O24. The ends of a forwarded write. Made to both banks, the two endings may come in either order with the same
result, unless both are in error (the unknown bytes then differ). A bank that ended it clean holds the selected lanes and
counts 0; one that ended it in error holds the addressed word unknown and counts one more, with BANK_ERROR, bank A's
first; the third error in a row makes it FAILED, with what R152 and R156 have follow for the image and a copy; an error
at the target below the cursor sets the cursor back (R155). The response is DONE where a bank that was IN_SERVICE when
the write was forwarded ended it clean. Made to one bank in service, the same of that bank. What the write was forwarded
for (a sensor take) follows its end. That bank B's ending is held until bank A's is counted, and that a bank which has
failed meanwhile is still counted, is log 17; the set-back while a bank access fails is log 16; the free bytes are log
8. -/
def Obligations.BankWriteEnds : Prop :=
  (∀ (s : State) (a : Access) (addr : Addr) (l : Lanes) (w : Word) (inA inB cleanA cleanB : Bool)
      (after : AfterWrite) (cA cB : Instr),
    s.path.upstream = .waiting a (.write addr l w (.outstanding inA) (.outstanding inB) after) →
    EndsWrite .bankA cleanA cA → EndsWrite .bankB cleanB cB →
    let response : Response := if (inA && cleanA) || (inB && cleanB) then .done none else .error
    (cleanA = true ∨ cleanB = true →
      ∃ u v t, exec cA s = .next u ∧ exec cB u = .next t ∧ exec cB s = .next v ∧ exec cA v = .next t ∧
        u.path.response = none ∧ v.path.response = none ∧ t.path.upstream = .idle ∧
        t.path.response = some response) ∧
    let m := s.mirror
    let clean (b : BankId) : Bool := match b with | .bankA => cleanA | .bankB => cleanB
    let third (b : BankId) : Bool := !clean b && (m.bank b).count == 2
    let err (b : BankId) : List Entry := if clean b then [] else
      [s.entryNow 20 a.master.val addr 3 (bankCode b + 256 * ((m.bank b).count + 1))]
    let down (b : BankId) : List Entry := if third b then
      [s.entryNow 21 a.master.val addr 0 (bankCode b)] else []
    let lost : Entry := s.entryNow 24 15 addr 1 0
    m.bankA.count ≤ 2 → m.bankB.count ≤ 2 →
    ∃ (u t : State) (m' : Mirror) (es : List Entry), exec cA s = .next u ∧ exec cB u = .next t ∧
      t = (State.afterWrite { s with
        mirror := m'
        ring := s.ring.pushAll es
        lines := { s.lines with partFault := judgePartFault s.part m' } } after).answer response ∧
      m'.readMap = m.readMap ∧ m'.imageSize = m.imageSize ∧
      (∀ b, clean b = true →
        (m'.bank b).mem = (m.bank b).mem.writeLanes addr l w ∧ (m'.bank b).count = 0) ∧
      (∀ b, clean b = false → (m'.bank b).count = (m.bank b).count + 1 ∧
        ∀ k, k ≠ laneAddr addr .low → k ≠ laneAddr addr .high →
          (m'.bank b).mem.read k = (m.bank b).mem.read k) ∧
      (m.source = none → m.bankA.state = .inService → m.bankB.state = .inService →
        es = err .bankA ++ down .bankA ++ err .bankB ++ down .bankB ++
          (if third .bankA && third .bankB then [lost] else []) ∧
        (∀ b, (m'.bank b).state = if third b then .failed else .inService) ∧
        m'.source = none ∧ m'.cursor = m.cursor ∧
        m'.imageLost = (m.imageLost || (third .bankA && third .bankB))) ∧
      ∀ src, m.source = some src → (m.bank src).state = .inService →
        (m.bank (otherBank src)).state = .resync →
        let dst := otherBank src
        let back : Nat := if clean dst = false ∧ addr.toNat < m.cursor then addr.toNat else m.cursor
        let aborted (cursor detail : Nat) : Entry :=
          s.entryNow 23 15 (BitVec.ofNat 18 cursor) detail (bankCode dst)
        (third src = false → third dst = false →
          es = err .bankA ++ err .bankB ∧ (∀ b, (m'.bank b).state = (m.bank b).state) ∧
          m'.source = some src ∧ m'.cursor = back ∧ m'.imageLost = m.imageLost) ∧
        (third src = false → third dst = true →
          es = (match dst with
            | .bankA => err .bankA ++ down .bankA ++ [aborted m.cursor 2] ++ err .bankB
            | .bankB => err .bankA ++ err .bankB ++ down .bankB ++ [aborted m.cursor 2]) ∧
          (m'.bank src).state = .inService ∧ (m'.bank dst).state = .failed ∧
          m'.source = none ∧ m'.cursor = 0 ∧ m'.imageLost = m.imageLost) ∧
        (third src = true →
          es = (match src with
            | .bankA => err .bankA ++ down .bankA ++ [aborted m.cursor 1, lost] ++ err .bankB
            | .bankB =>
              if third .bankA then
                err .bankA ++ down .bankA ++ [aborted m.cursor 2] ++ err .bankB ++ down .bankB ++ [lost]
              else err .bankA ++ err .bankB ++ down .bankB ++ [aborted back 1, lost]) ∧
          (∀ b, (m'.bank b).state = .failed) ∧
          m'.source = none ∧ m'.cursor = 0 ∧ m'.imageLost = true)) ∧
  ∀ (s : State) (a : Access) (addr : Addr) (l : Lanes) (w : Word) (b : BankId) (after : AfterWrite),
    s.path.upstream = .waiting a (.write addr l w
      (if b = .bankA then .outstanding true else .unused)
      (if b = .bankB then .outstanding true else .unused) after) →
    let n := (s.mirror.bank b).count + 1
    let erred : Ring := s.ring.push (s.entryNow 20 a.master.val addr 3 (bankCode b + 256 * n))
    let down : Ring := erred.push (s.entryNow 21 a.master.val addr 0 (bankCode b))
    let ends (m : Mirror) (r : Ring) (response : Response) : State :=
      (State.afterWrite { s with
        mirror := m
        ring := r
        lines := { s.lines with partFault := judgePartFault s.part m } } after).answer response
    (∀ flipped, exec (.bankAccessEnd b flipped) s = .next (ends
      (s.mirror.modifyBank b fun r => { r with count := 0, mem := r.mem.writeLanes addr l w })
      s.ring (.done none))) ∧
    (s.mirror.source = none → ∃ mem free,
      let left (state : BankState) : Mirror :=
        { s.mirror.modifyBank b fun _ => { state := state, count := n, mem := mem } with free := free }
      (∀ k, k ≠ laneAddr addr .low → k ≠ laneAddr addr .high →
        Contents.read mem k = (s.mirror.bank b).mem.read k) ∧
      (n < 3 → exec (.bankCompletionTimeout b) s =
        .next (ends (left (s.mirror.bank b).state) erred .error)) ∧
      (n = 3 → (s.mirror.bank b).state = .inService →
        ((s.mirror.bank (otherBank b)).state = .inService →
          exec (.bankCompletionTimeout b) s = .next (ends (left .failed) down .error)) ∧
        ((s.mirror.bank (otherBank b)).state ≠ .inService →
          exec (.bankCompletionTimeout b) s = .next (ends { left .failed with imageLost := true }
            (down.push (s.entryNow 24 15 addr 1 0)) .error))))

/-- O25. What a bank stores and what a read checks (R147): a written byte stands in the bank with the parity bit that the
part generates for it, the other lane and every other word as they were; a read is good where each selected byte matches
its parity bit, whatever the other lane holds. R148's count: an error raises the bank's count by 1, at most to 3, and
makes BANK_ERROR first; the error that brings a bank not yet FAILED to 3 makes it FAILED, with BANK_FAILED after it; a
clean end sets the count to 0. No other bank's count and no bank's contents change. That an error of a bank already
FAILED is still counted, with no second BANK_FAILED, is log 17; the sense of the parity bit is log 25. -/
def Obligations.BankErrorsAreCounted : Prop :=
  let low (w : Word) : Byte := w.extractLsb' 0 8
  let high (w : Word) : Byte := w.extractLsb' 8 8
  let parity (b : Byte) : Bool := ((List.range 8).countP fun i => b.getLsbD i) % 2 == 1
  (∀ (mem : Contents) (addr : Addr) (l : Lanes) (w : Word), mem.wf →
    let old := mem.readWord addr
    let r := (mem.writeLanes addr l w).readWord addr
    (if l = .high then low r.data = low old.data ∧ r.lowParity = old.lowParity
      else low r.data = low w ∧ r.lowParity = parity (low w)) ∧
    (if l = .low then high r.data = high old.data ∧ r.highParity = old.highParity
      else high r.data = high w ∧ r.highParity = parity (high w)) ∧
    ∀ k, k ≠ laneAddr addr .low → k ≠ laneAddr addr .high →
      (mem.writeLanes addr l w).read k = mem.read k) ∧
  (∀ (r : BankWord) (l : Lanes), r.good l = true ↔
    (l ≠ .high → r.lowParity = parity (low r.data)) ∧ (l ≠ .low → r.highParity = parity (high r.data))) ∧
  ∀ (m : Mirror) (b : BankId) (owner : AccessOwner) (addr : Addr) (fault : BankFault),
    let n := min ((m.bank b).count + 1) 3
    let erred : Capture :=
      { kind := 20, master := owner.code, addr := addr, detail := fault.code
        data := BitVec.ofNat 16 (bankCode b + 256 * n) }
    let r := m.countError b owner addr fault
    (r.1.bank b).count = n ∧ (r.1.bank (otherBank b)).count = (m.bank (otherBank b)).count ∧
    (∀ k, (r.1.bank k).mem = (m.bank k).mem) ∧
    (n < 3 ∨ (m.bank b).state = .failed → r.2 = [erred] ∧ (r.1.bank b).state = (m.bank b).state) ∧
    (n = 3 → (m.bank b).state ≠ .failed → (r.1.bank b).state = .failed ∧ ∃ more, r.2 = erred ::
      { kind := 21, master := owner.code, addr := addr, detail := 0
        data := BitVec.ofNat 16 (bankCode b) } :: more) ∧
    ((m.countClean b).bank b).count = 0 ∧
    ((m.countClean b).bank (otherBank b)) = m.bank (otherBank b)

/-- O26. COPY_STEP while no upstream access needs the banks. Clean: the word read at the cursor is in the target, both
counts are 0, and the cursor advances, or at the last word the target is IN_SERVICE with RESYNC_DONE. In error:
counted and retried at the same cursor; at the third error in a row the resync is aborted: with the source, both banks
are FAILED and the image is lost; with the target, the source stays IN_SERVICE alone. The bits a bank returns flipped
are log 9, the free bytes of an uncompleted write log 8. -/
def Obligations.CopySteps : Prop :=
  ∀ (s : State) (src : BankId), s.path.upstream = .idle → s.mirror.source = some src →
    let dst := otherBank src
    let cur := s.mirror.cursorAddr
    let code := bankCode dst
    (∀ flipped, (s.mirror.fetch src cur flipped).good .both = true →
      let copied := (s.mirror.bank dst).mem.writeLanes cur .both (s.mirror.fetch src cur flipped).data
      (s.mirror.cursor + 1 < s.mirror.imageSize → ∃ t, exec (.copyStep ⟨some flipped, true⟩) s = .next t ∧
        t = { s with
          mirror := { s.mirror with
            bankA := t.mirror.bankA, bankB := t.mirror.bankB, cursor := s.mirror.cursor + 1 }
          lines := { s.lines with partFault := judgePartFault s.part s.mirror } } ∧
        t.mirror.bank src = { s.mirror.bank src with count := 0 } ∧
        t.mirror.bank dst = { s.mirror.bank dst with count := 0, mem := copied }) ∧
      (s.mirror.imageSize ≤ s.mirror.cursor + 1 → ∃ t, exec (.copyStep ⟨some flipped, true⟩) s = .next t ∧
        t = { s with
          mirror := { s.mirror with
            bankA := t.mirror.bankA, bankB := t.mirror.bankB, cursor := 0, source := none }
          ring := s.ring.push (s.entryNow 22 15 0 0 code)
          lines := { s.lines with partFault := judgePartFault s.part t.mirror } } ∧
        t.mirror.bank src = { s.mirror.bank src with count := 0 } ∧
        t.mirror.bank dst = { state := .inService, count := 0, mem := copied }) ∧
      ((s.mirror.bank dst).count < 2 → ∃ t, exec (.copyStep ⟨some flipped, false⟩) s = .next t ∧
        t = { s with
          mirror := { s.mirror with
            bankA := t.mirror.bankA, bankB := t.mirror.bankB, free := t.mirror.free }
          ring := s.ring.push (s.entryNow 20 15 cur 3 (code + 256 * ((s.mirror.bank dst).count + 1)))
          lines := { s.lines with partFault := judgePartFault s.part s.mirror } } ∧
        t.mirror.bank src = { s.mirror.bank src with count := 0 } ∧
        t.mirror.bank dst = { s.mirror.bank dst with
          count := (s.mirror.bank dst).count + 1, mem := (t.mirror.bank dst).mem } ∧
        ∀ k, k ≠ laneAddr cur .low → k ≠ laneAddr cur .high →
          (t.mirror.bank dst).mem.read k = (s.mirror.bank dst).mem.read k) ∧
      ((s.mirror.bank dst).count = 2 → (s.mirror.bank dst).state = .resync →
        ∃ t, exec (.copyStep ⟨some flipped, false⟩) s = .next t ∧
        t = { s with
          mirror := { s.mirror with
            bankA := t.mirror.bankA, bankB := t.mirror.bankB, source := none, cursor := 0
            free := t.mirror.free }
          ring := ((s.ring.push (s.entryNow 20 15 cur 3 (code + 256 * 3))).push
            (s.entryNow 21 15 cur 0 code)).push (s.entryNow 23 15 cur 2 code)
          lines := { s.lines with partFault := true } } ∧
        t.mirror.bank src = { s.mirror.bank src with count := 0 } ∧
        t.mirror.bank dst = { state := .failed, count := 3, mem := (t.mirror.bank dst).mem } ∧
        ∀ k, k ≠ laneAddr cur .low → k ≠ laneAddr cur .high →
          (t.mirror.bank dst).mem.read k = (s.mirror.bank dst).mem.read k)) ∧
    ∀ read written detail, CopyReadErrs s.mirror src read detail →
      ((s.mirror.bank src).count < 2 → ∃ t, exec (.copyStep ⟨read, written⟩) s = .next t ∧
        t = { s with
          mirror := { s.mirror with bankA := t.mirror.bankA, bankB := t.mirror.bankB }
          ring := s.ring.push (s.entryNow 20 15 cur detail
            (bankCode src + 256 * ((s.mirror.bank src).count + 1)))
          lines := { s.lines with partFault := judgePartFault s.part s.mirror } } ∧
        t.mirror.bank src = { s.mirror.bank src with count := (s.mirror.bank src).count + 1 } ∧
        t.mirror.bank dst = s.mirror.bank dst) ∧
      ((s.mirror.bank src).count = 2 → (s.mirror.bank src).state = .inService →
        ∃ t, exec (.copyStep ⟨read, written⟩) s = .next t ∧
        t = { s with
          mirror := { s.mirror with
            bankA := t.mirror.bankA, bankB := t.mirror.bankB, source := none, cursor := 0
            imageLost := true }
          ring := (((s.ring.push (s.entryNow 20 15 cur detail (bankCode src + 256 * 3))).push
            (s.entryNow 21 15 cur 0 (bankCode src))).push (s.entryNow 23 15 cur 1 code)).push
            (s.entryNow 24 15 cur 2 0)
          lines := { s.lines with partFault := true } } ∧
        t.mirror.bank src = { s.mirror.bank src with count := 3, state := .failed } ∧
        t.mirror.bank dst = { s.mirror.bank dst with state := .failed })

/-! ## Station requests -/

/-- O27. A station request is judged as a whole, a REQUEST of 6 or 7 refused with it, then by its own tests in order;
the first that fails answers ERROR with REQUEST_REFUSED, and nothing else changes. That a STOP on an INDICATED door in
DOORS_CLOSED is refused with NOT_POWERED is log 26. -/
def Obligations.StationRequestsAreRefused : Prop :=
  ∀ (s : State) (m : Master) (addr : Addr) (rest : BitVec 13) (b offset : Nat) (x : Door),
    s.door? (b + offset) = some x →
    let d := b + offset
    let closed := s.command.mode = some .doorsClosed
    let refuses (c : Instr) (n : BitVec 3) (when : Word → Prop) (detail : Nat) : Prop :=
      let w : Word := rest ++ n
      ReachesDoor s m addr w b offset → when w →
        exec c s = .next (s.refuseRequest m addr w detail)
    (∀ c n, (c, n) ∈ [(Instr.stationNone m addr rest, 0#3), (.stationClose m addr rest, 1#3),
        (.stationOpen m addr rest, 2#3), (.stationStop m addr rest, 3#3),
        (.stationIsolate m addr rest, 4#3), (.stationRestore m addr rest, 5#3)] →
      refuses c n (fun w => ¬ WordFor w d) 1) ∧
    (∀ w, ReachesDoor s m addr w b offset → 5 < field w 0 3 →
      exec (.forwardedWrite m addr .both w) s = .next (s.refuseRequest m addr w 1)) ∧
    (∀ c n, (c, n) ∈ [(Instr.stationClose m addr rest, 1#3), (.stationOpen m addr rest, 2#3)] →
      refuses c n (fun w => WordFor w d ∧ x.st.cls = .indicated) 2 ∧
      refuses c n (fun w => WordFor w d ∧ x.powered = true ∧ x.drive = .isolated) 3 ∧
      refuses c n (fun w => WordFor w d ∧ x.powered = true ∧ x.drive ≠ .isolated ∧
        x.inhibit ≠ .none) 4) ∧
    refuses (.stationOpen m addr rest) 2#3 (fun w => WordFor w d ∧ x.powered = true ∧
      x.drive ≠ .isolated ∧ x.inhibit = .none ∧ closed) 5 ∧
    refuses (.stationStop m addr rest) 3#3 (fun w => WordFor w d ∧ x.st.cls = .indicated) 2 ∧
    refuses (.stationStop m addr rest) 3#3 (fun w => WordFor w d ∧ x.powered = true ∧ closed) 5

/-- O28. STATION_CLOSE and STATION_OPEN on a door that stands still, away from the target: DONE; the door is QUEUED in
that direction with origin STATION, at the tail of its class, and only that door and its group change. At the target a
RESTING door is left as it is, and a waiting one comes to rest. -/
def Obligations.StationRequestQueues : Prop :=
  ∀ (s : State) (m : Master) (addr : Addr) (rest : BitVec 13) (b offset : Nat) (x : Door)
      (c : Instr) (n : BitVec 3) (dir : Direction),
    (c, n, dir) ∈ [(Instr.stationClose m addr rest, 1#3, Direction.toClose),
      (.stationOpen m addr rest, 2#3, .toOpen)] →
    ReachesDoor s m addr (rest ++ n) b offset → WordFor (rest ++ n) (b + offset) →
    s.door? (b + offset) = some x → x.powered = true → x.inhibit = .none →
    (dir = .toOpen → s.command.mode ≠ some .doorsClosed) →
    x.drive = .resting ∨ (∃ r, x.drive = .recloseWait r) ∨ (∃ r, x.drive = .tripped r) →
    ∃ t, exec c s = .next t ∧
      t.path = { s.path with upstream := .idle, response := some (.done none) } ∧ t.ring = s.ring ∧
      OneDoor (b + offset) { s with path := t.path } t ∧
      (x.position ≠ dir.target → x.inp.within s.clock s.times.activeLimit →
        DoorAfter (b + offset) t (Door.sameButAlarms { x with drive := .queued dir .station }) ∧
        JoinsQueue (b + offset) dir x s t) ∧
      (x.position = dir.target → x.drive = .resting → t.yard = s.yard) ∧
      (x.position = dir.target → x.drive ≠ .resting →
        DoorAfter (b + offset) t (Door.sameButAlarms { x with drive := .resting }))

/-- O29. STATION_CLOSE and STATION_OPEN on a door bound somewhere. At the request's target the request is satisfied
(R24): DONE; the door is RESTING, out of its queue entry or its slot, its closing run ended without completion, and
nothing else of it changes. Away from the target: DONE; in its direction at most the origin changes, LOCAL staying
LOCAL, and a QUEUED door's entry keeps its place; in the other direction a QUEUED door's entry leaves its place for the
tail of its new class (R70), and a WARNING or MOVING door reverses, keeping its slot. A reversal out of a closing run
ends it. The record of a satisfied door is that of one whose freshness timer meets no limit as the door comes to rest
(log 13). -/
def Obligations.StationRequestRebinds : Prop :=
  ∀ (s : State) (m : Master) (addr : Addr) (rest : BitVec 13) (b offset : Nat) (x : Door)
      (c : Instr) (n : BitVec 3) (dir : Direction),
    (c, n, dir) ∈ [(Instr.stationClose m addr rest, 1#3, Direction.toClose),
      (.stationOpen m addr rest, 2#3, .toOpen)] →
    ReachesDoor s m addr (rest ++ n) b offset → WordFor (rest ++ n) (b + offset) →
    s.door? (b + offset) = some x → x.powered = true → x.inhibit = .none →
    (dir = .toOpen → s.command.mode ≠ some .doorsClosed) →
    x.drive.bound = true →
    ∃ t, exec c s = .next t ∧
      t.path = { s.path with upstream := .idle, response := some (.done none) } ∧ t.ring = s.ring ∧
      OneDoor (b + offset) { s with path := t.path } t ∧
      (x.position = dir.target →
        LeavesGroup (b + offset) x s t ∧
        (DoorAfter (b + offset) t fun z =>
          z.drive.bound = false ∧ z.inhibit = x.inhibit ∧ z.prot.tripCount = x.prot.tripCount) ∧
        (x.inp.within s.clock s.times.idleLimit →
          DoorAfter (b + offset) t (Door.sameButAlarms { x with
            drive := .resting, prot := x.prot.leaving x.drive }))) ∧
      (x.position ≠ dir.target →
        (x.drive.hasSlot = true → KeepsSlot (b + offset) x s t) ∧
        DoorAfter (b + offset) t fun z =>
          z.drive = stationRebinds s x dir x.drive ∧ GroupFollows (b + offset) x z s t ∧
          z.inp = x.inp ∧ z.position = x.position ∧
          z.hold = x.hold ∧ z.inhibit = x.inhibit ∧ z.prot.tripCount = x.prot.tripCount ∧
          (x.drive.closingRun = true → z.drive.closingRun = false →
            z.prot.alert = none ∧ z.prot.tripTimer = none ∧ z.prot.peak = none ∧ z.prot.mark = false))

/-- O30. STATION_NONE is taken and changes no door. STATION_STOP, taken only in LOCAL_CONTROL on a POWERED door, brings
it to RESTING from every drive state but RESTING and ISOLATED, out of queue and slot, with hold, inhibit and count
standing. -/
def Obligations.StationNoneAndStop : Prop :=
  (∀ (s : State) (m : Master) (addr : Addr) (rest : BitVec 13) (b offset : Nat) (x : Door),
    ReachesDoor s m addr (rest ++ 0#3) b offset → WordFor (rest ++ 0#3) (b + offset) →
    s.door? (b + offset) = some x →
    ∃ t, exec (.stationNone m addr rest) s = .next t ∧
      t.path = { s.path with upstream := .idle, response := some (.done none) } ∧
      t.ring = s.ring ∧ t.yard = s.yard ∧ OneDoor (b + offset) { s with path := t.path } t) ∧
  ∀ (s : State) (m : Master) (addr : Addr) (rest : BitVec 13) (b offset : Nat) (x : Door),
    ReachesDoor s m addr (rest ++ 3#3) b offset → WordFor (rest ++ 3#3) (b + offset) →
    s.door? (b + offset) = some x → x.powered = true → s.command.mode ≠ some .doorsClosed →
    ∃ t, exec (.stationStop m addr rest) s = .next t ∧
      t.path = { s.path with upstream := .idle, response := some (.done none) } ∧
      t.ring = s.ring ∧ OneDoor (b + offset) { s with path := t.path } t ∧
      (x.drive = .resting ∨ x.drive = .isolated → t.yard = s.yard) ∧
      (x.drive ≠ .resting → x.drive ≠ .isolated →
        LeavesGroup (b + offset) x s t ∧
        DoorAfter (b + offset) t fun z =>
          z.drive = .resting ∧ z.inhibit = x.inhibit ∧ z.prot.tripCount = x.prot.tripCount ∧
          (x.drive.closingRun = true → z.prot.alert = none ∧ z.prot.tripTimer = none) ∧
          (x.inp.within s.clock s.times.idleLimit →
            z.hold = x.hold ∧ z.inp = x.inp ∧ z.position = x.position))

/-- O31. STATION_ISOLATE takes a door of either class to ISOLATED from every drive state, out of queue and slot, its
hold flag clear, its inhibit and count kept. STATION_RESTORE takes an ISOLATED door to RESTING, with hold where a
POWERED door's LO is held in DOORS_CLOSED, and the enforcement check queues it where its conditions hold. Neither
changes a door that is already there. -/
def Obligations.StationIsolateAndRestore : Prop :=
  (∀ (s : State) (m : Master) (addr : Addr) (rest : BitVec 13) (b offset : Nat) (x : Door),
    ReachesDoor s m addr (rest ++ 4#3) b offset → WordFor (rest ++ 4#3) (b + offset) →
    s.door? (b + offset) = some x →
    ∃ t, exec (.stationIsolate m addr rest) s = .next t ∧
      t.path = { s.path with upstream := .idle, response := some (.done none) } ∧
      t.ring = s.ring ∧ OneDoor (b + offset) { s with path := t.path } t ∧
      (x.drive = .isolated → t.yard = s.yard) ∧
      (x.drive ≠ .isolated →
        LeavesGroup (b + offset) x s t ∧
        DoorAfter (b + offset) t fun z =>
          z.drive = .isolated ∧ z.hold = false ∧ z.inhibit = x.inhibit ∧
          z.prot.tripCount = x.prot.tripCount ∧
          (x.drive.closingRun = true → z.prot.alert = none ∧ z.prot.tripTimer = none) ∧
          (x.inp.within s.clock s.times.idleLimit →
            z.inp = x.inp ∧ z.position = x.position ∧ z.prot.settle = x.prot.settle))) ∧
  ∀ (s : State) (m : Master) (addr : Addr) (rest : BitVec 13) (b offset : Nat) (x : Door),
    ReachesDoor s m addr (rest ++ 5#3) b offset → WordFor (rest ++ 5#3) (b + offset) →
    s.door? (b + offset) = some x →
    ∃ t, exec (.stationRestore m addr rest) s = .next t ∧
      t.path = { s.path with upstream := .idle, response := some (.done none) } ∧
      t.ring = s.ring ∧ OneDoor (b + offset) { s with path := t.path } t ∧
      (x.drive ≠ .isolated → t.yard = s.yard) ∧
      (x.drive = .isolated →
        let hold := x.hold ||
          (x.powered && s.command.mode == some .doorsClosed && x.inp.debounced.lo)
        DoorAfter (b + offset) t fun z =>
          z.hold = hold ∧ z.inhibit = x.inhibit ∧ z.prot.tripCount = x.prot.tripCount ∧
          (Enforced s x hold → z.drive = .queued .toClose .mode) ∧
          (¬ Enforced s x hold → z.drive = .resting))

/-! ## Timers of a door, grants -/

/-- O32. PREWARN_EXPIRY takes a WARNING door to MOVING, with its origin and slot and a closing run begun.
RECLOSE_EXPIRY takes a door in RECLOSE_WAIT to RESTING, and the enforcement check then queues it where its conditions
hold. An expiry is taken where its timer runs and the clock has reached it: log 3. -/
def Obligations.PrewarnAndRecloseExpire : Prop :=
  (∀ (s : State) (d : Nat) (x : Door) (o : Origin) (p : Nat),
    s.door? d = some x → x.drive = .warning o p → p ≤ s.clock →
    ∃ t, exec (.prewarnExpiry d) s = .next t ∧ OneDoor d s t ∧ t.ring = s.ring ∧ KeepsSlot d x s t ∧
      DoorAfter d t (Door.sameButAlarms { x with
        drive := .moving .toClose o (s.clock + x.st.travelLimit), prot := x.prot.noRun })) ∧
  ∀ (s : State) (d : Nat) (x : Door) (r : Nat),
    s.door? d = some x → x.drive = .recloseWait r → r ≤ s.clock →
    ∃ t, exec (.recloseExpiry d) s = .next t ∧ OneDoor d s t ∧ t.ring = s.ring ∧
      (Enforced s x x.hold →
        JoinsQueue d .toClose x s t ∧
        (DoorAfter d t fun z => z.drive = .queued .toClose .mode) ∧
        (InTouch s x →
          DoorAfter d t (Door.sameButAlarms { x with drive := .queued .toClose .mode }))) ∧
      (¬ Enforced s x x.hold → DoorAfter d t (Door.sameButAlarms { x with drive := .resting }))

/-- O33. TRAVEL_EXPIRY stops a MOVING door as stalled: RESTING, out of its slot, STALLED unless it was LATCHED, its
closing run ended without completion, DOOR_STALLED made. -/
def Obligations.TravelExpiryStallsTheDoor : Prop :=
  ∀ (s : State) (d : Nat) (x : Door) (dir : Direction) (o : Origin) (tr : Nat),
    s.door? d = some x → x.drive = .moving dir o tr → tr ≤ s.clock →
    ∃ t, exec (.travelExpiry d) s = .next t ∧ OneDoor d s t ∧ LeavesGroup d x s t ∧
      t.ring = s.ring.push (s.entryNow 13 15 0 0 d) ∧
      (DoorAfter d t fun z => z.drive.bound = false ∧
        z.inhibit = (if x.inhibit = .latched then .latched else .stalled) ∧
        z.prot.tripCount = x.prot.tripCount) ∧
      (x.inp.within s.clock s.times.idleLimit → DoorAfter d t (Door.sameButAlarms { x with
        drive := .resting
        inhibit := if x.inhibit = .latched then .latched else .stalled
        prot := x.prot.leaving x.drive }))

/-- O34. TRIP_TIMER_EXPIRY trips a closing door: the slot released, the run ended, the count raised unless LATCHED;
past the retry limit LATCHED and RESTING, else a remote origin TRIPPED and a local one RECLOSE_WAIT or RESTING by the
mode. DOOR_TRIPPED is made with the cause, DOOR_LATCHED after it where the trip latches. -/
def Obligations.TripTimerExpiryTripsTheDoor : Prop :=
  ∀ (s : State) (d : Nat) (x : Door) (o : Origin) (tr tt : Nat) (cause : Cause),
    s.door? d = some x → x.drive = .moving .toClose o tr → x.prot.tripTimer = some tt → tt ≤ s.clock →
    x.prot.alert = some cause → x.inp.within s.clock s.times.idleLimit →
    let n := if x.inhibit = .latched then x.prot.tripCount else x.prot.tripCount + 1
    let latches := s.times.retryLimit < n
    let code := match cause with | .obstruction => 1 | .pressure => 2 | .both => 3
    let tripped := s.ring.push (s.entryNow 11 15 0 code d)
    ∃ t, exec (.tripTimerExpiry d) s = .next t ∧ OneDoor d s t ∧ LeavesGroup d x s t ∧
      t.ring = (if latches then tripped.push (s.entryNow 12 15 0 n d) else tripped) ∧
      DoorAfter d t (Door.sameButAlarms { x with
        inhibit := if latches then .latched else x.inhibit
        prot := { x.prot.noRun with tripCount := n }
        drive :=
          if latches then .resting
          else if o ≠ .localReq then .tripped (s.clock + s.times.retryDelay)
          else if s.command.mode = some .doorsClosed then .recloseWait (s.clock + s.times.reclose)
          else .resting })

/-- O35. RETRY_EXPIRY queues a TRIPPED door as a close of origin RETRY, or brings it to rest where it stands CLOSED,
its count kept. SETTLE_EXPIRY ends the settle timer, and the count becomes 0 where the inhibit is NONE. -/
def Obligations.RetryAndSettleExpire : Prop :=
  (∀ (s : State) (d : Nat) (x : Door) (r : Nat),
    s.door? d = some x → x.drive = .tripped r → r ≤ s.clock →
    ∃ t, exec (.retryExpiry d) s = .next t ∧ OneDoor d s t ∧ t.ring = s.ring ∧
      (x.position = .closed → DoorAfter d t (Door.sameButAlarms { x with drive := .resting })) ∧
      (x.position ≠ .closed →
        JoinsQueue d .toClose x s t ∧
        (DoorAfter d t fun z =>
          z.drive = .queued .toClose .retry ∧ z.prot.tripCount = x.prot.tripCount) ∧
        (InTouch s x →
          DoorAfter d t (Door.sameButAlarms { x with drive := .queued .toClose .retry })))) ∧
  ∀ (s : State) (d : Nat) (x : Door) (e : Nat),
    s.door? d = some x → x.prot.settle = some e → e ≤ s.clock →
    ∃ t, exec (.settleExpiry d) s = .next t ∧ OneDoor d s t ∧ t.ring = s.ring ∧
      t.yard.groups = s.yard.groups ∧
      DoorAfter d t (Door.sameButAlarms { x with prot := { x.prot with
        settle := none, tripCount := if x.inhibit = .none then 0 else x.prot.tripCount } })

/-- O36. FRESHNESS_EXPIRY makes the door stale: the timers of its inputs cancelled, LO clear, position UNKNOWN, the
settle timer gone where it stood CLOSED. An LO that was set falls: the hold ends, an opening stops, a held door in
DOORS_CLOSED waits to reclose. A door bound to close goes on, and one in RECLOSE_WAIT, TRIPPED or ISOLATED stays there. A
door whose drive state changes leaves its queue entry or its slot; where none changes, every group stands. That no
freshness timer is judged within the take is log
13. -/
def Obligations.FreshnessExpiryMakesTheDoorStale : Prop :=
  ∀ (s : State) (d : Nat) (x : Door) (start : Nat),
    s.door? d = some x → x.inp.stale = false → x.inp.freshness = some start →
    start + (if x.drive.bound then s.times.activeLimit else s.times.idleLimit) ≤ s.clock →
    let wait : Drive := .recloseWait (s.clock + s.times.reclose)
    let closed := s.command.mode = some .doorsClosed
    ∃ t, exec (.freshnessExpiry d) s = .next t ∧ OneDoor d s t ∧ t.ring = s.ring ∧
      (x.inp.debounced.lo = false → t.yard.groups = s.yard.groups) ∧
      DoorAfter d t fun z =>
        z.inp = { x.inp with
          raw := { x.inp.raw with lo := false }
          debounced := { x.inp.debounced with lo := false }
          timers := { cl := none, ol := none, lo := none, lc := none }
          stale := true
          freshness := none } ∧
        z.position = .unknown ∧ z.inhibit = x.inhibit ∧ z.powerSeen = x.powerSeen ∧
        z.hold = (x.hold && !x.inp.debounced.lo) ∧
        z.prot = { x.prot with settle := if x.position = .closed then none else x.prot.settle } ∧
        (x.inp.debounced.lo = false → z.drive = x.drive) ∧
        (x.drive.direction = some .toClose → z.drive = x.drive) ∧
        ((∃ r, x.drive = .recloseWait r) ∨ (∃ r, x.drive = .tripped r) ∨ x.drive = .isolated → z.drive = x.drive) ∧
        (x.powered = false → z.drive = x.drive) ∧
        (z.drive = x.drive → t.yard.groups = s.yard.groups) ∧
        (z.drive ≠ x.drive → LeavesGroup d x s t) ∧
        (x.inp.debounced.lo = true → x.powered = true →
          (∀ o, x.drive = .queued .toOpen o → z.drive = .resting) ∧
          (∀ o tr, x.drive = .moving .toOpen o tr → z.drive = if closed then wait else .resting) ∧
          (x.drive = .resting → z.drive = if closed ∧ x.hold = true then wait else .resting))

/-- O37. DEBOUNCE_EXPIRY of a door whose freshness timer meets no limit: every input whose timer the same report
started takes its raw value, and no other field of the input part changes; the position follows R4. What this delivers,
in R12's order, on a door in any drive state: a door that has reached its target completes or leaves its queue, and a
completed run is learned from and starts the settle timer; the enforcement check; an LO rise or fall; an LC rise, unless
LO is set. The door's group follows. That the row names one input and the report's serial number stands for the report is
log 12. -/
def Obligations.DebounceExpiryDelivers : Prop :=
  ∀ (s : State) (d : Nat) (x : Door) (i : Input) (tm : DebounceTimer),
    s.door? d = some x → x.inp.timers.of i = some tm → tm.expiry ≤ s.clock → InTouch s x →
    let expires (k : Input) : Bool :=
      match x.inp.timers.of k with | some u => u.report == tm.report | none => false
    ∃ t, exec (.debounceExpiry d i) s = .next t ∧ OneDoor d s t ∧ t.ring = s.ring ∧
      DoorAfter d t fun z =>
        (∀ k, z.inp.debounced.of k = if expires k then x.inp.raw.of k else x.inp.debounced.of k) ∧
        (∀ k, z.inp.timers.of k = if expires k then none else x.inp.timers.of k) ∧
        z.inp = { x.inp with debounced := z.inp.debounced, timers := z.inp.timers } ∧
        z.position = s.env.positionOf z ∧ z.inhibit = x.inhibit ∧ z.powerSeen = x.powerSeen ∧
        z.prot.tripCount = x.prot.tripCount ∧ Delivered s t d x z

/-- O38. SLOT_GRANT where a grant is due: the first doors of the queue, as many as there are free slots, move from the
queue into the slot holder set; a remote close with prewarn goes to WARNING, every other to MOVING. No other door and
no other group changes. That one SLOT_GRANT takes all grants due at the group is log 10. -/
def Obligations.SlotGrantGrantsTheQueueHeads : Prop :=
  ∀ (s : State) (g : GroupNum), s.yard.arbiterLawful → (s.yard.groups.get g).grantDue = true →
    let r := s.yard.groups.get g
    let n := r.slotCount.getD 0 - r.holders.length
    ∃ t, exec (.slotGrant g) s = .next t ∧ ManyDoors s t ∧ TakeEnds s t ∧ t.ring = s.ring ∧
      (∀ h, h ≠ g → t.yard.groups.get h = s.yard.groups.get h) ∧
      t.yard.groups.get g =
        { r with holders := r.holders ++ r.queue.take n, queue := r.queue.drop n } ∧
      (∀ d, d ∉ r.queue.take n → t.door? d = s.door? d) ∧
      ∀ d x dir o, d ∈ r.queue.take n → s.door? d = some x → x.drive = .queued dir o →
        let new : Drive :=
          if dir = .toClose ∧ o ≠ .localReq ∧ 0 < s.times.prewarn then
            .warning o (s.clock + s.times.prewarn)
          else .moving dir o (s.clock + x.st.travelLimit)
        DoorAfter d t (Door.sameButAlarms { x with
          drive := new, prot := if new.closingRun then x.prot.noRun else x.prot })

/-! ## Sensor reports -/

/-- O39. SENSOR_REPORT: the word is forwarded to every bank in use and waits, the take of the door it belongs to to
follow with the moment it arrived; while the image is lost it is taken at once and answered DONE. What follows the end of
a forwarded write (O24) is that take, or nothing. That the moment a report arrived is carried to its take is log 18. -/
def Obligations.SensorReportIsForwardedThenTaken : Prop :=
  ∀ (s : State) (m : Master) (addr : Addr) (w : Word) (b offset : Nat),
    ReachesSensor s m addr w b offset →
    let leg (k : BankState) : Leg := match k with
      | .inService => .outstanding true | .resync => .outstanding false
      | .notFitted => .unused | .failed => .unused
    (s.mirror.imageLost = true → exec (.sensorReport m addr w) s =
      .next ((s.sensorTake (b + offset) w s.clock).answer (.done none))) ∧
    (s.mirror.imageLost = false →
      (leg s.mirror.bankA.state ≠ .unused ∨ leg s.mirror.bankB.state ≠ .unused) →
      exec (.sensorReport m addr w) s = .next { s with path := { s.path with
        upstream := .waiting (wordWrite m addr w) (.write addr .both w (leg s.mirror.bankA.state)
          (leg s.mirror.bankB.state) (.sensorTake (b + offset) w s.clock))
        response := none } }) ∧
    (∀ (t : State) (d arrival : Nat), t.afterWrite (.sensorTake d w arrival) = t.sensorTake d w arrival) ∧
    ∀ t : State, t.afterWrite .answerOnly = t

/-- O40. The sensor take. A repeat changes no door. A fresh report stores its fields, restarts the freshness timer at
its arrival, sets the power-seen mark, and takes each input through debounce; a recovering one takes every input at once
and makes the door reported and not stale. The position follows R4, and what the debounced inputs have changed is
delivered as at a debounce expiry (O37), unless the report trips the door at once (O41); a report that completes a
closing door, or turns it, trips nothing. That the moment a report arrived is carried to its take, and that the take is
of the record and of the two flags as the take finds them, is log 18. -/
def Obligations.SensorTakeUpdatesTheInputs : Prop :=
  ∀ (s : State) (d : Nat) (x : Door) (w : Word) (arrival : Nat), s.door? d = some x →
    let seq := w.extractLsb' 6 2
    let raw : Four Bool :=
      { cl := w.getLsbD 0, ol := w.getLsbD 1, lo := w.getLsbD 2, lc := w.getLsbD 3 }
    let t := s.sensorTake d w arrival
    (x.inp.lastSeq = some seq → t.yard = s.yard ∧ t.ring = s.ring ∧ OneDoor d s t) ∧
    (x.inp.lastSeq ≠ some seq → s.clock < arrival + s.times.activeLimit →
      s.clock < arrival + s.times.idleLimit →
      OneDoor d s t ∧ DoorAfter d t fun z =>
        z.powerSeen = true ∧ z.inp.lastSeq = some seq ∧ z.inp.raw = raw ∧
        z.inp.pw = w.getLsbD 4 ∧ z.inp.ob = w.getLsbD 5 ∧
        z.inp.pressure = (w.extractLsb' 8 8).toNat ∧ z.inp.freshness = some arrival ∧
        z.inp.reported = true ∧ z.inp.stale = false ∧ z.position = s.env.positionOf z ∧
        (x.drive.closingRun = true → 0 < s.times.tripDelay ∨ x.prot.alert ≠ none → Delivered s t d x z) ∧
        ((deliveredDrive s x z.inp.debounced z.position).closingRun = false →
          t.ring = s.ring ∧ Delivered s t d x z) ∧
        (x.drive.closingRun = false → t.ring = s.ring ∧ Delivered s t d x z) ∧
        (x.inp.stale = true ∨ x.inp.reported = false →
          z.inp.debounced = raw ∧ ∀ k, z.inp.timers.of k = none) ∧
        (x.inp.stale = false → x.inp.reported = true → ∀ k,
          (raw.of k = x.inp.debounced.of k →
            z.inp.debounced.of k = x.inp.debounced.of k ∧ z.inp.timers.of k = none) ∧
          (raw.of k ≠ x.inp.debounced.of k →
            (∀ u, x.inp.timers.of k = some u →
              z.inp.debounced.of k = x.inp.debounced.of k ∧ z.inp.timers.of k = some u) ∧
            (x.inp.timers.of k = none → s.times.debounce = 0 →
              z.inp.debounced.of k = raw.of k ∧ z.inp.timers.of k = none) ∧
            (x.inp.timers.of k = none → 0 < s.times.debounce →
              z.inp.debounced.of k = x.inp.debounced.of k ∧
              (z.inp.timers.of k).map (·.expiry) = some (arrival + s.times.debounce)))))

/-- O41. The alert evaluation of a fresh report, recovering or not, on a closing door that the report leaves closing once
its inputs have been delivered (R12 step 5): the peak rises; an alert is raised, kept with its cause and timer, or
lowered; with trip delay 0 a raised alert trips the door at once: the slot released, the run ended, the count raised
unless LATCHED; past the retry limit LATCHED and RESTING, else a remote origin TRIPPED and a local one RECLOSE_WAIT or
RESTING by the mode. DOOR_TRIPPED is made with the cause, DOOR_LATCHED after it where the trip latches. The arrival and
the two flags are those of log 18. -/
def Obligations.AlertEvaluation : Prop :=
  ∀ (s : State) (d : Nat) (x : Door) (w : Word) (arrival : Nat) (o : Origin) (tr : Nat),
    s.door? d = some x → x.drive.closingRun = true → x.inp.lastSeq ≠ some (w.extractLsb' 6 2) →
    let raw : Four Bool :=
      { cl := w.getLsbD 0, ol := w.getLsbD 1, lo := w.getLsbD 2, lc := w.getLsbD 3 }
    let after := takenInputs s x raw
    let p := s.env.positionOf { x with inp := { x.inp with debounced := after, reported := true, stale := false } }
    deliveredDrive s x after p = .moving .toClose o tr →
    s.clock < arrival + s.times.activeLimit → s.clock < arrival + s.times.idleLimit →
    let pressure := (w.extractLsb' 8 8).toNat
    let obstructed := w.getLsbD 5 = true
    let pressed := x.prot.hot = true ∧ x.prot.baseline + x.st.margin < 255 ∧
      x.prot.baseline + x.st.margin < pressure
    let peak := match x.prot.peak with | none => pressure | some high => max high pressure
    let settle := if x.position = .closed ∧ p ≠ .closed then none else x.prot.settle
    let t := s.sensorTake d w arrival
    let leaves (drive : Drive) (inhibit : Inhibit) (prot : Protection) : Prop :=
      DoorAfter d t fun z => z.inp.debounced = after ∧ Door.sameButAlarms { x with
        inp := z.inp, powerSeen := true, position := p, hold := deliveredHold s x after
        drive := drive, inhibit := inhibit, prot := prot } z
    OneDoor d s t ∧
    (¬ obstructed → ¬ pressed → t.ring = s.ring ∧ KeepsSlot d x s t ∧
      leaves (.moving .toClose o tr) x.inhibit { x.prot with
        settle := settle, peak := some peak, alert := none
        tripTimer := if x.prot.alert = none then x.prot.tripTimer else none }) ∧
    ∀ cause, ((cause = .both ∧ obstructed ∧ pressed) ∨ (cause = .obstruction ∧ obstructed ∧ ¬ pressed) ∨
        (cause = .pressure ∧ ¬ obstructed ∧ pressed)) →
      (x.prot.alert ≠ none ∨ 0 < s.times.tripDelay → t.ring = s.ring ∧ KeepsSlot d x s t ∧
        leaves (.moving .toClose o tr) x.inhibit { x.prot with
          settle := settle, peak := some peak, alert := some cause
          mark := x.prot.mark || x.prot.alert.isNone
          tripTimer :=
            if x.prot.alert = none then some (s.clock + s.times.tripDelay) else x.prot.tripTimer }) ∧
      (x.prot.alert = none → s.times.tripDelay = 0 →
        let n := if x.inhibit = .latched then x.prot.tripCount else x.prot.tripCount + 1
        let latches := s.times.retryLimit < n
        let tripped := s.ring.push (s.entryNow 11 15 0
          (match cause with | .obstruction => 1 | .pressure => 2 | .both => 3) d)
        t.ring = (if latches then tripped.push (s.entryNow 12 15 0 n d) else tripped) ∧
        LeavesGroup d x s t ∧
        leaves
          (if latches then .resting
            else if o ≠ .localReq then .tripped (s.clock + s.times.retryDelay)
            else if s.command.mode = some .doorsClosed then .recloseWait (s.clock + s.times.reclose)
            else .resting)
          (if latches then .latched else x.inhibit)
          { x.prot.noRun with settle := settle, tripCount := n })

/-! ## Positions, alarms, lines -/

/-- O42. The end of a take: a door whose alarm inputs the take has not changed keeps its alarm states; any other has
each state taken against its condition by R105's table, and no capture is made. Every row that is an event of the doors
or of the arbiter ends so, or leaves the part as it was, and so does the sensor take. The door statements say the same
of theirs: a take at one door by OneDoor (O28 to O37, O40, O41), an order that takes many doors by TakeEnds (O38, O45,
O46, O52); MODE and the apply evaluate every door (O44, O54). That a row which finds nothing due changes nothing is the
model's choice: log 4. -/
def Obligations.AlarmStatesFollowTheirTables : Prop :=
  (∀ (before : Yard) (s : State) (d : Nat) (b x : Door),
    before.doors[d]? = some b → s.door? d = some x →
    (b.alarmInputs = x.alarmInputs → (State.endTake before s).door? d = some x) ∧
    (b.alarmInputs ≠ x.alarmInputs →
      let holds := conditions (s.command.mode == some .doorsClosed) x
      (State.endTake before s).door? d = some { x with alarms :=
        { doorOpen := x.alarms.doorOpen.evaluate holds.doorOpen
          tripped := x.alarms.tripped.evaluate holds.tripped
          latched := x.alarms.latched.evaluate holds.latched
          stalled := x.alarms.stalled.evaluate holds.stalled
          stale := x.alarms.stale.evaluate holds.stale
          conflict := x.alarms.conflict.evaluate holds.conflict
          drivePower := x.alarms.drivePower.evaluate holds.drivePower } })) ∧
  (AlarmState.normal.evaluate true = .activeUnack ∧ AlarmState.normal.evaluate false = .normal ∧
    AlarmState.activeUnack.evaluate true = .activeUnack ∧
    AlarmState.activeUnack.evaluate false = .clearedUnack ∧
    AlarmState.activeAck.evaluate true = .activeAck ∧ AlarmState.activeAck.evaluate false = .normal ∧
    AlarmState.clearedUnack.evaluate true = .activeUnack ∧
    AlarmState.clearedUnack.evaluate false = .clearedUnack) ∧
  (∀ (before : Yard) (s : State), (State.endTake before s).ring = s.ring) ∧
  (∀ (s : State) (d : Nat) (i : Input) (g : GroupNum) (c : Instr),
    c ∈ [Instr.debounceExpiry d i, .freshnessExpiry d, .prewarnExpiry d, .travelExpiry d, .recloseExpiry d,
      .tripTimerExpiry d, .retryExpiry d, .settleExpiry d, .slotGrant g] →
    ∃ t, exec c s = .next t ∧ (t = s ∨ TakeEnds s t)) ∧
  ∀ (s : State) (d : Nat) (w : Word) (arrival : Nat), TakeEnds s (s.sensorTake d w arrival)

/-- O43. Positions (R4), alarm conditions (R103) and the lines judged at the end of a take (R110 to R113). -/
def Obligations.PositionsConditionsAndLines : Prop :=
  (∀ (authorized : Bool) (i : InputPart),
    (i.stale = true ∨ i.reported = false ∨ authorized = false →
      derivePosition authorized i = .unknown) ∧
    (i.stale = false → i.reported = true → authorized = true →
      (i.debounced.cl = true → i.debounced.ol = false → derivePosition authorized i = .closed) ∧
      (i.debounced.cl = false → i.debounced.ol = true → derivePosition authorized i = .opened) ∧
      (i.debounced.cl = false → i.debounced.ol = false → derivePosition authorized i = .between) ∧
      (i.debounced.cl = true → i.debounced.ol = true → derivePosition authorized i = .conflict))) ∧
  (∀ (dc : Bool) (x : Door),
    let open_ := x.position = .opened ∨ x.position = .between
    ((conditions dc x).doorOpen = true ↔
      dc = true ∧ x.drive ≠ .isolated ∧ open_ ∧ (x.st.cls ≠ .indicated →
        x.hold = false ∧ (∀ r, x.drive ≠ .recloseWait r) ∧ x.drive.direction ≠ some .toClose)) ∧
    ((conditions dc x).tripped = true ↔ ∃ r, x.drive = .tripped r) ∧
    ((conditions dc x).latched = true ↔ x.inhibit = .latched) ∧
    ((conditions dc x).stalled = true ↔ x.inhibit = .stalled) ∧
    ((conditions dc x).stale = true ↔ x.inp.stale = true) ∧
    ((conditions dc x).conflict = true ↔ x.position = .conflict) ∧
    ((conditions dc x).drivePower = true ↔
      x.st.cls ≠ .indicated ∧ x.drive ≠ .isolated ∧ x.powerSeen = true ∧ x.inp.pw = false)) ∧
  ∀ (before : Yard) (s : State),
    LinesJudged (State.endTake before s) s.lines.generalAlarm ∧
    (s.judgeFault.lines.partFault = true ↔ s.part = .transparent ∨
      s.mirror.bankA.state = .failed ∨ s.mirror.bankB.state = .failed ∨ s.mirror.imageLost = true)

/-! ## Orders -/

/-- O44. MODE, from the holder alone, with value 1 or 2. The mode in force changes nothing; the other one is taken, with
MODE_CHANGED, and every door is taken by R43 or R42 and the enforcement check; INDICATED doors stand on a change to
DOORS_CLOSED, and queued closes and local opens stay bound as they are. The grants made due are taken, so that none is
due afterwards: that they are part of this take is log 11, that a grant which was due before the write is taken with
them log 28. The doors that the enforcement check queues join their groups in door-number order, behind the closes
already waiting (R69), and the grants go to the first doors of the queues so left. At the end every door's conditions
are evaluated, and the lines judged, against the records as the take has left them (R82 step 6). -/
def Obligations.ModeOrder : Prop :=
  ∀ (s : State) (m : Master) (addr : Addr) (w : Word), ReachesOrder s m addr w 0 →
    (s.command.holder ≠ some m → exec (.mode m addr w) s = .next (s.refuseOrder m addr w 1)) ∧
    (s.command.holder = some m → w ≠ 1 → w ≠ 2 →
      exec (.mode m addr w) s = .next (s.refuseOrder m addr w 2)) ∧
    ∀ v, s.command.holder = some m → w = (match v with | .localControl => 1 | .doorsClosed => 2) →
      (s.command.mode = some v → exec (.mode m addr w) s = .next (s.forwardOrder m addr w)) ∧
      (s.command.mode ≠ some v → ∃ u : State, exec (.mode m addr w) s = .next (u.forwardOrder m addr w) ∧
        ManyDoors { s with command := { s.command with mode := some v } } u ∧
        u.ring = s.ring.push (s.entryNow 19 m.val addr
          (match s.command.mode with
            | none => 0 | some .localControl => 1 | some .doorsClosed => 2) w.toNat) ∧
        (s.yard.arbiterLawful → ∀ g, (u.yard.groups.get g).grantDue = false) ∧
        LinesJudged u s.lines.generalAlarm ∧
        (∀ d x, s.door? d = some x → DoorAfter d u (Evaluated u x)) ∧
        (s.yard.arbiterLawful → (v = .doorsClosed → ∀ d x, s.door? d = some x → InTouch s x) → ∀ g,
          let r := s.yard.groups.get g
          let stays (d : Nat) : Bool :=
            match s.door? d with
            | some x => !x.drive.leavesAt v
            | none => false
          let joins (d : Nat) : Bool :=
            match s.door? d with
            | some x => x.st.cls == .powered g && decide ((x.drive = .resting ∨ x.drive = .queued .toOpen .station) ∧
                Enforced u x (x.hold || x.inp.debounced.lo))
            | none => false
          let holders := r.holders.filter stays
          let queue := r.queue.filter (fun d => stays d && s.waitsToClose g d) ++
            (List.range s.doorCount).filter joins ++
            r.queue.filter fun d => stays d && !s.waitsToClose g d
          let free := r.slotCount.getD 0 - holders.length
          u.yard.groups.get g =
            { slotCount := r.slotCount, holders := holders ++ queue.take free, queue := queue.drop free }) ∧
        (v = .localControl → ∀ d x, s.door? d = some x → DoorAfter d u fun z =>
          z.hold = false ∧ z.inhibit = x.inhibit ∧ z.prot.tripCount = x.prot.tripCount ∧
          (x.drive = .queued .toClose .mode ∨ (∃ p, x.drive = .warning .mode p) ∨
            (∃ r, x.drive = .recloseWait r) → z.drive = .resting) ∧
          (∀ o p, x.drive = .warning o p → o ≠ .mode → z.drive = x.drive) ∧
          (x.drive = .resting ∨ x.drive = .isolated ∨ (∃ r, x.drive = .tripped r) ∨
            (∃ dir o tr, x.drive = .moving dir o tr) → z.drive = x.drive) ∧
          ∀ dir o, x.drive = .queued dir o → ¬ (dir = .toClose ∧ o = .mode) →
            QueuedOrGranted s x dir o z.drive) ∧
        (v = .doorsClosed → (∀ d x, s.door? d = some x → InTouch s x) →
          (∀ d x, s.door? d = some x → x.drive.bound = false → x.powered = false →
            DoorAfter d u (Door.sameButAlarms x)) ∧
          ∀ d x, s.door? d = some x → x.powered = true → DoorAfter d u fun z =>
            z.inp = x.inp ∧ z.position = x.position ∧
            z.inhibit = x.inhibit ∧ z.prot.tripCount = x.prot.tripCount ∧
            (x.drive = .isolated → z.drive = .isolated ∧ z.hold = x.hold) ∧
            (x.drive ≠ .isolated → z.hold = (x.hold || x.inp.debounced.lo)) ∧
            ((∃ r, x.drive = .tripped r) ∨ (∃ r, x.drive = .recloseWait r) ∨
              (∃ o p, x.drive = .warning o p) ∨ (∃ o tr, x.drive = .moving .toClose o tr) ∨
              (∃ tr, x.drive = .moving .toOpen .localReq tr) → z.drive = x.drive) ∧
            (∀ dir o, x.drive = .queued dir o → ¬ (dir = .toOpen ∧ o = .station) →
              QueuedOrGranted s x dir o z.drive) ∧
            (∀ tr, x.drive = .moving .toOpen .station tr → z.drive =
              if 0 < s.times.prewarn then .warning .mode (s.clock + s.times.prewarn)
              else .moving .toClose .mode (s.clock + x.st.travelLimit)) ∧
            (x.drive = .resting ∨ x.drive = .queued .toOpen .station →
              (Enforced u x (x.hold || x.inp.debounced.lo) →
                QueuedOrGranted s x .toClose .mode z.drive) ∧
              (¬ Enforced u x (x.hold || x.inp.debounced.lo) → z.drive = .resting))))

/-- O45. ZONE_CLOSE, from the holder alone. A door outside the mask, or one that a station CLOSE would be refused on, is
passed over; every other has a close of origin ZONE: a CLOSED door rests, a door bound to close at most changes its
origin, a door bound to open turns, and any other queues. The doors that queue join their groups in door-number order,
behind the closes already waiting (R69). -/
def Obligations.ZoneCloseOrder : Prop :=
  ∀ (s : State) (m : Master) (addr : Addr) (w : Word), ReachesOrder s m addr w 1 →
    let origin (o : Origin) : Origin := if o = .localReq then .localReq else .zone
    (s.command.holder ≠ some m → exec (.zoneClose m addr w) s = .next (s.refuseOrder m addr w 1)) ∧
    (s.command.holder = some m → ∃ u : State, exec (.zoneClose m addr w) s = .next (u.forwardOrder m addr w) ∧
      ManyDoors s u ∧ TakeEnds s u ∧ u.ring = s.ring ∧ (s.yard.arbiterLawful → ClosesJoin s u) ∧
      ∀ d x, s.door? d = some x →
        let passes := w.getLsbD x.st.zone.val = true ∧ x.powered = true ∧ x.drive ≠ .isolated ∧
          x.inhibit = .none
        (¬ passes → u.door? d = some x) ∧
        (passes → InTouch s x → DoorAfter d u fun z =>
          z.inp = x.inp ∧ z.position = x.position ∧ z.hold = x.hold ∧ z.inhibit = x.inhibit ∧
          z.prot.tripCount = x.prot.tripCount ∧
          (x.position = .closed → z.drive = .resting) ∧
          (x.position ≠ .closed →
            (x.drive = .resting ∨ (∃ r, x.drive = .recloseWait r) ∨ (∃ r, x.drive = .tripped r) ∨
              (∃ o, x.drive = .queued .toOpen o) → z.drive = .queued .toClose .zone) ∧
            (∀ o, x.drive = .queued .toClose o → z.drive = .queued .toClose (origin o)) ∧
            (∀ o p, x.drive = .warning o p → z.drive = .warning (origin o) p) ∧
            (∀ o tr, x.drive = .moving .toClose o tr → z.drive = .moving .toClose (origin o) tr) ∧
            ∀ o tr, x.drive = .moving .toOpen o tr → z.drive =
              if 0 < s.times.prewarn then .warning .zone (s.clock + s.times.prewarn)
              else .moving .toClose .zone (s.clock + x.st.travelLimit))))

/-- O46. DOOR_CLEAR, from the holder alone, of one door or all: count 0, inhibit NONE, a TRIPPED door to RESTING, and
the enforcement check; the doors that it queues join their groups in door-number order, behind the closes already
waiting (R69). -/
def Obligations.DoorClearOrder : Prop :=
  ∀ (s : State) (m : Master) (addr : Addr) (w : Word), ReachesOrder s m addr w 2 →
    let named (d : Nat) := w.getLsbD 15 = true ∨ field w 0 7 = d
    let bad := w &&& 0x7F80 ≠ 0 ∨ (w.getLsbD 15 = false ∧ s.doorCount ≤ field w 0 7)
    (s.command.holder ≠ some m → exec (.doorClear m addr w) s = .next (s.refuseOrder m addr w 1)) ∧
    (s.command.holder = some m → bad → exec (.doorClear m addr w) s = .next (s.refuseOrder m addr w 2)) ∧
    (s.command.holder = some m → ¬ bad →
      ∃ u : State, exec (.doorClear m addr w) s = .next (u.forwardOrder m addr w) ∧
        ManyDoors s u ∧ TakeEnds s u ∧ u.ring = s.ring ∧ (s.yard.arbiterLawful → ClosesJoin s u) ∧
        ∀ d x, s.door? d = some x →
          (¬ named d → u.door? d = some x) ∧
          (named d →
            let enforced := Enforced s { x with inhibit := .none } x.hold
            let cleared (drive : Drive) : Door := { x with
              drive := drive, inhibit := .none, prot := { x.prot with tripCount := 0 } }
            let stands := x.drive = .resting ∨ ∃ r, x.drive = .tripped r
            (¬ stands → DoorAfter d u (Door.sameButAlarms (cleared x.drive))) ∧
            (stands → ¬ enforced → DoorAfter d u (Door.sameButAlarms (cleared .resting))) ∧
            (stands → enforced → InTouch s x →
              DoorAfter d u (Door.sameButAlarms (cleared (.queued .toClose .mode))))))

/-- O47. ALARM_ACK, from any station, of one door or all: the alarm states of the doors it names are acknowledged by
R106's table, and nothing else of any door changes; the door lines are judged afterwards. -/
def Obligations.AlarmAckOrder : Prop :=
  (AlarmState.normal.acknowledge = .normal ∧ AlarmState.activeUnack.acknowledge = .activeAck ∧
    AlarmState.activeAck.acknowledge = .activeAck ∧ AlarmState.clearedUnack.acknowledge = .normal) ∧
  ∀ (s : State) (m : Master) (addr : Addr) (w : Word), ReachesOrder s m addr w 3 →
    let named (d : Nat) := w.getLsbD 15 = true ∨ field w 0 7 = d
    let bad := w &&& 0x7F80 ≠ 0 ∨ (w.getLsbD 15 = false ∧ s.doorCount ≤ field w 0 7)
    ((s.role m).isStation = false → exec (.alarmAck m addr w) s = .next (s.refuseOrder m addr w 1)) ∧
    ((s.role m).isStation = true → bad →
      exec (.alarmAck m addr w) s = .next (s.refuseOrder m addr w 2)) ∧
    ((s.role m).isStation = true → ¬ bad →
      ∃ u : State, exec (.alarmAck m addr w) s = .next (u.forwardOrder m addr w) ∧
        ManyDoors s u ∧ u.ring = s.ring ∧ u.yard.groups = s.yard.groups ∧
        LinesJudged u s.lines.generalAlarm ∧
        ∀ d x, s.door? d = some x →
          (¬ named d → u.door? d = some x) ∧
          (named d → u.door? d = some { x with alarms :=
            { doorOpen := x.alarms.doorOpen.acknowledge, tripped := x.alarms.tripped.acknowledge
              latched := x.alarms.latched.acknowledge, stalled := x.alarms.stalled.acknowledge
              stale := x.alarms.stale.acknowledge, conflict := x.alarms.conflict.acknowledge
              drivePower := x.alarms.drivePower.acknowledge } }))

/-- O48. BASELINE, from the holder or a SERVICE master, of every door of the masked zones. RELOAD, from a SERVICE
master, with value 1, unless a reload's attempt runs. HEARTBEAT, from any station, LIVE or LAPSED. Each has its one
effect and no other. -/
def Obligations.BaselineReloadHeartbeatOrders : Prop :=
  (∀ (s : State) (m : Master) (addr : Addr) (w : Word), ReachesOrder s m addr w 4 →
    (s.command.holder ≠ some m → (s.role m).isService = false →
      exec (.baseline m addr w) s = .next (s.refuseOrder m addr w 1)) ∧
    (s.command.holder = some m ∨ (s.role m).isService = true →
      ∃ u : State, exec (.baseline m addr w) s = .next (u.forwardOrder m addr w) ∧
        u = { s with yard := { s.yard with doors := u.yard.doors } } ∧
        u.doorCount = s.doorCount ∧
        ∀ d x, s.door? d = some x → u.door? d = some
          (if w.getLsbD x.st.zone.val then
            { x with prot := { x.prot with baseline := x.st.initialBaseline, hot := false } }
           else x))) ∧
  (∀ (s : State) (m : Master) (addr : Addr) (w : Word), ReachesOrder s m addr w 6 →
    ((s.role m).isService = false → exec (.reload m addr w) s = .next (s.refuseOrder m addr w 1)) ∧
    ((s.role m).isService = true → w ≠ 1 →
      exec (.reload m addr w) s = .next (s.refuseOrder m addr w 2)) ∧
    ((s.role m).isService = true → w = 1 → s.loader.reload = .reloading →
      exec (.reload m addr w) s = .next (s.refuseOrder m addr w 4)) ∧
    ((s.role m).isService = true → w = 1 → s.loader.reload ≠ .reloading →
      exec (.reload m addr w) s = .next (State.forwardOrder { s with
        loader := { reload := .reloading, lastReloadFailed := s.loader.lastReloadFailed } } m addr w))) ∧
  ∀ (s : State) (m : Master) (addr : Addr) (w : Word), ReachesOrder s m addr w 9 →
    ((s.role m).isStation = false → exec (.heartbeat m addr w) s = .next (s.refuseOrder m addr w 1)) ∧
    ((s.role m).isStation = true → exec (.heartbeat m addr w) s = .next (State.forwardOrder { s with
      masters := setAt s.masters m
        { role := .station (some s.clock), behaviour := (s.masters.get m).behaviour } } m addr w))

/-- O49. CAPTURE_RELEASE, from a station or a SERVICE master, of 1 to 64 entries: the oldest leave, as many as the
count or as there are, and the dropped count becomes 0. -/
def Obligations.CaptureReleaseOrder : Prop :=
  ∀ (s : State) (m : Master) (addr : Addr) (w : Word), ReachesOrder s m addr w 5 →
    let writer := (s.role m).isStation = true ∨ (s.role m).isService = true
    let good := w &&& 0xFF80 = 0 ∧ 1 ≤ field w 0 7 ∧ field w 0 7 ≤ 64
    (¬ writer → exec (.captureRelease m addr w) s = .next (s.refuseOrder m addr w 1)) ∧
    (writer → ¬ good → exec (.captureRelease m addr w) s = .next (s.refuseOrder m addr w 2)) ∧
    (writer → good → exec (.captureRelease m addr w) s = .next (State.forwardOrder { s with
      ring := { entries := s.ring.entries.drop (field w 0 7), dropped := 0 } } m addr w))

/-- O50. RESYNC, from the holder or a SERVICE master, with value 1: refused BUSY while a bank is in RESYNC, STATE
unless one bank is FAILED and the other IN_SERVICE with the image not lost; taken, the FAILED bank is in RESYNC from
the other, at cursor 0, and PART_FAULT is off. -/
def Obligations.ResyncOrder : Prop :=
  ∀ (s : State) (m : Master) (addr : Addr) (w : Word), ReachesOrder s m addr w 7 →
    let writer := s.command.holder = some m ∨ (s.role m).isService = true
    let busy := s.mirror.bankA.state = .resync ∨ s.mirror.bankB.state = .resync
    let can (b : BankId) := s.mirror.imageLost = false ∧ (s.mirror.bank b).state = .failed ∧
      (s.mirror.bank (otherBank b)).state = .inService
    (¬ writer → exec (.resync m addr w) s = .next (s.refuseOrder m addr w 1)) ∧
    (writer → w ≠ 1 → exec (.resync m addr w) s = .next (s.refuseOrder m addr w 2)) ∧
    (writer → w = 1 → busy → exec (.resync m addr w) s = .next (s.refuseOrder m addr w 4)) ∧
    (writer → w = 1 → ¬ busy → (∀ b, ¬ can b) →
      exec (.resync m addr w) s = .next (s.refuseOrder m addr w 3)) ∧
    ∀ b, writer → w = 1 → can b → exec (.resync m addr w) s = .next (State.forwardOrder { s with
      mirror := { s.mirror.modifyBank b fun r => { r with state := .resync, count := 0 } with
        source := some (otherBank b), cursor := 0 }
      lines := { s.lines with partFault := false } } m addr w)

/-- O51. The five TRANSFER orders, by R91's table: the writer, the value (a kind of 0, 6 or 7 refused), then the kind
against holder and pending record, with their captures. -/
def Obligations.TransferOrders : Prop :=
  ∀ (s : State) (m : Master) (addr : Addr),
    let rows (rest : BitVec 13) : List (Instr × BitVec 3) :=
      [(.transferRequest m addr rest, 1), (.transferAccept m addr rest, 2),
       (.transferDecline m addr rest, 3), (.transferCancel m addr rest, 4),
       (.transferRelinquish m addr rest, 5)]
    let word (n : BitVec 3) : Word := 0#13 ++ n
    let code (h : Option Master) : Nat := match h with | some k => k.val | none => 15
    let handed (n : BitVec 3) (new : Option Master) (detail : Nat) : Host.Outcome State Fault Refusal :=
      .next (State.forwardOrder { s with
        command := { s.command with holder := new, transfer := none }
        ring := s.ring.push
          (s.entryNow 17 m.val addr detail (code new + 256 * code s.command.holder)) } m addr (word n))
    let ended (n : BitVec 3) (requester : Master) (detail : Nat) : Host.Outcome State Fault Refusal :=
      .next (State.forwardOrder { s with
        command := { s.command with transfer := none }
        ring := s.ring.push (s.entryNow 18 m.val addr detail requester.val) } m addr (word n))
    let refused (n : BitVec 3) : Host.Outcome State Fault Refusal :=
      .next (s.refuseOrder m addr (word n) 3)
    let reaches (n : BitVec 3) : Prop := ReachesOrder s m addr (word n) 8 ∧ (s.role m).isStation = true
    let holds := s.command.holder = some m
    (∀ rest c n, (c, n) ∈ rows rest → ReachesOrder s m addr (rest ++ n) 8 →
      ((s.role m).isStation = false → exec c s = .next (s.refuseOrder m addr (rest ++ n) 1)) ∧
      ((s.role m).isStation = true → rest ≠ 0 →
        exec c s = .next (s.refuseOrder m addr (rest ++ n) 2))) ∧
    (∀ w, ReachesOrder s m addr w 8 → (s.role m).isStation = true → w = 0 ∨ 5 < w.toNat →
      exec (.forwardedWrite m addr .both w) s = .next (s.refuseOrder m addr w 2)) ∧
    (reaches 1 →
      (s.command.holder = none → exec (.transferRequest m addr 0) s = handed 1 (some m) 1) ∧
      (holds → exec (.transferRequest m addr 0) s = refused 1) ∧
      (s.command.holder ≠ none → ¬ holds →
        (s.command.transfer ≠ none → exec (.transferRequest m addr 0) s = refused 1) ∧
        (s.command.transfer = none → exec (.transferRequest m addr 0) s =
          .next (State.forwardOrder { s with command := { s.command with
            transfer := some { requester := m, start := s.clock } } } m addr (word 1))))) ∧
    (reaches 2 →
      (∀ p, holds → s.command.transfer = some p →
        exec (.transferAccept m addr 0) s = handed 2 (some p.requester) 2) ∧
      (¬ holds ∨ s.command.transfer = none → exec (.transferAccept m addr 0) s = refused 2)) ∧
    (reaches 3 →
      (∀ p, holds → s.command.transfer = some p →
        exec (.transferDecline m addr 0) s = ended 3 p.requester 1) ∧
      (¬ holds ∨ s.command.transfer = none → exec (.transferDecline m addr 0) s = refused 3)) ∧
    (reaches 4 →
      (∀ p, s.command.transfer = some p → p.requester = m →
        exec (.transferCancel m addr 0) s = ended 4 m 2) ∧
      ((∀ p, s.command.transfer = some p → p.requester ≠ m) →
        exec (.transferCancel m addr 0) s = refused 4)) ∧
    (reaches 5 →
      (holds → s.command.transfer = none →
        exec (.transferRelinquish m addr 0) s = handed 5 none 3) ∧
      (∀ p, holds → s.command.transfer = some p →
        exec (.transferRelinquish m addr 0) s = handed 5 (some p.requester) 4) ∧
      (¬ holds → exec (.transferRelinquish m addr 0) s = refused 5))

/-- O52. ATTACH, from a scanner. Bits 15-14 must be clear. A match makes it authorized and brings every door it owns to
UNKNOWN and unreported, a door in sight losing its LO; it is captured and forwarded. A mismatch makes it unauthorized
and its doors stale; it is captured and answered ERROR. A door's owner is the scanner its static part names (R1). An LO
that was set falls, but for that of a door not in sight at a match: the hold ends, an opening stops, a held door in
DOORS_CLOSED waits to reclose, and such a door leaves its queue entry or its slot (R39). A door whose LO does not fall
keeps its drive state, and no other door changes. -/
def Obligations.AttachOrder : Prop :=
  ∀ (s : State) (m : Master) (addr : Addr) (w : Word), ReachesOrder s m addr w 10 →
    let roleTo (r : Role) : Vector MasterRec 8 :=
      setAt s.masters m { role := r, behaviour := (s.masters.get m).behaviour }
    ((s.role m).isScanner = false → exec (.attach m addr w) s = .next (s.refuseOrder m addr w 1)) ∧
    ∀ first count was, s.role m = .scanner first count was →
      (w &&& 0xC000 ≠ 0 → exec (.attach m addr w) s = .next (s.refuseOrder m addr w 2)) ∧
      (w &&& 0xC000 = 0 → field w 0 7 = first → field w 7 7 = count →
        ∃ u : State, exec (.attach m addr w) s = .next (u.forwardOrder m addr w) ∧
          ManyDoors { s with masters := roleTo (.scanner first count true) } u ∧ TakeEnds s u ∧
          u.ring = s.ring.push (s.entryNow 14 m.val addr 0 w.toNat) ∧
          (s.yard.arbiterLawful → DoorsLeave s u) ∧
          ∀ d x, s.door? d = some x →
            (x.owner ≠ some m → u.door? d = some x) ∧
            (x.owner = some m → DoorAfter d u fun z =>
              z.inp.lastSeq = none ∧ z.inp.reported = false ∧ z.position = .unknown ∧
              z.inhibit = x.inhibit ∧ z.prot.tripCount = x.prot.tripCount ∧
              (InTouch s x → z.inp.stale = x.inp.stale ∧ z.inp.freshness = x.inp.freshness) ∧
              (x.inp.reported = true → x.inp.stale = false →
                z.inp.raw.lo = false ∧ z.inp.debounced.lo = false ∧ ∀ k, z.inp.timers.of k = none) ∧
              (x.inp.reported = true ∧ x.inp.stale = false ∧ x.inp.debounced.lo = true →
                z.drive = sightlessFalls s x ∧ z.hold = false) ∧
              (x.inp.reported = false ∨ x.inp.stale = true ∨ x.inp.debounced.lo = false →
                z.drive = x.drive ∧ z.hold = x.hold) ∧
              z.prot = { x.prot with settle := if x.position = .closed then none else x.prot.settle })) ∧
      (w &&& 0xC000 = 0 → ¬ (field w 0 7 = first ∧ field w 7 7 = count) →
        ∃ u : State, exec (.attach m addr w) s = .next (u.answer .error) ∧
          ManyDoors { s with masters := roleTo (.scanner first count false) } u ∧ TakeEnds s u ∧
          u.ring = s.ring.push (s.entryNow 15 m.val addr (if was then 1 else 0) w.toNat) ∧
          (s.yard.arbiterLawful → DoorsLeave s u) ∧
          ∀ d x, s.door? d = some x →
            (x.owner ≠ some m ∨ x.inp.stale = true → u.door? d = some x) ∧
            (x.owner = some m → x.inp.stale = false → DoorAfter d u fun z =>
              z.inp.stale = true ∧ z.inp.freshness = none ∧ z.position = .unknown ∧
              z.inp.lastSeq = x.inp.lastSeq ∧ z.inp.reported = x.inp.reported ∧
              z.inhibit = x.inhibit ∧ z.prot.tripCount = x.prot.tripCount ∧
              z.drive = (if x.inp.debounced.lo = true then sightlessFalls s x else x.drive) ∧
              z.hold = (x.hold && !x.inp.debounced.lo) ∧
              z.prot = { x.prot with settle := if x.position = .closed then none else x.prot.settle }))

/-! ## Reloads and the apply -/

/-- O53. RELOAD_ATTEMPT_END of a faulty attempt: IDLE, LAST_RELOAD_FAILED, RELOAD_FAILED with the cause. Of a good one
while some door is bound somewhere: the image is held. -/
def Obligations.ReloadAttemptsEnd : Prop :=
  ∀ (s : State) (image : List Byte), s.part = .running → s.loader.reload = .reloading →
    (∀ f, loadAttempt image (some s.mirror.imageSize) = .error f →
      exec (.reloadAttemptEnd image) s = .next { s with
        loader := { reload := .idle, lastReloadFailed := true }
        ring := s.ring.push (s.entryNow 26 15 0
          (match f with
            | .noAcknowledge => 1 | .badTag => 2 | .tooLong => 3 | .crcMismatch => 4
            | .rangeViolation => 5) 0) }) ∧
    ∀ img, loadAttempt image (some s.mirror.imageSize) = .ok img →
      (∃ d x, s.door? d = some x ∧ x.drive.bound = true) →
      exec (.reloadAttemptEnd image) s = .next { s with
        loader := { reload := .applyPending img, lastReloadFailed := false } }

/-- O54. The apply, of a held image (APPLY) or at the end of a good attempt (RELOAD_ATTEMPT_END), with no door bound
anywhere: the tables of the image are in force, the slots discarded with SPLIT_ABANDONED, command and transfer adjusted
with their captures, RELOAD_DONE made; the mode, the banks, the clock and the access at the port stand. A kept door
keeps its record under its new static part, but for these: it goes stale where its owner changes or its timer meets the
new limit; where it becomes INDICATED it rests, or stays ISOLATED, with no hold and no inhibit; its count is clamped;
its position is derived; the enforcement check queues it where its conditions hold; its alarms are evaluated. No door
holds a slot, and the doors that the check queues join their groups in door-number order (R69, R77), after those, if
any, that a change of position has queued at R170 step 6 (log 24). An added door has a new record, its freshness timer
running from the apply (R3, R19, R20, R48, R102). The door lines are judged at the end: a GENERAL_ALARM line that
flashes begins its on phase afresh where the flash pattern changes, and goes on where it does not (R109 to R112). A good
image's heartbeat and idle limits are not 0 (R165). The clauses on a kept door are of one whose freshness timer is short
of the new active limit, so that the enforcement check's queueing does not make it stale (log 13). The sub-orders inside
the take are log 22. -/
def Obligations.ApplyReplacesTheTables : Prop :=
  ∀ (s : State) (c : Instr) (img : Settings) (detail : Nat) (failed : Bool),
    (∀ d x, s.door? d = some x → x.drive.bound = false) →
    (c = .apply ∧ s.loader.reload = .applyPending img ∧ detail = 2 ∧
        failed = s.loader.lastReloadFailed) ∨
      (∃ image, c = .reloadAttemptEnd image ∧ s.part = .running ∧ s.loader.reload = .reloading ∧
        loadAttempt image (some s.mirror.imageSize) = .ok img ∧ detail = 1 ∧ failed = false) →
    0 < img.timing.heartbeat →
    ∃ t, exec c s = .next t ∧
      t = { s with
        loader := { reload := .idle, lastReloadFailed := failed }
        timing := some img.timing
        path := { s.path with windows := img.windows, slots := Vector.replicate 8 none }
        rules := img.rules
        masters := t.masters
        meters := t.meters
        yard := t.yard
        ring := ((s.ring.pushAll s.splitEntries).pushAll (s.handAfter img).made).push
          (s.entryNow 25 15 0 detail 0)
        command := { s.command with
          holder := (s.handAfter img).holder, transfer := (s.handAfter img).transfer }
        lines := { s.lines with
          generalAlarm := t.lines.generalAlarm, doorsNotClosed := t.lines.doorsNotClosed } } ∧
      LinesJudged t (match s.lines.generalAlarm with
        | .flashing p e =>
          if s.times.flashPeriod = img.timing.flashPeriod ∧ s.times.flashOn = img.timing.flashOn then .flashing p e
          else .flashing true (s.clock + img.timing.flashOn)
        | now => now) ∧
      (∀ m : Fin 8, t.meters.get m =
        { rate := (img.meters.get m).rate, burst := (img.meters.get m).burst
          tokens := (img.meters.get m).burst, exceeded := false, start := s.clock, refills := 0 }) ∧
      (∀ g, (t.yard.groups.get g).slotCount = some (img.slotCounts.get g)) ∧
      (s.yard.arbiterLawful →
        (∀ d x, s.door? d = some x → x.inp.within s.clock img.timing.activeLimit) → ∀ g,
        let moved (d : Nat) : Bool := (s.door? d).map (·.position) != (t.door? d).map (·.position)
        t.yard.groups.get g =
          { slotCount := some (img.slotCounts.get g)
            holders := []
            queue := (List.range t.doorCount).filter (fun d => t.waitsToClose g d && moved d) ++
              (List.range t.doorCount).filter fun d => t.waitsToClose g d && !moved d }) ∧
      (∀ m,
        (t.masters.get m).behaviour = (img.masters.get m).behaviour ∧
        ((img.masters.get m).role = .absent → t.role m = .absent) ∧
        ((img.masters.get m).role = .service → t.role m = .service) ∧
        ((img.masters.get m).role = .observer → t.role m = .observer) ∧
        (∀ f k, (img.masters.get m).role = .scanner f k →
          (s.role m = .scanner f k true → t.role m = .scanner f k true) ∧
          (s.role m ≠ .scanner f k true → t.role m = .scanner f k false)) ∧
        ((img.masters.get m).role = .station →
          (∀ start, s.role m = .station (some start) →
            t.role m = if start + img.timing.heartbeat ≤ s.clock then .station none
              else .station (some start)) ∧
          (s.role m = .station none → t.role m = .station none) ∧
          ((s.role m).isStation = false → t.role m = .station (some s.clock)))) ∧
      t.doorCount = img.doors.length ∧
      ∀ d st, img.doors[d]? = some st → DoorAfter d t fun z =>
        z.static = some st ∧
        (s.doorCount ≤ d → 0 < img.timing.idleLimit → z =
          { static := some st
            inp :=
              { lastSeq := none, reported := false
                raw := { cl := false, ol := false, lo := false, lc := false }
                debounced := { cl := false, ol := false, lo := false, lc := false }
                timers := { cl := none, ol := none, lo := none, lc := none }
                pw := false, ob := false, pressure := 0, freshness := some s.clock, stale := false, reports := 0 }
            position := .unknown, drive := .resting, hold := false, inhibit := .none
            prot :=
              { alert := none, mark := false, peak := none, tripTimer := none, settle := none
                tripCount := 0, baseline := st.initialBaseline, hot := false }
            alarms :=
              { doorOpen := .normal, tripped := .normal, latched := .normal, stalled := .normal
                stale := .normal, conflict := .normal, drivePower := .normal }
            powerSeen := false }) ∧
        ∀ x, s.door? d = some x → x.inp.within s.clock img.timing.activeLimit →
          let stale := GoesStale s img x
          let lo := x.inp.debounced.lo
          let closed := s.command.mode = some .doorsClosed
          let indicated := x.powered = true ∧ st.cls = .indicated
          let waits := stale ∧ lo = true ∧ st.cls ≠ .indicated ∧ x.drive = .resting ∧ closed ∧ x.hold = true
          (¬ stale → z.inp = x.inp) ∧
          (stale → z.inp = { x.inp with
            raw := { x.inp.raw with lo := false }
            debounced := { x.inp.debounced with lo := false }
            timers := { cl := none, ol := none, lo := none, lc := none }
            stale := true
            freshness := none }) ∧
          z.position = t.env.positionOf z ∧ z.powerSeen = x.powerSeen ∧
          z.alarms = x.alarms.zip (fun a holds => AlarmState.evaluate holds a)
            (conditions (s.command.mode == some .doorsClosed) z) ∧
          z.prot = { x.prot with
            settle := if x.position = .closed ∧ z.position ≠ .closed then none else x.prot.settle
            tripCount := if z.inhibit = .latched then img.timing.retryLimit + 1
              else min x.prot.tripCount img.timing.retryLimit } ∧
          (indicated → z.drive = (if x.drive = .isolated then .isolated else .resting) ∧
            z.hold = false ∧ z.inhibit = .none) ∧
          (¬ indicated →
            z.inhibit = x.inhibit ∧ (¬ stale → z.hold = x.hold) ∧ (stale → z.hold = (x.hold && !lo)) ∧
            (waits → z.drive = .recloseWait (s.clock + img.timing.reclose)) ∧
            (¬ waits → x.drive ≠ .resting → z.drive = x.drive) ∧
            (¬ waits → x.drive = .resting →
              (Enforced s z z.hold → z.drive = .queued .toClose .mode) ∧
              (¬ Enforced s z z.hold → z.drive = .resting)))

/-! ## Timers of stations, of the lines and of the meters -/

/-- O55. HEARTBEAT_EXPIRY lapses the station, and hands command on or ends its request (R90). TRANSFER_TIMER_EXPIRY
ends the pending transfer (R94). FLASH_PHASE_EXPIRY begins the other phase (R111). REFILL_INSTANT gives a token below
the burst and clears the exceeded flag (R141). Nothing else changes. A refill instant between tenths is rounded down
(log 14); a flash pattern with no off phase stays in its on phase (log 21). -/
def Obligations.StationLineAndMeterTimersExpire : Prop :=
  (∀ (s : State) (m : Master) (start : Nat),
    s.role m = .station (some start) → start + s.times.heartbeat ≤ s.clock →
    let lapsed := setAt s.masters m
      { role := .station none, behaviour := (s.masters.get m).behaviour }
    let first (detail : Nat) : Ring := s.ring.push (s.entryNow 16 15 0 detail m.val)
    (s.command.holder ≠ some m → (∀ p, s.command.transfer = some p → p.requester ≠ m) →
      exec (.heartbeatExpiry m) s = .next { s with masters := lapsed, ring := first 0 }) ∧
    (∀ p, s.command.holder ≠ some m → s.command.transfer = some p → p.requester = m →
      exec (.heartbeatExpiry m) s = .next { s with
        masters := lapsed
        command := { s.command with transfer := none }
        ring := (first 2).push (s.entryNow 18 15 0 4 m.val) }) ∧
    (s.command.holder = some m → s.command.transfer = none →
      exec (.heartbeatExpiry m) s = .next { s with
        masters := lapsed
        command := { s.command with holder := none }
        ring := (first 1).push (s.entryNow 17 15 0 5 (15 + 256 * m.val)) }) ∧
    ∀ p, s.command.holder = some m → s.command.transfer = some p → p.requester ≠ m →
      exec (.heartbeatExpiry m) s = .next { s with
        masters := lapsed
        command := { s.command with holder := some p.requester, transfer := none }
        ring := (first 1).push (s.entryNow 17 15 0 6 (p.requester.val + 256 * m.val)) }) ∧
  (∀ (s : State) (p : Transfer), s.command.transfer = some p → p.start + s.times.transfer ≤ s.clock →
    exec .transferTimerExpiry s = .next { s with
      command := { s.command with transfer := none }
      ring := s.ring.push (s.entryNow 18 15 0 3 p.requester.val) }) ∧
  (∀ (s : State) (p : Bool) (e : Nat), s.lines.generalAlarm = .flashing p e → e ≤ s.clock →
    let off := s.times.flashPeriod - s.times.flashOn
    let phase : GeneralAlarm :=
      if p = true ∧ 0 < off then .flashing false (s.clock + off)
      else .flashing true (s.clock + s.times.flashOn)
    exec .flashPhaseExpiry s = .next { s with lines := { s.lines with generalAlarm := phase } }) ∧
  ∀ (s : State) (k : Fin 8),
    let r := s.meters.get k
    0 < r.rate → r.start + 10 * (r.refills + 1) / r.rate ≤ s.clock →
    let after : Meter :=
      if r.tokens < r.burst then
        { r with tokens := r.tokens + 1, exceeded := false, refills := r.refills + 1 }
      else { r with refills := r.refills + 1 }
    exec (.refillInstant k) s = .next { s with meters := setAt s.meters k after }

/-! ## Laws -/

/-- O56. Every step keeps the bounds of the ring (R159), and no response stands beside an unanswered access (R116).
Outside RUNNING every door and group record holds its reset values, and no reload is under way (R3, R20, R48, R65, R102,
R168): every step keeps that too. How many records stand there is log 5. -/
def Obligations.RingAndPortLaws : Prop :=
  KeptByStep (fun s => s.ring.lawful) ∧ KeptByStep State.portLawful ∧ KeptByStep State.dormant

/-- O57. Every step keeps the bank contents in canonical form (log 7), and the laws of the mirror unit (R145, R146,
R152, R156). The canonical form of the contents is the model's: log 7. -/
def Obligations.MirrorLaws : Prop :=
  KeptByStep (fun s => s.mirror.canonical) ∧ KeptByStep (fun s => s.mirror.lawful s.part)

/-- O58. Every step keeps the laws of command and transfer (R85, R86), of the trip count (R56), and of positions (R4).
-/
def Obligations.CommandTripAndPositionLaws : Prop :=
  KeptByStep State.commandLawful ∧ KeptByStep State.tripLawful ∧ KeptByStep State.positionLawful

/-- O59. Every step keeps the laws of the power groups (R21, R66, R67): the slot holders are the doors in WARNING or
MOVING, at most as many as the slot count; the queue entries are the QUEUED doors, once each and in class order. And the
law of R23: a door whose inhibit is not NONE is never in WARNING, and never QUEUED or MOVING with a remote origin; nor is
it TRIPPED (R55). -/
def Obligations.PowerGroupLaws : Prop :=
  (KeptByStep fun s => s.yard.arbiterLawful) ∧ KeptByStep State.inhibitLawful

/-- O60. The state that power-on leaves meets every law. The values the spec does not give are log 5, log 6 and log 7.
-/
def Obligations.ResetIsLawful : Prop :=
  let s := State.reset
  s.ring.lawful ∧ s.portLawful ∧ s.mirror.canonical ∧ s.mirror.lawful s.part ∧ s.commandLawful ∧
    s.tripLawful ∧ s.positionLawful ∧ s.yard.arbiterLawful ∧ s.inhibitLawful ∧ s.dormant
end

