-- ==== Sys2Proof/Laws/Clock.lean ====
section
/-! SUPPORT. The tick (log 2): which expiries are due. -/

namespace Sys2Proof.Machine

/-- A command is due by a timer that runs and is reached. -/
theorem mem_dueAt {clock : Nat} {t : Option Nat} {c k : Instr} :
    k ∈ dueAt clock t c ↔ k = c ∧ ∃ n, t = some n ∧ n ≤ clock := by
  unfold dueAt
  split
  · split <;> simp_all
  · simp

/-- A command is due at the doors of a list where it is due at one of them. -/
theorem mem_dueAtDoors {clock : Nat} {t : Timing} {k : Instr} : ∀ {n : Nat} {l : List Door},
    k ∈ dueAtDoors clock t n l ↔ ∃ (d : Nat) (x : Door), l[d]? = some x ∧ k ∈ x.due clock t (n + d)
  | n, [] => by simp [dueAtDoors]
  | n, y :: l => by
    unfold dueAtDoors
    rw [List.mem_append, mem_dueAtDoors (l := l)]
    constructor
    · rintro (h | ⟨d, x, h, hk⟩)
      · exact ⟨0, y, rfl, h⟩
      · exact ⟨d + 1, x, h, by rw [show n + (d + 1) = n + 1 + d by omega]; exact hk⟩
    · rintro ⟨d, x, h, hk⟩
      match d with
      | 0 => cases h; exact Or.inl hk
      | e + 1 => exact Or.inr ⟨e, x, h, by rw [show n + 1 + e = n + (e + 1) by omega]; exact hk⟩

end Sys2Proof.Machine
end

