-- ==== Sys2Proof/Laws/State.lean ====
section
/-! SUPPORT. What each update of the state changes, field by field: no later proof unfolds a record update. -/

namespace Sys2Proof.Machine

/-! ## The static part of a door record -/

@[simp] theorem Door.st_mk (static : Option DoorStatic) (inp : InputPart) (position : Position) (drive : Drive)
    (hold : Bool) (inhibit : Inhibit) (prot : Protection) (alarms : Seven AlarmState) (powerSeen : Bool) :
    Door.st { static, inp, position, drive, hold, inhibit, prot, alarms, powerSeen } =
      static.getD DoorStatic.blank := rfl

@[simp] theorem Door.owner_mk (static : Option DoorStatic) (inp : InputPart) (position : Position)
    (drive : Drive) (hold : Bool) (inhibit : Inhibit) (prot : Protection) (alarms : Seven AlarmState)
    (powerSeen : Bool) :
    Door.owner { static, inp, position, drive, hold, inhibit, prot, alarms, powerSeen } =
      static.map (·.scanner) := rfl

@[simp] theorem Door.getD_static (x : Door) : x.static.getD DoorStatic.blank = x.st := rfl
@[simp] theorem Door.map_static (x : Door) : x.static.map (·.scanner) = x.owner := rfl

/-- A record that keeps its static part keeps what is read of it. -/
theorem Door.st_congr {a b : Door} (h : b.static = a.static) : b.st = a.st := by
  rw [← Door.getD_static, h]; rfl

variable (s : State)

/-! ## answer -/

@[simp] theorem State.answer_part (r : Response) : (s.answer r).part = s.part := rfl
@[simp] theorem State.answer_resetKind (r : Response) : (s.answer r).resetKind = s.resetKind := rfl
@[simp] theorem State.answer_resetCause (r : Response) : (s.answer r).resetCause = s.resetCause := rfl
@[simp] theorem State.answer_clock (r : Response) : (s.answer r).clock = s.clock := rfl
@[simp] theorem State.answer_timing (r : Response) : (s.answer r).timing = s.timing := rfl
@[simp] theorem State.answer_masters (r : Response) : (s.answer r).masters = s.masters := rfl
@[simp] theorem State.answer_rules (r : Response) : (s.answer r).rules = s.rules := rfl
@[simp] theorem State.answer_meters (r : Response) : (s.answer r).meters = s.meters := rfl
@[simp] theorem State.answer_yard (r : Response) : (s.answer r).yard = s.yard := rfl
@[simp] theorem State.answer_command (r : Response) : (s.answer r).command = s.command := rfl
@[simp] theorem State.answer_lines (r : Response) : (s.answer r).lines = s.lines := rfl
@[simp] theorem State.answer_mirror (r : Response) : (s.answer r).mirror = s.mirror := rfl
@[simp] theorem State.answer_ring (r : Response) : (s.answer r).ring = s.ring := rfl
@[simp] theorem State.answer_loader (r : Response) : (s.answer r).loader = s.loader := rfl
@[simp] theorem State.answer_pending (r : Response) : (s.answer r).pending = s.pending := rfl
@[simp] theorem State.answer_path_laneMode (r : Response) : (s.answer r).path.laneMode = s.path.laneMode := rfl
@[simp] theorem State.answer_path_windows (r : Response) : (s.answer r).path.windows = s.path.windows := rfl
@[simp] theorem State.answer_path_slots (r : Response) : (s.answer r).path.slots = s.path.slots := rfl
@[simp] theorem State.answer_role (r : Response) (k : Master) : (s.answer r).role k = s.role k := rfl
@[simp] theorem State.answer_times (r : Response) : (s.answer r).times = s.times := rfl
@[simp] theorem State.answer_env (r : Response) : (s.answer r).env = s.env := rfl
@[simp] theorem State.answer_door (r : Response) (k : Nat) : (s.answer r).door? k = s.door? k := rfl
@[simp] theorem State.answer_doorCount (r : Response) : (s.answer r).doorCount = s.doorCount := rfl
@[simp] theorem State.answer_timeStamp (r : Response) : (s.answer r).timeStamp = s.timeStamp := rfl
@[simp] theorem State.answer_lookup (r : Response) (k : Addr) : (s.answer r).lookup k = s.lookup k := rfl

/-! ## setUpstream -/

@[simp] theorem State.setUpstream_part (u : Upstream) : (s.setUpstream u).part = s.part := rfl
@[simp] theorem State.setUpstream_resetKind (u : Upstream) : (s.setUpstream u).resetKind = s.resetKind := rfl
@[simp] theorem State.setUpstream_resetCause (u : Upstream) : (s.setUpstream u).resetCause = s.resetCause := rfl
@[simp] theorem State.setUpstream_clock (u : Upstream) : (s.setUpstream u).clock = s.clock := rfl
@[simp] theorem State.setUpstream_timing (u : Upstream) : (s.setUpstream u).timing = s.timing := rfl
@[simp] theorem State.setUpstream_masters (u : Upstream) : (s.setUpstream u).masters = s.masters := rfl
@[simp] theorem State.setUpstream_rules (u : Upstream) : (s.setUpstream u).rules = s.rules := rfl
@[simp] theorem State.setUpstream_meters (u : Upstream) : (s.setUpstream u).meters = s.meters := rfl
@[simp] theorem State.setUpstream_yard (u : Upstream) : (s.setUpstream u).yard = s.yard := rfl
@[simp] theorem State.setUpstream_command (u : Upstream) : (s.setUpstream u).command = s.command := rfl
@[simp] theorem State.setUpstream_lines (u : Upstream) : (s.setUpstream u).lines = s.lines := rfl
@[simp] theorem State.setUpstream_mirror (u : Upstream) : (s.setUpstream u).mirror = s.mirror := rfl
@[simp] theorem State.setUpstream_ring (u : Upstream) : (s.setUpstream u).ring = s.ring := rfl
@[simp] theorem State.setUpstream_loader (u : Upstream) : (s.setUpstream u).loader = s.loader := rfl
@[simp] theorem State.setUpstream_pending (u : Upstream) : (s.setUpstream u).pending = s.pending := rfl
@[simp] theorem State.setUpstream_path_laneMode (u : Upstream) : (s.setUpstream u).path.laneMode = s.path.laneMode := rfl
@[simp] theorem State.setUpstream_path_windows (u : Upstream) : (s.setUpstream u).path.windows = s.path.windows := rfl
@[simp] theorem State.setUpstream_path_slots (u : Upstream) : (s.setUpstream u).path.slots = s.path.slots := rfl
@[simp] theorem State.setUpstream_role (u : Upstream) (k : Master) : (s.setUpstream u).role k = s.role k := rfl
@[simp] theorem State.setUpstream_times (u : Upstream) : (s.setUpstream u).times = s.times := rfl
@[simp] theorem State.setUpstream_env (u : Upstream) : (s.setUpstream u).env = s.env := rfl
@[simp] theorem State.setUpstream_door (u : Upstream) (k : Nat) : (s.setUpstream u).door? k = s.door? k := rfl
@[simp] theorem State.setUpstream_doorCount (u : Upstream) : (s.setUpstream u).doorCount = s.doorCount := rfl
@[simp] theorem State.setUpstream_timeStamp (u : Upstream) : (s.setUpstream u).timeStamp = s.timeStamp := rfl
@[simp] theorem State.setUpstream_lookup (u : Upstream) (k : Addr) : (s.setUpstream u).lookup k = s.lookup k := rfl

/-! ## setSlot -/

@[simp] theorem State.setSlot_part (m : Master) (x : Option Slot) : (s.setSlot m x).part = s.part := rfl
@[simp] theorem State.setSlot_resetKind (m : Master) (x : Option Slot) : (s.setSlot m x).resetKind = s.resetKind := rfl
@[simp] theorem State.setSlot_resetCause (m : Master) (x : Option Slot) : (s.setSlot m x).resetCause = s.resetCause := rfl
@[simp] theorem State.setSlot_clock (m : Master) (x : Option Slot) : (s.setSlot m x).clock = s.clock := rfl
@[simp] theorem State.setSlot_timing (m : Master) (x : Option Slot) : (s.setSlot m x).timing = s.timing := rfl
@[simp] theorem State.setSlot_masters (m : Master) (x : Option Slot) : (s.setSlot m x).masters = s.masters := rfl
@[simp] theorem State.setSlot_rules (m : Master) (x : Option Slot) : (s.setSlot m x).rules = s.rules := rfl
@[simp] theorem State.setSlot_meters (m : Master) (x : Option Slot) : (s.setSlot m x).meters = s.meters := rfl
@[simp] theorem State.setSlot_yard (m : Master) (x : Option Slot) : (s.setSlot m x).yard = s.yard := rfl
@[simp] theorem State.setSlot_command (m : Master) (x : Option Slot) : (s.setSlot m x).command = s.command := rfl
@[simp] theorem State.setSlot_lines (m : Master) (x : Option Slot) : (s.setSlot m x).lines = s.lines := rfl
@[simp] theorem State.setSlot_mirror (m : Master) (x : Option Slot) : (s.setSlot m x).mirror = s.mirror := rfl
@[simp] theorem State.setSlot_ring (m : Master) (x : Option Slot) : (s.setSlot m x).ring = s.ring := rfl
@[simp] theorem State.setSlot_loader (m : Master) (x : Option Slot) : (s.setSlot m x).loader = s.loader := rfl
@[simp] theorem State.setSlot_pending (m : Master) (x : Option Slot) : (s.setSlot m x).pending = s.pending := rfl
@[simp] theorem State.setSlot_path_laneMode (m : Master) (x : Option Slot) : (s.setSlot m x).path.laneMode = s.path.laneMode := rfl
@[simp] theorem State.setSlot_path_windows (m : Master) (x : Option Slot) : (s.setSlot m x).path.windows = s.path.windows := rfl
@[simp] theorem State.setSlot_path_upstream (m : Master) (x : Option Slot) : (s.setSlot m x).path.upstream = s.path.upstream := rfl
@[simp] theorem State.setSlot_path_response (m : Master) (x : Option Slot) : (s.setSlot m x).path.response = s.path.response := rfl
@[simp] theorem State.setSlot_role (m : Master) (x : Option Slot) (k : Master) : (s.setSlot m x).role k = s.role k := rfl
@[simp] theorem State.setSlot_times (m : Master) (x : Option Slot) : (s.setSlot m x).times = s.times := rfl
@[simp] theorem State.setSlot_env (m : Master) (x : Option Slot) : (s.setSlot m x).env = s.env := rfl
@[simp] theorem State.setSlot_door (m : Master) (x : Option Slot) (k : Nat) : (s.setSlot m x).door? k = s.door? k := rfl
@[simp] theorem State.setSlot_doorCount (m : Master) (x : Option Slot) : (s.setSlot m x).doorCount = s.doorCount := rfl
@[simp] theorem State.setSlot_timeStamp (m : Master) (x : Option Slot) : (s.setSlot m x).timeStamp = s.timeStamp := rfl
@[simp] theorem State.setSlot_lookup (m : Master) (x : Option Slot) (k : Addr) : (s.setSlot m x).lookup k = s.lookup k := rfl

/-! ## capture -/

@[simp] theorem State.capture_part (c : Capture) : (s.capture c).part = s.part := rfl
@[simp] theorem State.capture_resetKind (c : Capture) : (s.capture c).resetKind = s.resetKind := rfl
@[simp] theorem State.capture_resetCause (c : Capture) : (s.capture c).resetCause = s.resetCause := rfl
@[simp] theorem State.capture_clock (c : Capture) : (s.capture c).clock = s.clock := rfl
@[simp] theorem State.capture_timing (c : Capture) : (s.capture c).timing = s.timing := rfl
@[simp] theorem State.capture_path (c : Capture) : (s.capture c).path = s.path := rfl
@[simp] theorem State.capture_masters (c : Capture) : (s.capture c).masters = s.masters := rfl
@[simp] theorem State.capture_rules (c : Capture) : (s.capture c).rules = s.rules := rfl
@[simp] theorem State.capture_meters (c : Capture) : (s.capture c).meters = s.meters := rfl
@[simp] theorem State.capture_yard (c : Capture) : (s.capture c).yard = s.yard := rfl
@[simp] theorem State.capture_command (c : Capture) : (s.capture c).command = s.command := rfl
@[simp] theorem State.capture_lines (c : Capture) : (s.capture c).lines = s.lines := rfl
@[simp] theorem State.capture_mirror (c : Capture) : (s.capture c).mirror = s.mirror := rfl
@[simp] theorem State.capture_loader (c : Capture) : (s.capture c).loader = s.loader := rfl
@[simp] theorem State.capture_pending (c : Capture) : (s.capture c).pending = s.pending := rfl
@[simp] theorem State.capture_role (c : Capture) (k : Master) : (s.capture c).role k = s.role k := rfl
@[simp] theorem State.capture_times (c : Capture) : (s.capture c).times = s.times := rfl
@[simp] theorem State.capture_env (c : Capture) : (s.capture c).env = s.env := rfl
@[simp] theorem State.capture_door (c : Capture) (k : Nat) : (s.capture c).door? k = s.door? k := rfl
@[simp] theorem State.capture_doorCount (c : Capture) : (s.capture c).doorCount = s.doorCount := rfl
@[simp] theorem State.capture_timeStamp (c : Capture) : (s.capture c).timeStamp = s.timeStamp := rfl
@[simp] theorem State.capture_lookup (c : Capture) (k : Addr) : (s.capture c).lookup k = s.lookup k := rfl

/-! ## setRole -/

@[simp] theorem State.setRole_part (m : Master) (r : Role) : (s.setRole m r).part = s.part := rfl
@[simp] theorem State.setRole_resetKind (m : Master) (r : Role) : (s.setRole m r).resetKind = s.resetKind := rfl
@[simp] theorem State.setRole_resetCause (m : Master) (r : Role) : (s.setRole m r).resetCause = s.resetCause := rfl
@[simp] theorem State.setRole_clock (m : Master) (r : Role) : (s.setRole m r).clock = s.clock := rfl
@[simp] theorem State.setRole_timing (m : Master) (r : Role) : (s.setRole m r).timing = s.timing := rfl
@[simp] theorem State.setRole_path (m : Master) (r : Role) : (s.setRole m r).path = s.path := rfl
@[simp] theorem State.setRole_rules (m : Master) (r : Role) : (s.setRole m r).rules = s.rules := rfl
@[simp] theorem State.setRole_meters (m : Master) (r : Role) : (s.setRole m r).meters = s.meters := rfl
@[simp] theorem State.setRole_yard (m : Master) (r : Role) : (s.setRole m r).yard = s.yard := rfl
@[simp] theorem State.setRole_command (m : Master) (r : Role) : (s.setRole m r).command = s.command := rfl
@[simp] theorem State.setRole_lines (m : Master) (r : Role) : (s.setRole m r).lines = s.lines := rfl
@[simp] theorem State.setRole_mirror (m : Master) (r : Role) : (s.setRole m r).mirror = s.mirror := rfl
@[simp] theorem State.setRole_ring (m : Master) (r : Role) : (s.setRole m r).ring = s.ring := rfl
@[simp] theorem State.setRole_loader (m : Master) (r : Role) : (s.setRole m r).loader = s.loader := rfl
@[simp] theorem State.setRole_pending (m : Master) (r : Role) : (s.setRole m r).pending = s.pending := rfl
@[simp] theorem State.setRole_times (m : Master) (r : Role) : (s.setRole m r).times = s.times := rfl
@[simp] theorem State.setRole_door (m : Master) (r : Role) (k : Nat) : (s.setRole m r).door? k = s.door? k := rfl
@[simp] theorem State.setRole_doorCount (m : Master) (r : Role) : (s.setRole m r).doorCount = s.doorCount := rfl
@[simp] theorem State.setRole_timeStamp (m : Master) (r : Role) : (s.setRole m r).timeStamp = s.timeStamp := rfl
@[simp] theorem State.setRole_lookup (m : Master) (r : Role) (k : Addr) : (s.setRole m r).lookup k = s.lookup k := rfl

/-! ## setYard -/

@[simp] theorem State.setYard_part (y : Yard) : (s.setYard y).part = s.part := rfl
@[simp] theorem State.setYard_resetKind (y : Yard) : (s.setYard y).resetKind = s.resetKind := rfl
@[simp] theorem State.setYard_resetCause (y : Yard) : (s.setYard y).resetCause = s.resetCause := rfl
@[simp] theorem State.setYard_clock (y : Yard) : (s.setYard y).clock = s.clock := rfl
@[simp] theorem State.setYard_timing (y : Yard) : (s.setYard y).timing = s.timing := rfl
@[simp] theorem State.setYard_path (y : Yard) : (s.setYard y).path = s.path := rfl
@[simp] theorem State.setYard_masters (y : Yard) : (s.setYard y).masters = s.masters := rfl
@[simp] theorem State.setYard_rules (y : Yard) : (s.setYard y).rules = s.rules := rfl
@[simp] theorem State.setYard_meters (y : Yard) : (s.setYard y).meters = s.meters := rfl
@[simp] theorem State.setYard_command (y : Yard) : (s.setYard y).command = s.command := rfl
@[simp] theorem State.setYard_lines (y : Yard) : (s.setYard y).lines = s.lines := rfl
@[simp] theorem State.setYard_mirror (y : Yard) : (s.setYard y).mirror = s.mirror := rfl
@[simp] theorem State.setYard_ring (y : Yard) : (s.setYard y).ring = s.ring := rfl
@[simp] theorem State.setYard_loader (y : Yard) : (s.setYard y).loader = s.loader := rfl
@[simp] theorem State.setYard_pending (y : Yard) : (s.setYard y).pending = s.pending := rfl
@[simp] theorem State.setYard_role (y : Yard) (k : Master) : (s.setYard y).role k = s.role k := rfl
@[simp] theorem State.setYard_times (y : Yard) : (s.setYard y).times = s.times := rfl
@[simp] theorem State.setYard_env (y : Yard) : (s.setYard y).env = s.env := rfl
@[simp] theorem State.setYard_timeStamp (y : Yard) : (s.setYard y).timeStamp = s.timeStamp := rfl
@[simp] theorem State.setYard_lookup (y : Yard) (k : Addr) : (s.setYard y).lookup k = s.lookup k := rfl

/-! ## setMeter -/

@[simp] theorem State.setMeter_part (m : Fin 8) (r : Meter) : (s.setMeter m r).part = s.part := rfl
@[simp] theorem State.setMeter_resetKind (m : Fin 8) (r : Meter) : (s.setMeter m r).resetKind = s.resetKind := rfl
@[simp] theorem State.setMeter_resetCause (m : Fin 8) (r : Meter) : (s.setMeter m r).resetCause = s.resetCause := rfl
@[simp] theorem State.setMeter_clock (m : Fin 8) (r : Meter) : (s.setMeter m r).clock = s.clock := rfl
@[simp] theorem State.setMeter_timing (m : Fin 8) (r : Meter) : (s.setMeter m r).timing = s.timing := rfl
@[simp] theorem State.setMeter_path (m : Fin 8) (r : Meter) : (s.setMeter m r).path = s.path := rfl
@[simp] theorem State.setMeter_masters (m : Fin 8) (r : Meter) : (s.setMeter m r).masters = s.masters := rfl
@[simp] theorem State.setMeter_rules (m : Fin 8) (r : Meter) : (s.setMeter m r).rules = s.rules := rfl
@[simp] theorem State.setMeter_yard (m : Fin 8) (r : Meter) : (s.setMeter m r).yard = s.yard := rfl
@[simp] theorem State.setMeter_command (m : Fin 8) (r : Meter) : (s.setMeter m r).command = s.command := rfl
@[simp] theorem State.setMeter_lines (m : Fin 8) (r : Meter) : (s.setMeter m r).lines = s.lines := rfl
@[simp] theorem State.setMeter_mirror (m : Fin 8) (r : Meter) : (s.setMeter m r).mirror = s.mirror := rfl
@[simp] theorem State.setMeter_ring (m : Fin 8) (r : Meter) : (s.setMeter m r).ring = s.ring := rfl
@[simp] theorem State.setMeter_loader (m : Fin 8) (r : Meter) : (s.setMeter m r).loader = s.loader := rfl
@[simp] theorem State.setMeter_pending (m : Fin 8) (r : Meter) : (s.setMeter m r).pending = s.pending := rfl
@[simp] theorem State.setMeter_role (m : Fin 8) (r : Meter) (k : Master) : (s.setMeter m r).role k = s.role k := rfl
@[simp] theorem State.setMeter_times (m : Fin 8) (r : Meter) : (s.setMeter m r).times = s.times := rfl
@[simp] theorem State.setMeter_env (m : Fin 8) (r : Meter) : (s.setMeter m r).env = s.env := rfl
@[simp] theorem State.setMeter_door (m : Fin 8) (r : Meter) (k : Nat) : (s.setMeter m r).door? k = s.door? k := rfl
@[simp] theorem State.setMeter_doorCount (m : Fin 8) (r : Meter) : (s.setMeter m r).doorCount = s.doorCount := rfl
@[simp] theorem State.setMeter_timeStamp (m : Fin 8) (r : Meter) : (s.setMeter m r).timeStamp = s.timeStamp := rfl
@[simp] theorem State.setMeter_lookup (m : Fin 8) (r : Meter) (k : Addr) : (s.setMeter m r).lookup k = s.lookup k := rfl

/-! ## judgeFault -/

@[simp] theorem State.judgeFault_part  : (s.judgeFault).part = s.part := rfl
@[simp] theorem State.judgeFault_resetKind  : (s.judgeFault).resetKind = s.resetKind := rfl
@[simp] theorem State.judgeFault_resetCause  : (s.judgeFault).resetCause = s.resetCause := rfl
@[simp] theorem State.judgeFault_clock  : (s.judgeFault).clock = s.clock := rfl
@[simp] theorem State.judgeFault_timing  : (s.judgeFault).timing = s.timing := rfl
@[simp] theorem State.judgeFault_path  : (s.judgeFault).path = s.path := rfl
@[simp] theorem State.judgeFault_masters  : (s.judgeFault).masters = s.masters := rfl
@[simp] theorem State.judgeFault_rules  : (s.judgeFault).rules = s.rules := rfl
@[simp] theorem State.judgeFault_meters  : (s.judgeFault).meters = s.meters := rfl
@[simp] theorem State.judgeFault_yard  : (s.judgeFault).yard = s.yard := rfl
@[simp] theorem State.judgeFault_command  : (s.judgeFault).command = s.command := rfl
@[simp] theorem State.judgeFault_mirror  : (s.judgeFault).mirror = s.mirror := rfl
@[simp] theorem State.judgeFault_ring  : (s.judgeFault).ring = s.ring := rfl
@[simp] theorem State.judgeFault_loader  : (s.judgeFault).loader = s.loader := rfl
@[simp] theorem State.judgeFault_pending  : (s.judgeFault).pending = s.pending := rfl
@[simp] theorem State.judgeFault_role  (k : Master) : (s.judgeFault).role k = s.role k := rfl
@[simp] theorem State.judgeFault_times  : (s.judgeFault).times = s.times := rfl
@[simp] theorem State.judgeFault_env  : (s.judgeFault).env = s.env := rfl
@[simp] theorem State.judgeFault_door  (k : Nat) : (s.judgeFault).door? k = s.door? k := rfl
@[simp] theorem State.judgeFault_doorCount  : (s.judgeFault).doorCount = s.doorCount := rfl
@[simp] theorem State.judgeFault_timeStamp  : (s.judgeFault).timeStamp = s.timeStamp := rfl
@[simp] theorem State.judgeFault_lookup  (k : Addr) : (s.judgeFault).lookup k = s.lookup k := rfl

/-! ## judgeDoorLines -/

@[simp] theorem State.judgeDoorLines_part  : (s.judgeDoorLines).part = s.part := rfl
@[simp] theorem State.judgeDoorLines_resetKind  : (s.judgeDoorLines).resetKind = s.resetKind := rfl
@[simp] theorem State.judgeDoorLines_resetCause  : (s.judgeDoorLines).resetCause = s.resetCause := rfl
@[simp] theorem State.judgeDoorLines_clock  : (s.judgeDoorLines).clock = s.clock := rfl
@[simp] theorem State.judgeDoorLines_timing  : (s.judgeDoorLines).timing = s.timing := rfl
@[simp] theorem State.judgeDoorLines_path  : (s.judgeDoorLines).path = s.path := rfl
@[simp] theorem State.judgeDoorLines_masters  : (s.judgeDoorLines).masters = s.masters := rfl
@[simp] theorem State.judgeDoorLines_rules  : (s.judgeDoorLines).rules = s.rules := rfl
@[simp] theorem State.judgeDoorLines_meters  : (s.judgeDoorLines).meters = s.meters := rfl
@[simp] theorem State.judgeDoorLines_yard  : (s.judgeDoorLines).yard = s.yard := rfl
@[simp] theorem State.judgeDoorLines_command  : (s.judgeDoorLines).command = s.command := rfl
@[simp] theorem State.judgeDoorLines_mirror  : (s.judgeDoorLines).mirror = s.mirror := rfl
@[simp] theorem State.judgeDoorLines_ring  : (s.judgeDoorLines).ring = s.ring := rfl
@[simp] theorem State.judgeDoorLines_loader  : (s.judgeDoorLines).loader = s.loader := rfl
@[simp] theorem State.judgeDoorLines_pending  : (s.judgeDoorLines).pending = s.pending := rfl
@[simp] theorem State.judgeDoorLines_role  (k : Master) : (s.judgeDoorLines).role k = s.role k := rfl
@[simp] theorem State.judgeDoorLines_times  : (s.judgeDoorLines).times = s.times := rfl
@[simp] theorem State.judgeDoorLines_env  : (s.judgeDoorLines).env = s.env := rfl
@[simp] theorem State.judgeDoorLines_door  (k : Nat) : (s.judgeDoorLines).door? k = s.door? k := rfl
@[simp] theorem State.judgeDoorLines_doorCount  : (s.judgeDoorLines).doorCount = s.doorCount := rfl
@[simp] theorem State.judgeDoorLines_timeStamp  : (s.judgeDoorLines).timeStamp = s.timeStamp := rfl
@[simp] theorem State.judgeDoorLines_lookup  (k : Addr) : (s.judgeDoorLines).lookup k = s.lookup k := rfl

/-! ## setReload -/

@[simp] theorem State.setReload_part (r : ReloadState) : (s.setReload r).part = s.part := rfl
@[simp] theorem State.setReload_resetKind (r : ReloadState) : (s.setReload r).resetKind = s.resetKind := rfl
@[simp] theorem State.setReload_resetCause (r : ReloadState) : (s.setReload r).resetCause = s.resetCause := rfl
@[simp] theorem State.setReload_clock (r : ReloadState) : (s.setReload r).clock = s.clock := rfl
@[simp] theorem State.setReload_timing (r : ReloadState) : (s.setReload r).timing = s.timing := rfl
@[simp] theorem State.setReload_path (r : ReloadState) : (s.setReload r).path = s.path := rfl
@[simp] theorem State.setReload_masters (r : ReloadState) : (s.setReload r).masters = s.masters := rfl
@[simp] theorem State.setReload_rules (r : ReloadState) : (s.setReload r).rules = s.rules := rfl
@[simp] theorem State.setReload_meters (r : ReloadState) : (s.setReload r).meters = s.meters := rfl
@[simp] theorem State.setReload_yard (r : ReloadState) : (s.setReload r).yard = s.yard := rfl
@[simp] theorem State.setReload_command (r : ReloadState) : (s.setReload r).command = s.command := rfl
@[simp] theorem State.setReload_lines (r : ReloadState) : (s.setReload r).lines = s.lines := rfl
@[simp] theorem State.setReload_mirror (r : ReloadState) : (s.setReload r).mirror = s.mirror := rfl
@[simp] theorem State.setReload_ring (r : ReloadState) : (s.setReload r).ring = s.ring := rfl
@[simp] theorem State.setReload_pending (r : ReloadState) : (s.setReload r).pending = s.pending := rfl
@[simp] theorem State.setReload_role (r : ReloadState) (k : Master) : (s.setReload r).role k = s.role k := rfl
@[simp] theorem State.setReload_times (r : ReloadState) : (s.setReload r).times = s.times := rfl
@[simp] theorem State.setReload_env (r : ReloadState) : (s.setReload r).env = s.env := rfl
@[simp] theorem State.setReload_door (r : ReloadState) (k : Nat) : (s.setReload r).door? k = s.door? k := rfl
@[simp] theorem State.setReload_doorCount (r : ReloadState) : (s.setReload r).doorCount = s.doorCount := rfl
@[simp] theorem State.setReload_timeStamp (r : ReloadState) : (s.setReload r).timeStamp = s.timeStamp := rfl
@[simp] theorem State.setReload_lookup (r : ReloadState) (k : Addr) : (s.setReload r).lookup k = s.lookup k := rfl

/-! ## markReload -/

@[simp] theorem State.markReload_part (b : Bool) : (s.markReload b).part = s.part := rfl
@[simp] theorem State.markReload_resetKind (b : Bool) : (s.markReload b).resetKind = s.resetKind := rfl
@[simp] theorem State.markReload_resetCause (b : Bool) : (s.markReload b).resetCause = s.resetCause := rfl
@[simp] theorem State.markReload_clock (b : Bool) : (s.markReload b).clock = s.clock := rfl
@[simp] theorem State.markReload_timing (b : Bool) : (s.markReload b).timing = s.timing := rfl
@[simp] theorem State.markReload_path (b : Bool) : (s.markReload b).path = s.path := rfl
@[simp] theorem State.markReload_masters (b : Bool) : (s.markReload b).masters = s.masters := rfl
@[simp] theorem State.markReload_rules (b : Bool) : (s.markReload b).rules = s.rules := rfl
@[simp] theorem State.markReload_meters (b : Bool) : (s.markReload b).meters = s.meters := rfl
@[simp] theorem State.markReload_yard (b : Bool) : (s.markReload b).yard = s.yard := rfl
@[simp] theorem State.markReload_command (b : Bool) : (s.markReload b).command = s.command := rfl
@[simp] theorem State.markReload_lines (b : Bool) : (s.markReload b).lines = s.lines := rfl
@[simp] theorem State.markReload_mirror (b : Bool) : (s.markReload b).mirror = s.mirror := rfl
@[simp] theorem State.markReload_ring (b : Bool) : (s.markReload b).ring = s.ring := rfl
@[simp] theorem State.markReload_pending (b : Bool) : (s.markReload b).pending = s.pending := rfl
@[simp] theorem State.markReload_role (b : Bool) (k : Master) : (s.markReload b).role k = s.role k := rfl
@[simp] theorem State.markReload_times (b : Bool) : (s.markReload b).times = s.times := rfl
@[simp] theorem State.markReload_env (b : Bool) : (s.markReload b).env = s.env := rfl
@[simp] theorem State.markReload_door (b : Bool) (k : Nat) : (s.markReload b).door? k = s.door? k := rfl
@[simp] theorem State.markReload_doorCount (b : Bool) : (s.markReload b).doorCount = s.doorCount := rfl
@[simp] theorem State.markReload_timeStamp (b : Bool) : (s.markReload b).timeStamp = s.timeStamp := rfl
@[simp] theorem State.markReload_lookup (b : Bool) (k : Addr) : (s.markReload b).lookup k = s.lookup k := rfl

/-! ## endTake -/

@[simp] theorem State.endTake_part (b : Yard) : (State.endTake b s).part = s.part := rfl
@[simp] theorem State.endTake_resetKind (b : Yard) : (State.endTake b s).resetKind = s.resetKind := rfl
@[simp] theorem State.endTake_resetCause (b : Yard) : (State.endTake b s).resetCause = s.resetCause := rfl
@[simp] theorem State.endTake_clock (b : Yard) : (State.endTake b s).clock = s.clock := rfl
@[simp] theorem State.endTake_timing (b : Yard) : (State.endTake b s).timing = s.timing := rfl
@[simp] theorem State.endTake_path (b : Yard) : (State.endTake b s).path = s.path := rfl
@[simp] theorem State.endTake_masters (b : Yard) : (State.endTake b s).masters = s.masters := rfl
@[simp] theorem State.endTake_rules (b : Yard) : (State.endTake b s).rules = s.rules := rfl
@[simp] theorem State.endTake_meters (b : Yard) : (State.endTake b s).meters = s.meters := rfl
@[simp] theorem State.endTake_command (b : Yard) : (State.endTake b s).command = s.command := rfl
@[simp] theorem State.endTake_mirror (b : Yard) : (State.endTake b s).mirror = s.mirror := rfl
@[simp] theorem State.endTake_ring (b : Yard) : (State.endTake b s).ring = s.ring := rfl
@[simp] theorem State.endTake_loader (b : Yard) : (State.endTake b s).loader = s.loader := rfl
@[simp] theorem State.endTake_pending (b : Yard) : (State.endTake b s).pending = s.pending := rfl
@[simp] theorem State.endTake_role (b : Yard) (k : Master) : (State.endTake b s).role k = s.role k := rfl
@[simp] theorem State.endTake_times (b : Yard) : (State.endTake b s).times = s.times := rfl
@[simp] theorem State.endTake_env (b : Yard) : (State.endTake b s).env = s.env := rfl
@[simp] theorem State.endTake_timeStamp (b : Yard) : (State.endTake b s).timeStamp = s.timeStamp := rfl
@[simp] theorem State.endTake_lookup (b : Yard) (k : Addr) : (State.endTake b s).lookup k = s.lookup k := rfl

/-! ## What an update sets -/

@[simp] theorem State.answer_path_upstream (r : Response) : (s.answer r).path.upstream = .idle := rfl
@[simp] theorem State.answer_path_response (r : Response) : (s.answer r).path.response = some r := rfl
@[simp] theorem State.setUpstream_path_upstream (u : Upstream) :
    (s.setUpstream u).path.upstream = u := rfl
@[simp] theorem State.setUpstream_path_response (u : Upstream) :
    (s.setUpstream u).path.response = none := rfl
@[simp] theorem State.setSlot_path_slots (m : Master) (x : Option Slot) :
    (s.setSlot m x).path.slots = setAt s.path.slots m x := rfl
@[simp] theorem State.capture_ring (c : Capture) :
    (s.capture c).ring = s.ring.push (s.entryOf c) := rfl
@[simp] theorem State.setYard_yard (y : Yard) : (s.setYard y).yard = y := rfl
@[simp] theorem State.setMeter_meters (m : Fin 8) (r : Meter) :
    (s.setMeter m r).meters = setAt s.meters m r := rfl
@[simp] theorem State.setReload_reload (r : ReloadState) : (s.setReload r).loader.reload = r := rfl
@[simp] theorem State.markReload_failed (b : Bool) :
    (s.markReload b).loader.lastReloadFailed = b := rfl
@[simp] theorem State.judgeFault_partFault :
    s.judgeFault.lines.partFault = judgePartFault s.part s.mirror := rfl
@[simp] theorem State.judgeFault_ready : s.judgeFault.lines.ready = s.lines.ready := rfl
@[simp] theorem State.judgeDoorLines_ready : s.judgeDoorLines.lines.ready = s.lines.ready := rfl
@[simp] theorem State.judgeDoorLines_partFault :
    s.judgeDoorLines.lines.partFault = s.lines.partFault := rfl
@[simp] theorem State.endTake_yard_groups (b : Yard) :
    (State.endTake b s).yard.groups = s.yard.groups := rfl
@[simp] theorem State.endTake_yard_doors (b : Yard) :
    (State.endTake b s).yard.doors = evaluateChanged s.env.doorsClosed b.doors s.yard.doors := rfl

/-! ## Several captures -/

/-- Captures change the ring alone. -/
theorem State.captures_eq (cs : List Capture) :
    s.captures cs = { s with ring := (s.captures cs).ring } := by
  induction cs generalizing s with
  | nil => rfl
  | cons c cs ih => exact (ih (s.capture c)).trans rfl

@[simp] theorem State.captures_nil : s.captures [] = s := rfl
@[simp] theorem State.captures_cons (c : Capture) (cs : List Capture) :
    s.captures (c :: cs) = (s.capture c).captures cs := rfl

@[simp] theorem State.captures_part (cs : List Capture) : (s.captures cs).part = s.part := by
  rw [State.captures_eq]
@[simp] theorem State.captures_resetKind (cs : List Capture) : (s.captures cs).resetKind = s.resetKind := by
  rw [State.captures_eq]
@[simp] theorem State.captures_resetCause (cs : List Capture) : (s.captures cs).resetCause = s.resetCause := by
  rw [State.captures_eq]
@[simp] theorem State.captures_clock (cs : List Capture) : (s.captures cs).clock = s.clock := by
  rw [State.captures_eq]
@[simp] theorem State.captures_timing (cs : List Capture) : (s.captures cs).timing = s.timing := by
  rw [State.captures_eq]
@[simp] theorem State.captures_path (cs : List Capture) : (s.captures cs).path = s.path := by
  rw [State.captures_eq]
@[simp] theorem State.captures_masters (cs : List Capture) : (s.captures cs).masters = s.masters := by
  rw [State.captures_eq]
@[simp] theorem State.captures_rules (cs : List Capture) : (s.captures cs).rules = s.rules := by
  rw [State.captures_eq]
@[simp] theorem State.captures_meters (cs : List Capture) : (s.captures cs).meters = s.meters := by
  rw [State.captures_eq]
@[simp] theorem State.captures_yard (cs : List Capture) : (s.captures cs).yard = s.yard := by
  rw [State.captures_eq]
@[simp] theorem State.captures_command (cs : List Capture) : (s.captures cs).command = s.command := by
  rw [State.captures_eq]
@[simp] theorem State.captures_lines (cs : List Capture) : (s.captures cs).lines = s.lines := by
  rw [State.captures_eq]
@[simp] theorem State.captures_mirror (cs : List Capture) : (s.captures cs).mirror = s.mirror := by
  rw [State.captures_eq]
@[simp] theorem State.captures_loader (cs : List Capture) : (s.captures cs).loader = s.loader := by
  rw [State.captures_eq]
@[simp] theorem State.captures_pending (cs : List Capture) : (s.captures cs).pending = s.pending := by
  rw [State.captures_eq]
@[simp] theorem State.captures_times (cs : List Capture) : (s.captures cs).times = s.times := by
  rw [State.captures_eq]; rfl
@[simp] theorem State.captures_env (cs : List Capture) : (s.captures cs).env = s.env := by
  rw [State.captures_eq]; rfl
@[simp] theorem State.captures_timeStamp (cs : List Capture) : (s.captures cs).timeStamp = s.timeStamp := by
  rw [State.captures_eq]; rfl
@[simp] theorem State.captures_doorCount (cs : List Capture) : (s.captures cs).doorCount = s.doorCount := by
  rw [State.captures_eq]; rfl
@[simp] theorem State.captures_role (cs : List Capture) (k : Master) :
    (s.captures cs).role k = s.role k := by
  rw [State.captures_eq]; rfl
@[simp] theorem State.captures_door (cs : List Capture) (k : Nat) :
    (s.captures cs).door? k = s.door? k := by
  rw [State.captures_eq]; rfl

/-! ## Tables of fixed size -/

/-- The record at a number, as an indexed element. -/
theorem vector_get_eq {α : Type} {n : Nat} (v : Vector α n) (i : Fin n) : v.get i = v[i.val] := rfl

theorem get_setAt {α : Type} {n : Nat} (v : Vector α n) (i j : Fin n) (x : α) :
    (setAt v i x).get j = if j = i then x else v.get j := by
  simp only [vector_get_eq, setAt, Vector.getElem_set, Fin.ext_iff, eq_comm]

@[simp] theorem get_setAt_same {α : Type} {n : Nat} (v : Vector α n) (i : Fin n) (x : α) :
    (setAt v i x).get i = x := by
  rw [get_setAt, if_pos rfl]

theorem get_setAt_ne {α : Type} {n : Nat} (v : Vector α n) {i j : Fin n} (x : α) (h : j ≠ i) :
    (setAt v i x).get j = v.get j := by
  rw [get_setAt, if_neg h]

theorem vector_ext_get {α : Type} {n : Nat} {v w : Vector α n} (h : ∀ i, v.get i = w.get i) :
    v = w := by
  apply Vector.ext
  intro i hi
  exact h ⟨i, hi⟩

@[simp] theorem setAt_get {α : Type} {n : Nat} (v : Vector α n) (i : Fin n) :
    setAt v i (v.get i) = v := by
  apply vector_ext_get; intro j; rw [get_setAt]; split <;> simp_all

@[simp] theorem get_eight {α : Type} (f : Fin 8 → α) (i : Fin 8) : (eight f).get i = f i := by
  fin_cases i <;> rfl

@[simp] theorem get_four {α : Type} (f : Fin 4 → α) (i : Fin 4) : (four f).get i = f i := by
  fin_cases i <;> rfl

@[simp] theorem get_replicate {α : Type} {n : Nat} (x : α) (i : Fin n) :
    (Vector.replicate n x).get i = x := by
  simp [vector_get_eq]

@[simp] theorem State.setRole_role_same (m : Master) (r : Role) : (s.setRole m r).role m = r := by
  simp [State.setRole, State.role]

theorem State.setRole_role (m k : Master) (r : Role) :
    (s.setRole m r).role k = if k = m then r else s.role k := by
  simp only [State.setRole, State.role, get_setAt]; split <;> rfl

@[simp] theorem State.setSlot_slot_same (m : Master) (x : Option Slot) :
    (s.setSlot m x).path.slots.get m = x := by
  simp

end Sys2Proof.Machine
end

