-- ==== Sys2Proof/Laws/Yard.lean ====
section
/-! SUPPORT. What the operations of the drive machine and the arbiter change (R14, R22, R41): each acts on one door and its
group, keeps the door's calm parts, and, where the freshness timer meets no limit, has an exact result. -/

namespace Sys2Proof.Machine

/-! ## One door's record -/

theorem Yard.modify_get (y : Yard) (d k : Nat) (f : Door → Door) :
    (y.modify d f).doors[k]? = if k = d then (y.doors[k]?).map f else y.doors[k]? := by
  simp only [Yard.modify, List.getElem?_modify]
  by_cases h : k = d
  · subst h; simp
  · simp [h, Ne.symm h]

@[simp] theorem Yard.modify_get_same (y : Yard) (d : Nat) (f : Door → Door) :
    (y.modify d f).doors[d]? = (y.doors[d]?).map f := by
  rw [Yard.modify_get, if_pos rfl]

theorem Yard.modify_get_ne (y : Yard) {d k : Nat} (f : Door → Door) (h : k ≠ d) :
    (y.modify d f).doors[k]? = y.doors[k]? := by
  rw [Yard.modify_get, if_neg h]

@[simp] theorem Yard.modify_length (y : Yard) (d : Nat) (f : Door → Door) :
    (y.modify d f).doors.length = y.doors.length := by
  simp [Yard.modify]

@[simp] theorem Yard.modify_groups (y : Yard) (d : Nat) (f : Door → Door) :
    (y.modify d f).groups = y.groups := rfl

@[simp] theorem Yard.modifyGroup_doors (y : Yard) (g : GroupNum) (f : Group → Group) :
    (y.modifyGroup g f).doors = y.doors := rfl

theorem Yard.modifyGroup_get (y : Yard) (g h : GroupNum) (f : Group → Group) :
    (y.modifyGroup g f).groups.get h = if h = g then f (y.groups.get g) else y.groups.get h := by
  simp only [Yard.modifyGroup, get_setAt]

/-- Two changes of one record are one. -/
theorem Yard.modify_modify (y : Yard) (d : Nat) (f g : Door → Door) :
    (y.modify d f).modify d g = y.modify d fun z => g (f z) := by
  simp only [Yard.modify, List.modify_modify_eq]
  rfl

/-- A record changed by functions that agree on it. -/
theorem Yard.modify_congr {y : Yard} {d : Nat} {x : Door} (hx : y.doors[d]? = some x)
    {f g : Door → Door} (h : f x = g x) : y.modify d f = y.modify d g := by
  simp only [Yard.modify]
  congr 1
  apply List.ext_getElem?
  intro k
  simp only [List.getElem?_modify]
  by_cases hk : d = k
  · subst hk; simp [hx, h]
  · simp [hk]

/-- A record that a function leaves as it is. -/
theorem Yard.modify_self {y : Yard} {d : Nat} {f : Door → Door}
    (h : ∀ x, y.doors[d]? = some x → f x = x) : y.modify d f = y := by
  simp only [Yard.modify]
  congr 1
  apply List.ext_getElem?
  intro k
  simp only [List.getElem?_modify]
  by_cases hk : d = k
  · subst hk
    cases hx : y.doors[d]? with
    | none => simp
    | some x => simp [h x hx]
  · simp [hk]

/-! ## The arbiter's part -/

@[simp] theorem Yard.arbiterTake_doors (y : Yard) (d : Nat) (x : Door) (old new : Drive) :
    (y.arbiterTake d x old new).doors = y.doors := by
  unfold Yard.arbiterTake; split <;> rfl

/-- R65: a door's change reaches its own group alone. -/
theorem Yard.arbiterTake_other (y : Yard) (d : Nat) (x : Door) (old new : Drive) {g : GroupNum}
    (h : x.st.cls ≠ .powered g) : (y.arbiterTake d x old new).groups.get g = y.groups.get g := by
  unfold Yard.arbiterTake
  split
  · rfl
  · next g' hg =>
    rw [Yard.modifyGroup_get, if_neg]
    rintro rfl
    exact h hg

/-- R66, R68, R75: what a door's change does to its group. -/
theorem Yard.arbiterTake_own (y : Yard) (d : Nat) (x : Door) (old new : Drive) {g : GroupNum}
    (h : x.st.cls = .powered g) :
    (y.arbiterTake d x old new).groups.get g =
      { y.groups.get g with
        holders := updateHolders d new (y.groups.get g).holders
        queue := y.updateQueue d old new (y.groups.get g).queue } := by
  unfold Yard.arbiterTake
  simp only [h, Yard.modifyGroup_get, if_true]

@[simp] theorem Yard.runTake_groups (y : Yard) (e : Env) (d : Nat) (old new : Drive) (c : Bool) :
    (y.runTake e d old new c).groups = y.groups := by
  unfold Yard.runTake; split <;> [rfl; split <;> rfl]

/-- R22 step 3 on the protection part. -/
def Protection.runTake (p : Protection) (e : Env) (old new : Drive) (completed : Bool) :
    Protection :=
  if old.closingRun && !new.closingRun then p.endRun completed e.clock
  else if !old.closingRun && new.closingRun then p.beginRun
  else p

theorem Yard.runTake_eq (y : Yard) (e : Env) (d : Nat) (old new : Drive) (c : Bool) :
    y.runTake e d old new c = y.modify d fun x => { x with prot := x.prot.runTake e old new c } := by
  unfold Yard.runTake Protection.runTake
  split
  · rfl
  · split
    · rfl
    · exact (Yard.modify_self fun x _ => rfl).symm

/-- A change of groups and a change of a record do not meet. -/
theorem Yard.modify_withGroups (y : Yard) (d : Nat) (f : Door → Door) (G : Vector Group 4) :
    ({ y with groups := G } : Yard).modify d f = { y.modify d f with groups := G } := rfl

theorem Yard.arbiterTake_eq (y : Yard) (d : Nat) (x : Door) (old new : Drive) :
    y.arbiterTake d x old new = { y with groups := (y.arbiterTake d x old new).groups } := by
  unfold Yard.arbiterTake; split <;> rfl

/-! ## The freshness timer -/

/-- R13: the timer meets no limit. -/
theorem Yard.judgeFreshness_within {y : Yard} {e : Env} {d : Nat} {x : Door}
    (hx : y.doors[d]? = some x) (h : x.inp.within e.clock (e.freshnessLimit x.drive)) :
    y.judgeFreshness e d = y := by
  unfold Yard.judgeFreshness
  simp only [hx]
  split
  · rfl
  · next start hs =>
    have := h start hs
    rw [if_neg (by omega)]

/-- A drive state change whose freshness timer meets no limit: the record's new drive state and protection part, the group's
new record, and nothing else. -/
theorem Yard.changeDrive_within {y : Yard} {e : Env} {d : Nat} {x : Door} {new : Drive} {c : Bool}
    (hx : y.doors[d]? = some x)
    (h : x.drive.bound = new.bound ∨ x.inp.within e.clock (e.freshnessLimit new)) :
    y.changeDrive e d new c =
      { (y.modify d fun z => { z with drive := new, prot := x.prot.runTake e x.drive new c }) with
        groups := ((y.modify d fun z => { z with drive := new }).arbiterTake d x x.drive new).groups } := by
  unfold Yard.changeDrive
  simp only [hx]
  have hj : (if x.drive.bound = new.bound then
        (y.modify d fun z => { z with drive := new }).arbiterTake d x x.drive new
      else ((y.modify d fun z => { z with drive := new }).arbiterTake d x x.drive new).judgeFreshness e d)
      = (y.modify d fun z => { z with drive := new }).arbiterTake d x x.drive new := by
    split
    · rfl
    · next hb =>
      apply Yard.judgeFreshness_within (x := { x with drive := new })
      · rw [Yard.arbiterTake_doors, Yard.modify_get_same, hx]; rfl
      · exact h.resolve_left hb
  rw [hj, Yard.runTake_eq, Yard.arbiterTake_eq, Yard.modify_withGroups, Yard.modify_modify]
  simp only
  congr 1
  exact congrArg Yard.doors (Yard.modify_congr hx rfl)

/-! ## What every operation at a door keeps -/

/-- What no change of drive state, staleness or request changes of a door; its inputs and position change only by its
becoming stale, which `P` must allow. -/
structure Door.Steady (P : Prop) (x z : Door) : Prop where
  static : z.static = x.static
  inhibit : z.inhibit = x.inhibit
  tripCount : z.prot.tripCount = x.prot.tripCount
  alarms : z.alarms = x.alarms
  powerSeen : z.powerSeen = x.powerSeen
  lastSeq : z.inp.lastSeq = x.inp.lastSeq
  reported : z.inp.reported = x.inp.reported
  sight : (z.inp = x.inp ∧ z.position = x.position) ∨
    (P ∧ z.inp.stale = true ∧ z.position = .unknown)

theorem Door.Steady.refl {P : Prop} (x : Door) : Door.Steady P x x :=
  ⟨rfl, rfl, rfl, rfl, rfl, rfl, rfl, .inl ⟨rfl, rfl⟩⟩

theorem Door.Steady.trans {P : Prop} {x z w : Door} (h : Door.Steady P x z) (k : Door.Steady P z w) :
    Door.Steady P x w := by
  refine ⟨k.static.trans h.static, k.inhibit.trans h.inhibit, k.tripCount.trans h.tripCount,
    k.alarms.trans h.alarms, k.powerSeen.trans h.powerSeen, k.lastSeq.trans h.lastSeq,
    k.reported.trans h.reported, ?_⟩
  rcases k.sight with ⟨ki, kp⟩ | ks
  · rcases h.sight with ⟨hi, hp⟩ | ⟨hP, hs, hu⟩
    · exact .inl ⟨ki.trans hi, kp.trans hp⟩
    · exact .inr ⟨hP, by rw [ki]; exact hs, by rw [kp]; exact hu⟩
  · exact .inr ks

theorem Door.Steady.sameStatic {P : Prop} : ∀ a b, Door.Steady P a b → b.static = a.static := fun _ _ r => r.static

/-- Where nothing allows staleness, the inputs and the position are as they were. -/
theorem Door.Steady.inSight {x z : Door} (h : Door.Steady False x z) :
    z.inp = x.inp ∧ z.position = x.position :=
  h.sight.resolve_right fun k => k.1

/-- An operation at a door: the other doors, the door count and the other groups are as they were, and the door's record is
as the relation says. -/
structure Yard.AtDoor (R : Door → Door → Prop) (d : Nat) (y y' : Yard) : Prop where
  others : ∀ k, k ≠ d → y'.doors[k]? = y.doors[k]?
  length : y'.doors.length = y.doors.length
  door : ∀ x, y.doors[d]? = some x → ∃ z, y'.doors[d]? = some z ∧ R x z
  groups : ∀ g, (∀ x, y.doors[d]? = some x → x.st.cls ≠ .powered g) →
    y'.groups.get g = y.groups.get g

theorem Yard.AtDoor.refl {R : Door → Door → Prop} (hR : ∀ x, R x x) (d : Nat) (y : Yard) :
    Yard.AtDoor R d y y :=
  ⟨fun _ _ => rfl, rfl, fun x hx => ⟨x, hx, hR x⟩, fun _ _ => rfl⟩

/-- Operations at one door compose, where the first keeps the static part. -/
theorem Yard.AtDoor.trans {R S T : Door → Door → Prop} {d : Nat} {y z w : Yard}
    (hst : ∀ a b, R a b → b.static = a.static) (hT : ∀ a b c, R a b → S b c → T a c)
    (h : Yard.AtDoor R d y z) (k : Yard.AtDoor S d z w) : Yard.AtDoor T d y w := by
  refine ⟨fun j hj => (k.others j hj).trans (h.others j hj), k.length.trans h.length, ?_, ?_⟩
  · intro x hx
    obtain ⟨a, ha, hxa⟩ := h.door x hx
    obtain ⟨b, hb, hab⟩ := k.door a ha
    exact ⟨b, hb, hT _ _ _ hxa hab⟩
  · intro g hg
    refine (k.groups g ?_).trans (h.groups g hg)
    intro a ha
    cases hx : y.doors[d]? with
    | none =>
      have h1 : y.doors.length ≤ d := by simpa using hx
      have h2 : z.doors[d]? = none := by simp [h.length, h1]
      rw [h2] at ha; cases ha
    | some x =>
      obtain ⟨b, hb, hxb⟩ := h.door x hx
      rw [ha] at hb
      obtain rfl := Option.some.inj hb
      rw [Door.st_congr (hst _ _ hxb)]
      exact hg x hx

/-- The operations that keep a door steady. -/
abbrev Yard.Steady (P : Prop) (d : Nat) (y y' : Yard) : Prop := Yard.AtDoor (Door.Steady P) d y y'

theorem Yard.Steady.refl {P : Prop} (d : Nat) (y : Yard) : Yard.Steady P d y y :=
  Yard.AtDoor.refl Door.Steady.refl d y

theorem Yard.Steady.trans {P : Prop} {d : Nat} {y z w : Yard} (h : Yard.Steady P d y z)
    (k : Yard.Steady P d z w) : Yard.Steady P d y w :=
  Yard.AtDoor.trans (fun _ _ r => r.static) (fun _ _ _ r s => r.trans s) h k

/-- R13: a freshness timer that meets neither limit. -/
def InputPart.inTouch (e : Env) (i : InputPart) : Prop :=
  i.within e.clock e.times.activeLimit ∧ i.within e.clock e.times.idleLimit

/-- A change of drive state may make the door stale only where `P` allows it. -/
def Yard.Fresh (P : Prop) (e : Env) (d : Nat) (y : Yard) : Prop :=
  ∀ x, y.doors[d]? = some x → ¬ x.inp.inTouch e → P

theorem Yard.fresh_true (e : Env) (d : Nat) (y : Yard) : y.Fresh True e d := fun _ _ _ => trivial

theorem Yard.fresh_of {P : Prop} {e : Env} {d : Nat} {y : Yard} {x : Door} (hx : y.doors[d]? = some x)
    (h : x.inp.inTouch e) : y.Fresh P e d := by
  intro z hz hn
  rw [hx] at hz
  obtain rfl := Option.some.inj hz
  exact absurd h hn

theorem Yard.Fresh.step {P : Prop} {e : Env} {d : Nat} {y z : Yard} (h : y.Fresh P e d)
    (k : Yard.Steady P d y z) : z.Fresh P e d := by
  intro b hb hn
  cases hx : y.doors[d]? with
  | none =>
    have h1 : y.doors.length ≤ d := by simpa using hx
    have h2 : z.doors[d]? = none := by simp [k.length, h1]
    rw [h2] at hb; cases hb
  | some x =>
    obtain ⟨w, hw, hs⟩ := k.door x hx
    rw [hb] at hw
    obtain rfl := Option.some.inj hw
    rcases hs.sight with ⟨hi, _⟩ | ⟨hP, _⟩
    · exact h x hx (by rw [← hi]; exact hn)
    · exact hP

/-- One steady operation after another. -/
theorem Yard.Steady.andThen {P : Prop} {e : Env} {d : Nat} {y z w : Yard} (h : Yard.Steady P d y z)
    (hf : y.Fresh P e d) (k : z.Fresh P e d → Yard.Steady P d z w) : Yard.Steady P d y w :=
  h.trans (k (hf.step h))

/-- A change of one record. -/
theorem Yard.atDoor_modify {R : Door → Door → Prop} {d : Nat} {y : Yard} {f : Door → Door}
    (h : ∀ x, y.doors[d]? = some x → R x (f x)) : Yard.AtDoor R d y (y.modify d f) :=
  ⟨fun _ hk => Yard.modify_get_ne y f hk, Yard.modify_length y d f,
    fun x hx => ⟨f x, by rw [Yard.modify_get_same, hx]; rfl, h x hx⟩, fun _ _ => rfl⟩

theorem Yard.steady_arbiterTake {P : Prop} {d : Nat} {y : Yard} {x : Door} (hx : y.doors[d]? = some x)
    {x' : Door} (hst : x'.st = x.st) (old new : Drive) :
    Yard.Steady P d y (y.arbiterTake d x' old new) := by
  refine ⟨fun k _ => by rw [Yard.arbiterTake_doors], by rw [Yard.arbiterTake_doors], ?_, ?_⟩
  · intro z hz
    exact ⟨z, by rw [Yard.arbiterTake_doors]; exact hz, Door.Steady.refl z⟩
  · intro g hg
    exact Yard.arbiterTake_other _ _ _ _ _ (by rw [hst]; exact hg x hx)

/-- The run's begin or end keeps the trip count. -/
theorem Protection.runTake_tripCount (p : Protection) (e : Env) (old new : Drive) (c : Bool) :
    (p.runTake e old new c).tripCount = p.tripCount := by
  unfold Protection.runTake Protection.endRun Protection.beginRun Protection.learn
  split
  · simp only
    split
    · simp only; split <;> [split <;> rfl; rfl]
    · rfl
  · split <;> rfl

theorem Yard.steady_runTake {P : Prop} (d : Nat) (y : Yard) (e : Env) (old new : Drive) (c : Bool) :
    Yard.Steady P d y (y.runTake e d old new c) := by
  rw [Yard.runTake_eq]
  exact Yard.atDoor_modify fun x _ =>
    ⟨rfl, rfl, Protection.runTake_tripCount _ _ _ _ _, rfl, rfl, rfl, rfl, .inl ⟨rfl, rfl⟩⟩

theorem Yard.steady_drive {P : Prop} {d : Nat} {y : Yard} {x : Door} (hx : y.doors[d]? = some x)
    (old new : Drive) :
    Yard.Steady P d y ((y.modify d fun z => { z with drive := new }).arbiterTake d x old new) := by
  have h1 : Yard.Steady P d y (y.modify d fun z => { z with drive := new }) :=
    Yard.atDoor_modify fun _ _ => ⟨rfl, rfl, rfl, rfl, rfl, rfl, rfl, .inl ⟨rfl, rfl⟩⟩
  refine h1.trans (Yard.steady_arbiterTake (x := { x with drive := new }) ?_ rfl old new)
  rw [Yard.modify_get_same, hx]; rfl

theorem Yard.steady_changeStopped {P : Prop} (y : Yard) (e : Env) (d : Nat) (new : Drive) :
    Yard.Steady P d y (y.changeStopped e d new) := by
  unfold Yard.changeStopped
  split
  · exact Yard.Steady.refl d y
  · next x hx => exact (Yard.steady_drive hx _ _).trans (Yard.steady_runTake _ _ _ _ _ _)

/-- A change of the hold flag alone. -/
theorem Yard.steady_hold {P : Prop} (y : Yard) (d : Nat) (f : Door → Bool) :
    Yard.Steady P d y (y.modify d fun z => { z with hold := f z }) :=
  Yard.atDoor_modify fun _ _ => ⟨rfl, rfl, rfl, rfl, rfl, rfl, rfl, .inl ⟨rfl, rfl⟩⟩

theorem Yard.steady_goStale {P : Prop} (hP : P) (y : Yard) (e : Env) (d : Nat) :
    Yard.Steady P d y (y.goStale e d) := by
  unfold Yard.goStale
  split
  · exact Yard.Steady.refl d y
  · next x hx =>
    split
    · exact Yard.Steady.refl d y
    · have h1 : Yard.Steady P d y (y.modify d fun z =>
          { z with inp := { z.inp.loseSight with stale := true, freshness := none } }.positionLost) :=
        Yard.atDoor_modify fun z _ => by
          refine ⟨rfl, rfl, ?_, rfl, rfl, rfl, rfl, .inr ⟨hP, rfl, rfl⟩⟩
          simp only [Door.positionLost]
          split <;> rfl
      simp only
      split
      · split
        · exact (h1.trans (Yard.steady_hold _ _ _)).trans (Yard.steady_changeStopped _ _ _ _)
        · exact h1.trans (Yard.steady_hold _ _ _)
      · exact h1

theorem Yard.steady_judgeFreshness {P : Prop} {y : Yard} {e : Env} {d : Nat} (hf : y.Fresh P e d) :
    Yard.Steady P d y (y.judgeFreshness e d) := by
  unfold Yard.judgeFreshness
  split
  · exact Yard.Steady.refl d y
  · next x hx =>
    split
    · exact Yard.Steady.refl d y
    · next start hs =>
      split
      · next hle =>
        refine Yard.steady_goStale (hf x hx fun ht => ?_) y e d
        have h1 := ht.1 start hs
        have h2 := ht.2 start hs
        unfold Env.freshnessLimit at hle
        split at hle <;> omega
      · exact Yard.Steady.refl d y

theorem Yard.steady_changeDrive {P : Prop} {y : Yard} {e : Env} {d : Nat} (hf : y.Fresh P e d)
    (new : Drive) (c : Bool) : Yard.Steady P d y (y.changeDrive e d new c) := by
  unfold Yard.changeDrive
  split
  · exact Yard.Steady.refl d y
  · next x hx =>
    refine Yard.Steady.trans ?_ (Yard.steady_runTake _ _ _ _ _ _)
    split
    · exact Yard.steady_drive hx _ _
    · exact (Yard.steady_drive hx _ _).andThen hf Yard.steady_judgeFreshness

theorem Yard.steady_enforce {P : Prop} {y : Yard} {e : Env} {d : Nat} (hf : y.Fresh P e d) :
    Yard.Steady P d y (y.enforce e d) := by
  unfold Yard.enforce
  split
  · exact Yard.Steady.refl d y
  · split
    · exact Yard.steady_changeDrive hf _ _
    · exact Yard.Steady.refl d y

theorem Yard.steady_rest {P : Prop} {y : Yard} {e : Env} {d : Nat} (hf : y.Fresh P e d) (c : Bool) :
    Yard.Steady P d y (y.rest e d c) :=
  (Yard.steady_changeDrive hf _ _).andThen hf Yard.steady_enforce

theorem Yard.steady_motionRequest {P : Prop} {y : Yard} {e : Env} {d : Nat} (hf : y.Fresh P e d)
    (dir : Direction) (o : Origin) : Yard.Steady P d y (y.motionRequest e d dir o) := by
  unfold Yard.motionRequest
  split
  · exact Yard.Steady.refl d y
  · split
    · split
      · exact Yard.Steady.refl d y
      · exact Yard.Steady.refl d y
      · exact Yard.steady_rest hf _
    · split
      · exact Yard.steady_changeDrive hf _ _
      · exact Yard.Steady.refl d y

theorem Yard.steady_loRise {P : Prop} {y : Yard} {e : Env} {d : Nat} (hf : y.Fresh P e d) :
    Yard.Steady P d y (y.loRise e d) := by
  unfold Yard.loRise
  split
  · exact Yard.Steady.refl d y
  · split
    · split
      · exact (Yard.steady_hold _ _ _).andThen hf fun h => Yard.steady_motionRequest h _ _
      · exact Yard.steady_motionRequest hf _ _
    · exact Yard.Steady.refl d y

theorem Yard.steady_lcRise {P : Prop} {y : Yard} {e : Env} {d : Nat} (hf : y.Fresh P e d) :
    Yard.Steady P d y (y.lcRise e d) := by
  unfold Yard.lcRise
  split
  · exact Yard.Steady.refl d y
  · split
    · exact Yard.steady_motionRequest hf _ _
    · exact Yard.Steady.refl d y

theorem Yard.steady_loFall {P : Prop} {y : Yard} {e : Env} {d : Nat} (hf : y.Fresh P e d) :
    Yard.Steady P d y (y.loFall e d) := by
  unfold Yard.loFall
  split
  · exact Yard.Steady.refl d y
  · simp only
    split
    · exact (Yard.steady_hold _ _ _).andThen hf fun h => Yard.steady_rest h _
    · exact (Yard.steady_hold _ _ _).andThen hf fun h => Yard.steady_changeDrive h _ _
    · exact Yard.steady_hold _ _ _

theorem Yard.steady_deliverLo {P : Prop} {y : Yard} {e : Env} {d : Nat} (hf : y.Fresh P e d)
    (b a : Bool) : Yard.Steady P d y (y.deliverLo e d b a) := by
  unfold Yard.deliverLo
  split
  · split
    · exact Yard.steady_loRise hf
    · exact Yard.Steady.refl d y
  · exact Yard.steady_loFall hf
  · exact Yard.Steady.refl d y

theorem Yard.steady_deliverLc {P : Prop} {y : Yard} {e : Env} {d : Nat} (hf : y.Fresh P e d)
    (b a : Bool) : Yard.Steady P d y (y.deliverLc e d b a) := by
  unfold Yard.deliverLc
  split
  · exact Yard.steady_lcRise hf
  · exact Yard.Steady.refl d y

/-- A position change handed on. -/
theorem Yard.steady_positionChange {P : Prop} {y : Yard} {e : Env} {d : Nat} (hf : y.Fresh P e d)
    (old new : Position) : Yard.Steady P d y (y.positionChange e d old new) := by
  unfold Yard.positionChange
  split
  · exact Yard.Steady.refl d y
  · have h1 : ∀ (b : Bool), Yard.Steady P d y
        ((if b then y.changeDrive e d .resting true else y).enforce e d) := by
      intro b
      cases b
      · exact Yard.steady_enforce hf
      · exact (Yard.steady_changeDrive hf _ _).andThen hf Yard.steady_enforce
    simp only
    split
    · exact (h1 _).trans (Yard.atDoor_modify fun _ _ =>
        ⟨rfl, rfl, rfl, rfl, rfl, rfl, rfl, .inl ⟨rfl, rfl⟩⟩)
    · exact h1 _

theorem Yard.steady_grantHead {P : Prop} {y : Yard} {e : Env} {d : Nat} (hf : y.Fresh P e d) :
    Yard.Steady P d y (y.grantHead e d) := by
  unfold Yard.grantHead
  split
  · exact Yard.Steady.refl d y
  · split
    · exact Yard.steady_changeDrive hf _ _
    · exact Yard.Steady.refl d y

theorem Yard.steady_toDoorsClosed {P : Prop} {y : Yard} {e : Env} {d : Nat} (hf : y.Fresh P e d) :
    Yard.Steady P d y (y.toDoorsClosed e d) := by
  unfold Yard.toDoorsClosed
  split
  · exact Yard.Steady.refl d y
  · split
    · simp only
      split
      · exact (Yard.steady_changeDrive hf _ _).trans (Yard.steady_hold _ _ _)
      · exact Yard.steady_hold _ _ _
    · exact Yard.Steady.refl d y

theorem Yard.steady_toLocalControl {P : Prop} {y : Yard} {e : Env} {d : Nat} (hf : y.Fresh P e d) :
    Yard.Steady P d y (y.toLocalControl e d) := by
  unfold Yard.toLocalControl
  split
  · exact Yard.Steady.refl d y
  · simp only
    split
    · exact (Yard.steady_changeDrive hf _ _).trans (Yard.steady_hold _ _ _)
    · exact Yard.steady_hold _ _ _

theorem Yard.steady_zoneCloseDoor {P : Prop} {y : Yard} {e : Env} {d : Nat} (hf : y.Fresh P e d)
    (mask : Word) : Yard.Steady P d y (y.zoneCloseDoor e mask d) := by
  unfold Yard.zoneCloseDoor
  split
  · exact Yard.Steady.refl d y
  · split
    · exact Yard.steady_motionRequest hf _ _
    · exact Yard.Steady.refl d y

/-- R4: the record after its position is derived afresh, where nothing makes the door stale. -/
theorem Yard.rederive_inSight {y : Yard} {e : Env} {d : Nat} {x : Door} (hx : y.doors[d]? = some x)
    (hf : x.inp.inTouch e) :
    ∃ z, (y.rederive e d).doors[d]? = some z ∧ z.static = x.static ∧ z.inp = x.inp ∧
      z.position = e.positionOf x ∧ z.inhibit = x.inhibit ∧ z.prot.tripCount = x.prot.tripCount ∧
      z.alarms = x.alarms ∧ z.powerSeen = x.powerSeen := by
  unfold Yard.rederive
  simp only [hx]
  split
  · next hp => exact ⟨x, hx, rfl, rfl, hp.symm, rfl, rfl, rfl, rfl⟩
  · have h1 : (y.modify d fun z => { z with position := e.positionOf x }).doors[d]? =
        some { x with position := e.positionOf x } := by
      rw [Yard.modify_get_same, hx]; rfl
    obtain ⟨z, hz, hs⟩ :=
      (Yard.steady_positionChange (P := False) (Yard.fresh_of h1 hf) x.position (e.positionOf x)).door
        _ h1
    exact ⟨z, hz, hs.static, hs.inSight.1, hs.inSight.2, hs.inhibit, hs.tripCount, hs.alarms, hs.powerSeen⟩

/-- R4, in every case: the other doors and groups are as they were, and the static part stands. -/
theorem Yard.atDoor_rederive (y : Yard) (e : Env) (d : Nat) :
    Yard.AtDoor (fun a b => b.static = a.static ∧ b.inhibit = a.inhibit ∧
      b.prot.tripCount = a.prot.tripCount ∧ b.alarms = a.alarms) d y (y.rederive e d) := by
  unfold Yard.rederive
  split
  · exact Yard.AtDoor.refl (fun _ => ⟨rfl, rfl, rfl, rfl⟩) d y
  · next x hx =>
    simp only
    split
    · exact Yard.AtDoor.refl (fun _ => ⟨rfl, rfl, rfl, rfl⟩) d y
    · refine Yard.AtDoor.trans (R := fun a b => b = { a with position := e.positionOf x })
        (fun a b h => by rw [h]) ?_ (Yard.atDoor_modify fun _ _ => rfl)
        (Yard.steady_positionChange (Yard.fresh_true e d _) x.position (e.positionOf x))
      intro a b c h k
      subst h
      exact ⟨k.static, k.inhibit, k.tripCount, k.alarms⟩

end Sys2Proof.Machine
end

