-- ==== Sys2Proof/Laws/Take.lean ====
section
/-! SUPPORT. The end of a take (R104): a door is evaluated where its alarm inputs have changed, and only its alarm states
then change; and what a take of events at one door leaves of the part. -/

namespace Sys2Proof.Machine

/-! ## The evaluation -/

theorem evaluateChanged_length (dc : Bool) (before doors : List Door) :
    (evaluateChanged dc before doors).length = doors.length := by
  induction before generalizing doors with
  | nil => cases doors <;> simp [evaluateChanged]
  | cons b before ih =>
    cases doors with
    | nil => simp [evaluateChanged]
    | cons x doors => simp [evaluateChanged, ih]

/-- R104: each door of the list, evaluated or not. -/
theorem evaluateChanged_get (dc : Bool) (before doors : List Door) (k : Nat) :
    (evaluateChanged dc before doors)[k]? = (doors[k]?).map fun x =>
      if (before[k]?).map Door.alarmInputs = some x.alarmInputs then x else x.evaluate dc := by
  induction before generalizing doors k with
  | nil =>
    have h : evaluateChanged dc [] doors = doors.map (Door.evaluate dc) := by
      cases doors <;> simp [evaluateChanged]
    simp [h]
  | cons b before ih =>
    cases doors with
    | nil => simp [evaluateChanged]
    | cons x doors =>
      cases k with
      | zero => simp [evaluateChanged]
      | succ k => simp only [evaluateChanged, List.getElem?_cons_succ, ih]

theorem Door.evaluate_alarmsOnly (dc : Bool) (x : Door) : x.sameButAlarms (x.evaluate dc) := rfl

/-- A door is as the take left it, but for its alarm states. -/
theorem State.endTake_door {b : Yard} {s : State} {d : Nat} {x : Door} (hx : s.door? d = some x) :
    ∃ z, (State.endTake b s).door? d = some z ∧ x.sameButAlarms z := by
  have h := evaluateChanged_get s.env.doorsClosed b.doors s.yard.doors d
  have hx' : s.yard.doors[d]? = some x := hx
  rw [hx'] at h
  refine ⟨_, h, ?_⟩
  simp only
  split
  · rfl
  · rfl

theorem State.endTake_door_none {b : Yard} {s : State} {d : Nat} (hx : s.door? d = none) :
    (State.endTake b s).door? d = none := by
  have h := evaluateChanged_get s.env.doorsClosed b.doors s.yard.doors d
  have hx' : s.yard.doors[d]? = none := hx
  rw [hx'] at h
  exact h

/-- A door whose record the take did not change is not evaluated. -/
theorem State.endTake_door_same {b : Yard} {s : State} {d : Nat} (h : s.door? d = b.doors[d]?) :
    (State.endTake b s).door? d = b.doors[d]? := by
  have e := evaluateChanged_get s.env.doorsClosed b.doors s.yard.doors d
  have h' : s.yard.doors[d]? = b.doors[d]? := h
  rw [h'] at e
  refine e.trans ?_
  cases hb : b.doors[d]? with
  | none => simp
  | some x => simp

@[simp] theorem State.endTake_doorCount (b : Yard) (s : State) :
    (State.endTake b s).doorCount = s.doorCount :=
  evaluateChanged_length _ _ _

/-- A take that leaves the yard as it found it. -/
theorem State.endTake_yard_same {s : State} : (State.endTake s.yard s).yard = s.yard := by
  have h : (State.endTake s.yard s).yard.doors = s.yard.doors := by
    apply List.ext_getElem?
    intro k
    exact State.endTake_door_same (b := s.yard) (s := s) rfl
  show ({ s.yard with doors := _ } : Yard) = s.yard
  rw [show evaluateChanged s.env.doorsClosed s.yard.doors s.yard.doors = s.yard.doors from h]

/-- R82 step 6, R109: a take after which every door is evaluated. -/
theorem State.endTakeAll_door {s : State} {d : Nat} {x : Door} (hx : s.door? d = some x) :
    (State.endTakeAll s).door? d = some (x.evaluate s.env.doorsClosed) := by
  have h := evaluateChanged_get s.env.doorsClosed [] s.yard.doors d
  have hx' : s.yard.doors[d]? = some x := hx
  rw [hx'] at h
  exact h

/-- R110 to R112: what the judgement of the door lines leaves. -/
theorem State.linesJudged (s : State) : LinesJudged s.judgeDoorLines s.lines.generalAlarm := by
  have unack : ∀ {a : AlarmState}, a.unack = true ↔ a = .activeUnack ∨ a = .clearedUnack := by
    intro a; cases a <;> simp [AlarmState.unack]
  have anyUnack : s.yard.doors.any Door.anyUnack = true ↔
      ∃ x ∈ s.yard.doors, ∃ a ∈ x.alarms.list, a = .activeUnack ∨ a = .clearedUnack := by
    simp [List.any_eq_true, Door.anyUnack, unack]
  have line : s.judgeDoorLines.lines.generalAlarm =
    judgeGeneralAlarm s.clock s.times.flashOn s.yard.doors s.lines.generalAlarm := rfl
  constructor
  · intro h p e hn
    rw [line, judgeGeneralAlarm.eq_def, if_pos (anyUnack.mpr h), hn]
  · intro h hn
    rw [line, judgeGeneralAlarm.eq_def, if_pos (anyUnack.mpr h)]
    rcases hn with hn | hn <;> rw [hn] <;> rfl
  · rintro h ⟨x, hx, a, ha, he⟩
    rw [line, judgeGeneralAlarm.eq_def, if_neg, if_pos]
    · exact List.any_eq_true.mpr ⟨x, hx, List.any_eq_true.mpr ⟨a, ha, by rw [he]; rfl⟩⟩
    · rw [anyUnack]
      rintro ⟨y, hy, b, hb, hu⟩
      exact hu.elim (h y hy b hb).1 (h y hy b hb).2
  · intro h
    rw [line, judgeGeneralAlarm.eq_def, if_neg, if_neg]
    · intro hc
      obtain ⟨y, hy, hu⟩ := List.any_eq_true.mp hc
      obtain ⟨b, hb, hv⟩ := List.any_eq_true.mp hu
      rw [h y hy b hb] at hv
      cases hv
    · rw [anyUnack]
      rintro ⟨y, hy, b, hb, hu⟩
      rw [h y hy b hb] at hu
      rcases hu with hu | hu <;> cases hu
  · show judgeDoorsNotClosed s.env.doorsClosed s.yard.doors = true ↔ _
    have iso : ∀ x : Door, x.drive.isIsolated = false ↔ x.drive ≠ .isolated := by
      intro x; cases x.drive <;> simp [Drive.isIsolated]
    simp only [judgeDoorsNotClosed, Bool.and_eq_true, List.any_eq_true, Bool.not_eq_true', bne_iff_ne, iso]
    simp [Env.doorsClosed, State.env, State.judgeDoorLines]

/-! ## What every operation at a door keeps of its alarms -/

/-- The static part and the alarm states of a door stand. -/
abbrev Door.Calm (x z : Door) : Prop := z.static = x.static ∧ z.alarms = x.alarms

/-- An operation at a door that keeps its static part and its alarm states. -/
abbrev Yard.Calm (d : Nat) (y y' : Yard) : Prop := Yard.AtDoor Door.Calm d y y'

/-- Every alarm state of every door stands. -/
def Yard.AlarmsKept (y y' : Yard) : Prop :=
  ∀ k : Nat, (y'.doors[k]?).map Door.alarms = (y.doors[k]?).map Door.alarms

theorem Yard.Steady.calm {P : Prop} {d : Nat} {y z : Yard} (h : Yard.Steady P d y z) : Yard.Calm d y z :=
  ⟨h.others, h.length, fun x hx => by
    obtain ⟨w, hw, hs⟩ := h.door x hx
    exact ⟨w, hw, hs.static, hs.alarms⟩, h.groups⟩

theorem Yard.Calm.refl (d : Nat) (y : Yard) : Yard.Calm d y y := Yard.AtDoor.refl (fun _ => ⟨rfl, rfl⟩) d y

theorem Yard.Calm.trans {d : Nat} {y z w : Yard} (h : Yard.Calm d y z) (k : Yard.Calm d z w) : Yard.Calm d y w :=
  Yard.AtDoor.trans (fun _ _ r => r.1) (fun _ _ _ r t => ⟨t.1.trans r.1, t.2.trans r.2⟩) h k

/-- A change of the record before an operation. -/
theorem Yard.Calm.after {d : Nat} {y z : Yard} {f : Door → Door} (k : Yard.Calm d (y.modify d f) z)
    (h : ∀ x, Door.Calm x (f x)) : Yard.Calm d y z :=
  Yard.Calm.trans (Yard.atDoor_modify fun x _ => h x) k

theorem Yard.calm_modify {d : Nat} {y : Yard} {f : Door → Door} (h : ∀ x, Door.Calm x (f x)) :
    Yard.Calm d y (y.modify d f) := Yard.atDoor_modify fun x _ => h x

theorem Yard.AtDoor.alarms {d : Nat} {y z : Yard} (h : Yard.Calm d y z) : Yard.AlarmsKept y z := by
  intro k
  by_cases hk : k = d
  · subst hk
    cases hx : y.doors[k]? with
    | none =>
      have h1 : y.doors.length ≤ k := by simpa using hx
      simp [h.length, h1]
    | some x =>
      obtain ⟨w, hw, hs⟩ := h.door x hx
      simp [hw, hs.2]
  · rw [h.others k hk]

theorem Yard.AlarmsKept.foldl {α : Type} {f : Yard → α → Yard} (h : ∀ z a, Yard.AlarmsKept z (f z a))
    (l : List α) (y : Yard) : Yard.AlarmsKept y (l.foldl f y) := by
  induction l generalizing y with
  | nil => exact fun _ => rfl
  | cons a l ih => exact fun k => (ih (f y a) k).trans (h y a k)

/-- An operation that the yard's free freshness judgement makes steady is calm. -/
theorem Yard.calm_of_steady {e : Env} {d : Nat} {y z : Yard}
    (h : y.Fresh True e d → Yard.Steady True d y z) : Yard.Calm d y z := (h (Yard.fresh_true e d y)).calm

theorem Door.calm_positionLost (x : Door) : Door.Calm x x.positionLost := by
  unfold Door.positionLost; exact ⟨rfl, rfl⟩

theorem Yard.calm_goStale (y : Yard) (e : Env) (d : Nat) : Yard.Calm d y (y.goStale e d) :=
  (Yard.steady_goStale trivial y e d).calm

theorem Yard.calm_changeDrive (y : Yard) (e : Env) (d : Nat) (new : Drive) (c : Bool) :
    Yard.Calm d y (y.changeDrive e d new c) := Yard.calm_of_steady (e := e) fun h => Yard.steady_changeDrive h _ _

theorem Yard.calm_enforce (y : Yard) (e : Env) (d : Nat) : Yard.Calm d y (y.enforce e d) :=
  Yard.calm_of_steady (e := e) fun h => Yard.steady_enforce h

theorem Yard.calm_rest (y : Yard) (e : Env) (d : Nat) (c : Bool) : Yard.Calm d y (y.rest e d c) :=
  Yard.calm_of_steady (e := e) fun h => Yard.steady_rest h _

theorem Yard.calm_motionRequest (y : Yard) (e : Env) (d : Nat) (dir : Direction) (o : Origin) :
    Yard.Calm d y (y.motionRequest e d dir o) :=
  Yard.calm_of_steady (e := e) fun h => Yard.steady_motionRequest h _ _

theorem Yard.calm_loFall (y : Yard) (e : Env) (d : Nat) : Yard.Calm d y (y.loFall e d) :=
  Yard.calm_of_steady (e := e) fun h => Yard.steady_loFall h

theorem Yard.calm_deliver (y : Yard) (e : Env) (d : Nat) (before after : Four Bool) :
    Yard.Calm d y (y.deliver e d before after) := by
  have h1 : Yard.Calm d y (y.rederive e d) := by
    have h := Yard.atDoor_rederive y e d
    exact ⟨h.others, h.length, fun x hx => by
      obtain ⟨w, hw, hs⟩ := h.door x hx
      exact ⟨w, hw, hs.1, hs.2.2.2⟩, h.groups⟩
  exact (h1.trans (Yard.calm_of_steady (e := e) fun h => Yard.steady_deliverLo h _ _)).trans
    (Yard.calm_of_steady (e := e) fun h => Yard.steady_deliverLc h _ _)

theorem Yard.calm_trip (y : Yard) (e : Env) (d : Nat) : Yard.Calm d y (y.trip e d).1 := by
  unfold Yard.trip
  split
  · exact Yard.Calm.refl d y
  · have h1 : ∀ new, Yard.Calm d y ((y.modify d fun z => z.countTrip e).changeDrive e d new false) :=
      fun new => Yard.Calm.after (Yard.calm_changeDrive _ _ _ _ _) fun _ => ⟨rfl, rfl⟩
    simp only
    split
    · exact (h1 _).trans (Yard.calm_enforce _ _ _)
    · exact h1 _

theorem Yard.calm_evaluateAlert (y : Yard) (e : Env) (d : Nat) (r : Report) :
    Yard.Calm d y (y.evaluateAlert e d r).1 := by
  unfold Yard.evaluateAlert
  split
  · exact Yard.Calm.refl d y
  · split
    · simp only
      split
      · exact Yard.Calm.after (Yard.calm_trip _ _ _) fun _ => ⟨rfl, rfl⟩
      · exact Yard.calm_modify fun _ => ⟨rfl, rfl⟩
    · exact Yard.Calm.refl d y

/-- R6 to R15: the sensor take acts on its door alone, and judges no alarm itself. -/
theorem Yard.calm_sensorTake (y : Yard) (e : Env) (d : Nat) (w : Word) (arrival : Nat) :
    Yard.Calm d y (y.sensorTake e d w arrival).1 := by
  unfold Yard.sensorTake
  split
  · exact Yard.Calm.refl d y
  · simp only
    split
    · exact Yard.Calm.refl d y
    · have h1 : ∀ (inp : InputPart) (before : Four Bool), Yard.Calm d y
          ((y.modify d fun z => { z with inp := inp, powerSeen := true }).deliver e d before inp.debounced) :=
        fun inp before => Yard.Calm.after (Yard.calm_deliver _ _ _ _ _) fun _ => ⟨rfl, rfl⟩
      split
      · exact (h1 _ _).trans (Yard.calm_evaluateAlert _ _ _ _)
      · exact h1 _ _

theorem Yard.calm_debounceExpiry (y : Yard) (e : Env) (d report : Nat) :
    Yard.Calm d y (y.debounceExpiry e d report) := by
  unfold Yard.debounceExpiry
  split
  · exact Yard.Calm.refl d y
  · exact Yard.Calm.after (Yard.calm_deliver _ _ _ _ _) fun _ => ⟨rfl, rfl⟩

theorem Yard.calm_freshnessExpiry (y : Yard) (e : Env) (d : Nat) : Yard.Calm d y (y.freshnessExpiry e d) :=
  (Yard.calm_goStale y e d).trans (Yard.calm_modify fun _ => ⟨rfl, rfl⟩)

theorem Yard.calm_prewarnExpiry (y : Yard) (e : Env) (d : Nat) : Yard.Calm d y (y.prewarnExpiry e d) := by
  unfold Yard.prewarnExpiry
  split
  · exact Yard.Calm.refl d y
  · split
    · exact Yard.calm_changeDrive _ _ _ _ _
    · exact Yard.Calm.refl d y

theorem Yard.calm_travelExpiry (y : Yard) (e : Env) (d : Nat) : Yard.Calm d y (y.travelExpiry e d) :=
  Yard.Calm.after (Yard.calm_rest _ _ _ _) fun _ => ⟨rfl, rfl⟩

theorem Yard.calm_settleExpiry (y : Yard) (d : Nat) : Yard.Calm d y (y.settleExpiry d) :=
  Yard.calm_modify fun _ => ⟨rfl, rfl⟩

/-- R32: a station request acts on its door alone. -/
theorem Yard.calm_stationRequest {y z : Yard} {e : Env} {d : Nat} {w : Word}
    (h : y.stationRequest e d w = .ok z) : Yard.Calm d y z := by
  have hold : ∀ f : Door → Bool, Yard.Calm d y (y.modify d fun z => { z with hold := f z }) :=
    fun _ => Yard.calm_modify fun _ => ⟨rfl, rfl⟩
  unfold Yard.stationRequest at h
  split at h
  · cases h
  · next x hx =>
    split at h
    · split at h
      · cases h; exact Yard.Calm.refl d _
      · unfold Yard.stationClose at h
        split at h <;> cases h
        exact Yard.calm_motionRequest _ _ _ _ _
      · unfold Yard.stationOpen at h
        split at h <;> cases h
        exact Yard.calm_motionRequest _ _ _ _ _
      · unfold Yard.stationStop at h
        split at h
        · cases h
        · split at h <;> cases h
          · exact Yard.Calm.refl d _
          · exact Yard.Calm.refl d _
          · exact Yard.calm_rest _ _ _ _
      · unfold Yard.stationIsolate at h
        split at h <;> cases h
        · exact Yard.Calm.refl d _
        · exact (hold _).trans (Yard.calm_changeDrive _ _ _ _ _)
      · unfold Yard.stationRestore at h
        split at h <;> cases h
        · exact (hold _).trans (Yard.calm_rest _ _ _ _)
        · exact Yard.Calm.refl d _
    · cases h

theorem Yard.calm_clearDoor (y : Yard) (e : Env) (d : Nat) : Yard.Calm d y (y.clearDoor e d) := by
  unfold Yard.clearDoor
  split
  · exact Yard.Calm.refl d y
  · have h1 : Yard.Calm d y (y.modify d fun z =>
        { z with inhibit := .none, prot := { z.prot with tripCount := 0 } }) := Yard.calm_modify fun _ => ⟨rfl, rfl⟩
    simp only
    split
    · exact h1.trans (Yard.calm_rest _ _ _ _)
    · exact h1.trans (Yard.calm_enforce _ _ _)

theorem Yard.calm_reattachDoor (y : Yard) (e : Env) (d : Nat) : Yard.Calm d y (y.reattachDoor e d) := by
  unfold Yard.reattachDoor
  split
  · exact Yard.Calm.refl d y
  · have h1 : Yard.Calm d y (y.modify d Door.forgetReports) := Yard.calm_modify fun _ => ⟨rfl, rfl⟩
    have h2 := h1.trans
      (Yard.calm_modify (d := d) (f := fun z => { z with inp := z.inp.loseSight }) fun _ => ⟨rfl, rfl⟩)
    simp only
    split
    · split
      · exact h2.trans (Yard.calm_loFall _ _ _)
      · exact h2
    · exact h1

/-! ## What the takes of many doors keep of their alarms -/

theorem Yard.alarmsKept_grants (y : Yard) (e : Env) (g : GroupNum) (fuel : Nat) :
    Yard.AlarmsKept y (y.grants e g fuel) := by
  induction fuel generalizing y with
  | zero => exact fun _ => rfl
  | succ n ih =>
    unfold Yard.grants
    split
    · split
      · exact fun k => (ih _ k).trans
          ((Yard.calm_of_steady (e := e) fun h => Yard.steady_grantHead h).alarms k)
      · exact fun _ => rfl
    · exact fun _ => rfl

theorem Yard.alarmsKept_zoneClose (y : Yard) (e : Env) (mask : Word) : Yard.AlarmsKept y (y.zoneClose e mask) :=
  Yard.AlarmsKept.foldl
    (fun _ d => (Yard.calm_of_steady (e := e) (d := d) fun h => Yard.steady_zoneCloseDoor h mask).alarms) _ y

theorem Yard.alarmsKept_clear (y : Yard) (e : Env) (sel : DoorSelect) :
    Yard.AlarmsKept y (y.forSelected sel fun z d => z.clearDoor e d) := by
  cases sel with
  | one d => exact (Yard.calm_clearDoor y e d).alarms
  | all => exact Yard.AlarmsKept.foldl (fun z d => (Yard.calm_clearDoor z e d).alarms) _ y

theorem Yard.alarmsKept_staleDoors (y : Yard) (e : Env) (doors : List Nat) :
    Yard.AlarmsKept y (y.staleDoors e doors) :=
  Yard.AlarmsKept.foldl (fun z d => (Yard.calm_goStale z e d).alarms) _ y

theorem Yard.AlarmsKept.trans {y z w : Yard} (h : Yard.AlarmsKept y z) (k : Yard.AlarmsKept z w) :
    Yard.AlarmsKept y w := fun j => (k j).trans (h j)

/-- R82 steps 3 to 5 judge no alarm. -/
theorem Yard.alarmsKept_modeChange (y : Yard) (e : Env) : Yard.AlarmsKept y (y.modeChange e) := by
  have grants : ∀ z : Yard, Yard.AlarmsKept z (z.grantAll e) :=
    Yard.AlarmsKept.foldl (fun z g => z.alarmsKept_grants e g _) _
  have checks : ∀ z : Yard, Yard.AlarmsKept z (z.enforceAll e) :=
    fun z => Yard.AlarmsKept.foldl (fun z d => (Yard.calm_enforce z e d).alarms) _ z
  unfold Yard.modeChange
  simp only
  split
  · exact ((Yard.AlarmsKept.foldl (fun _ d => (Yard.calm_of_steady (e := e) (d := d) fun h =>
      Yard.steady_toDoorsClosed h).alarms) _ y).trans (checks _)).trans (grants _)
  · exact (Yard.AlarmsKept.foldl (fun _ d => (Yard.calm_of_steady (e := e) (d := d) fun h =>
      Yard.steady_toLocalControl h).alarms) _ y).trans (grants _)

theorem Yard.alarmsKept_reattach (y : Yard) (e : Env) (m : Master) : Yard.AlarmsKept y (y.reattach e m) :=
  Yard.AlarmsKept.foldl (fun z d => (Yard.calm_reattachDoor z e d).alarms) _ y

/-! ## The take of an event at one door -/

theorem DoorAfter.mono {d : Nat} {t : State} {P Q : Door → Prop} (h : DoorAfter d t P)
    (k : ∀ z, P z → Q z) : DoorAfter d t Q := by
  obtain ⟨z, hz, hp⟩ := h
  exact ⟨z, hz, k z hp⟩

/-- A take of door events: the yard an operation leaves, the captures, and the evaluation. -/
theorem State.doorTake_yard (s : State) (f : Yard → Env → Yard) (cs : List Capture) :
    (s.doorTake f cs).yard.groups = (f s.yard s.env).groups := by
  unfold State.doorTake
  rw [State.endTake_yard_groups, State.captures_yard, State.setYard_yard]

@[simp] theorem State.doorTake_ring (s : State) (f : Yard → Env → Yard) (cs : List Capture) :
    (s.doorTake f cs).ring = (s.captures cs).ring := by
  unfold State.doorTake
  rw [State.endTake_ring]
  induction cs generalizing s with
  | nil => rfl
  | cons c cs ih => exact ih (s.capture c)

/-- The record the operation leaves, but for its alarm states. -/
theorem State.doorTake_door {s : State} {f : Yard → Env → Yard} {cs : List Capture} {d : Nat}
    {z : Door} (hz : (f s.yard s.env).doors[d]? = some z) :
    DoorAfter d (s.doorTake f cs) z.sameButAlarms := by
  unfold State.doorTake
  apply State.endTake_door
  rw [State.captures_door]
  exact hz

/-- A take that had changed no alarm state and no line before its end. -/
theorem State.takeEnds_of {s u : State} (hl : u.lines = s.lines)
    (ha : ∀ k, (u.door? k).map (·.alarms) = (s.door? k).map (·.alarms)) :
    TakeEnds s (State.endTake s.yard u) := ⟨u, rfl, hl, ha⟩

/-- A take at one door. -/
theorem State.oneDoor_take {s u : State} {d : Nat} (h : Yard.Calm d s.yard u.yard)
    (hu : u = { s with yard := u.yard, ring := u.ring }) :
    OneDoor d s (State.endTake s.yard u) := by
  refine ⟨?_, ?_, ?_, ?_, ?_⟩
  · conv_lhs => rw [hu]
    conv_rhs => rw [hu]
    rfl
  · intro k hk
    exact State.endTake_door_same (h.others k hk)
  · cases hx : s.door? d with
    | none =>
      have h1 : s.yard.doors.length ≤ d := by simpa [State.door?] using hx
      rw [State.endTake_door_none]
      show u.yard.doors[d]? = none
      simp [h.length, h1]
    | some x =>
      obtain ⟨z, hz, hr⟩ := h.door x hx
      obtain ⟨w, hw, hzw⟩ := State.endTake_door (b := s.yard) (s := u) hz
      rw [hw]
      show some w.static = some x.static
      rw [hzw, ← hr.1]
  · intro g hg
    exact h.groups g hg
  · exact State.takeEnds_of (by rw [hu]) h.alarms

theorem State.oneDoor_doorTake {s : State} {f : Yard → Env → Yard} {cs : List Capture} {d : Nat}
    (h : Yard.Calm d s.yard (f s.yard s.env)) : OneDoor d s (s.doorTake f cs) := by
  unfold State.doorTake
  apply State.oneDoor_take
  · rw [State.captures_yard]; exact h
  · rw [State.captures_eq]; rfl

/-- A take of door events whose operation keeps every alarm state ends with the evaluation. -/
theorem State.takeEnds_doorTake {s : State} {f : Yard → Env → Yard} {cs : List Capture}
    (h : Yard.AlarmsKept s.yard (f s.yard s.env)) : TakeEnds s (s.doorTake f cs) := by
  unfold State.doorTake
  apply State.takeEnds_of
  · rw [State.captures_eq]; rfl
  · intro k
    rw [State.captures_door]
    exact h k

/-! ## The group's part -/

theorem State.leavesGroup_of {d : Nat} {x : Door} {s t : State}
    (h : ∀ g, x.st.cls = .powered g → t.yard.groups.get g = { s.yard.groups.get g with
      holders := (s.yard.groups.get g).holders.filter (· != d)
      queue := (s.yard.groups.get g).queue.filter (· != d) }) : LeavesGroup d x s t := by
  intro g hg
  rw [h g hg]
  exact ⟨rfl, rfl, rfl⟩

end Sys2Proof.Machine
end

