-- ==== Sys2Proof/Laws/Drive.lean ====
section
/-! SUPPORT. Exact results of the drive machine's operations: a change of drive state, the enforcement check, a motion
request, and what they do to the door's group. -/

namespace Sys2Proof.Machine

/-! ## Lists of door numbers -/

theorem filter_ne_of_not_mem {d : Nat} {l : List Nat} (h : d ∉ l) : l.filter (· != d) = l := by
  apply List.filter_eq_self.mpr
  intro a ha
  simp only [bne_iff_ne, ne_eq]
  rintro rfl
  exact h ha

theorem takeWhile_congr {α : Type} {p q : α → Bool} {l : List α} (h : ∀ a ∈ l, p a = q a) :
    l.takeWhile p = l.takeWhile q := by
  induction l with
  | nil => rfl
  | cons a l ih =>
    simp only [List.takeWhile_cons, h a (by simp)]
    split
    · rw [ih fun b hb => h b (by simp [hb])]
    · rfl

theorem dropWhile_congr {α : Type} {p q : α → Bool} {l : List α} (h : ∀ a ∈ l, p a = q a) :
    l.dropWhile p = l.dropWhile q := by
  induction l with
  | nil => rfl
  | cons a l ih =>
    simp only [List.dropWhile_cons, h a (by simp)]
    split
    · rw [ih fun b hb => h b (by simp [hb])]
    · rfl

/-- The place of an entry depends on the classes of the entries alone. -/
theorem Yard.enqueue_congr {y z : Yard} {l : List Nat} (cls d : Nat)
    (h : ∀ a ∈ l, y.classOf a = z.classOf a) : y.enqueue cls d l = z.enqueue cls d l := by
  unfold Yard.enqueue
  rw [takeWhile_congr (q := fun e => decide (z.classOf e ≤ cls)) fun a ha => by rw [h a ha],
    dropWhile_congr (q := fun e => decide (z.classOf e ≤ cls)) fun a ha => by rw [h a ha]]

theorem Yard.classOf_modify_ne (y : Yard) {d a : Nat} (f : Door → Door) (h : a ≠ d) :
    (y.modify d f).classOf a = y.classOf a := by
  unfold Yard.classOf
  rw [Yard.modify_get_ne y f h]

/-- A door's own record does not enter the place of its entry. -/
theorem Yard.enqueue_modify (y : Yard) (d : Nat) (f : Door → Door) (cls : Nat) {l : List Nat}
    (h : d ∉ l) : (y.modify d f).enqueue cls d l = y.enqueue cls d l := by
  apply Yard.enqueue_congr
  intro a ha
  exact Yard.classOf_modify_ne _ _ (by rintro rfl; exact h ha)

theorem not_mem_filter_ne (d : Nat) (l : List Nat) : d ∉ l.filter (· != d) := by
  simp

/-! ## The holder set and the queue -/

theorem updateHolders_leave {d : Nat} {new : Drive} (h : new.hasSlot = false) (l : List Nat) :
    updateHolders d new l = l.filter (· != d) := by
  simp [updateHolders, h]

theorem updateHolders_stay {d : Nat} {new : Drive} (h : new.hasSlot = true) {l : List Nat}
    (hd : d ∈ l) : updateHolders d new l = l := by
  simp [updateHolders, h, hd]

theorem updateHolders_enter {d : Nat} {new : Drive} (h : new.hasSlot = true) {l : List Nat}
    (hd : d ∉ l) : updateHolders d new l = l ++ [d] := by
  simp [updateHolders, h, hd]

theorem Yard.updateQueue_leave (y : Yard) (d : Nat) (old : Drive) {new : Drive}
    (h : new.isQueued = false) (l : List Nat) : y.updateQueue d old new l = l.filter (· != d) := by
  simp [Yard.updateQueue, h]

theorem Yard.updateQueue_join (y : Yard) (d : Nat) {old new : Drive} (h : new.isQueued = true)
    (ho : old.isQueued = false) (l : List Nat) :
    y.updateQueue d old new l = y.enqueue new.queueClass d (l.filter (· != d)) := by
  simp [Yard.updateQueue, h, ho]

/-! ## A change of drive state -/

/-- The record after a change whose freshness timer meets no limit. -/
theorem Yard.changeDrive_within_door {y : Yard} {e : Env} {d : Nat} {x : Door} {new : Drive} {c : Bool}
    (hx : y.doors[d]? = some x)
    (h : x.drive.bound = new.bound ∨ x.inp.within e.clock (e.freshnessLimit new)) :
    (y.changeDrive e d new c).doors[d]? =
      some { x with drive := new, prot := x.prot.runTake e x.drive new c } := by
  rw [Yard.changeDrive_within hx h]
  simp only
  rw [Yard.modify_get_same, hx]; rfl

/-- The LO fall of a door that becomes stale changes nothing but the hold flag. -/
def Door.staleQuiet (e : Env) (x : Door) : Prop := x.inp.debounced.lo = false ∨ loFallDrive e x = none

/-- R14: the record of a door that becomes stale without a change of drive state. -/
def Door.gonestale (x : Door) : Door :=
  { { x with inp := { x.inp.loseSight with stale := true, freshness := none } }.positionLost with
    hold := x.hold && !x.inp.debounced.lo }

theorem Yard.goStale_quiet {y : Yard} {e : Env} {d : Nat} {x : Door} (hx : y.doors[d]? = some x)
    (hs : x.inp.stale = false) (h : x.staleQuiet e) :
    y.goStale e d = y.modify d fun _ => x.gonestale := by
  unfold Yard.goStale
  simp only [hx, hs, Bool.false_eq_true, if_false]
  rcases h with h | h
  · simp only [h, Bool.false_eq_true, if_false]
    apply Yard.modify_congr hx
    simp [Door.gonestale, Door.positionLost, h]
  · rw [h]
    split
    · next hlo =>
      simp only
      rw [Yard.modify_modify]
      apply Yard.modify_congr hx
      simp [Door.gonestale, Door.positionLost, hlo]
    · next hlo =>
      apply Yard.modify_congr hx
      simp [Door.gonestale, Door.positionLost, hlo]

/-- R13: a judged timer leaves a door as it is, or makes it stale. -/
theorem Yard.judgeFreshness_quiet {y : Yard} {e : Env} {d : Nat} {x : Door}
    (hx : y.doors[d]? = some x) (h : x.staleQuiet e) :
    y.judgeFreshness e d = y ∨
      (x.inp.stale = false ∧ y.judgeFreshness e d = y.modify d fun _ => x.gonestale) := by
  unfold Yard.judgeFreshness
  simp only [hx]
  cases hs : x.inp.stale with
  | true =>
    left
    split
    · rfl
    · split
      · unfold Yard.goStale; simp [hx, hs]
      · rfl
  | false =>
    split
    · exact .inl rfl
    · split
      · exact .inr ⟨rfl, Yard.goStale_quiet hx hs h⟩
      · exact .inl rfl

/-- What a change of drive state leaves of a door whose drive state stands even where it becomes stale. -/
structure Door.Driven (e : Env) (x : Door) (new : Drive) (c : Bool) (z : Door) : Prop where
  steady : Door.Steady True x z
  drive : z.drive = new
  prot : z.prot = x.prot.runTake e x.drive new c ∨
    z.prot = (x.prot.cancelSettle).runTake e x.drive new c
  hold : z.hold = x.hold ∨ z.hold = (x.hold && !x.inp.debounced.lo)

/-- A change of drive state that no LO fall can overtake: the drive state is the new one, and the group's record is the
arbiter's. -/
theorem Yard.changeDrive_quiet {y : Yard} {e : Env} {d : Nat} {x : Door} {new : Drive} {c : Bool}
    (hx : y.doors[d]? = some x) (h : ({ x with drive := new } : Door).staleQuiet e) :
    (∃ z, (y.changeDrive e d new c).doors[d]? = some z ∧ Door.Driven e x new c z) ∧
      (y.changeDrive e d new c).groups =
        ((y.modify d fun z => { z with drive := new }).arbiterTake d x x.drive new).groups := by
  have hst := (Yard.steady_changeDrive (Yard.fresh_true e d y) new c).door x hx
  unfold Yard.changeDrive at hst ⊢
  simp only [hx] at hst ⊢
  rw [Yard.runTake_eq] at hst ⊢
  have h1 : ((y.modify d fun z => { z with drive := new }).arbiterTake d x x.drive new).doors[d]? =
      some { x with drive := new } := by
    rw [Yard.arbiterTake_doors, Yard.modify_get_same, hx]; rfl
  split at hst
  · next hb =>
    rw [if_pos hb]
    obtain ⟨z, hz, hs⟩ := hst
    refine ⟨⟨z, hz, hs, ?_, .inl ?_, .inl ?_⟩, rfl⟩ <;>
    · rw [Yard.modify_get_same, h1] at hz
      obtain rfl := Option.some.inj hz
      rfl
  · next hb =>
    rw [if_neg hb]
    obtain ⟨z, hz, hs⟩ := hst
    rcases Yard.judgeFreshness_quiet h1 h with hj | ⟨hns, hj⟩
    · rw [hj] at hz ⊢
      refine ⟨⟨z, hz, hs, ?_, .inl ?_, .inl ?_⟩, rfl⟩ <;>
      · rw [Yard.modify_get_same, h1] at hz
        obtain rfl := Option.some.inj hz
        rfl
    · rw [hj] at hz ⊢
      refine ⟨⟨z, hz, hs, ?_, ?_, .inr ?_⟩, rfl⟩
      all_goals
        rw [Yard.modify_get_same, Yard.modify_get_same, h1] at hz
        obtain rfl := Option.some.inj hz
      · rfl
      · simp only [Door.gonestale, Door.positionLost]
        split
        · exact .inr rfl
        · exact .inl rfl
      · rfl

/-! ## What a change does to the door's group -/

/-- A change of drive state after which no LO fall takes effect. -/
def Door.plain (e : Env) (x : Door) (new : Drive) : Prop :=
  x.drive.bound = new.bound ∨ x.inp.within e.clock (e.freshnessLimit new) ∨
    ({ x with drive := new } : Door).staleQuiet e

theorem Yard.changeDrive_own {y : Yard} {e : Env} {d : Nat} {x : Door} {new : Drive} {c : Bool}
    (hx : y.doors[d]? = some x) (h : x.plain e new) {g : GroupNum} (hg : x.st.cls = .powered g) :
    (y.changeDrive e d new c).groups.get g =
      { slotCount := (y.groups.get g).slotCount
        holders := updateHolders d new (y.groups.get g).holders
        queue := (y.modify d fun z => { z with drive := new }).updateQueue d x.drive new
          (y.groups.get g).queue } := by
  have h1 : (y.changeDrive e d new c).groups =
      ((y.modify d fun z => { z with drive := new }).arbiterTake d x x.drive new).groups := by
    rcases h with h | h | h
    · rw [Yard.changeDrive_within hx (.inl h)]
    · rw [Yard.changeDrive_within hx (.inr h)]
    · exact (Yard.changeDrive_quiet hx h).2
  rw [h1, Yard.arbiterTake_own _ _ _ _ _ hg]
  rfl

/-- R71, R75: a door that goes where it neither holds nor waits for a slot leaves both. -/
theorem Yard.changeDrive_leaves {y : Yard} {e : Env} {d : Nat} {x : Door} {new : Drive} {c : Bool}
    (hx : y.doors[d]? = some x) (h : x.plain e new) (hs : new.hasSlot = false)
    (hq : new.isQueued = false) {g : GroupNum} (hg : x.st.cls = .powered g) :
    (y.changeDrive e d new c).groups.get g =
      { slotCount := (y.groups.get g).slotCount
        holders := (y.groups.get g).holders.filter (· != d)
        queue := (y.groups.get g).queue.filter (· != d) } := by
  rw [Yard.changeDrive_own hx h hg, updateHolders_leave hs, Yard.updateQueue_leave _ _ _ hq]

/-- R68: a door that joins the queue. -/
theorem Yard.changeDrive_joins {y : Yard} {e : Env} {d : Nat} {x : Door} {new : Drive} {c : Bool}
    (hx : y.doors[d]? = some x) (h : x.plain e new) (hn : new.isQueued = true)
    (ho : x.drive.isQueued = false) {g : GroupNum} (hg : x.st.cls = .powered g)
    (hq : d ∉ (y.groups.get g).queue) (hh : d ∉ (y.groups.get g).holders) :
    (y.changeDrive e d new c).groups.get g =
      { slotCount := (y.groups.get g).slotCount
        holders := (y.groups.get g).holders
        queue := y.enqueue new.queueClass d (y.groups.get g).queue } := by
  have hs : new.hasSlot = false := by cases new <;> simp_all [Drive.isQueued, Drive.hasSlot]
  rw [Yard.changeDrive_own hx h hg, updateHolders_leave hs, Yard.updateQueue_join _ _ hn ho,
    filter_ne_of_not_mem hq, filter_ne_of_not_mem hh, Yard.enqueue_modify _ _ _ _ hq]

/-- R66: a door that holds a slot and goes on holding it. -/
theorem Yard.changeDrive_keeps {y : Yard} {e : Env} {d : Nat} {x : Door} {new : Drive} {c : Bool}
    (hx : y.doors[d]? = some x) (h : x.plain e new) (hs : new.hasSlot = true)
    {g : GroupNum} (hg : x.st.cls = .powered g)
    (hq : d ∉ (y.groups.get g).queue) (hh : d ∈ (y.groups.get g).holders) :
    (y.changeDrive e d new c).groups.get g = y.groups.get g := by
  have hn : new.isQueued = false := by cases new <;> simp_all [Drive.isQueued, Drive.hasSlot]
  rw [Yard.changeDrive_own hx h hg, updateHolders_stay hs hh, Yard.updateQueue_leave _ _ _ hn,
    filter_ne_of_not_mem hq]

/-- A door that is not bound, and has no part in its group, becomes stale without touching the group. -/
theorem Yard.goStale_idle_own {y : Yard} {e : Env} {d : Nat} {x : Door} (hx : y.doors[d]? = some x)
    (hb : x.drive.bound = false) {g : GroupNum} (hg : x.st.cls = .powered g)
    (hq : d ∉ (y.groups.get g).queue) (hh : d ∉ (y.groups.get g).holders) :
    (y.goStale e d).groups.get g = y.groups.get g := by
  unfold Yard.goStale
  simp only [hx]
  split
  · rfl
  · split
    · split
      · next new hnew =>
        have hn : new.hasSlot = false ∧ new.isQueued = false := by
          unfold loFallDrive at hnew
          split at hnew
          · cases hnew
          · split at hnew
            · next h => rw [h] at hb; cases hb
            · next h => rw [h] at hb; cases hb
            · split at hnew
              · cases hnew; exact ⟨rfl, rfl⟩
              · cases hnew
            · cases hnew
        unfold Yard.changeStopped
        rw [Yard.modify_modify, Yard.modify_get_same, hx]
        simp only [Option.map_some, Yard.runTake_groups]
        rw [Yard.arbiterTake_own _ _ _ _ _ (by simpa [Door.positionLost] using hg)]
        rw [updateHolders_leave hn.1, Yard.updateQueue_leave _ _ _ hn.2]
        simp only [Yard.modify_groups, filter_ne_of_not_mem hq, filter_ne_of_not_mem hh]
      · rfl
    · rfl

/-- R71, R75: a door that goes to RESTING leaves its group, stale or not. -/
theorem Yard.changeDrive_resting_leaves {y : Yard} {e : Env} {d : Nat} {x : Door} {c : Bool}
    (hx : y.doors[d]? = some x) {g : GroupNum} (hg : x.st.cls = .powered g) {new : Drive}
    (hb : new.bound = false) :
    (y.changeDrive e d new c).groups.get g =
      { slotCount := (y.groups.get g).slotCount
        holders := (y.groups.get g).holders.filter (· != d)
        queue := (y.groups.get g).queue.filter (· != d) } := by
  have hs : new.hasSlot = false := by cases new <;> simp_all [Drive.bound, Drive.hasSlot]
  have hq : new.isQueued = false := by cases new <;> simp_all [Drive.bound, Drive.isQueued]
  unfold Yard.changeDrive
  simp only [hx, Yard.runTake_groups]
  have h1 : ((y.modify d fun z => { z with drive := new }).arbiterTake d x x.drive new).doors[d]? =
      some { x with drive := new } := by
    rw [Yard.arbiterTake_doors, Yard.modify_get_same, hx]; rfl
  have h2 : ((y.modify d fun z => { z with drive := new }).arbiterTake d x x.drive new).groups.get g =
      { slotCount := (y.groups.get g).slotCount
        holders := (y.groups.get g).holders.filter (· != d)
        queue := (y.groups.get g).queue.filter (· != d) } := by
    rw [Yard.arbiterTake_own _ _ _ _ _ hg, updateHolders_leave hs, Yard.updateQueue_leave _ _ _ hq]
    rfl
  split
  · exact h2
  · refine Eq.trans ?_ h2
    unfold Yard.judgeFreshness
    rw [h1]
    simp only
    split
    · rfl
    · split
      · apply Yard.goStale_idle_own h1 hb hg
        · rw [h2]; exact not_mem_filter_ne _ _
        · rw [h2]; exact not_mem_filter_ne _ _
      · rfl

/-! ## The enforcement check -/

theorem Door.enforceable_iff {s : State} {x : Door} :
    x.enforceable s.env = true ↔ Enforced s x x.hold ∧ x.drive = .resting := by
  unfold Door.enforceable Enforced Env.doorsClosed State.env
  simp only [Bool.and_eq_true, beq_iff_eq, Bool.not_eq_true']
  constructor
  · rintro ⟨⟨⟨⟨⟨h1, h2⟩, h3⟩, h4⟩, h5⟩, h6⟩
    refine ⟨⟨h1, h2, h3, h5, ?_⟩, h4⟩
    cases hp : x.position <;> simp_all [Position.standsOpen]
  · rintro ⟨⟨h1, h2, h3, h5, h6⟩, h4⟩
    refine ⟨⟨⟨⟨⟨h1, h2⟩, h3⟩, h4⟩, h5⟩, ?_⟩
    rcases h6 with h6 | h6 <;> rw [h6] <;> rfl

/-- The check passes over a door that fails one of its conditions. -/
theorem Yard.enforce_passes {y : Yard} {e : Env} {d : Nat} {x : Door} (hx : y.doors[d]? = some x)
    (h : x.enforceable e = false) : y.enforce e d = y := by
  unfold Yard.enforce; simp [hx, h]

theorem Yard.enforce_queues {y : Yard} {e : Env} {d : Nat} {x : Door} (hx : y.doors[d]? = some x)
    (h : x.enforceable e = true) :
    y.enforce e d = y.changeDrive e d (.queued .toClose .mode) false := by
  unfold Yard.enforce; simp [hx, h]

/-- A door that is not RESTING is not the subject of the check. -/
theorem Door.enforceable_of_drive {e : Env} {x : Door} (h : x.drive ≠ .resting) :
    x.enforceable e = false := by
  unfold Door.enforceable
  simp [h]

/-! ## Timers -/

theorem State.atExpiry_due {s : State} {n : Nat} {take : State → State} (h : n ≤ s.clock) :
    s.atExpiry (some n) take = take s := by
  simp [State.atExpiry, State.reached, h]

/-- An expiry whose moment has not come, or whose timer does not run, changes nothing (log 3, log 4). -/
theorem State.atExpiry_early {s : State} {timer : Option Nat} {take : State → State}
    (h : ∀ n, timer = some n → s.clock < n) : s.atExpiry timer take = s := by
  unfold State.atExpiry State.reached
  cases timer with
  | none => rfl
  | some n =>
    have := h n rfl
    simp only [decide_eq_true_eq, if_neg (by omega : ¬ n ≤ s.clock)]

theorem State.doorTimer_some {s : State} {d : Nat} {x : Door} (hx : s.door? d = some x)
    (get : Door → Option Nat) : s.doorTimer d get = get x := by
  simp [State.doorTimer, hx]

end Sys2Proof.Machine
end

