-- ==== Sys2Proof/Laws/Groups.lean ====
section
/-! SUPPORT. The laws of the power groups (R21, R66, R67) under each operation: a change of drive state keeps them where a
door that enters the slot holder set finds a free slot. -/

namespace Sys2Proof.Machine

/-! ## The two lists -/

theorem mem_updateHolders {d k : Nat} {new : Drive} {l : List Nat} :
    k ∈ updateHolders d new l ↔ (k = d ∧ new.hasSlot = true) ∨ (k ≠ d ∧ k ∈ l) := by
  unfold updateHolders
  by_cases hs : new.hasSlot = true
  · by_cases hd : d ∈ l
    · simp only [hs, hd, List.contains_eq_mem, decide_true, if_true, and_true]
      by_cases hk : k = d
      · subst hk; simp [hd]
      · simp [hk]
    · simp only [hs, hd, List.contains_eq_mem, decide_false, if_true, Bool.false_eq_true, if_false,
        List.mem_append, List.mem_singleton, and_true]
      constructor
      · rintro (h | h)
        · exact .inr ⟨by rintro rfl; exact hd h, h⟩
        · exact .inl h
      · rintro (h | h)
        · exact .inr h
        · exact .inl h.2
  · simp only [hs, if_false, List.mem_filter, bne_iff_ne, ne_eq, and_false, false_or, Bool.false_eq_true]
    exact and_comm

theorem nodup_updateHolders {d : Nat} {new : Drive} {l : List Nat} (h : l.Nodup) :
    (updateHolders d new l).Nodup := by
  unfold updateHolders
  split
  · split
    · exact h
    · next hd =>
      rw [List.nodup_append]
      refine ⟨h, by simp, ?_⟩
      intro a ha b hb hab
      simp only [List.mem_singleton] at hb
      subst hab; subst hb
      exact hd (by simpa using ha)
  · exact h.filter _

theorem length_updateHolders {d : Nat} {new : Drive} {l : List Nat} {n : Nat} (h : l.length ≤ n)
    (hf : new.hasSlot = true → d ∉ l → l.length < n) : (updateHolders d new l).length ≤ n := by
  unfold updateHolders
  split
  · next hs =>
    split
    · exact h
    · next hd =>
      have := hf hs (by simpa using hd)
      simp only [List.length_append, List.length_singleton]
      omega
  · exact (List.length_filter_le _ _).trans h

theorem Yard.mem_enqueue (y : Yard) (cls d k : Nat) (l : List Nat) :
    k ∈ y.enqueue cls d l ↔ k = d ∨ k ∈ l := by
  unfold Yard.enqueue
  conv_rhs => rw [← List.takeWhile_append_dropWhile (p := fun e => decide (y.classOf e ≤ cls)) (l := l)]
  simp only [List.mem_append, List.mem_cons]
  tauto

theorem Yard.nodup_enqueue (y : Yard) (cls : Nat) {d : Nat} {l : List Nat} (h : l.Nodup) (hd : d ∉ l) :
    (y.enqueue cls d l).Nodup := by
  unfold Yard.enqueue
  have hp : List.Perm (l.takeWhile (fun e => decide (y.classOf e ≤ cls)) ++
      d :: l.dropWhile (fun e => decide (y.classOf e ≤ cls))) (d :: l) := by
    refine List.perm_middle.trans ?_
    rw [List.takeWhile_append_dropWhile]
  exact hp.nodup_iff.mpr (List.nodup_cons.mpr ⟨hd, h⟩)

theorem mem_takeWhile_holds {α : Type} {p : α → Bool} {l : List α} {a : α} (h : a ∈ l.takeWhile p) :
    p a = true := by
  induction l with
  | nil => simp at h
  | cons b l ih =>
    rw [List.takeWhile_cons] at h
    split at h
    · rcases List.mem_cons.mp h with rfl | h
      · assumption
      · exact ih h
    · simp at h

/-- In a list in class order, the entries behind the place found are of later classes. -/
theorem mem_dropWhile_above {f : Nat → Nat} {cls : Nat} {l : List Nat}
    (h : l.Pairwise fun a b => f a ≤ f b) {a : Nat}
    (ha : a ∈ l.dropWhile (fun e => decide (f e ≤ cls))) : cls < f a := by
  induction l with
  | nil => simp at ha
  | cons b l ih =>
    rw [List.dropWhile_cons] at ha
    have hp := List.pairwise_cons.mp h
    split at ha
    · exact ih hp.2 ha
    · next hb =>
      have hb' : cls < f b := by simpa using hb
      rcases List.mem_cons.mp ha with rfl | ha
      · exact hb'
      · exact lt_of_lt_of_le hb' (hp.1 a ha)

/-- R68: an entry placed at the tail of its class keeps the queue in class order. -/
theorem Yard.order_enqueue {y : Yard} {d : Nat} {l : List Nat}
    (h : l.Pairwise fun a b => y.classOf a ≤ y.classOf b) :
    (y.enqueue (y.classOf d) d l).Pairwise fun a b => y.classOf a ≤ y.classOf b := by
  unfold Yard.enqueue
  have hsplit := List.takeWhile_append_dropWhile (p := fun e => decide (y.classOf e ≤ y.classOf d)) (l := l)
  rw [List.pairwise_append]
  have hboth : (l.takeWhile (fun e => decide (y.classOf e ≤ y.classOf d)) ++
      l.dropWhile (fun e => decide (y.classOf e ≤ y.classOf d))).Pairwise
        fun a b => y.classOf a ≤ y.classOf b := by rw [hsplit]; exact h
  rw [List.pairwise_append] at hboth
  refine ⟨hboth.1, ?_, ?_⟩
  · rw [List.pairwise_cons]
    refine ⟨fun b hb => ?_, hboth.2.1⟩
    exact Nat.le_of_lt (mem_dropWhile_above h hb)
  · intro a ha b hb
    rcases List.mem_cons.mp hb with rfl | hb
    · simpa using mem_takeWhile_holds ha
    · exact hboth.2.2 a ha b hb

/-! ## Changes that leave drive states alone -/

/-- The laws depend on the static parts and the drive states of the doors. -/
theorem Yard.arbiterLawful_of {y z : Yard} (hl : y.arbiterLawful) (hg : z.groups = y.groups)
    (hd : ∀ k : Nat, (z.doors[k]?).map (fun x : Door => (x.st.cls, x.drive)) =
      (y.doors[k]?).map (fun x : Door => (x.st.cls, x.drive))) : z.arbiterLawful := by
  have fwd : ∀ (k : Nat) (x : Door), z.doors[k]? = some x → ∃ w, y.doors[k]? = some w ∧ w.st.cls = x.st.cls ∧
      w.drive = x.drive := by
    intro k x hx
    have := hd k
    rw [hx] at this
    cases hw : y.doors[k]? with
    | none => rw [hw] at this; simp at this
    | some w =>
      rw [hw] at this
      simp only [Option.map_some, Option.some.injEq, Prod.mk.injEq] at this
      exact ⟨w, rfl, this.1.symm, this.2.symm⟩
  have bwd : ∀ (k : Nat) (w : Door), y.doors[k]? = some w → ∃ x, z.doors[k]? = some x ∧ x.st.cls = w.st.cls ∧
      x.drive = w.drive := by
    intro k w hw
    have := hd k
    rw [hw] at this
    cases hx : z.doors[k]? with
    | none => rw [hx] at this; simp at this
    | some x =>
      rw [hx] at this
      simp only [Option.map_some, Option.some.injEq, Prod.mk.injEq] at this
      exact ⟨x, rfl, this.1, this.2⟩
  have hc : ∀ k, z.classOf k = y.classOf k := by
    intro k
    unfold Yard.classOf
    cases hx : z.doors[k]? with
    | none =>
      cases hw : y.doors[k]? with
      | none => rfl
      | some w => obtain ⟨x, hx', _⟩ := bwd k w hw; rw [hx] at hx'; cases hx'
    | some x =>
      obtain ⟨w, hw, _, hdr⟩ := fwd k x hx
      rw [hw]; simp only; rw [hdr]
  refine ⟨?_, ?_, ?_, ?_, ?_, ?_⟩
  · rw [hg]; exact hl.once
  · intro g d
    rw [hg, hl.holders g d]
    constructor
    · rintro ⟨w, hw, h1, h2⟩
      obtain ⟨x, hx, hc', hd'⟩ := bwd d w hw
      exact ⟨x, hx, by rw [hc', h1], by rw [hd', h2]⟩
    · rintro ⟨x, hx, h1, h2⟩
      obtain ⟨w, hw, hc', hd'⟩ := fwd d x hx
      exact ⟨w, hw, by rw [hc', h1], by rw [hd', h2]⟩
  · intro g d
    rw [hg, hl.queue g d]
    constructor
    · rintro ⟨w, hw, h1, h2⟩
      obtain ⟨x, hx, hc', hd'⟩ := bwd d w hw
      exact ⟨x, hx, by rw [hc', h1], by rw [hd', h2]⟩
    · rintro ⟨x, hx, h1, h2⟩
      obtain ⟨w, hw, hc', hd'⟩ := fwd d x hx
      exact ⟨w, hw, by rw [hc', h1], by rw [hd', h2]⟩
  · rw [hg]; exact hl.slots
  · intro g
    rw [hg]
    simp only [hc]
    exact hl.order g
  · intro d x hx hi
    obtain ⟨w, hw, hc', hd'⟩ := fwd d x hx
    rw [← hd']
    exact hl.indicated d w hw (by rw [hc', hi])

/-- A change of a record that keeps its static part and drive state. -/
theorem Yard.arbiterLawful_modify {y : Yard} (hl : y.arbiterLawful) (d : Nat) (f : Door → Door)
    (hf : ∀ x, y.doors[d]? = some x → (f x).st = x.st ∧ (f x).drive = x.drive) :
    (y.modify d f).arbiterLawful := by
  refine Yard.arbiterLawful_of (z := y.modify d f) hl rfl ?_
  intro k
  rw [Yard.modify_get]
  split
  · next hk =>
    subst hk
    cases hx : y.doors[k]? with
    | none => rfl
    | some x =>
      have := hf x hx
      simp only [Option.map_some, this.1, this.2]
  · rfl

/-! ## A change of drive state -/

/-- What a change of drive state needs to keep the laws: a door that enters the slot holder set finds a free slot, and an
INDICATED door rests or is isolated. -/
structure Yard.MayGo (y : Yard) (x : Door) (new : Drive) : Prop where
  slot : ∀ g, x.st.cls = .powered g → new.hasSlot = true → x.drive.hasSlot = true ∨
    (y.groups.get g).holders.length < (y.groups.get g).slotCount.getD 0
  indicated : x.st.cls = .indicated → new = .resting ∨ new = .isolated

theorem Yard.mayGo_idle {y : Yard} {x : Door} {new : Drive} (h : new.hasSlot = false)
    (hi : x.st.cls = .indicated → new = .resting ∨ new = .isolated) : y.MayGo x new :=
  ⟨fun _ _ hs => (by rw [h] at hs; cases hs), hi⟩

/-- R22 step 1 keeps the laws. -/
theorem Yard.arbiterLawful_take {y : Yard} (hl : y.arbiterLawful) {d : Nat} {x : Door}
    (hx : y.doors[d]? = some x) {new : Drive} (hm : y.MayGo x new) :
    ((y.modify d fun z => { z with drive := new }).arbiterTake d x x.drive new).arbiterLawful := by
  let y1 := y.modify d fun z => { z with drive := new }
  have hdoor : ∀ k, (y1.arbiterTake d x x.drive new).doors[k]? =
      if k = d then some { x with drive := new } else y.doors[k]? := by
    intro k
    rw [Yard.arbiterTake_doors, Yard.modify_get]
    split
    · next h => subst h; rw [hx]; rfl
    · rfl
  have hclass : ∀ k, (y1.arbiterTake d x x.drive new).classOf k =
      if k = d then new.queueClass else y.classOf k := by
    intro k
    unfold Yard.classOf
    rw [hdoor]
    by_cases hk : k = d
    · simp only [hk, if_true]
    · simp only [hk, if_false]
  have hslotq : ¬ (new.hasSlot = true ∧ new.isQueued = true) := by
    cases new <;> simp [Drive.hasSlot, Drive.isQueued]
  cases hcls : x.st.cls with
  | indicated =>
    have hgroups : ∀ g, (y1.arbiterTake d x x.drive new).groups.get g = y.groups.get g := by
      intro g; exact Yard.arbiterTake_other _ _ _ _ _ (by rw [hcls]; simp)
    have hidle : new.hasSlot = false ∧ new.isQueued = false := by
      rcases hm.indicated hcls with h | h <;> rw [h] <;> exact ⟨rfl, rfl⟩
    have hd_not : ∀ g, d ∉ (y.groups.get g).queue := by
      intro g h
      obtain ⟨w, hw, hc, _⟩ := (hl.queue g d).mp h
      rw [hx] at hw; obtain rfl := Option.some.inj hw
      rw [hcls] at hc; cases hc
    refine ⟨?_, ?_, ?_, ?_, ?_, ?_⟩
    · intro g; rw [hgroups]; exact hl.once g
    · intro g k
      rw [hgroups, hl.holders, hdoor]
      by_cases hk : k = d
      · subst hk
        simp only [if_true, hx]
        constructor
        · rintro ⟨w, hw, hc, _⟩
          obtain rfl := Option.some.inj hw
          rw [hcls] at hc; cases hc
        · rintro ⟨w, hw, hc, _⟩
          obtain rfl := Option.some.inj hw
          rw [show ({ x with drive := new } : Door).st.cls = x.st.cls from rfl, hcls] at hc; cases hc
      · simp only [hk, if_false]
    · intro g k
      rw [hgroups, hl.queue, hdoor]
      by_cases hk : k = d
      · subst hk
        simp only [if_true, hx]
        constructor
        · rintro ⟨w, hw, hc, _⟩
          obtain rfl := Option.some.inj hw
          rw [hcls] at hc; cases hc
        · rintro ⟨w, hw, hc, _⟩
          obtain rfl := Option.some.inj hw
          rw [show ({ x with drive := new } : Door).st.cls = x.st.cls from rfl, hcls] at hc; cases hc
      · simp only [hk, if_false]
    · intro g; rw [hgroups]; exact hl.slots g
    · intro g
      rw [hgroups]
      refine (hl.order g).imp_of_mem ?_
      intro a b ha hb hab
      rw [hclass, hclass, if_neg (by rintro rfl; exact hd_not g ha),
        if_neg (by rintro rfl; exact hd_not g hb)]
      exact hab
    · intro k w hw hi
      rw [hdoor] at hw
      split at hw
      · obtain rfl := Option.some.inj hw
        exact hm.indicated hcls
      · exact hl.indicated k w hw hi
  | powered g0 =>
    have hown := Yard.arbiterTake_own y1 d x x.drive new hcls
    have hother : ∀ g, g ≠ g0 → (y1.arbiterTake d x x.drive new).groups.get g = y.groups.get g := by
      intro g hg
      exact Yard.arbiterTake_other _ _ _ _ _ (by rw [hcls]; simpa using Ne.symm hg)
    have hinq : d ∈ (y.groups.get g0).queue ↔ x.drive.isQueued = true := by
      rw [hl.queue]
      constructor
      · rintro ⟨w, hw, _, hq⟩
        rw [hx] at hw; obtain rfl := Option.some.inj hw; exact hq
      · intro hq; exact ⟨x, hx, hcls, hq⟩
    have hinh : d ∈ (y.groups.get g0).holders ↔ x.drive.hasSlot = true := by
      rw [hl.holders]
      constructor
      · rintro ⟨w, hw, _, hq⟩
        rw [hx] at hw; obtain rfl := Option.some.inj hw; exact hq
      · intro hq; exact ⟨x, hx, hcls, hq⟩
    have hnotother : ∀ g, g ≠ g0 → d ∉ (y.groups.get g).queue := by
      intro g hg h
      obtain ⟨w, hw, hc, _⟩ := (hl.queue g d).mp h
      rw [hx] at hw; obtain rfl := Option.some.inj hw
      rw [hcls] at hc; cases hc; exact hg rfl
    have hmemq : ∀ k, k ∈ y1.updateQueue d x.drive new (y.groups.get g0).queue ↔
        (k = d ∧ new.isQueued = true) ∨ (k ≠ d ∧ k ∈ (y.groups.get g0).queue) := by
      intro k
      unfold Yard.updateQueue
      split
      · next hn =>
        split
        · next ho =>
          simp only [Bool.and_eq_true] at ho
          have hdq := hinq.mpr ho.1
          by_cases hk : k = d
          · subst hk; simp [hdq, hn]
          · simp [hk]
        · rw [Yard.mem_enqueue]
          by_cases hk : k = d
          · simp [hk, hn]
          · simp [hk]
      · next hn =>
        simp only [List.mem_filter, bne_iff_ne, ne_eq, hn, and_false, false_or, Bool.false_eq_true]
        exact and_comm
    refine ⟨?_, ?_, ?_, ?_, ?_, ?_⟩
    · intro g
      by_cases hg : g = g0
      · subst hg
        rw [hown]
        refine ⟨nodup_updateHolders (hl.once g).1, ?_⟩
        show (y1.updateQueue d x.drive new (y.groups.get g).queue).Nodup
        unfold Yard.updateQueue
        split
        · split
          · exact (hl.once g).2
          · exact Yard.nodup_enqueue _ _ ((hl.once g).2.filter _) (not_mem_filter_ne _ _)
        · exact (hl.once g).2.filter _
      · rw [hother g hg]; exact hl.once g
    · intro g k
      by_cases hg : g = g0
      · subst hg
        rw [hown, hdoor]
        show k ∈ updateHolders d new (y.groups.get g).holders ↔ _
        rw [mem_updateHolders, hl.holders]
        by_cases hk : k = d
        · subst hk
          simp only [if_true, true_and, ne_eq, not_true, false_and, or_false]
          constructor
          · intro h; exact ⟨_, rfl, hcls, h⟩
          · rintro ⟨w, hw, _, h⟩; obtain rfl := Option.some.inj hw; exact h
        · simp only [hk, if_false, false_and, false_or, ne_eq, not_false_eq_true, true_and]
      · rw [hother g hg, hl.holders, hdoor]
        by_cases hk : k = d
        · subst hk
          simp only [if_true, hx]
          constructor
          · rintro ⟨w, hw, hc, _⟩
            obtain rfl := Option.some.inj hw
            rw [hcls] at hc; cases hc; exact absurd rfl hg
          · rintro ⟨w, hw, hc, _⟩
            obtain rfl := Option.some.inj hw
            rw [show ({ x with drive := new } : Door).st.cls = x.st.cls from rfl, hcls] at hc
            cases hc; exact absurd rfl hg
        · simp only [hk, if_false]
    · intro g k
      by_cases hg : g = g0
      · subst hg
        rw [hown, hdoor]
        show k ∈ y1.updateQueue d x.drive new (y.groups.get g).queue ↔ _
        rw [hmemq, hl.queue]
        by_cases hk : k = d
        · subst hk
          simp only [if_true, true_and, ne_eq, not_true, false_and, or_false]
          constructor
          · intro h; exact ⟨_, rfl, hcls, h⟩
          · rintro ⟨w, hw, _, h⟩; obtain rfl := Option.some.inj hw; exact h
        · simp only [hk, if_false, false_and, false_or, ne_eq, not_false_eq_true, true_and]
      · rw [hother g hg, hl.queue, hdoor]
        by_cases hk : k = d
        · subst hk
          simp only [if_true, hx]
          constructor
          · rintro ⟨w, hw, hc, _⟩
            obtain rfl := Option.some.inj hw
            rw [hcls] at hc; cases hc; exact absurd rfl hg
          · rintro ⟨w, hw, hc, _⟩
            obtain rfl := Option.some.inj hw
            rw [show ({ x with drive := new } : Door).st.cls = x.st.cls from rfl, hcls] at hc
            cases hc; exact absurd rfl hg
        · simp only [hk, if_false]
    · intro g
      by_cases hg : g = g0
      · subst hg
        rw [hown]
        refine length_updateHolders (hl.slots g) ?_
        intro hs hd
        rcases hm.slot g hcls hs with h | h
        · exact absurd (hinh.mpr h) hd
        · exact h
      · rw [hother g hg]; exact hl.slots g
    · intro g
      by_cases hg : g = g0
      · subst hg
        rw [hown]
        show (y1.updateQueue d x.drive new (y.groups.get g).queue).Pairwise _
        have hother_class : ∀ a, a ≠ d → (y1.arbiterTake d x x.drive new).classOf a = y.classOf a := by
          intro a ha; rw [hclass, if_neg ha]
        have hfil : ((y.groups.get g).queue.filter (· != d)).Pairwise
            fun a b => (y1.arbiterTake d x x.drive new).classOf a ≤
              (y1.arbiterTake d x x.drive new).classOf b := by
          refine ((hl.order g).filter _).imp_of_mem ?_
          intro a b ha hb hab
          rw [hother_class a (by simp at ha; exact ha.2), hother_class b (by simp at hb; exact hb.2)]
          exact hab
        unfold Yard.updateQueue
        split
        · next hn =>
          split
          · next ho =>
            simp only [Bool.and_eq_true, beq_iff_eq] at ho
            refine (hl.order g).imp_of_mem ?_
            intro a b ha hb hab
            have hsame : ∀ c, (y1.arbiterTake d x x.drive new).classOf c = y.classOf c := by
              intro c
              rw [hclass]
              split
              · next hc =>
                subst hc
                unfold Yard.classOf
                rw [hx]
                exact ho.2.symm
              · rfl
            rw [hsame, hsame]
            exact hab
          · have hcd : (y1.arbiterTake d x x.drive new).classOf d = new.queueClass := by
              rw [hclass, if_pos rfl]
            rw [Yard.enqueue_congr (z := y1.arbiterTake d x x.drive new), ← hcd]
            · exact Yard.order_enqueue hfil
            · intro a _
              unfold Yard.classOf
              rw [Yard.arbiterTake_doors]
        · exact hfil
      · rw [hother g hg]
        refine (hl.order g).imp_of_mem ?_
        intro a b ha hb hab
        rw [hclass, hclass, if_neg (by rintro rfl; exact hnotother g hg ha),
          if_neg (by rintro rfl; exact hnotother g hg hb)]
        exact hab
    · intro k w hw hi
      rw [hdoor] at hw
      split at hw
      · obtain rfl := Option.some.inj hw
        rw [show ({ x with drive := new } : Door).st.cls = x.st.cls from rfl, hcls] at hi; cases hi
      · exact hl.indicated k w hw hi

theorem Yard.arbiterLawful_runTake {y : Yard} (hl : y.arbiterLawful) (e : Env) (d : Nat)
    (old new : Drive) (c : Bool) : (y.runTake e d old new c).arbiterLawful := by
  rw [Yard.runTake_eq]
  exact Yard.arbiterLawful_modify hl d _ fun _ _ => ⟨rfl, rfl⟩

theorem Yard.arbiterLawful_changeStopped {y : Yard} (hl : y.arbiterLawful) (e : Env) (d : Nat)
    {new : Drive} (hm : ∀ x, y.doors[d]? = some x → y.MayGo x new) :
    (y.changeStopped e d new).arbiterLawful := by
  unfold Yard.changeStopped
  split
  · exact hl
  · next x hx =>
    exact Yard.arbiterLawful_runTake (Yard.arbiterLawful_take hl hx (hm x hx)) _ _ _ _ _

/-- An LO fall never takes a door to a state that holds a slot or waits for one. -/
theorem loFallDrive_idle {e : Env} {x : Door} {new : Drive} (h : loFallDrive e x = some new) :
    new.hasSlot = false ∧ new.isQueued = false ∧ x.st.cls ≠ .indicated := by
  unfold loFallDrive at h
  have hp : x.powered = true := by
    by_contra hp
    simp [hp] at h
  have hc : x.st.cls ≠ .indicated := by
    intro hc; unfold Door.powered at hp; rw [hc] at hp; cases hp
  simp only [hp, Bool.not_true, Bool.false_eq_true, if_false] at h
  split at h
  · cases h; exact ⟨rfl, rfl, hc⟩
  · cases h; split <;> exact ⟨rfl, rfl, hc⟩
  · split at h
    · cases h; exact ⟨rfl, rfl, hc⟩
    · cases h
  · cases h

theorem Yard.arbiterLawful_goStale {y : Yard} (hl : y.arbiterLawful) (e : Env) (d : Nat) :
    (y.goStale e d).arbiterLawful := by
  unfold Yard.goStale
  split
  · exact hl
  · next x hx =>
    split
    · exact hl
    · have h1 : (y.modify d fun z =>
          { z with inp := { z.inp.loseSight with stale := true, freshness := none } }.positionLost).arbiterLawful :=
        Yard.arbiterLawful_modify hl d _ fun _ _ => ⟨rfl, rfl⟩
      simp only
      split
      · have h2 := Yard.arbiterLawful_modify h1 d (fun z => { z with hold := false })
          fun _ _ => ⟨rfl, rfl⟩
        split
        · next new hn =>
          refine Yard.arbiterLawful_changeStopped h2 e d fun z hz => ?_
          have hi := loFallDrive_idle hn
          refine Yard.mayGo_idle hi.1 fun hc => absurd ?_ hi.2.2
          rw [Yard.modify_get_same, Yard.modify_get_same, hx] at hz
          obtain rfl := Option.some.inj hz
          exact hc
        · exact h2
      · exact h1

theorem Yard.arbiterLawful_judgeFreshness {y : Yard} (hl : y.arbiterLawful) (e : Env) (d : Nat) :
    (y.judgeFreshness e d).arbiterLawful := by
  unfold Yard.judgeFreshness
  split
  · exact hl
  · split
    · exact hl
    · split
      · exact Yard.arbiterLawful_goStale hl e d
      · exact hl

/-- R22: a change of drive state keeps the laws. -/
theorem Yard.arbiterLawful_changeDrive {y : Yard} (hl : y.arbiterLawful) (e : Env) (d : Nat)
    {new : Drive} (c : Bool) (hm : ∀ x, y.doors[d]? = some x → y.MayGo x new) :
    (y.changeDrive e d new c).arbiterLawful := by
  unfold Yard.changeDrive
  split
  · exact hl
  · next x hx =>
    have h1 := Yard.arbiterLawful_take hl hx (hm x hx)
    simp only
    split
    · exact Yard.arbiterLawful_runTake h1 _ _ _ _ _
    · exact Yard.arbiterLawful_runTake (Yard.arbiterLawful_judgeFreshness h1 e d) _ _ _ _ _

theorem Door.powered_cls {x : Door} (h : x.powered = true) : x.st.cls ≠ .indicated := by
  intro hc; unfold Door.powered at h; rw [hc] at h; cases h

theorem Yard.arbiterLawful_enforce {y : Yard} (hl : y.arbiterLawful) (e : Env) (d : Nat) :
    (y.enforce e d).arbiterLawful := by
  unfold Yard.enforce
  split
  · exact hl
  · next x hx =>
    split
    · next he =>
      refine Yard.arbiterLawful_changeDrive hl e d _ fun z hz => Yard.mayGo_idle rfl fun hc => ?_
      rw [hx] at hz; obtain rfl := Option.some.inj hz
      have hp : x.powered = true := by
        unfold Door.enforceable at he
        simp only [Bool.and_eq_true] at he
        exact he.1.1.1.1.2
      exact absurd hc (Door.powered_cls hp)
    · exact hl

theorem Yard.arbiterLawful_rest {y : Yard} (hl : y.arbiterLawful) (e : Env) (d : Nat) (c : Bool) :
    (y.rest e d c).arbiterLawful :=
  Yard.arbiterLawful_enforce
    (Yard.arbiterLawful_changeDrive hl e d c fun _ _ => Yard.mayGo_idle rfl fun _ => .inl rfl) e d

theorem startDrive_slot (e : Env) (x : Door) (dir : Direction) (o : Origin) :
    (startDrive e x dir o).hasSlot = true ∧ (startDrive e x dir o).isQueued = false := by
  unfold startDrive; split <;> exact ⟨rfl, rfl⟩

/-- R23, R26: a motion request lets a door hold a slot only where it held one. -/
theorem requestedDrive_slot {e : Env} {x : Door} {dir : Direction} {o : Origin} {new : Drive}
    (h : requestedDrive e x dir o = some new) (hs : new.hasSlot = true) : x.drive.hasSlot = true := by
  unfold requestedDrive at h
  split at h
  · cases h; cases hs
  · cases h; cases hs
  · next hd => rw [hd]; rfl
  · next hd => rw [hd]; rfl
  · cases h; cases hs
  · cases h; cases hs
  · cases h

/-- R23: a motion request keeps the laws; it reaches POWERED doors alone. -/
theorem Yard.arbiterLawful_motionRequest {y : Yard} (hl : y.arbiterLawful) (e : Env) (d : Nat)
    (dir : Direction) (o : Origin)
    (hp : ∀ x, y.doors[d]? = some x → x.st.cls = .indicated → x.drive = .resting → x.position = dir.target) :
    (y.motionRequest e d dir o).arbiterLawful := by
  unfold Yard.motionRequest
  split
  · exact hl
  · next x hx =>
    split
    · split
      · exact hl
      · exact hl
      · exact Yard.arbiterLawful_rest hl e d _
    · next hpos =>
      split
      · next new hn =>
        refine Yard.arbiterLawful_changeDrive hl e d _ fun z hz => ?_
        rw [hx] at hz; obtain rfl := Option.some.inj hz
        refine ⟨fun _ _ hs => .inl (requestedDrive_slot hn hs), fun hc => ?_⟩
        rcases hl.indicated d x hx hc with hd | hd
        · exact absurd (hp x hx hc hd) hpos
        · unfold requestedDrive at hn; rw [hd] at hn; cases hn
      · exact hl

/-- R73: a grant keeps the laws where a slot is free. -/
theorem Yard.arbiterLawful_grantHead {y : Yard} (hl : y.arbiterLawful) (e : Env) (d : Nat)
    (hfree : ∀ x g, y.doors[d]? = some x → x.st.cls = .powered g →
      (y.groups.get g).holders.length < (y.groups.get g).slotCount.getD 0) :
    (y.grantHead e d).arbiterLawful := by
  unfold Yard.grantHead
  split
  · exact hl
  · next x hx =>
    split
    · next dir o hd =>
      refine Yard.arbiterLawful_changeDrive hl e d _ fun z hz => ?_
      rw [hx] at hz; obtain rfl := Option.some.inj hz
      refine ⟨fun g hg _ => .inr (hfree x g hx hg), fun hc => ?_⟩
      rcases hl.indicated d x hx hc with h | h <;> rw [hd] at h <;> cases h
    · exact hl

/-- R73: grants keep the laws. -/
theorem Yard.arbiterLawful_grants {y : Yard} (hl : y.arbiterLawful) (e : Env) (g : GroupNum)
    (fuel : Nat) : (y.grants e g fuel).arbiterLawful := by
  induction fuel generalizing y with
  | zero => exact hl
  | succ n ih =>
    unfold Yard.grants
    split
    · next hdue =>
      split
      · next d rest hq =>
        refine ih (Yard.arbiterLawful_grantHead hl e d fun x g' hx hg' => ?_)
        have hd : d ∈ (y.groups.get g).queue := by rw [hq]; simp
        obtain ⟨w, hw, hc, _⟩ := (hl.queue g d).mp hd
        rw [hx] at hw; obtain rfl := Option.some.inj hw
        rw [hg'] at hc; cases hc
        unfold Group.grantDue at hdue
        simp only [Bool.and_eq_true, decide_eq_true_eq] at hdue
        exact hdue.1
      · exact hl
    · exact hl

theorem Yard.arbiterLawful_grantGroup {y : Yard} (hl : y.arbiterLawful) (e : Env) (g : GroupNum) :
    (y.grantGroup e g).arbiterLawful :=
  Yard.arbiterLawful_grants hl e g _

theorem Yard.arbiterLawful_foldl {α : Type} {f : Yard → α → Yard}
    (hf : ∀ y a, y.arbiterLawful → (f y a).arbiterLawful) (l : List α) {y : Yard}
    (hl : y.arbiterLawful) : (l.foldl f y).arbiterLawful := by
  induction l generalizing y with
  | nil => exact hl
  | cons a l ih => exact ih (hf y a hl)

theorem Yard.arbiterLawful_grantAll {y : Yard} (hl : y.arbiterLawful) (e : Env) :
    (y.grantAll e).arbiterLawful :=
  Yard.arbiterLawful_foldl (fun _ g h => Yard.arbiterLawful_grantGroup h e g) _ hl

theorem Yard.arbiterLawful_enforceAll {y : Yard} (hl : y.arbiterLawful) (e : Env) :
    (y.enforceAll e).arbiterLawful :=
  Yard.arbiterLawful_foldl (fun _ d h => Yard.arbiterLawful_enforce h e d) _ hl

/-- R104: the end of a take keeps the laws. -/
theorem State.arbiterLawful_endTake {s : State} (b : Yard) (hl : s.yard.arbiterLawful) :
    (State.endTake b s).yard.arbiterLawful := by
  refine Yard.arbiterLawful_of (z := (State.endTake b s).yard) hl rfl ?_
  intro k
  rw [State.endTake_yard_doors, evaluateChanged_get]
  cases s.yard.doors[k]? with
  | none => rfl
  | some x =>
    simp only [Option.map_some]
    split <;> rfl

/-! ## Sensor events -/

theorem Yard.arbiterLawful_loRise {y : Yard} (hl : y.arbiterLawful) (e : Env) (d : Nat) :
    (y.loRise e d).arbiterLawful := by
  unfold Yard.loRise
  split
  · exact hl
  · next x hx =>
    split
    · next ht =>
      have hp : x.powered = true := by
        unfold Door.takesLocal at ht; simp only [Bool.and_eq_true] at ht; exact ht.1
      split
      · refine Yard.arbiterLawful_motionRequest
          (by exact Yard.arbiterLawful_modify hl d _ fun _ _ => ⟨rfl, rfl⟩) e d _ _ fun z hz hc _ => ?_
        rw [Yard.modify_get_same, hx] at hz; obtain rfl := Option.some.inj hz
        exact absurd hc (Door.powered_cls hp)
      · refine Yard.arbiterLawful_motionRequest hl e d _ _ fun z hz hc _ => ?_
        rw [hx] at hz; obtain rfl := Option.some.inj hz
        exact absurd hc (Door.powered_cls hp)
    · exact hl

theorem Yard.arbiterLawful_lcRise {y : Yard} (hl : y.arbiterLawful) (e : Env) (d : Nat) :
    (y.lcRise e d).arbiterLawful := by
  unfold Yard.lcRise
  split
  · exact hl
  · next x hx =>
    split
    · next ht =>
      have hp : x.powered = true := by
        unfold Door.takesLocal at ht; simp only [Bool.and_eq_true] at ht; exact ht.1.1
      refine Yard.arbiterLawful_motionRequest hl e d _ _ fun z hz hc _ => ?_
      rw [hx] at hz; obtain rfl := Option.some.inj hz
      exact absurd hc (Door.powered_cls hp)
    · exact hl

theorem Yard.arbiterLawful_loFall {y : Yard} (hl : y.arbiterLawful) (e : Env) (d : Nat) :
    (y.loFall e d).arbiterLawful := by
  unfold Yard.loFall
  split
  · exact hl
  · next x hx =>
    have h1 := Yard.arbiterLawful_modify hl d (fun z => { z with hold := false }) fun _ _ => ⟨rfl, rfl⟩
    simp only
    split
    · exact Yard.arbiterLawful_rest h1 e d _
    · next new _ hn =>
      refine Yard.arbiterLawful_changeDrive h1 e d _ fun z hz => ?_
      have hi := loFallDrive_idle hn
      refine Yard.mayGo_idle hi.1 fun hc => absurd ?_ hi.2.2
      rw [Yard.modify_get_same, hx] at hz
      obtain rfl := Option.some.inj hz
      exact hc
    · exact h1

theorem Yard.arbiterLawful_positionChange {y : Yard} (hl : y.arbiterLawful) (e : Env) (d : Nat)
    (old new : Position) : (y.positionChange e d old new).arbiterLawful := by
  unfold Yard.positionChange
  split
  · exact hl
  · next x hx =>
    have h1 : ∀ b : Bool, ((if b then y.changeDrive e d .resting true else y).enforce e d).arbiterLawful := by
      intro b
      cases b
      · exact Yard.arbiterLawful_enforce hl e d
      · exact Yard.arbiterLawful_enforce (Yard.arbiterLawful_changeDrive hl e d true
          fun _ _ => Yard.mayGo_idle rfl fun _ => .inl rfl) e d
    simp only
    split
    · exact Yard.arbiterLawful_modify (h1 _) d _ fun _ _ => ⟨rfl, rfl⟩
    · exact h1 _

theorem Yard.arbiterLawful_rederive {y : Yard} (hl : y.arbiterLawful) (e : Env) (d : Nat) :
    (y.rederive e d).arbiterLawful := by
  unfold Yard.rederive
  split
  · exact hl
  · simp only
    split
    · exact hl
    · exact Yard.arbiterLawful_positionChange
        (by exact Yard.arbiterLawful_modify hl d _ fun _ _ => ⟨rfl, rfl⟩) e d _ _

theorem Yard.arbiterLawful_deliver {y : Yard} (hl : y.arbiterLawful) (e : Env) (d : Nat)
    (b a : Four Bool) : (y.deliver e d b a).arbiterLawful := by
  have h1 := Yard.arbiterLawful_rederive hl e d
  have h2 : ((y.rederive e d).deliverLo e d b.lo a.lo).arbiterLawful := by
    unfold Yard.deliverLo
    split
    · split
      · exact Yard.arbiterLawful_loRise h1 e d
      · exact h1
    · exact Yard.arbiterLawful_loFall h1 e d
    · exact h1
  unfold Yard.deliver Yard.deliverLc
  split
  · exact Yard.arbiterLawful_lcRise h2 e d
  · exact h2

theorem Door.tripDrive_idle (e : Env) (x : Door) :
    (x.tripDrive e).hasSlot = false ∧ (x.tripDrive e).isQueued = false ∧ (x.tripDrive e).bound = false := by
  unfold Door.tripDrive
  repeat' split
  all_goals exact ⟨rfl, rfl, rfl⟩

/-- R53: the trip of a closing door keeps the laws. -/
theorem Yard.arbiterLawful_trip {y : Yard} (hl : y.arbiterLawful) (e : Env) (d : Nat)
    (hr : ∀ x, y.doors[d]? = some x → x.drive.closingRun = true) :
    (y.trip e d).1.arbiterLawful := by
  unfold Yard.trip
  split
  · exact hl
  · next x hx =>
    have h1 := Yard.arbiterLawful_modify hl d (fun z => z.countTrip e) fun _ _ => ⟨rfl, rfl⟩
    have h2 := Yard.arbiterLawful_changeDrive h1 e d (new := x.tripDrive e) false fun z hz =>
      Yard.mayGo_idle (x.tripDrive_idle e).1 fun hc => by
        rw [Yard.modify_get_same, hx] at hz
        obtain rfl := Option.some.inj hz
        have hrun := hr x hx
        rcases hl.indicated d x hx hc with h | h <;> rw [h] at hrun <;> cases hrun
    simp only
    split
    · exact Yard.arbiterLawful_enforce h2 e d
    · exact h2

theorem Yard.arbiterLawful_sensorTake {y : Yard} (hl : y.arbiterLawful) (e : Env) (d : Nat) (w : Word)
    (arrival : Nat) : (y.sensorTake e d w arrival).1.arbiterLawful := by
  unfold Yard.sensorTake
  split
  · exact hl
  · next x hx =>
    simp only
    split
    · exact hl
    · have h1 := Yard.arbiterLawful_deliver
        (Yard.arbiterLawful_modify hl d (fun z => { z with
          inp := x.inp.takeReport e.times.debounce arrival (reportOf w), powerSeen := true })
          fun _ _ => ⟨rfl, rfl⟩) e d x.inp.debounced
        (x.inp.takeReport e.times.debounce arrival (reportOf w)).debounced
      split
      · unfold Yard.evaluateAlert
        split
        · exact h1
        · next z hz =>
          split
          · next hrun =>
            let p := z.prot.evaluate z.st.margin (reportOf w).ob (reportOf w).pressure
              (e.clock + e.times.tripDelay)
            have h2 := Yard.arbiterLawful_modify h1 d (fun v => { v with prot := p })
              fun _ _ => ⟨rfl, rfl⟩
            simp only
            split
            · refine Yard.arbiterLawful_trip h2 e d fun v hv => ?_
              rw [Yard.modify_get_same, hz] at hv
              obtain rfl := Option.some.inj hv
              exact hrun
            · exact h2
          · exact h1
      · exact h1

theorem Yard.arbiterLawful_debounceExpiry {y : Yard} (hl : y.arbiterLawful) (e : Env) (d report : Nat) :
    (y.debounceExpiry e d report).arbiterLawful := by
  unfold Yard.debounceExpiry
  split
  · exact hl
  · exact Yard.arbiterLawful_deliver (by exact Yard.arbiterLawful_modify hl d _ fun _ _ => ⟨rfl, rfl⟩) e d _ _

/-! ## Requests and orders -/

/-- R33: a door that a station CLOSE is not refused on is POWERED. -/
theorem Door.powered_of_close (x : Door) (h : x.closeRefusal = none) : x.powered = true := by
  unfold Door.closeRefusal at h
  cases hp : x.powered with
  | true => rfl
  | false => simp [hp] at h

theorem Yard.arbiterLawful_stationRequest {y z : Yard} (hl : y.arbiterLawful) {e : Env} {d : Nat}
    {w : Word} (h : y.stationRequest e d w = .ok z) : z.arbiterLawful := by
  have hclose : ∀ x : Door, x.closeRefusal = none → x.powered = true := fun x => x.powered_of_close
  have hmotion : ∀ x dir, y.doors[d]? = some x → x.powered = true →
      (y.motionRequest e d dir .station).arbiterLawful := by
    intro x dir hx hp
    refine Yard.arbiterLawful_motionRequest hl e d _ _ fun z hz hc _ => ?_
    rw [hx] at hz; obtain rfl := Option.some.inj hz
    exact absurd hc (Door.powered_cls hp)
  unfold Yard.stationRequest at h
  split at h
  · cases h
  · next x hx =>
    split at h
    · split at h
      · cases h; exact hl
      · unfold Yard.stationClose at h
        split at h
        · cases h
        · next hr => cases h; exact hmotion x _ hx (hclose x hr)
      · unfold Yard.stationOpen at h
        split at h
        · cases h
        · next hr =>
          cases h
          refine hmotion x _ hx (hclose x ?_)
          unfold Door.openRefusal at hr
          split at hr
          · cases hr
          · assumption
      · unfold Yard.stationStop at h
        split at h
        · cases h
        · split at h
          · cases h; exact hl
          · cases h; exact hl
          · cases h; exact Yard.arbiterLawful_rest hl e d _
      · unfold Yard.stationIsolate at h
        split at h
        · cases h; exact hl
        · cases h
          exact Yard.arbiterLawful_changeDrive
            (by exact Yard.arbiterLawful_modify hl d _ fun _ _ => ⟨rfl, rfl⟩) e d _
            fun _ _ => Yard.mayGo_idle rfl fun _ => .inr rfl
      · unfold Yard.stationRestore at h
        split at h
        · cases h
          exact Yard.arbiterLawful_rest (by exact Yard.arbiterLawful_modify hl d _ fun _ _ => ⟨rfl, rfl⟩) e d _
        · cases h; exact hl
    · cases h

theorem Yard.arbiterLawful_toDoorsClosed {y : Yard} (hl : y.arbiterLawful) (e : Env) (d : Nat) :
    (y.toDoorsClosed e d).arbiterLawful := by
  unfold Yard.toDoorsClosed
  split
  · exact hl
  · next x hx =>
    split
    · next ht =>
      have hp : x.powered = true := by
        unfold Door.takesLocal at ht; simp only [Bool.and_eq_true] at ht; exact ht.1
      refine Yard.arbiterLawful_modify ?_ d _ fun _ _ => ⟨rfl, rfl⟩
      split
      · next new hn =>
        refine Yard.arbiterLawful_changeDrive hl e d _ fun z hz => ?_
        rw [hx] at hz; obtain rfl := Option.some.inj hz
        refine ⟨fun g hg hs => .inl ?_, fun hc => absurd hc (Door.powered_cls hp)⟩
        unfold toDoorsClosedDrive at hn
        split at hn
        · cases hn; cases hs
        · next hd => rw [hd]; rfl
        · cases hn
      · exact hl
    · exact hl

theorem Yard.arbiterLawful_toLocalControl {y : Yard} (hl : y.arbiterLawful) (e : Env) (d : Nat) :
    (y.toLocalControl e d).arbiterLawful := by
  unfold Yard.toLocalControl
  split
  · exact hl
  · next x hx =>
    refine Yard.arbiterLawful_modify ?_ d _ fun _ _ => ⟨rfl, rfl⟩
    split
    · next new hn =>
      have : new = .resting := by
        unfold toLocalControlDrive at hn
        split at hn <;> simp_all
      subst this
      exact Yard.arbiterLawful_changeDrive hl e d _ fun _ _ => Yard.mayGo_idle rfl fun _ => .inl rfl
    · exact hl

theorem Yard.arbiterLawful_modeChange {y : Yard} (hl : y.arbiterLawful) (e : Env) :
    (y.modeChange e).arbiterLawful := by
  unfold Yard.modeChange
  simp only
  split
  · exact Yard.arbiterLawful_grantAll (Yard.arbiterLawful_enforceAll
      (Yard.arbiterLawful_foldl (fun _ d h => Yard.arbiterLawful_toDoorsClosed h e d) _ hl) e) e
  · exact Yard.arbiterLawful_grantAll
      (Yard.arbiterLawful_foldl (fun _ d h => Yard.arbiterLawful_toLocalControl h e d) _ hl) e

theorem Yard.arbiterLawful_zoneClose {y : Yard} (hl : y.arbiterLawful) (e : Env) (mask : Word) :
    (y.zoneClose e mask).arbiterLawful := by
  refine Yard.arbiterLawful_foldl (fun y d hl => ?_) _ hl
  unfold Yard.zoneCloseDoor
  split
  · exact hl
  · next x hx =>
    split
    · next h =>
      simp only [Bool.and_eq_true, Option.isNone_iff_eq_none] at h
      have hp : x.powered = true := x.powered_of_close h.2
      refine Yard.arbiterLawful_motionRequest hl e d _ _ fun z hz hc _ => ?_
      rw [hx] at hz; obtain rfl := Option.some.inj hz
      exact absurd hc (Door.powered_cls hp)
    · exact hl

theorem Yard.arbiterLawful_clearDoor {y : Yard} (hl : y.arbiterLawful) (e : Env) (d : Nat) :
    (y.clearDoor e d).arbiterLawful := by
  unfold Yard.clearDoor
  split
  · exact hl
  · have h1 := Yard.arbiterLawful_modify hl d (fun z => { z with
      inhibit := .none, prot := { z.prot with tripCount := 0 } }) fun _ _ => ⟨rfl, rfl⟩
    simp only
    split
    · exact Yard.arbiterLawful_rest h1 e d _
    · exact Yard.arbiterLawful_enforce h1 e d

theorem Yard.arbiterLawful_forSelected {y : Yard} (hl : y.arbiterLawful) (sel : DoorSelect)
    {f : Yard → Nat → Yard} (hf : ∀ y d, y.arbiterLawful → (f y d).arbiterLawful) :
    (y.forSelected sel f).arbiterLawful := by
  unfold Yard.forSelected
  split
  · exact hf _ _ hl
  · exact Yard.arbiterLawful_foldl hf _ hl

theorem Yard.arbiterLawful_staleDoors {y : Yard} (hl : y.arbiterLawful) (e : Env) (ds : List Nat) :
    (y.staleDoors e ds).arbiterLawful :=
  Yard.arbiterLawful_foldl (fun _ d h => Yard.arbiterLawful_goStale h e d) _ hl

theorem Yard.arbiterLawful_reattach {y : Yard} (hl : y.arbiterLawful) (e : Env) (m : Master) :
    (y.reattach e m).arbiterLawful := by
  refine Yard.arbiterLawful_foldl (fun y d hl => ?_) _ hl
  unfold Yard.reattachDoor
  split
  · exact hl
  · have h1 := Yard.arbiterLawful_modify hl d Door.forgetReports fun _ _ => ⟨rfl, rfl⟩
    simp only
    split
    · have h2 := Yard.arbiterLawful_modify h1 d (fun z => { z with inp := z.inp.loseSight })
        fun _ _ => ⟨rfl, rfl⟩
      split
      · exact Yard.arbiterLawful_loFall h2 e d
      · exact h2
    · exact h1

end Sys2Proof.Machine
end

