-- ==== Sys2Proof/Laws/Memory.lean ====
section
/-! SUPPORT. Bank contents (R147): every operation keeps the canonical form, reads what it wrote, and leaves every other
byte as it was. The capture ring (R159, R162): its bounds. -/

namespace Sys2Proof.Machine

/-! ## One byte -/

@[simp] theorem Memory.read_nil (a : Nat) : Memory.read [] a = Memory.unlisted := rfl

theorem Memory.read_cons (k : Nat) (v : Byte) (rest : Memory) (a : Nat) :
    Memory.read ((k, v) :: rest) a = if k = a then v else Memory.read rest a := rfl

/-- An address below every listed one reads as unlisted. -/
theorem Memory.read_below {m : Memory} {a : Nat} (h : ∀ c ∈ m, a < c.1) :
    m.read a = Memory.unlisted := by
  induction m with
  | nil => rfl
  | cons c rest ih =>
    obtain ⟨k, v⟩ := c
    have hk : a < k := h (k, v) (by simp)
    rw [Memory.read_cons, if_neg (by omega)]
    exact ih fun c hc => h c (by simp [hc])

theorem Memory.read_list_ne {a k : Nat} (b : Byte) (rest : Memory) (h : k ≠ a) :
    (Memory.list a b rest).read k = rest.read k := by
  unfold Memory.list
  split
  · rfl
  · rw [Memory.read_cons, if_neg (Ne.symm h)]

/-- A write leaves every other byte as it was. -/
theorem Memory.read_write_ne (m : Memory) {a k : Nat} (b : Byte) (h : k ≠ a) :
    (m.write a b).read k = m.read k := by
  induction m with
  | nil => exact Memory.read_list_ne b [] h
  | cons c rest ih =>
    obtain ⟨j, v⟩ := c
    unfold Memory.write
    split
    · exact Memory.read_list_ne b _ h
    · split
      · next hj =>
        subst hj
        rw [Memory.read_list_ne b rest h, Memory.read_cons, if_neg (Ne.symm h)]
      · rw [Memory.read_cons, Memory.read_cons, ih]

theorem Memory.wf_tail {c : Host.Cell} {rest : Memory} (h : Memory.wf (c :: rest)) :
    Memory.wf rest :=
  ⟨(List.pairwise_cons.mp h.1).2, fun d hd => h.2 d (by simp [hd])⟩

theorem Memory.wf_head {c : Host.Cell} {rest : Memory} (h : Memory.wf (c :: rest)) :
    ∀ d ∈ rest, c.1 < d.1 :=
  (List.pairwise_cons.mp h.1).1

theorem Memory.wf_nil : Memory.wf [] := ⟨List.Pairwise.nil, by simp⟩

theorem Memory.wf_list {a : Nat} (b : Byte) {rest : Memory} (h : Memory.wf rest)
    (below : ∀ c ∈ rest, a < c.1) : Memory.wf (Memory.list a b rest) := by
  unfold Memory.list
  split
  · exact h
  · next hb =>
    refine ⟨List.pairwise_cons.mpr ⟨below, h.1⟩, ?_⟩
    intro c hc
    rcases List.mem_cons.mp hc with rfl | hc
    · exact hb
    · exact h.2 c hc

theorem Memory.read_list_same {a : Nat} (b : Byte) {rest : Memory} (below : ∀ c ∈ rest, a < c.1) :
    (Memory.list a b rest).read a = b := by
  unfold Memory.list
  split
  · next hb => rw [Memory.read_below below, hb]
  · rw [Memory.read_cons, if_pos rfl]

/-- Whatever lies below every listed address and the written one lies below the result. -/
theorem Memory.below_write {m : Memory} {a k : Nat} (b : Byte) (h : ∀ c ∈ m, k < c.1) (ha : k < a) :
    ∀ c ∈ m.write a b, k < c.1 := by
  induction m with
  | nil =>
    intro c hc
    unfold Memory.write Memory.list at hc
    split at hc <;> simp_all
  | cons d rest ih =>
    obtain ⟨j, v⟩ := d
    intro c hc
    unfold Memory.write Memory.list at hc
    have hrest := ih fun c hc => h c (by simp [hc])
    split at hc
    · split at hc
      · exact h c hc
      · rcases List.mem_cons.mp hc with rfl | hc
        · exact ha
        · exact h c hc
    · split at hc
      · split at hc
        · exact h c (by simp [hc])
        · rcases List.mem_cons.mp hc with rfl | hc
          · exact ha
          · exact h c (by simp [hc])
      · rcases List.mem_cons.mp hc with rfl | hc
        · exact h _ (by simp)
        · exact hrest c hc

/-- A write keeps the canonical form. -/
theorem Memory.wf_write {m : Memory} (a : Nat) (b : Byte) (h : m.wf) : (m.write a b).wf := by
  induction m with
  | nil => exact Memory.wf_list b Memory.wf_nil (by simp)
  | cons c rest ih =>
    obtain ⟨k, v⟩ := c
    have hrest := Memory.wf_tail h
    have hhead := Memory.wf_head h
    unfold Memory.write
    split
    · next hlt =>
      apply Memory.wf_list b h
      intro c hc
      rcases List.mem_cons.mp hc with rfl | hc
      · exact hlt
      · exact Nat.lt_trans hlt (hhead c hc)
    · split
      · next heq => subst heq; exact Memory.wf_list b hrest hhead
      · next h1 h2 =>
        have hw := ih hrest
        refine ⟨List.pairwise_cons.mpr ⟨Memory.below_write b hhead (by simp only; omega), hw.1⟩, ?_⟩
        intro c hc
        rcases List.mem_cons.mp hc with rfl | hc
        · exact h.2 _ (by simp)
        · exact hw.2 c hc

/-- A canonical memory reads back the byte written. -/
theorem Memory.read_write_same {m : Memory} (a : Nat) (b : Byte) (h : m.wf) :
    (m.write a b).read a = b := by
  induction m with
  | nil => exact Memory.read_list_same b (by simp)
  | cons c rest ih =>
    obtain ⟨k, v⟩ := c
    have hhead := Memory.wf_head h
    unfold Memory.write
    split
    · next hlt =>
      apply Memory.read_list_same
      intro c hc
      rcases List.mem_cons.mp hc with rfl | hc
      · exact hlt
      · exact Nat.lt_trans hlt (hhead c hc)
    · split
      · next heq => subst heq; exact Memory.read_list_same b hhead
      · next h1 h2 =>
        rw [Memory.read_cons, if_neg (Ne.symm h2)]
        exact ih (Memory.wf_tail h)

/-! ## Lanes -/

theorem laneAddr_ne (a : Addr) : laneAddr a .low ≠ laneAddr a .high := by
  simp [laneAddr]

/-! ## A bank's bytes with their parity bits (R147) -/

theorem Memory.mem_write {m : Memory} {a : Nat} {b : Byte} {c : Host.Cell} (h : c ∈ m.write a b) :
    c ∈ m ∨ c = (a, b) := by
  induction m with
  | nil =>
    unfold Memory.write Memory.list at h
    split at h <;> simp_all
  | cons d rest ih =>
    obtain ⟨j, v⟩ := d
    unfold Memory.write Memory.list at h
    split at h
    · split at h
      · exact .inl h
      · rcases List.mem_cons.mp h with h | h
        · exact .inr h
        · exact .inl h
    · split at h
      · split at h
        · exact .inl (List.mem_cons_of_mem _ h)
        · rcases List.mem_cons.mp h with h | h
          · exact .inr h
          · exact .inl (List.mem_cons_of_mem _ h)
      · rcases List.mem_cons.mp h with h | h
        · exact .inl (by rw [h]; exact List.mem_cons_self)
        · exact (ih h).imp (List.mem_cons_of_mem _) id

theorem Contents.wf_blank : Contents.blank.wf := ⟨Memory.wf_nil, Memory.wf_nil, by simp [Contents.blank]⟩

/-- Every change of a byte keeps the canonical form. -/
theorem Contents.wf_put {m : Contents} (k : Nat) (b : Byte) (p : Bool) (h : m.wf) : (m.put k b p).wf := by
  refine ⟨Memory.wf_write _ _ h.1, Memory.wf_write _ _ h.2.1, ?_⟩
  intro c hc
  have hwf := Memory.wf_write k (if p then 1 else 0) h.2.1
  rcases Memory.mem_write hc with hm | rfl
  · exact h.2.2 c hm
  · have := hwf.2 _ hc
    cases p
    · simp [Memory.unlisted] at this
    · rfl

theorem Contents.read_put_ne (m : Contents) {k j : Nat} (b : Byte) (p : Bool) (h : j ≠ k) :
    (m.put k b p).read j = m.read j := by
  simp only [Contents.read, Contents.put, Memory.read_write_ne _ _ h]

theorem Contents.read_put_same {m : Contents} (k : Nat) (b : Byte) (p : Bool) (h : m.wf) :
    (m.put k b p).read k = (b, p) := by
  simp only [Contents.read, Contents.put, Memory.read_write_same _ _ h.1,
    Memory.read_write_same _ _ h.2.1]
  cases p <;> rfl

/-- A write of lanes keeps the canonical form. -/
theorem Contents.wf_writeLanes {m : Contents} (a : Addr) (l : Lanes) (w : Word) (h : m.wf) :
    (m.writeLanes a l w).wf := by
  cases l
  · exact Contents.wf_put _ _ _ h
  · exact Contents.wf_put _ _ _ h
  · exact Contents.wf_put _ _ _ (Contents.wf_put _ _ _ h)

/-- A word left unknown keeps the canonical form. -/
theorem Contents.wf_forget {m : Contents} (a : Addr) (free : Nat) (h : m.wf) : (m.forget a free).wf :=
  Contents.wf_put _ _ _ (Contents.wf_put _ _ _ h)

/-- A write of lanes leaves every byte but the addressed word's as it was. -/
theorem Contents.read_writeLanes_ne (m : Contents) (a : Addr) (l : Lanes) (w : Word) {k : Nat}
    (hl : k ≠ laneAddr a .low) (hh : k ≠ laneAddr a .high) :
    (m.writeLanes a l w).read k = m.read k := by
  cases l
  · exact Contents.read_put_ne _ _ _ hl
  · exact Contents.read_put_ne _ _ _ hh
  · exact (Contents.read_put_ne _ _ _ hh).trans (Contents.read_put_ne _ _ _ hl)

/-- A word left unknown leaves every other byte as it was. -/
theorem Contents.read_forget_ne (m : Contents) (a : Addr) (free : Nat) {k : Nat}
    (hl : k ≠ laneAddr a .low) (hh : k ≠ laneAddr a .high) :
    (m.forget a free).read k = m.read k :=
  (Contents.read_put_ne _ _ _ hh).trans (Contents.read_put_ne _ _ _ hl)

/-- A write of one lane leaves the other lane as it was. -/
theorem Contents.read_writeLanes_other (m : Contents) (a : Addr) (w : Word) :
    (m.writeLanes a .low w).read (laneAddr a .high) = m.read (laneAddr a .high) ∧
      (m.writeLanes a .high w).read (laneAddr a .low) = m.read (laneAddr a .low) :=
  ⟨Contents.read_put_ne _ _ _ (laneAddr_ne a).symm, Contents.read_put_ne _ _ _ (laneAddr_ne a)⟩

/-- The two bytes of a word make the word. -/
theorem joinHalves_laneByte (w : Word) : joinHalves .low (laneByte .low w) (laneByte .high w) = w := by
  simp only [joinHalves, inLane, laneByte]
  ext i hi
  by_cases h8 : i < 8
  · simp [h8, BitVec.getElem_setWidth, BitVec.getLsbD_eq_getElem hi]
  · have h1 : 8 + (i - 8) = i := by omega
    have h2 : i - 8 < 8 := by omega
    simp [h8, h1, h2, BitVec.getElem_setWidth, BitVec.getLsbD_eq_getElem hi]

/-- A whole word written reads back, from canonical contents, with the parity bits generated for it. -/
theorem Contents.readWord_writeLanes_both {m : Contents} (a : Addr) (w : Word) (h : m.wf) :
    (m.writeLanes a .both w).readWord a =
      { data := w, lowParity := parityBit (laneByte .low w), highParity := parityBit (laneByte .high w) } := by
  simp only [Contents.writeLanes, Contents.readWord, Contents.writeByte,
    Contents.read_put_ne _ _ _ (laneAddr_ne a), Contents.read_put_same _ _ _ h,
    Contents.read_put_same _ _ _ (Contents.wf_put _ _ _ h), joinHalves_laneByte]

/-! ## The ring -/

theorem Ring.lawful_push {r : Ring} (e : Entry) (h : r.lawful) : (r.push e).lawful := by
  unfold Ring.push
  split
  · next hlt =>
    refine ⟨?_, h.2⟩
    have : Config.ringCapacity = 64 := rfl
    simp only [List.length_append, List.length_singleton]
    omega
  · exact ⟨h.1, Nat.min_le_right _ _⟩

theorem Ring.lawful_release {r : Ring} (n : Nat) (h : r.lawful) : (r.release n).lawful := by
  refine ⟨?_, by simp [Ring.release]⟩
  have := h.1
  simp only [Ring.release, List.length_drop]
  omega

theorem State.lawful_captures {s : State} (cs : List Capture) (h : s.ring.lawful) :
    (s.captures cs).ring.lawful := by
  induction cs generalizing s with
  | nil => exact h
  | cons c cs ih => exact ih (Ring.lawful_push _ h)

end Sys2Proof.Machine
end

