-- ==== Sys2Proof/Laws/Path.lean ====
section
/-! SUPPORT. The access path (R117): an access that reaches its kind's processing, and what a law of the part must be kept
by so that every step keeps it: one closure condition for each take of the part. -/

namespace Sys2Proof.Machine

/-! ## Reaching the processing of a kind -/

/-- R117: the lane stage passes an access that is not assembled and whose master has no slot. -/
theorem State.laneStage_passes {s : State} {a : Access} {f : Found} (hl : assembledLane a f = none)
    (hs : s.path.slots.get a.master = none) : s.laneStage a f = .goesOn s a := by
  unfold State.laneStage State.abandonSlot
  simp only [hl, hs]

/-- R126: the master check goes on to the permission matrix. -/
theorem State.masterStage_matrix {s : State} {a : Access} {f : Found}
    (h : ((s.role a.master).authorized || excepted (s.role a.master) a f) = true) :
    s.masterStage a f = s.matrix a f := by
  unfold State.masterStage
  simp only
  split
  · next hr => rw [hr] at h; simp [Role.authorized, excepted, Role.isScanner, Role.isStation] at h
  · rfl

theorem State.matrix_passes {s : State} {a : Access} {f : Found}
    (h : a.isWrite = true → s.matrixRefusal a.master f = none) : s.matrix a f = .goesOn s a := by
  unfold State.matrix
  split
  · next hw => rw [h hw]
  · rfl

/-- The stages of R117 let an admitted access through to the rule list. -/
theorem State.admission_admitted {s : State} {a : Access} {f : Found} (h : Admitted s a f) :
    s.admission a f = s.ruleStage a f := by
  obtain ⟨_, _, _, hs, hl, hm, hr⟩ := h
  unfold State.admission
  rw [State.laneStage_passes hl hs]
  simp only [Stage.andThen]
  rw [State.masterStage_matrix hm, State.matrix_passes hr]

/-- An access that meets no rule reaches its kind's processing. -/
theorem State.arrive_reaches {s : State} {a : Access} {f : Found} (h : Reaches s a f) :
    s.arrive a = s.process a a f := by
  obtain ⟨ha, hr⟩ := h
  have hadm := State.admission_admitted ha
  obtain ⟨hp, hu, hf, _⟩ := ha
  unfold State.arrive State.present State.runAccess
  simp only [hu, hp, if_true, hf]
  rw [hadm]
  unfold State.ruleStage
  simp only [hr]

/-- R132: an order that reaches its take. -/
theorem State.arrive_order {s : State} {m : Master} {addr : Addr} {w : Word} {offset : Nat}
    (h : ReachesOrder s m addr w offset) :
    s.arrive (wordWrite m addr w) =
      s.orderWrite (wordWrite m addr w) (wordWrite m addr w) offset w :=
  State.arrive_reaches h

theorem State.orderWrite_taken {s t : State} {m : Master} {addr : Addr} {w : Word} {offset : Nat}
    (h : s.takeOrder offset m addr w = .taken t) :
    s.orderWrite (wordWrite m addr w) (wordWrite m addr w) offset w = t.forwardOrder m addr w := by
  unfold State.orderWrite
  simp only [wordWrite, h]
  rfl

theorem State.orderWrite_refused {s : State} {m : Master} {addr : Addr} {w : Word} {offset : Nat}
    {r : OrderRefusal} (h : s.takeOrder offset m addr w = .refused r) :
    s.orderWrite (wordWrite m addr w) (wordWrite m addr w) offset w =
      s.refuseOrder m addr w r.code := by
  unfold State.orderWrite
  simp only [wordWrite, h]
  rfl

theorem State.orderWrite_mismatch {s t : State} {m : Master} {addr : Addr} {w : Word} {offset : Nat}
    (h : s.takeOrder offset m addr w = .mismatch t) :
    s.orderWrite (wordWrite m addr w) (wordWrite m addr w) offset w = t.answer .error := by
  unfold State.orderWrite
  simp only [wordWrite, h]

/-- R130: a station request that reaches the door table. -/
theorem State.arrive_door {s : State} {m : Master} {addr : Addr} {w : Word} {b offset : Nat}
    (h : ReachesDoor s m addr w b offset) :
    s.arrive (wordWrite m addr w) = s.stationWrite (wordWrite m addr w) (b + offset) w :=
  State.arrive_reaches h

/-! ## What a lapse leaves -/

/-- R90 steps 1 and 2: the station LAPSED, with its STATION_LAPSED capture. -/
def State.lapseFirst (s : State) (m : Master) : State :=
  (s.setRole m (.station none)).capture (Capture.ofPart 16 (s.lapseDetail m) (fieldAt m.val 0))

/-- What a lapse leaves, by what the station held. -/
theorem State.lapse_eq (s : State) (m : Master) :
    s.lapse m =
      match s.command.transfer with
      | some t =>
        if t.requester = m then (s.lapseFirst m).endTransfer .part m 4
        else if s.command.holder = some m then (s.lapseFirst m).changeHolder .part (some t.requester) 6
        else s.lapseFirst m
      | none =>
        if s.command.holder = some m then (s.lapseFirst m).changeHolder .part none 5
        else s.lapseFirst m := rfl

/-! ## What the orders' takes leave -/

/-- A master whose order has passed the master check (R126). -/
def Role.mayOrder (r : Role) (offset : Nat) : Prop :=
  r.authorized = true ∨ (r.isScanner = true ∧ offset = 10) ∨ (r.isStation = true ∧ offset = 9)

/-- What the take of an order leaves, with what its take has found. -/
inductive State.OrderTake (s : State) (m : Master) (addr : Addr) (w : Word) : State → Prop
  | sameMode : s.OrderTake m addr w s
  | mode (v : VesselMode) : s.command.holder = some m → s.command.mode ≠ some v →
      s.OrderTake m addr w (s.changeMode m addr v)
  | zoneClose : s.OrderTake m addr w ((s.setYard (s.yard.zoneClose s.env w)).endTake s.yard)
  | doorClear (sel : DoorSelect) : s.OrderTake m addr w
      ((s.setYard (s.yard.forSelected sel fun y d => y.clearDoor s.env d)).endTake s.yard)
  | alarmAck (sel : DoorSelect) : s.OrderTake m addr w
      ((s.setYard (s.yard.forSelected sel Yard.acknowledgeDoor)).endTake s.yard)
  | baseline : s.OrderTake m addr w (s.setYard (s.yard.baseline w))
  | release (n : Nat) : s.OrderTake m addr w { s with ring := s.ring.release n }
  | reload : s.OrderTake m addr w { s with loader := { s.loader with reload := .reloading } }
  | resync (b : BankId) : s.mirror.resyncTarget = .ok b →
      s.OrderTake m addr w (State.judgeFault { s with mirror := s.mirror.startResync b })
  | vacantRequest : s.command.holder = none → (s.role m).live = true →
      s.OrderTake m addr w (s.changeHolder (.order m addr) (some m) 1)
  | request (h : Master) : s.command.holder = some h → h ≠ m → s.command.transfer = none →
      (s.role m).live = true → s.OrderTake m addr w { s with command :=
        { s.command with transfer := some { requester := m, start := s.clock } } }
  | handOver (t : Transfer) (detail : Nat) : s.command.transfer = some t → s.command.holder = some m →
      s.OrderTake m addr w (s.changeHolder (.order m addr) (some t.requester) detail)
  | relinquish : s.command.holder = some m → s.command.transfer = none →
      s.OrderTake m addr w (s.changeHolder (.order m addr) none 3)
  | endTransfer (t : Transfer) (detail : Nat) : s.command.transfer = some t →
      s.OrderTake m addr w (s.endTransfer (.order m addr) t.requester detail)
  | heartbeat : (s.role m).isStation = true →
      s.OrderTake m addr w (s.setRole m (.station (some s.clock)))
  | attach (first count : Nat) (was : Bool) : s.role m = .scanner first count was →
      s.OrderTake m addr w ((((s.setRole m (.scanner first count true)).setYard
        (s.yard.reattach (s.setRole m (.scanner first count true)).env m)).capture
        (Capture.ofMaster 14 m addr 0 w)).endTake s.yard)
  | mismatch (first count : Nat) (was : Bool) : s.role m = .scanner first count was →
      s.OrderTake m addr w ((((s.setRole m (.scanner first count false)).setYard
        (s.yard.staleDoors (s.setRole m (.scanner first count false)).env (s.yard.ownedBy m))).capture
        (Capture.ofMaster 15 m addr (if was then 1 else 0) w)).endTake s.yard)

/-- A LIVE station, of a STATION whose order other than HEARTBEAT has passed the master check. -/
theorem Role.live_of_mayOrder {r : Role} {offset : Nat} (h : r.mayOrder offset) (hs : r.isStation = true)
    (ho : offset ≠ 9) : r.live = true := by
  cases r with
  | station hb =>
    cases hb with
    | some _ => rfl
    | none =>
      rcases h with h | h | h
      · cases h
      · cases h.1
      · exact absurd h.2 ho
  | _ => cases hs

theorem State.takeTransfer_take {s t : State} {m : Master} {addr : Addr} {w : Word}
    (hr : (s.role m).mayOrder 8) (h : s.takeTransfer m addr w = .taken t) :
    s.OrderTake m addr w t := by
  unfold State.takeTransfer at h
  split at h
  · cases h
  · next hs =>
    have hlive := Role.live_of_mayOrder hr (by simpa using hs) (by decide)
    split at h
    · cases h
    · unfold State.takeRequest at h
      split at h
      · next hh => cases h; exact .vacantRequest hh hlive
      · next k hh ht =>
        split at h
        · cases h
        · next hk => cases h; exact .request k hh hk ht hlive
      · cases h
    · unfold State.takeAccept at h
      split at h
      · next tr ht =>
        split at h
        · next hh => cases h; exact .handOver tr _ ht hh
        · cases h
      · cases h
    · unfold State.takeDecline at h
      split at h
      · next tr ht =>
        split at h
        · cases h; exact .endTransfer tr _ ht
        · cases h
      · cases h
    · unfold State.takeCancel at h
      split at h
      · next tr ht =>
        split at h
        · cases h; exact .endTransfer tr _ ht
        · cases h
      · cases h
    · unfold State.takeRelinquish at h
      split at h
      · next hh =>
        split at h
        · next tr ht => cases h; exact .handOver tr _ ht hh
        · next ht => cases h; exact .relinquish hh ht
      · cases h

theorem State.takeAttach_take {s t : State} {m : Master} {addr : Addr} {w : Word}
    (h : s.takeAttach m addr w = .taken t ∨ s.takeAttach m addr w = .mismatch t) :
    s.OrderTake m addr w t := by
  unfold State.takeAttach at h
  split at h
  · next first count was hr =>
    split at h
    · rcases h with h | h <;> cases h
    · unfold State.attachScanner at h
      split at h
      · rcases h with h | h
        · cases h; exact .attach first count was hr
        · cases h
      · rcases h with h | h
        · cases h
        · cases h; exact .mismatch first count was hr
  · rcases h with h | h <;> cases h

theorem State.takeOrder_take {s t : State} {offset : Nat} {m : Master} {addr : Addr} {w : Word}
    (hr : (s.role m).mayOrder offset)
    (h : s.takeOrder offset m addr w = .taken t ∨ s.takeOrder offset m addr w = .mismatch t) :
    s.OrderTake m addr w t := by
  unfold State.takeOrder at h
  split at h
  case h_11 => exact State.takeAttach_take h
  case h_9 =>
    rcases h with h | h
    · exact State.takeTransfer_take hr h
    · unfold State.takeTransfer State.takeRequest State.takeAccept State.takeDecline State.takeCancel
        State.takeRelinquish at h
      repeat' split at h
      all_goals cases h
  case h_1 =>
    unfold State.takeMode at h
    split at h
    · rcases h with h | h <;> cases h
    · next hh =>
      split at h
      · rcases h with h | h <;> cases h
      · split at h
        · rcases h with h | h
          · cases h; exact .sameMode
          · cases h
        · next hm =>
          rcases h with h | h
          · cases h; exact .mode _ (by simpa using hh) hm
          · cases h
  case h_2 =>
    unfold State.takeZoneClose at h
    split at h
    · rcases h with h | h <;> cases h
    · rcases h with h | h
      · cases h; exact .zoneClose
      · cases h
  case h_3 =>
    unfold State.takeDoorClear at h
    split at h
    · rcases h with h | h <;> cases h
    · split at h
      · rcases h with h | h <;> cases h
      · rcases h with h | h
        · cases h; exact .doorClear _
        · cases h
  case h_4 =>
    unfold State.takeAlarmAck at h
    split at h
    · rcases h with h | h <;> cases h
    · split at h
      · rcases h with h | h <;> cases h
      · rcases h with h | h
        · cases h; exact .alarmAck _
        · cases h
  case h_5 =>
    unfold State.takeBaseline at h
    split at h
    · rcases h with h | h
      · cases h; exact .baseline
      · cases h
    · rcases h with h | h <;> cases h
  case h_6 =>
    unfold State.takeCaptureRelease at h
    split at h
    · split at h
      · rcases h with h | h <;> cases h
      · rcases h with h | h
        · cases h; exact .release _
        · cases h
    · rcases h with h | h <;> cases h
  case h_7 =>
    unfold State.takeReload at h
    split at h
    · rcases h with h | h <;> cases h
    · split at h
      · rcases h with h | h <;> cases h
      · split at h
        · rcases h with h | h <;> cases h
        · rcases h with h | h
          · cases h; exact .reload
          · cases h
  case h_8 =>
    unfold State.takeResync at h
    split at h
    · split at h
      · rcases h with h | h <;> cases h
      · split at h
        · rcases h with h | h <;> cases h
        · next hb =>
          rcases h with h | h
          · cases h; exact .resync _ hb
          · cases h
    · rcases h with h | h <;> cases h
  case h_10 =>
    unfold State.takeHeartbeat at h
    split at h
    · next hs =>
      rcases h with h | h
      · cases h; exact .heartbeat hs
      · cases h
    · rcases h with h | h <;> cases h

/-! ## What a law must be kept by -/

/-- One condition for each take of the part: a law that meets them all is kept by every step. -/
structure Kept (law : State → Prop) : Prop where
  pending : ∀ s p, law s → law { s with pending := p }
  clock : ∀ s, law s → law { s with clock := s.clock + 1 }
  -- the access path
  capture : ∀ s c, law s → law (s.capture c)
  answer : ∀ s r, law s → law (s.answer r)
  setUpstream : ∀ s u, law s → law (s.setUpstream u)
  setSlot : ∀ s m x, law s → law (s.setSlot m x)
  setMeter : ∀ s m r, law s → law (s.setMeter m r)
  station : ∀ s d w y, law s → s.yard.stationRequest s.env d w = .ok y →
    law ((s.setYard y).endTake s.yard)
  order : ∀ s m addr w t, law s → s.part = .running → s.OrderTake m addr w t → law t
  sensor : ∀ s d w arrival, law s → law (s.sensorTake d w arrival)
  -- the mirror unit
  store : ∀ s b a l w, law s → law { s with mirror := s.mirror.store b a l w }
  forget : ∀ s b a, law s → law { s with mirror := s.mirror.forget b a }
  clean : ∀ s b, law s → law { s with mirror := s.mirror.countClean b }
  countLeg : ∀ s b owner a ok, law s → law (s.takeMirror (s.mirror.countLeg b owner a ok))
  countError : ∀ s b owner a fault, law s → law (s.takeMirror (s.mirror.countError b owner a fault))
  copyStep : ∀ s outcome, law s → law (s.takeMirror (s.mirror.copyStep outcome))
  -- resets and loads
  beginReset : ∀ s kind, law s → law (s.beginReset kind)
  release : ∀ s strap, law s → s.part = .inReset → law (s.release strap)
  nextAttempt : ∀ s n k, law s → s.part = .loading n → law { s with part := .loading k }
  enterTransparent : ∀ s n, law s → s.part = .loading n → law s.enterTransparent
  enterRunning : ∀ s n image img a b, law s → s.part = .loading n → loadAttempt image none = .ok img →
    law (s.enterRunning img n a b)
  ready : ∀ s, law s → law { s with lines := { s.lines with ready := true } }
  freePort : ∀ s, law s → law { s with path := { s.path with upstream := .idle } }
  -- reloads
  reloadFault : ∀ s f, law s → law (s.reloadFault f)
  hold : ∀ s image img, law s → loadAttempt image (some s.mirror.imageSize) = .ok img →
    law ((s.setReload (.applyPending img)).markReload false)
  applyNow : ∀ s image img, law s → s.part = .running →
    loadAttempt image (some s.mirror.imageSize) = .ok img → s.yard.still = true →
    law (((s.setReload .idle).markReload false).applyImage img 1)
  applyHeld : ∀ s img, law s → s.loader.reload = .applyPending img → s.yard.still = true →
    law ((s.setReload .idle).applyImage img 2)
  -- timers and grants
  debounce : ∀ s d n, law s → law (s.takeDebounce d n)
  freshness : ∀ s d, law s → law (s.doorTake (fun y e => y.freshnessExpiry e d) [])
  grant : ∀ s g, law s → law (s.doorTake (fun y e => y.grantGroup e g) [])
  prewarn : ∀ s d, law s → law (s.doorTake (fun y e => y.prewarnExpiry e d) [])
  travel : ∀ s d x dir o n, law s → s.door? d = some x → x.drive = .moving dir o n →
    law (s.doorTake (fun y e => y.travelExpiry e d) [stalledCapture d])
  reclose : ∀ s d x n, law s → s.door? d = some x → x.drive = .recloseWait n →
    law (s.doorTake (fun y e => y.recloseExpiry e d) [])
  trip : ∀ s d x, law s → s.door? d = some x → x.drive.closingRun = true → law (s.takeTrip d)
  retry : ∀ s d x n, law s → s.door? d = some x → x.drive = .tripped n →
    law (s.doorTake (fun y e => y.retryExpiry e d) [])
  settle : ∀ s d, law s → law (s.doorTake (fun y _ => y.settleExpiry d) [])
  lapse : ∀ s m start, law s → s.role m = .station (some start) → law (s.lapse m)
  transferExpiry : ∀ s, law s → law s.takeTransferExpiry
  phase : ∀ s, law s → law s.takePhase

namespace Kept

variable {law : State → Prop}

/-! ## The access path -/

theorem abandonSlot (k : Kept law) {s : State} (m : Master) (h : law s) : law (s.abandonSlot m) := by
  unfold State.abandonSlot
  split
  · exact k.capture _ _ (k.setSlot _ _ _ h)
  · exact h

theorem refuseWith (k : Kept law) {s : State} (c : Capture) (h : law s) : law (s.refuseWith c) :=
  k.answer _ _ (k.capture _ _ h)

/-- What a stage leaves keeps the law. -/
def stage (law : State → Prop) : Stage → Prop
  | .ended s => law s
  | .goesOn s _ => law s

theorem laneStage (k : Kept law) {s : State} (a : Access) (f : Found) (h : law s) :
    stage law (s.laneStage a f) := by
  have hh : ∀ (t : State) (l : Lane) (b : Byte), law t → stage law (t.holdByte a l b) :=
    fun t l b ht => k.answer _ _ (k.setSlot _ _ _ ht)
  unfold State.laneStage
  split
  · split
    · exact k.answer _ _ h
    · split
      · unfold State.assemble
        split
        · exact hh _ _ _ h
        · split
          · split
            · exact hh _ _ _ h
            · exact k.setSlot _ _ _ h
          · exact hh _ _ _ (k.abandonSlot _ h)
      · exact k.refuseWith _ h
  · exact k.abandonSlot _ h

theorem matrix (k : Kept law) {s : State} (a : Access) (f : Found) (h : law s) :
    stage law (s.matrix a f) := by
  unfold State.matrix
  split
  · split
    · exact k.refuseWith _ h
    · exact h
  · exact h

theorem masterStage (k : Kept law) {s : State} (a : Access) (f : Found) (h : law s) :
    stage law (s.masterStage a f) := by
  unfold State.masterStage
  simp only
  split
  · exact k.answer _ _ h
  · split
    · exact k.matrix a f h
    · unfold State.unauthorized
      split
      · split
        · exact k.refuseWith _ h
        · exact k.answer _ _ h
        · exact k.answer _ _ h
      · split
        · split
          · exact k.matrix a f h
          · exact k.answer _ _ h
        · exact k.matrix a f h
        · exact k.matrix a f h

theorem ruleStage (k : Kept law) {s : State} (a : Access) (f : Found) (h : law s) :
    stage law (s.ruleStage a f) := by
  unfold State.ruleStage
  split
  · exact h
  · unfold State.act
    split
    · exact h
    · exact k.refuseWith _ h
    · exact k.answer _ _ h
    · exact h
    · exact k.capture _ _ h
    · unfold State.payToken
      simp only
      split
      · exact k.setMeter _ _ _ h
      · split
        · exact k.answer _ _ h
        · exact k.refuseWith _ (k.setMeter _ _ _ h)

theorem afterWrite (k : Kept law) {s : State} (after : AfterWrite) (h : law s) :
    law (s.afterWrite after) := by
  unfold State.afterWrite
  split
  · exact h
  · exact k.sensor _ _ _ _ h

theorem settleWrite (k : Kept law) {s : State} (a : Access) (addr : Addr) (l : Lanes) (w : Word)
    (legA legB : Leg) (after : AfterWrite) (h : law s) :
    law (s.settleWrite a addr l w legA legB after) := by
  unfold State.settleWrite
  split
  · exact k.answer _ _ (k.afterWrite _ h)
  · exact k.setUpstream _ _ h

theorem forwardWrite (k : Kept law) {s : State} (a : Access) (addr : Addr) (l : Lanes) (w : Word)
    (after : AfterWrite) (r : Response) (h : law s) :
    law (s.forwardWrite a addr l w after r) := by
  unfold State.forwardWrite
  split
  · exact k.answer _ _ (k.afterWrite _ h)
  · exact k.settleWrite _ _ _ _ _ _ _ h

theorem plainRead (k : Kept law) {s : State} (orig a : Access) (h : law s) :
    law (s.plainRead orig a) := by
  unfold State.plainRead
  split
  · unfold State.forwardRead
    split
    · exact k.answer _ _ h
    · split
      · exact k.setUpstream _ _ h
      · exact k.answer _ _ h
  · exact k.refuseWith _ h

/-! ### What the stages leave of the masters and the part state -/

/-- The access goes on from its own master, with masters and part state as they were. -/
def passed (s : State) (a : Access) : Stage → Prop
  | .ended _ => True
  | .goesOn t b => t.masters = s.masters ∧ t.part = s.part ∧ b.master = a.master

theorem abandonSlot_passed (s : State) (m : Master) :
    (s.abandonSlot m).masters = s.masters ∧ (s.abandonSlot m).part = s.part := by
  unfold State.abandonSlot
  split
  · exact ⟨rfl, rfl⟩
  · exact ⟨rfl, rfl⟩

theorem laneStage_passed (s : State) (a : Access) (f : Found) : passed s a (s.laneStage a f) := by
  unfold State.laneStage
  split
  · split
    · trivial
    · split
      · unfold State.assemble
        split
        · trivial
        · split
          · split
            · trivial
            · exact ⟨rfl, rfl, rfl⟩
          · trivial
      · trivial
  · exact ⟨(abandonSlot_passed s a.master).1, (abandonSlot_passed s a.master).2, rfl⟩

theorem matrix_goesOn {s t : State} {a b : Access} {f : Found} (h : s.matrix a f = .goesOn t b) :
    t = s ∧ b = a := by
  unfold State.matrix at h
  split at h
  · split at h
    · cases h
    · cases h; exact ⟨rfl, rfl⟩
  · cases h; exact ⟨rfl, rfl⟩

theorem masterStage_goesOn {s t : State} {a b : Access} {f : Found}
    (h : s.masterStage a f = .goesOn t b) :
    t = s ∧ b = a ∧ (a.isWrite = true → f.kind = .order → (s.role a.master).mayOrder f.offset) := by
  unfold State.masterStage at h
  simp only at h
  split at h
  · cases h
  · split at h
    · next hr =>
      refine ⟨(matrix_goesOn h).1, (matrix_goesOn h).2, ?_⟩
      intro hw hk
      simp only [Bool.or_eq_true, excepted, hw, hk, Bool.true_and, Bool.and_eq_true,
        beq_self_eq_true, beq_iff_eq] at hr
      exact hr
    · unfold State.unauthorized at h
      split at h
      · split at h <;> cases h
      · next hw =>
        refine (fun h' => ⟨h'.1, h'.2, fun hw' => absurd hw' hw⟩) (?_ : t = s ∧ b = a)
        split at h
        · split at h
          · exact matrix_goesOn h
          · cases h
        · exact matrix_goesOn h
        · exact matrix_goesOn h

theorem ruleStage_passed (s : State) (a : Access) (f : Found) : passed s a (s.ruleStage a f) := by
  unfold State.ruleStage
  split
  · exact ⟨rfl, rfl, rfl⟩
  · unfold State.act
    split
    · exact ⟨rfl, rfl, rfl⟩
    · trivial
    · trivial
    · refine ⟨rfl, rfl, ?_⟩
      unfold Access.force
      split <;> rfl
    · exact ⟨rfl, rfl, rfl⟩
    · unfold State.payToken
      simp only
      split
      · exact ⟨rfl, rfl, rfl⟩
      · split <;> trivial

theorem ruleStage_isWrite {s t : State} {a b : Access} {f : Found}
    (h : s.ruleStage a f = .goesOn t b) : b.isWrite = a.isWrite := by
  unfold State.ruleStage at h
  split at h
  · cases h; rfl
  · unfold State.act at h
    split at h
    · cases h; rfl
    · cases h
    · cases h
    · cases h
      unfold Access.force
      split
      · rfl
      · next ho => simp [Access.isWrite, ho]
    · cases h; rfl
    · unfold State.payToken at h
      simp only at h
      split at h
      · cases h; rfl
      · split at h <;> cases h

/-- What `admission` says of an access that goes on. -/
theorem admission_goesOn {s t : State} {a b : Access} {f : Found} (h : s.admission a f = .goesOn t b) :
    t.part = s.part ∧ (b.isWrite = true → f.kind = .order → (t.role b.master).mayOrder f.offset) := by
  unfold State.admission at h
  have hl := laneStage_passed s a f
  cases h1 : s.laneStage a f with
  | ended t1 => rw [h1] at h; cases h
  | goesOn s1 a1 =>
    rw [h1] at h hl
    simp only [Stage.andThen] at h
    cases h2 : s1.masterStage a1 f with
    | ended t2 => rw [h2] at h; cases h
    | goesOn s2 a2 =>
      rw [h2] at h
      simp only at h
      obtain ⟨e1, e2, hm⟩ := masterStage_goesOn h2
      have hr := ruleStage_passed s2 a2 f
      rw [h] at hr
      obtain ⟨hm1, hp1, hb1⟩ := hl
      obtain ⟨hm2, hp2, hb2⟩ := hr
      subst e1 e2
      refine ⟨by rw [hp2, hp1], ?_⟩
      intro hw hk
      rw [ruleStage_isWrite h] at hw
      have := hm hw hk
      simpa [State.role, hm2, hb2] using this

theorem admission (k : Kept law) {s : State} (a : Access) (f : Found) (h : law s) :
    stage law (s.admission a f) := by
  unfold State.admission
  have h1 := k.laneStage a f h
  cases e1 : s.laneStage a f with
  | ended t => rw [e1] at h1; exact h1
  | goesOn s1 a1 =>
    rw [e1] at h1
    simp only [Stage.andThen]
    have h2 := k.masterStage a1 f h1
    cases e2 : s1.masterStage a1 f with
    | ended t => rw [e2] at h2; exact h2
    | goesOn s2 a2 =>
      rw [e2] at h2
      exact k.ruleStage a2 f h2

/-! ### The processing of the kinds -/

theorem stationWrite (k : Kept law) {s : State} (a : Access) (d : Nat) (w : Word) (h : law s) :
    law (s.stationWrite a d w) := by
  unfold State.stationWrite
  split
  · next hy => exact k.answer _ _ (k.station _ _ _ _ h hy)
  · exact k.refuseWith _ h

theorem orderWrite (k : Kept law) {s : State} (orig a : Access) (offset : Nat) (w : Word)
    (h : law s) (hp : s.part = .running) (hr : (s.role a.master).mayOrder offset) :
    law (s.orderWrite orig a offset w) := by
  unfold State.orderWrite
  split
  · next ht => exact k.forwardWrite _ _ _ _ _ _ (k.order _ _ _ _ _ h hp (State.takeOrder_take hr (.inl ht)))
  · exact k.refuseWith _ h
  · next ht => exact k.answer _ _ (k.order _ _ _ _ _ h hp (State.takeOrder_take hr (.inr ht)))

theorem process (k : Kept law) {s : State} (orig a : Access) (f : Found) (h : law s)
    (hp : s.part = .running)
    (hr : a.isWrite = true → f.kind = .order → (s.role a.master).mayOrder f.offset) :
    law (s.process orig a f) := by
  unfold State.process
  split
  · split
    · exact k.plainRead _ _ h
    · exact k.plainRead _ _ h
    · exact k.plainRead _ _ h
    · exact k.answer _ _ h
    · exact k.answer _ _ h
    · exact k.answer _ _ h
    · exact k.answer _ _ h
  · next w ho =>
    split
    · unfold State.plainWrite
      split
      · exact k.forwardWrite _ _ _ _ _ _ h
      · exact k.refuseWith _ h
    · exact k.forwardWrite _ _ _ _ _ _ h
    · next hk => exact k.orderWrite _ _ _ _ h hp (hr (by simp [Access.isWrite, ho]) hk)
    · exact k.stationWrite _ _ _ h
    · exact k.refuseWith _ h
    · exact k.refuseWith _ h
    · exact k.refuseWith _ h

theorem runAccess (k : Kept law) {s : State} (a : Access) (h : law s) (hp : s.part = .running) :
    law (s.runAccess a) := by
  unfold State.runAccess
  have hs := k.admission a (s.lookup a.addr) h
  simp only
  cases e : s.admission a (s.lookup a.addr) with
  | ended t => rw [e] at hs; exact hs
  | goesOn t b =>
    rw [e] at hs
    obtain ⟨h1, h2⟩ := admission_goesOn e
    exact k.process _ _ _ hs (h1.trans hp) h2

theorem present (k : Kept law) {s : State} (a : Access) (h : law s) : law (s.present a) := by
  unfold State.present
  split
  · exact k.setUpstream _ _ h
  · exact k.setUpstream _ _ h
  · exact k.setUpstream _ _ h
  · next hp => exact k.runAccess _ h hp

theorem arrive (k : Kept law) {s : State} (a : Access) (h : law s) : law (s.arrive a) := by
  unfold State.arrive
  split
  · exact k.present a h
  · exact h

/-! ## The bank ports -/

theorem countOneLeg (k : Kept law) {s : State} (b : BankId) (owner : AccessOwner) (addr : Addr)
    (l : Leg) (h : law s) : law (s.countLeg b owner addr l).1 := by
  unfold State.countLeg
  split
  · exact k.countLeg _ _ _ _ _ h
  · exact h

theorem countLegs (k : Kept law) {s : State} (owner : AccessOwner) (addr : Addr) (legA legB : Leg)
    (h : law s) : law (s.countLegs owner addr legA legB).1 := by
  unfold State.countLegs
  simp only
  split
  · exact k.countOneLeg _ _ _ _ (k.countOneLeg _ _ _ _ h)
  · exact k.countOneLeg _ _ _ _ h

theorem writeEnd (k : Kept law) {s : State} (a : Access) (addr : Addr) (l : Lanes) (w : Word)
    (legA legB : Leg) (after : AfterWrite) (b : BankId) (clean : Bool) (h : law s) :
    law (s.writeEnd a addr l w legA legB after b clean) := by
  have h1 : law { s with
      mirror := if clean then s.mirror.store b addr l w else s.mirror.forget b addr } := by
    cases clean
    · exact k.forget _ _ _ h
    · exact k.store _ _ _ _ _ h
  unfold State.writeEnd
  cases b <;> dsimp only <;> split
  · exact k.settleWrite _ _ _ _ _ _ _ (k.countLegs _ _ _ _ h1)
  · exact h
  · exact k.settleWrite _ _ _ _ _ _ _ (k.countLegs _ _ _ _ h1)
  · exact h

theorem readError (k : Kept law) {s : State} (a : Access) (addr : Addr) (l : Lanes) (b : BankId)
    (retry : Bool) (fault : BankFault) (h : law s) : law (s.readError a addr l b retry fault) := by
  unfold State.readError
  simp only
  have h1 := k.countError s b (.upstream a.master) addr fault h
  split
  · exact k.setUpstream _ _ h1
  · exact k.answer _ _ h1

theorem bankEnd (k : Kept law) {s : State} (b : BankId) (flipped : BankWord) (h : law s) :
    law (s.bankEnd b flipped) := by
  unfold State.bankEnd
  split
  · exact k.writeEnd _ _ _ _ _ _ _ _ _ h
  · split
    · unfold State.readEnd
      simp only
      split
      · exact k.answer _ _ (k.clean _ _ h)
      · exact k.readError _ _ _ _ _ _ h
    · exact h
  · split
    · unfold State.transparentEnd
      split
      · exact k.answer _ _ (k.store _ _ _ _ _ h)
      · simp only
        split
        · exact k.answer _ _ h
        · exact k.answer _ _ h
    · exact h
  · exact h
  · exact h

theorem bankTimeout (k : Kept law) {s : State} (b : BankId) (h : law s) :
    law (s.bankTimeout b) := by
  unfold State.bankTimeout
  split
  · exact k.writeEnd _ _ _ _ _ _ _ _ _ h
  · split
    · exact k.readError _ _ _ _ _ _ h
    · exact h
  · split
    · unfold State.transparentTimeout
      split
      · exact k.answer _ _ (k.forget _ _ _ h)
      · exact k.answer _ _ h
    · exact h
  · exact h
  · exact h

/-! ## Loads and reloads -/

theorem openPort (k : Kept law) {s : State} (h : law s) : law s.openPort := by
  unfold State.openPort
  simp only
  split
  · exact k.present _ (k.freePort _ (k.ready _ h))
  · exact k.ready _ h

theorem loadEnd (k : Kept law) {s : State} (n : Nat) (image : List Byte) (a b : Bool) (h : law s)
    (hp : s.part = .loading n) : law (s.loadEnd n image a b) := by
  unfold State.loadEnd
  split
  · next hl => exact k.openPort (k.enterRunning _ _ _ _ _ _ h hp hl)
  · unfold State.loadFault
    split
    · exact k.nextAttempt _ _ _ h hp
    · exact k.openPort (k.enterTransparent _ _ h hp)

theorem reloadEnd (k : Kept law) {s : State} (image : List Byte) (h : law s)
    (hp : s.part = .running) : law (s.reloadEnd image) := by
  unfold State.reloadEnd
  split
  · next hl =>
    unfold State.reloadGood
    split
    · next hs => exact k.applyNow _ _ _ h hp hl hs
    · exact k.hold _ _ _ h hl
  · exact k.reloadFault _ _ h

/-! ## Expiries -/

theorem atExpiry (_ : Kept law) {s : State} {timer : Option Nat} {take : State → State}
    (ht : ∀ t, timer = some t → law (take s)) (h : law s) : law (s.atExpiry timer take) := by
  unfold State.atExpiry State.reached
  cases timer with
  | none => exact h
  | some t =>
    simp only
    split
    · exact ht t rfl
    · exact h

theorem doorTimer_found {s : State} {d t : Nat} {get : Door → Option Nat}
    (h : s.doorTimer d get = some t) : ∃ x, s.door? d = some x ∧ get x = some t := by
  unfold State.doorTimer at h
  cases hx : s.door? d with
  | none => rw [hx] at h; cases h
  | some x => rw [hx] at h; exact ⟨x, rfl, h⟩

/-- Every command keeps a law that every take keeps. -/
theorem exec (k : Kept law) {i : Instr} {s t : State} (h : law s)
    (he : Machine.exec i s = .next t) : law t := by
  have acc : ∀ a, s.arrival a = .next t → law t := by
    intro a ha
    cases ha
    exact k.arrive a h
  cases i with
  | powerOn =>
    simp only [Machine.exec, execPowerOn, Host.Outcome.next.injEq] at he
    subst he
    exact k.beginReset _ _ h
  | reset =>
    simp only [Machine.exec, execReset, Host.Outcome.next.injEq] at he
    subst he
    exact k.beginReset _ _ h
  | resetRelease strap =>
    simp only [Machine.exec, execResetRelease, Host.Outcome.next.injEq] at he
    subst he
    split
    · next hp => exact k.release _ _ h hp
    · exact h
  | loadAttemptEnd image a b =>
    simp only [Machine.exec, execLoadAttemptEnd] at he
    split at he
    · next hp => simp only [Host.Outcome.next.injEq] at he; subst he; exact k.loadEnd _ _ _ _ h hp
    · simp only [Host.Outcome.next.injEq] at he; subst he; exact h
  | bankAccessEnd b flipped =>
    simp only [Machine.exec, execBankAccessEnd, Host.Outcome.next.injEq] at he
    subst he
    exact k.bankEnd _ _ h
  | bankCompletionTimeout b =>
    simp only [Machine.exec, execBankCompletionTimeout, Host.Outcome.next.injEq] at he
    subst he
    exact k.bankTimeout _ h
  | copyStep outcome =>
    simp only [Machine.exec, execCopyStep, Host.Outcome.next.injEq] at he
    subst he
    split
    · exact k.copyStep _ _ h
    · exact h
  | debounceExpiry d i =>
    simp only [Machine.exec, execDebounceExpiry] at he
    split at he
    · simp only [Host.Outcome.next.injEq] at he; subst he; exact k.atExpiry (fun _ _ => k.debounce _ _ _ h) h
    · simp only [Host.Outcome.next.injEq] at he; subst he; exact h
  | freshnessExpiry d =>
    simp only [Machine.exec, execFreshnessExpiry, Host.Outcome.next.injEq] at he
    subst he
    exact k.atExpiry (fun _ _ => k.freshness _ _ h) h
  | slotGrant g =>
    simp only [Machine.exec, execSlotGrant, Host.Outcome.next.injEq] at he
    subst he
    split
    · exact k.grant _ _ h
    · exact h
  | prewarnExpiry d =>
    simp only [Machine.exec, execPrewarnExpiry, Host.Outcome.next.injEq] at he
    subst he
    exact k.atExpiry (fun _ _ => k.prewarn _ _ h) h
  | travelExpiry d =>
    simp only [Machine.exec, execTravelExpiry, Host.Outcome.next.injEq] at he
    subst he
    refine k.atExpiry (fun n ht => ?_) h
    obtain ⟨x, hx, hg⟩ := doorTimer_found ht
    unfold Door.travelAt at hg
    split at hg
    · next hd => exact k.travel _ _ _ _ _ _ h hx hd
    · cases hg
  | recloseExpiry d =>
    simp only [Machine.exec, execRecloseExpiry, Host.Outcome.next.injEq] at he
    subst he
    refine k.atExpiry (fun n ht => ?_) h
    obtain ⟨x, hx, hg⟩ := doorTimer_found ht
    unfold Door.recloseAt at hg
    split at hg
    · next hd => exact k.reclose _ _ _ _ h hx hd
    · cases hg
  | tripTimerExpiry d =>
    simp only [Machine.exec, execTripTimerExpiry, Host.Outcome.next.injEq] at he
    subst he
    refine k.atExpiry (fun n ht => ?_) h
    obtain ⟨x, hx, hg⟩ := doorTimer_found ht
    unfold Door.tripAt at hg
    split at hg
    · next hd => exact k.trip _ _ _ h hx hd
    · cases hg
  | retryExpiry d =>
    simp only [Machine.exec, execRetryExpiry, Host.Outcome.next.injEq] at he
    subst he
    refine k.atExpiry (fun n ht => ?_) h
    obtain ⟨x, hx, hg⟩ := doorTimer_found ht
    unfold Door.retryAt at hg
    split at hg
    · next hd => exact k.retry _ _ _ _ h hx hd
    · cases hg
  | settleExpiry d =>
    simp only [Machine.exec, execSettleExpiry, Host.Outcome.next.injEq] at he
    subst he
    exact k.atExpiry (fun _ _ => k.settle _ _ h) h
  | reloadAttemptEnd image =>
    simp only [Machine.exec, execReloadAttemptEnd, Host.Outcome.next.injEq] at he
    subst he
    split
    · next hp => exact k.reloadEnd _ h hp.1
    · exact h
  | apply =>
    simp only [Machine.exec, execApply] at he
    split at he
    · next img hd =>
      simp only [Host.Outcome.next.injEq] at he
      subst he
      unfold State.dueApply at hd
      split at hd
      · next hl =>
        split at hd
        · next hs => cases hd; exact k.applyHeld _ _ h hl hs
        · cases hd
      · cases hd
      · cases hd
    · simp only [Host.Outcome.next.injEq] at he; subst he; exact h
  | heartbeatExpiry m =>
    simp only [Machine.exec, execHeartbeatExpiry, Host.Outcome.next.injEq] at he
    subst he
    refine k.atExpiry (fun n ht => ?_) h
    unfold State.heartbeatAt at ht
    split at ht
    · next hr => exact k.lapse _ _ _ h hr
    · cases ht
  | transferTimerExpiry =>
    simp only [Machine.exec, execTransferTimerExpiry, Host.Outcome.next.injEq] at he
    subst he
    exact k.atExpiry (fun _ _ => k.transferExpiry _ h) h
  | flashPhaseExpiry =>
    simp only [Machine.exec, execFlashPhaseExpiry, Host.Outcome.next.injEq] at he
    subst he
    exact k.atExpiry (fun _ _ => k.phase _ h) h
  | refillInstant m =>
    simp only [Machine.exec, execRefillInstant, Host.Outcome.next.injEq] at he
    subst he
    exact k.atExpiry (fun _ _ => k.setMeter _ _ _ h) h
  | _ => exact acc _ he

/-- Every step keeps a law that every take keeps. -/
theorem step (k : Kept law) : KeptByStep law := by
  intro s t h hs
  unfold Machine.step at hs
  split at hs
  · exact k.exec (k.pending _ _ h) hs
  · simp only [Host.Outcome.next.injEq] at hs
    subst hs
    unfold State.tick
    split
    · split
      · exact k.clock _ h
      · exact k.pending _ _ h
    · exact h

end Kept

end Sys2Proof.Machine
end

