-- ==== Sys2Proof/Laws/PerInstr.lean ====
section
/-! SUPPORT. The family Operands: what a well-formed command names, said of each command. -/

namespace Sys2Proof

/-- The door that an expiry of a door's timer names. -/
def Instr.namedDoor? : Instr → Option Nat
  | .debounceExpiry d _ => some d
  | .freshnessExpiry d => some d
  | .prewarnExpiry d => some d
  | .travelExpiry d => some d
  | .recloseExpiry d => some d
  | .tripTimerExpiry d => some d
  | .retryExpiry d => some d
  | .settleExpiry d => some d
  | _ => none

/-- The settings bytes that the end of a load attempt carries. -/
def Instr.namedImage? : Instr → Option (List Byte)
  | .loadAttemptEnd image _ _ => some image
  | .reloadAttemptEnd image => some image
  | _ => none

end Sys2Proof

namespace Sys2Proof.Laws.Operands

/-- A command is well-formed exactly where the door it names is one of the 96 and the settings bytes it carries fit the
settings memory. -/
def Statement (i : Instr) : Prop :=
  i.wellFormed = true ↔
    (∀ d, i.namedDoor? = some d → d < 96) ∧ ∀ b, i.namedImage? = some b → b.length ≤ 2048

/-- A command that names neither a door nor settings bytes. -/
theorem of_plain {i : Instr} (hw : i.wellFormed = true) (hd : i.namedDoor? = none)
    (hb : i.namedImage? = none) : Statement i := by
  simp [Statement, hw, hd, hb]

/-- A command that names a door. -/
theorem of_door {i : Instr} {d : Nat} (hw : i.wellFormed = doorOk d) (hd : i.namedDoor? = some d)
    (hb : i.namedImage? = none) : Statement i := by
  simp [Statement, hw, hd, hb, doorOk, Config.maxDoors]
  exact decide_eq_true_iff

/-- A command that carries settings bytes. -/
theorem of_image {i : Instr} {b : List Byte} (hw : i.wellFormed = imageOk b) (hd : i.namedDoor? = none)
    (hb : i.namedImage? = some b) : Statement i := by
  simp [Statement, hw, hd, hb, imageOk, Config.settingsBytes]
  exact decide_eq_true_iff

theorem powerOn : Statement .powerOn := of_plain rfl rfl rfl
theorem reset : Statement (.reset) := of_plain rfl rfl rfl
theorem resetRelease (laneStrap : Bool) : Statement (.resetRelease laneStrap) :=
  of_plain rfl rfl rfl
theorem loadAttemptEnd (image : List Byte) (presentA presentB : Bool) : Statement (.loadAttemptEnd image presentA presentB) :=
  of_image rfl rfl rfl
theorem startUpHold (a : Access) : Statement (.startUpHold a) := of_plain rfl rfl rfl
theorem transparentAccess (a : Access) : Statement (.transparentAccess a) := of_plain rfl rfl rfl
theorem singleLaneWrite (m : Master) (addr : Addr) (lane : Lane) (byte : Byte) : Statement (.singleLaneWrite m addr lane byte) :=
  of_plain rfl rfl rfl
theorem forwardedWrite (m : Master) (addr : Addr) (lanes : Lanes) (data : Word) : Statement (.forwardedWrite m addr lanes data) :=
  of_plain rfl rfl rfl
theorem forwardedRead (m : Master) (addr : Addr) (lanes : Lanes) : Statement (.forwardedRead m addr lanes) :=
  of_plain rfl rfl rfl
theorem bankAccessEnd (bank : BankId) (flipped : BankWord) : Statement (.bankAccessEnd bank flipped) :=
  of_plain rfl rfl rfl
theorem bankCompletionTimeout (bank : BankId) : Statement (.bankCompletionTimeout bank) :=
  of_plain rfl rfl rfl
theorem copyStep (outcome : CopyOutcome) : Statement (.copyStep outcome) := of_plain rfl rfl rfl
theorem stationNone (m : Master) (addr : Addr) (rest : BitVec 13) : Statement (.stationNone m addr rest) :=
  of_plain rfl rfl rfl
theorem stationClose (m : Master) (addr : Addr) (rest : BitVec 13) : Statement (.stationClose m addr rest) :=
  of_plain rfl rfl rfl
theorem stationOpen (m : Master) (addr : Addr) (rest : BitVec 13) : Statement (.stationOpen m addr rest) :=
  of_plain rfl rfl rfl
theorem stationStop (m : Master) (addr : Addr) (rest : BitVec 13) : Statement (.stationStop m addr rest) :=
  of_plain rfl rfl rfl
theorem stationIsolate (m : Master) (addr : Addr) (rest : BitVec 13) : Statement (.stationIsolate m addr rest) :=
  of_plain rfl rfl rfl
theorem stationRestore (m : Master) (addr : Addr) (rest : BitVec 13) : Statement (.stationRestore m addr rest) :=
  of_plain rfl rfl rfl
theorem sensorReport (m : Master) (addr : Addr) (word : Word) : Statement (.sensorReport m addr word) :=
  of_plain rfl rfl rfl
theorem debounceExpiry (door : Nat) (input : Input) : Statement (.debounceExpiry door input) :=
  of_door rfl rfl rfl
theorem freshnessExpiry (door : Nat) : Statement (.freshnessExpiry door) := of_door rfl rfl rfl
theorem slotGrant (group : GroupNum) : Statement (.slotGrant group) := of_plain rfl rfl rfl
theorem prewarnExpiry (door : Nat) : Statement (.prewarnExpiry door) := of_door rfl rfl rfl
theorem travelExpiry (door : Nat) : Statement (.travelExpiry door) := of_door rfl rfl rfl
theorem recloseExpiry (door : Nat) : Statement (.recloseExpiry door) := of_door rfl rfl rfl
theorem tripTimerExpiry (door : Nat) : Statement (.tripTimerExpiry door) := of_door rfl rfl rfl
theorem retryExpiry (door : Nat) : Statement (.retryExpiry door) := of_door rfl rfl rfl
theorem settleExpiry (door : Nat) : Statement (.settleExpiry door) := of_door rfl rfl rfl
theorem mode (m : Master) (addr : Addr) (value : Word) : Statement (.mode m addr value) :=
  of_plain rfl rfl rfl
theorem zoneClose (m : Master) (addr : Addr) (value : Word) : Statement (.zoneClose m addr value) :=
  of_plain rfl rfl rfl
theorem doorClear (m : Master) (addr : Addr) (value : Word) : Statement (.doorClear m addr value) :=
  of_plain rfl rfl rfl
theorem alarmAck (m : Master) (addr : Addr) (value : Word) : Statement (.alarmAck m addr value) :=
  of_plain rfl rfl rfl
theorem baseline (m : Master) (addr : Addr) (value : Word) : Statement (.baseline m addr value) :=
  of_plain rfl rfl rfl
theorem captureRelease (m : Master) (addr : Addr) (value : Word) : Statement (.captureRelease m addr value) :=
  of_plain rfl rfl rfl
theorem reload (m : Master) (addr : Addr) (value : Word) : Statement (.reload m addr value) :=
  of_plain rfl rfl rfl
theorem reloadAttemptEnd (image : List Byte) : Statement (.reloadAttemptEnd image) :=
  of_image rfl rfl rfl
theorem apply : Statement .apply := of_plain rfl rfl rfl
theorem resync (m : Master) (addr : Addr) (value : Word) : Statement (.resync m addr value) :=
  of_plain rfl rfl rfl
theorem transferRequest (m : Master) (addr : Addr) (rest : BitVec 13) : Statement (.transferRequest m addr rest) :=
  of_plain rfl rfl rfl
theorem transferAccept (m : Master) (addr : Addr) (rest : BitVec 13) : Statement (.transferAccept m addr rest) :=
  of_plain rfl rfl rfl
theorem transferDecline (m : Master) (addr : Addr) (rest : BitVec 13) : Statement (.transferDecline m addr rest) :=
  of_plain rfl rfl rfl
theorem transferCancel (m : Master) (addr : Addr) (rest : BitVec 13) : Statement (.transferCancel m addr rest) :=
  of_plain rfl rfl rfl
theorem transferRelinquish (m : Master) (addr : Addr) (rest : BitVec 13) : Statement (.transferRelinquish m addr rest) :=
  of_plain rfl rfl rfl
theorem heartbeat (m : Master) (addr : Addr) (value : Word) : Statement (.heartbeat m addr value) :=
  of_plain rfl rfl rfl
theorem attach (m : Master) (addr : Addr) (value : Word) : Statement (.attach m addr value) :=
  of_plain rfl rfl rfl
theorem heartbeatExpiry (station : Master) : Statement (.heartbeatExpiry station) :=
  of_plain rfl rfl rfl
theorem transferTimerExpiry : Statement (.transferTimerExpiry) := of_plain rfl rfl rfl
theorem flashPhaseExpiry : Statement (.flashPhaseExpiry) := of_plain rfl rfl rfl
theorem refillInstant (meter : Fin 8) : Statement (.refillInstant meter) := of_plain rfl rfl rfl
theorem servedRead (m : Master) (addr : Addr) (lanes : Lanes) : Statement (.servedRead m addr lanes) :=
  of_plain rfl rfl rfl

end Sys2Proof.Laws.Operands
end

