-- ==== Sys2Proof/Laws/Settings.lean ====
section
/-! SUPPORT. The settings image (R165): what each reader of a field, a record or a table gives, in the words that the
statements use. -/

namespace Sys2Proof.Machine

/-- A value that `within` gives is the field's, in its range. -/
theorem within_eq_some {lo hi v n : Nat} : within lo hi v = some n ↔ Reads n v lo hi := by
  unfold within Reads
  split
  · next h =>
    simp only [Option.some.injEq]
    constructor
    · rintro rfl; exact ⟨rfl, h⟩
    · rintro ⟨rfl, _⟩; rfl
  · next h => simp only [reduceCtorEq, false_iff]; rintro ⟨rfl, h'⟩; exact h h'

/-- A value that `checked` gives has met its check. -/
theorem checked_eq_some {α : Type} {ok : Bool} {x y : α} : checked ok x = some y ↔ ok = true ∧ y = x := by
  unfold checked; cases ok <;> simp [eq_comm]

/-- `finOf` gives the element of that value. -/
theorem finOf_eq_some {n v : Nat} {k : Fin n} : finOf n v = some k ↔ k.val = v := by
  unfold finOf
  split
  · simp only [Option.some.injEq, Fin.ext_iff]; exact ⟨fun h => h.symm, fun h => h.symm⟩
  · next h => simp only [reduceCtorEq, false_iff]; rintro rfl; exact h k.isLt

/-- A flag byte is the number of its flag. -/
theorem flagByte_eq_some {v : Nat} {b : Bool} : flagByte v = some b ↔ v = b.toNat := by
  unfold flagByte
  split
  · cases b <;> simp
  · cases b <;> simp
  · next h0 h1 =>
      cases b
      · simpa using h0
      · simpa using h1

/-- `allSome` gives the values of a list that misses none. -/
theorem allSome_eq_some {α : Type} : ∀ {l : List (Option α)} {r : List α},
    allSome l = some r ↔ l = r.map some
  | [], r => by cases r <;> simp [allSome]
  | none :: l, r => by cases r <;> simp [allSome]
  | some x :: l, [] => by simp [allSome]
  | some x :: l, y :: r => by
    have ih := allSome_eq_some (l := l) (r := r)
    simp only [allSome, Option.map_eq_some_iff, List.cons.injEq, List.map_cons, Option.some.injEq]
    constructor
    · rintro ⟨a, h, rfl, rfl⟩; exact ⟨rfl, ih.1 h⟩
    · rintro ⟨rfl, h⟩; exact ⟨r, ih.2 h, rfl, rfl⟩

/-- A table read by index: as long as it says, each record the one its reader gives. -/
theorem allSome_range {α : Type} {n : Nat} {f : Nat → Option α} {r : List α} :
    allSome ((List.range n).map f) = some r ↔ r.length = n ∧ ∀ i x, r[i]? = some x → f i = some x := by
  rw [allSome_eq_some]
  constructor
  · intro h
    have hl : r.length = n := by simpa using (congrArg List.length h).symm
    refine ⟨hl, fun i x hx => ?_⟩
    have hi : i < n := by rw [← hl]; exact (List.getElem?_eq_some_iff.1 hx).1
    have := congrArg (·[i]?) h
    simpa [hi, hx] using this
  · rintro ⟨rfl, h⟩
    apply List.ext_getElem?
    intro i
    by_cases hi : i < r.length
    · simp [hi, h i _ (List.getElem?_eq_getElem hi)]
    · simp [hi]

/-- Eight records, each the one its reader gives. -/
theorem eightSome_eq_some {α : Type} {f : Fin 8 → Option α} {v : Vector α 8} :
    eightSome f = some v ↔ ∀ k, f k = some (v.get k) := by
  constructor
  · intro h k
    unfold eightSome at h
    simp only [Option.bind_eq_bind, Option.bind_eq_some_iff, Option.some.injEq] at h
    obtain ⟨a, ha, b, hb, c, hc, d, hd, e, he, g, hg, i, hi, j, hj, rfl⟩ := h
    match k with
    | 0 => exact ha
    | 1 => exact hb
    | 2 => exact hc
    | 3 => exact hd
    | 4 => exact he
    | 5 => exact hg
    | 6 => exact hi
    | 7 => exact hj
  · intro h
    unfold eightSome
    rw [h 0, h 1, h 2, h 3, h 4, h 5, h 6, h 7]
    simp only [Option.bind_eq_bind, Option.bind_some, Option.some.injEq]
    ext i hi
    match i with
    | 0 => rfl
    | 1 => rfl
    | 2 => rfl
    | 3 => rfl
    | 4 => rfl
    | 5 => rfl
    | 6 => rfl
    | 7 => rfl

/-- Four records, each the one its reader gives. -/
theorem fourSome_eq_some {α : Type} {f : Fin 4 → Option α} {v : Vector α 4} :
    fourSome f = some v ↔ ∀ k, f k = some (v.get k) := by
  constructor
  · intro h k
    unfold fourSome at h
    simp only [Option.bind_eq_bind, Option.bind_eq_some_iff, Option.some.injEq] at h
    obtain ⟨a, ha, b, hb, c, hc, d, hd, rfl⟩ := h
    match k with
    | 0 => exact ha
    | 1 => exact hb
    | 2 => exact hc
    | 3 => exact hd
  · intro h
    unfold fourSome
    rw [h 0, h 1, h 2, h 3]
    simp only [Option.bind_eq_bind, Option.bind_some, Option.some.injEq]
    ext i hi
    match i with
    | 0 => rfl
    | 1 => rfl
    | 2 => rfl
    | 3 => rfl

/-- The behaviour byte. -/
theorem behaviourOf_eq_some {v : Nat} {r : Behaviour} :
    behaviourOf v = some r ↔ v = match r with | .drop => 0 | .trap => 1 | .restrict => 2 := by
  unfold behaviourOf
  split <;> cases r <;> simp_all

/-- A master record is read exactly as `MasterReads` says. -/
theorem masterOf_eq_some {b : List Byte} {n : Nat} {m : Fin 8} {r : MasterSetting} :
    masterOf b n m = some r ↔ MasterReads b n m r := by
  obtain ⟨role, beh⟩ := r
  unfold masterOf
  simp only [Option.bind_eq_bind, Option.bind_eq_some_iff, Option.some.injEq, MasterSetting.mk.injEq]
  have hrole : roleOf b (masterBase m) n = some role ↔
      (byteAt b (25 + 4 * m.val) =
        match role with | .absent => 0 | .station => 1 | .scanner _ _ => 2 | .service => 3 | .observer => 4) ∧
      ∀ first count, role = .scanner first count →
    first = byteAt b (27 + 4 * m.val) ∧ count = byteAt b (28 + 4 * m.val) ∧
      first ≤ 95 ∧ 1 ≤ count ∧ count ≤ 96 ∧ first + count ≤ n := by
    unfold roleOf masterBase
    rw [show 25 + 4 * m.val + 2 = 27 + 4 * m.val by omega, show 25 + 4 * m.val + 3 = 28 + 4 * m.val by omega]
    split
    · next h => cases role <;> simp [h]
    · next h => cases role <;> simp [h]
    · next h =>
      simp only [Option.bind_eq_bind, Option.bind_eq_some_iff, within_eq_some, checked_eq_some, Reads]
      cases role
      case scanner f c =>
        simp only [h, RoleSetting.scanner.injEq, true_and, decide_eq_true_eq]
        constructor
        · rintro ⟨x, ⟨rfl, h1, h2⟩, y, ⟨rfl, h3, h4⟩, h5, rfl, rfl⟩ _ _ ⟨rfl, rfl⟩
          exact ⟨rfl, rfl, h2, h3, h4, h5⟩
        · intro h
          obtain ⟨rfl, rfl, h2, h3, h4, h5⟩ := h f c ⟨rfl, rfl⟩
          exact ⟨_, ⟨rfl, Nat.zero_le _, h2⟩, _, ⟨rfl, h3, h4⟩, h5, rfl, rfl⟩
      all_goals simp [h]
    · next h => cases role <;> simp [h]
    · next h => cases role <;> simp [h]
    · cases role <;> simp <;> exact fun h => absurd h (by assumption)
  constructor
  · rintro ⟨r, hr, be, hbe, rfl, rfl⟩
    have := hrole.1 hr
    refine ⟨this.1, ?_, this.2⟩
    have := behaviourOf_eq_some.1 hbe
    rw [show 26 + 4 * m.val = masterBase m + 1 by unfold masterBase; omega]
    exact this
  · rintro ⟨h1, h2, h3⟩
    refine ⟨role, hrole.2 ⟨h1, h3⟩, beh, behaviourOf_eq_some.2 ?_, rfl, rfl⟩
    rw [show 26 + 4 * m.val = masterBase m + 1 by unfold masterBase; omega] at h2
    exact h2

/-- The door base of a window that covers doors. -/
theorem doorSpan_eq_some {o k n d : Nat} :
    doorSpan o k n = some d ↔ d = o ∧ d ≤ 95 ∧ 1 ≤ k ∧ d + k ≤ n := by
  unfold doorSpan
  simp only [checked_eq_some, Bool.and_eq_true, decide_eq_true_eq]
  constructor
  · rintro ⟨⟨⟨h1, h2⟩, h3⟩, rfl⟩; exact ⟨rfl, h1, h2, h3⟩
  · rintro ⟨rfl, h1, h2, h3⟩; exact ⟨⟨⟨h1, h2⟩, h3⟩, rfl⟩

/-- A byte is below 256. -/
theorem byteAt_lt (b : List Byte) (o : Nat) : byteAt b o < 256 := (b.getD o 0).isLt
/-- A two-byte field is below 65536. -/
theorem wordAt_lt (b : List Byte) (o : Nat) : wordAt b o < 65536 := by
  have := byteAt_lt b o; have := byteAt_lt b (o + 1); unfold wordAt; omega

/-- A window's kind, with what its kind asks. -/
theorem windowKindOf_eq_some {v length d n : Nat} {below : Bool} {k : WindowKind} :
    windowKindOf v length d n below = some k ↔
      match k with
      | .plain => v = 0 ∧ 1 ≤ length ∧ length ≤ 4096 ∧ below = true
      | .command e => v = 1 ∧ (e = d ∧ e ≤ 95 ∧ 1 ≤ length ∧ e + length ≤ n)
      | .sensor e => v = 2 ∧ (e = d ∧ e ≤ 95 ∧ 1 ≤ length ∧ e + length ≤ n) ∧ below = true
      | .indication e => v = 3 ∧ length % 2 = 0 ∧ (e = d ∧ e ≤ 95 ∧ 1 ≤ length / 2 ∧ e + length / 2 ≤ n)
      | .order => v = 4 ∧ length = 11 ∧ below = true
      | .capture => v = 5 ∧ length = 6
      | .status => v = 6 ∧ length = 8 := by
  unfold windowKindOf
  split
  · cases k <;> simp [checked_eq_some, and_assoc]
  · cases k <;> simp [doorSpan_eq_some]
  · cases below <;> cases k <;> simp [doorSpan_eq_some]
  · split <;> cases k <;> simp_all [doorSpan_eq_some]
  · cases k <;> simp [checked_eq_some]
  · cases k <;> simp [checked_eq_some]
  · cases k <;> simp [checked_eq_some]
  · cases k <;> simp <;> intro h <;> exact absurd h (by assumption)

/-- An enabled window record is read exactly as `WindowReads` says. -/
theorem enabledWindowOf_eq_some {b : List Byte} {o n size : Nat} {w : Window} :
    enabledWindowOf b o n size = some w ↔ WindowReads b o n size w := by
  obtain ⟨wb, wl, wk⟩ := w
  unfold enabledWindowOf
  simp only [Option.bind_eq_bind, Option.bind_eq_some_iff, within_eq_some, checked_eq_some, Reads,
    windowKindOf_eq_some, Window.mk.injEq, decide_eq_true_eq]
  constructor
  · rintro ⟨_, ⟨rfl, h0, h1⟩, k, hk, h2, rfl, rfl, rfl⟩
    have hb : (BitVec.ofNat 18 (tripleAt b (o + 2))).toNat = tripleAt b (o + 2) := by
      simp [Config.addressSpace] at *; omega
    refine ⟨hb, rfl, by rw [hb]; simpa [Config.addressSpace] using h2, ?_⟩
    dsimp only
    rw [hb]
    cases wk <;> simpa using hk
  · rintro ⟨h1, h2, h3, h4⟩
    dsimp only at h1 h2 h3 h4
    have : wb.toNat < 262144 := wb.isLt
    refine ⟨wb.toNat, ⟨h1, Nat.zero_le _, by simp [Config.addressSpace]; omega⟩, wk, ?_, ?_, ?_, h2, rfl⟩
    · rw [← h2]
      cases wk <;> simpa using h4
    · rw [← h2]; simpa [Config.addressSpace] using h3
    · apply BitVec.eq_of_toNat_eq; simp

/-- A window record, disabled or enabled. -/
theorem windowOf_eq_some {b : List Byte} {n size i : Nat} {w : Option Window} :
    windowOf b n size i = some w ↔
      (w = none ∧ byteAt b (57 + 8 * i) = 0) ∨
      ∃ v, w = some v ∧ byteAt b (57 + 8 * i) = 1 ∧ WindowReads b (57 + 8 * i) n size v := by
  unfold windowOf windowBase
  simp only [Option.bind_eq_bind, Option.bind_eq_some_iff, flagByte_eq_some]
  constructor
  · rintro ⟨e, he, h⟩
    cases e
    · left; simp at h he; exact ⟨h.symm, he⟩
    · right; simp only [if_true, Option.map_eq_some_iff, enabledWindowOf_eq_some] at h
      obtain ⟨v, hv, rfl⟩ := h
      exact ⟨v, rfl, he, hv⟩
  · rintro (⟨rfl, h⟩ | ⟨v, rfl, h, hv⟩)
    · exact ⟨false, h, by simp⟩
    · exact ⟨true, h, by simp [enabledWindowOf_eq_some, hv]⟩

/-- An enabled rule record is read exactly as `RuleReads` says. -/
theorem enabledRuleOf_eq_some {b : List Byte} {o : Nat} {ws : List (Option Window)} {r : Rule}
    (hl : ws.length = 16) :
    enabledRuleOf b o ws = some r ↔ RuleReads b o ws r := by
  obtain ⟨rm, rw_, rd, rv, rk, ri, ra⟩ := r
  unfold enabledRuleOf
  simp only [Option.bind_eq_bind, Option.bind_eq_some_iff, Option.some.injEq, Rule.mk.injEq]
  have hd : ∀ {v : Nat} {d : RuleDirection}, ruleDirectionOf v = some d ↔
      v = match d with | .read => 0 | .write => 1 | .either => 2 := by
    intro v d
    unfold ruleDirectionOf
    split <;> cases d <;> simp_all
  have hw : ∀ {v : Nat} {w : Option (Fin 16)}, ruleWindowOf ws v = some w ↔
      match w with
      | none => v = 255
      | some k => v = k.val ∧ ∃ w, ws[k.val]? = some (some w) := by
    intro v w
    unfold ruleWindowOf
    split
    · next h =>
      cases w with
      | none => simp [h]
      | some k => simp [h]; omega
    · next h =>
      split
      · next hn =>
        have hn' : ∀ k : Fin 16, k.val ≠ v := fun k hk => by rw [finOf_eq_some.2 hk] at hn; cases hn
        cases w with
        | none => simp [h]
        | some k => simp; intro hk; exact absurd hk.symm (hn' k)
      · next k hk =>
        have hk := finOf_eq_some.1 hk
        cases w with
        | none => simp [checked_eq_some, h]
        | some j =>
          simp only [checked_eq_some, Option.some.injEq]
          constructor
          · rintro ⟨h1, rfl⟩
            refine ⟨hk.symm, ?_⟩
            have hj : j.val < ws.length := by rw [hl]; exact j.isLt
            rw [List.getD_eq_getElem?_getD, List.getElem?_eq_getElem hj] at h1
            obtain ⟨w, hw⟩ := Option.isSome_iff_exists.1 h1
            exact ⟨w, by rw [List.getElem?_eq_getElem hj]; exact congrArg some hw⟩
          · rintro ⟨h1, w, hw⟩
            have : j = k := Fin.ext (by omega)
            subst this
            exact ⟨by rw [List.getD_eq_getElem?_getD, hw]; rfl, rfl⟩
  have ha : ∀ {a : Action}, actionOf b o (byteAt b o / 16) = some a ↔
      match a with
      | .permit => byteAt b o / 16 = 0
      | .refuse => byteAt b o / 16 = 1
      | .refuseQuiet => byteAt b o / 16 = 2
      | .force v k => byteAt b o / 16 = 3 ∧ v.toNat = wordAt b (o + 8) ∧ k.toNat = wordAt b (o + 10)
      | .trap => byteAt b o / 16 = 4
      | .meter m => byteAt b o / 16 = 5 ∧ m.val = byteAt b (o + 3) := by
    intro a
    unfold actionOf
    have h8 := wordAt_lt b (o + 8)
    have h10 := wordAt_lt b (o + 10)
    have e : ∀ {v : Word} {n : Nat}, n < 65536 → (BitVec.ofNat 16 n = v ↔ v.toNat = n) := by
      intro v n hn
      rw [← BitVec.toNat_inj]; simp [Nat.mod_eq_of_lt hn, eq_comm]
    generalize byteAt b o / 16 = q
    split <;> cases a <;> simp_all [finOf_eq_some]
  have e16 : ∀ {v : Word} {n : Nat}, n < 65536 → (BitVec.ofNat 16 n = v ↔ v.toNat = n) := by
    intro v n hn
    rw [← BitVec.toNat_inj]; simp [Nat.mod_eq_of_lt hn, eq_comm]
  have e8 : ∀ {v : Byte} {n : Nat}, n < 256 → (BitVec.ofNat 8 n = v ↔ v.toNat = n) := by
    intro v n hn
    rw [← BitVec.toNat_inj]; simp [Nat.mod_eq_of_lt hn, eq_comm]
  simp only [hd, hw, ha, e16 (wordAt_lt _ _), e8 (byteAt_lt _ _)]
  constructor
  · rintro ⟨d, h1, a, h2, w, h3, h4, rfl, rfl, h7, h8, h9, rfl⟩
    exact ⟨by rw [← h9]; simp [beq_eq_decide], h1, h4, h3, h7, h8, h2⟩
  · rintro ⟨h1, h2, h3, h4, h5, h6, h7⟩
    refine ⟨rd, h2, ra, h7, rw_, h4, h3, rfl, rfl, h5, h6, ?_, rfl⟩
    dsimp only at h1
    rw [h1]; simp [beq_eq_decide]

/-- A rule record, disabled or enabled. -/
theorem ruleOf_eq_some {b : List Byte} {ws : List (Option Window)} {i : Nat} {r : Option Rule}
    (hl : ws.length = 16) :
    ruleOf b ws i = some r ↔
      (r = none ∧ byteAt b (185 + 12 * i) % 2 = 0) ∨
      ∃ v, r = some v ∧ byteAt b (185 + 12 * i) % 2 = 1 ∧ RuleReads b (185 + 12 * i) ws v := by
  unfold ruleOf ruleBase
  split
  · next h =>
    simp only [Option.map_eq_some_iff, enabledRuleOf_eq_some hl]
    constructor
    · rintro ⟨v, hv, rfl⟩; exact Or.inr ⟨v, rfl, h, hv⟩
    · rintro (⟨_, h'⟩ | ⟨v, rfl, _, hv⟩)
      · omega
      · exact ⟨v, hv, rfl⟩
  · next h =>
    simp only [Option.some.injEq]
    constructor
    · rintro rfl; exact Or.inl ⟨rfl, by omega⟩
    · rintro (⟨rfl, _⟩ | ⟨v, rfl, h', _⟩)
      · rfl
      · exact absurd h' h

/-- A door record is read exactly as `DoorReads` says. -/
theorem doorOf_eq_some {b : List Byte} {ms : Vector MasterSetting 8} {d : Nat} {st : DoorStatic} :
    doorOf b ms d = some st ↔ DoorReads b ms d st := by
  obtain ⟨cls, zone, sc, tl, ib, mg⟩ := st
  unfold doorOf doorBaseOf
  simp only [Option.bind_eq_bind, Option.bind_eq_some_iff, within_eq_some, checked_eq_some, Reads, finOf_eq_some,
    DoorStatic.mk.injEq, Config.bodyBase]
  have hc : ∀ {v g : Nat} {c : DoorClass}, doorClassOf v g = some c ↔
      match c with
      | .powered k => v = 0 ∧ k.val = g
      | .indicated => v = 1 := by
    intro v g c
    unfold doorClassOf
    split <;> cases c <;> simp_all [finOf_eq_some]
  have hs : ∀ k : Fin 8, scannerHolds ms k d = true ↔
      ∃ first count, (ms.get k).role = .scanner first count ∧ first ≤ d ∧ d < first + count := by
    intro k
    unfold scannerHolds
    split
    · next f c h => simp [h, inRange]
    · next h => simp; intro f c h'; exact absurd h' (h f c)
  simp only [hc, hs]
  rw [show 589 + 8 * d + 1 = 590 + 8 * d by omega, show 589 + 8 * d + 2 = 591 + 8 * d by omega,
    show 589 + 8 * d + 3 = 592 + 8 * d by omega, show 589 + 8 * d + 4 = 593 + 8 * d by omega,
    show 589 + 8 * d + 6 = 595 + 8 * d by omega, show 589 + 8 * d + 7 = 596 + 8 * d by omega]
  constructor
  · rintro ⟨c, h1, z, h2, s, h3, t, ⟨rfl, h4, h5⟩, m, ⟨rfl, h6, h7⟩, h8, rfl, rfl, rfl, rfl, rfl, rfl⟩
    exact ⟨h1, h2, h3, h8, ⟨rfl, h4, h5⟩, rfl, ⟨rfl, h6⟩⟩
  · rintro ⟨h1, h2, h3, h4, ⟨h5, h5a, h5b⟩, h6, ⟨h7, h7a⟩⟩
    have := byteAt_lt b (596 + 8 * d)
    dsimp only at h5 h7 h6 h5a h5b h7a
    exact ⟨cls, h1, zone, h2, sc, h3, tl, ⟨h5, h5a, h5b⟩, mg, ⟨h7, h7a, by omega⟩, h4, rfl, rfl, rfl, rfl, h6, rfl⟩

end Sys2Proof.Machine
end

