-- ==== Sys2Proof/Laws/Words.lean ====
section
/-! SUPPORT. The served words as numbers: a field placed above a word adds to it. The CRC as a fold. -/

namespace Sys2Proof.Machine

theorem fieldAt_zero_toNat {v : Nat} (h : v < 65536) : (fieldAt v 0).toNat = v := by
  simp [fieldAt, Nat.mod_eq_of_lt h]

theorem fieldAt_toNat {v n : Nat} (h : v * 2 ^ n < 65536) : (fieldAt v n).toNat = v * 2 ^ n := by
  have hv : v < 65536 := lt_of_le_of_lt (Nat.le_mul_of_pos_right v (Nat.two_pow_pos n)) h
  simp [fieldAt, BitVec.toNat_shiftLeft, Nat.shiftLeft_eq, Nat.mod_eq_of_lt hv, Nat.mod_eq_of_lt h]

/-- A field whose lowest bit stands above a word's bits. -/
theorem or_fieldAt_toNat {w : Word} {v n : Nat} (hw : w.toNat < 2 ^ n) (hv : v * 2 ^ n < 65536) :
    (w ||| fieldAt v n).toNat = w.toNat + v * 2 ^ n := by
  rw [BitVec.toNat_or, fieldAt_toNat hv, Nat.or_comm, Nat.mul_comm v, ← Nat.two_pow_add_eq_or_of_lt hw,
    Nat.add_comm]

theorem bitAt_eq_fieldAt (b : Bool) (n : Nat) : bitAt b n = fieldAt b.toNat n := by
  cases b
  · simp [bitAt, fieldAt]
  · rfl

/-- A flag that stands above a word's bits. -/
theorem or_bitAt_toNat {w : Word} {b : Bool} {n : Nat} (hw : w.toNat < 2 ^ n) (hn : n < 16) :
    (w ||| bitAt b n).toNat = w.toNat + b.toNat * 2 ^ n := by
  rw [bitAt_eq_fieldAt]
  refine or_fieldAt_toNat hw ?_
  have h1 : b.toNat ≤ 1 := Bool.toNat_le b
  have h2 : 2 ^ n ≤ 2 ^ 15 := Nat.pow_le_pow_right (by decide) (by omega)
  calc b.toNat * 2 ^ n ≤ 1 * 2 ^ 15 := Nat.mul_le_mul h1 h2
    _ < 65536 := by decide

/-- The CRC register takes the bytes one after another. -/
theorem crcFrom_eq_foldl (body : List Byte) (crc : Word) :
    crcFrom crc.toNat body = (body.foldl crcByte crc).toNat := by
  induction body generalizing crc with
  | nil => rfl
  | cons b rest ih =>
    have h := ih (crcByte crc b)
    rw [List.foldl_cons, ← h, crcFrom, BitVec.ofNat_toNat, BitVec.setWidth_eq]
    split <;> simp_all

end Sys2Proof.Machine
end

