-- ==== Sys2Proof/Tests/Slice0.lean ====
section
/-! SUPPORT. The model's own tests: ill-formed commands refused, the spec's examples, one step of the commands on a small
part, and for every statement with hypotheses states and operands that meet them. -/

namespace Sys2Proof.Tests

set_option Elab.async false

open Sys2Proof.Machine

/-! ## A small part -/

def timing : Timing :=
  { debounce := 2, activeLimit := 10, idleLimit := 50, prewarn := 30, reclose := 100, retryDelay := 50
    tripDelay := 5, retryLimit := 2, heartbeat := 20, transfer := 100, flashPeriod := 10, flashOn := 4 }

/-- A POWERED door of group 0. -/
def swing : DoorStatic :=
  { cls := .powered 0, zone := 3, scanner := 2, travelLimit := 60, initialBaseline := 50, margin := 20 }

def off : Four Bool := { cl := false, ol := false, lo := false, lc := false }

def noTimers : Four (Option DebounceTimer) := { cl := none, ol := none, lo := none, lc := none }

/-- An INDICATED door, not reported yet. -/
def hatch : Door := Door.fresh { swing with cls := .indicated } 95

/-- A door in sight, with these debounced inputs, at a position and in a drive state. -/
def seen (inputs : Four Bool) (p : Position) (drive : Drive) : Door :=
  { Door.fresh swing 95 with
    inp := { InputPart.blank with
      freshness := some 95, lastSeq := some 0, reported := true, raw := inputs, debounced := inputs, pw := true, reports := 1 }
    position := p
    drive := drive }

/-- A door that stands CLOSED. -/
def shut (drive : Drive) : Door := seen { off with cl := true } .closed drive

/-- A door that stands OPEN. -/
def ajar (drive : Drive) : Door := seen { off with ol := true } .opened drive

def station (start : Option Nat) : MasterRec := { role := .station start, behaviour := .drop }

def group (holders queue : List Nat) : Group := { slotCount := some 1, holders := holders, queue := queue }

def mirror : Mirror :=
  { bankA := { state := .inService, count := 0, mem := Contents.blank }
    bankB := { state := .inService, count := 0, mem := Contents.blank }
    readMap := 2, imageSize := 1024, source := none, cursor := 0, imageLost := false, free := 0 }

/-- A bank that returns a word as it holds it. -/
def exact : BankWord := { data := 0, lowParity := false, highParity := false }

/-- A bank that returns bit 0 of a word flipped. -/
def flipped : BankWord := { data := 1, lowParity := false, highParity := false }

/-- The part in RUNNING with two doors, of which door 0 is given, and the command holder master 0. -/
def part (x : Door) : State :=
  { State.reset with
    part := .running
    clock := 100
    timing := some timing
    path := { PathState.blank with
      laneMode := true
      windows :=
        [some { base := 0x100, length := 2, kind := .command 0 },
         some { base := 0x200, length := 2, kind := .sensor 0 },
         some { base := 0x300, length := 4, kind := .indication 0 },
         some { base := 0x380, length := 11, kind := .order }, none,
         some { base := 0x500, length := 6, kind := .capture },
         some { base := 0x600, length := 8, kind := .status },
         some { base := 0x604, length := 8, kind := .plain }] }
    masters := #v[station (some 95), station (some 95),
      { role := .scanner 0 2 true, behaviour := .drop }, { role := .service, behaviour := .drop },
      { role := .observer, behaviour := .drop }, { role := .absent, behaviour := .trap },
      { role := .station none, behaviour := .trap },
      { role := .scanner 2 1 false, behaviour := .restrict }]
    meters := Vector.replicate 8
      { rate := 20, burst := 3, tokens := 3, exceeded := false, start := 0, refills := 201 }
    yard := {
      doors := [x, hatch]
      groups := #v[group (if x.drive.hasSlot then [0] else []) (if x.drive.isQueued then [0] else []),
        group [] [], group [] [], group [] []] }
    command := { mode := some .localControl, holder := some 0, transfer := none }
    lines := { State.reset.lines with ready := true }
    mirror := mirror }

/-- The part in a mode. -/
def inMode (v : VesselMode) (s : State) : State := { s with command := { s.command with mode := some v } }

/-- The part with a rule list. -/
def withRules (rules : List Rule) (s : State) : State := { s with rules := rules.map some }

/-- The part in a part state with an upstream port. -/
def portIn (p : PartState) (u : Upstream) : State :=
  { part (shut .resting) with
    part := p
    path := { (part (shut .resting)).path with upstream := u } }

/-- The part with an access waiting for the banks. -/
def waits (a : Access) (w : Waiting) (s : State) : State :=
  { s with path := { s.path with upstream := .waiting a w } }

/-- The state a command leaves. -/
def after (o : Host.Outcome State Fault Refusal) : State :=
  match o with
  | .next t => t
  | .fault f => nomatch f
  | .refused _ => State.reset

/-- The drive state of door 0. -/
def drive0 (s : State) : Option Drive := (s.door? 0).map (·.drive)

/-- A settings image with one POWERED door, whose scanner is master 1; master 0 is a station and the default holder. -/
def body : List Byte :=
  [2, 10, 0, 50, 30, 0, 100, 0, 50, 5, 2, 20, 0, 100, 1, 0, 10, 4, 1, 0, 1, 1, 0, 0, 2] ++
    [1, 0, 0, 0, 2, 0, 0, 1] ++ List.replicate 24 0 ++ List.replicate 128 0 ++ List.replicate 384 0 ++
    List.replicate 16 1 ++ List.replicate 4 1 ++ [0, 3, 0, 1, 0, 60, 50, 20]

/-- A header: tag, version, body length, CRC. -/
def header (tag version length : Nat) (crc : Word) : List Byte :=
  let two (n : Nat) : List Byte := [BitVec.ofNat 8 (n / 256), BitVec.ofNat 8 n]
  two tag ++ two version ++ two length ++ two crc.toNat

def goodImage : List Byte := header 0x6480 1 597 (crcOf body) ++ body

/-- The body with one byte changed. -/
def patched (offset : Nat) (value : Byte) : List Byte := body.set offset value

/-! ## Well-formedness: an ill-formed term for each check -/

theorem test_ill_formed_door : Instr.wellFormed (.debounceExpiry 96 .lo) = false ∧
    Instr.wellFormed (.freshnessExpiry 96) = false ∧ Instr.wellFormed (.prewarnExpiry 96) = false ∧
    Instr.wellFormed (.travelExpiry 96) = false ∧ Instr.wellFormed (.recloseExpiry 96) = false ∧
    Instr.wellFormed (.tripTimerExpiry 96) = false ∧ Instr.wellFormed (.retryExpiry 96) = false ∧
    Instr.wellFormed (.settleExpiry 96) = false := by decide

theorem test_well_formed_door : Instr.wellFormed (.travelExpiry 95) = true := by decide

theorem test_ill_formed_image :
    Instr.wellFormed (.loadAttemptEnd (List.replicate 2049 0) true true) = false ∧
    Instr.wellFormed (.reloadAttemptEnd (List.replicate 2049 0)) = false := by decide +kernel

theorem test_well_formed_image : Instr.wellFormed (.reloadAttemptEnd (List.replicate 2048 0)) = true := by
  decide +kernel

/-! ## The spec's examples of words (12, R61, R150) -/

theorem test_close_for_door_5 : stationWordOk 0x0501 5 = true ∧ requestOf 0x0501 = 1 ∧
    joinHalves .high 0x05 0x01 = 0x0501 := by decide

theorem test_isolate_for_door_95 : stationWordOk 0x5F04 95 = true ∧ requestOf 0x5F04 = 4 := by decide

theorem test_station_word_refused : stationWordOk 0x0506 5 = false ∧ stationWordOk 0x8501 5 = false ∧
    stationWordOk 0x0509 5 = false ∧ stationWordOk 0x0501 4 = false := by decide

theorem test_sensor_word : reportOf 0x4092 =
    { inputs := { cl := false, ol := true, lo := false, lc := false }, pw := true, ob := false, seq := 2
      pressure := 64 } := by decide

theorem test_order_words : doorSelectOf 0x8000 96 = some .all ∧ doorSelectOf 95 96 = some (.one 95) ∧
    doorSelectOf 96 96 = none ∧ doorSelectOf 0x80 96 = none ∧ attachOf 0x0C18 = some (24, 24) ∧
    releaseCountOf 64 = some 64 ∧ releaseCountOf 65 = none ∧ releaseCountOf 0 = none := by decide

theorem test_tripped_entry :
    let r : Ring :=
      { entries := [{ kind := 11, master := 15, addr := 0, detail := 1, data := 12, time := 43 }], dropped := 0 }
    [0, 1, 2, 3, 4, 5].map r.word = [0x13CB, 0x0000, 0x000C, 0x002B, 1, 0] := by decide

theorem test_read_index : readIndex 0x12345 = 1 ∧ mappedBank 2 0x12345 = .bankB ∧
    mappedBank 1 0x12345 = .bankA := by decide

theorem test_learned_baseline : learnedBaseline 71 83 = 74 ∧ learnedBaseline 71 60 = 69 ∧
    learnedBaseline 71 73 = 71 := by decide

theorem test_crc : crcOf [0x31, 0x32, 0x33, 0x34, 0x35, 0x36, 0x37, 0x38, 0x39] = 0x29B1 := by
  decide +kernel

theorem test_memory_stays_canonical :
    let m := (Contents.blank.writeLanes 7 .both 0x1300).writeLanes 3 .low 0x00FF
    m = { bytes := [(6, 0xFF), (15, 0x13)], parity := [(15, 1)] } ∧
      m.readWord 7 = { data := 0x1300, lowParity := false, highParity := true } ∧
      m.writeLanes 7 .both 0 = { bytes := [(6, 0xFF)], parity := [] } := by decide

/-! ## The queue, the tick (O1, O2, O4) -/

theorem test_step_takes_the_front : after (step { State.reset with pending := [.resetRelease true, .reset] }) =
    { State.reset with part := .loading 1, path := { PathState.blank with laneMode := true }
                       pending := [.reset] } := by decide +kernel

theorem test_idle_outside_running :
    State.reset.pending = [] ∧ State.reset.part ≠ .running ∧ after (step State.reset) = State.reset := by
  decide +kernel

theorem test_clock_moves : (part (shut .resting)).pending = [] ∧ (part (shut .resting)).part = .running ∧
    (part (shut .resting)).due = [] ∧
    (after (step (part (shut .resting)))).clock = 101 := by decide +kernel

theorem test_due_command_is_queued :
    let s := part (shut (.moving .toClose .station 100))
    s.pending = [] ∧ s.part = .running ∧ s.due = [.travelExpiry 0] ∧
      (after (step s)).pending = [.travelExpiry 0] ∧ (after (step s)).clock = 100 := by decide +kernel

theorem test_own_steps_before_expiries :
    (part (shut (.queued .toOpen .station))).due = [.slotGrant 0] := by decide +kernel

theorem test_due_steps_and_timers_met :
    OwnStep (part (shut (.queued .toOpen .station))) (.slotGrant 0) ∧
    (∀ k, ¬ OwnStep (part (shut (.moving .toClose .station 100))) k) ∧
    TimerReached (part (shut (.moving .toClose .station 100))) (.travelExpiry 0) := by
  refine ⟨.grant 0 (by decide) (by decide), ?_, .travel 0 _ .toClose .station 100 rfl rfl (by decide)⟩
  rintro _ (⟨g, -, h⟩ | ⟨img, h, -⟩)
  · revert g; decide
  · cases h

/-! ## Reset and loading (O3 to O8) -/

def someRead : Access := readOf 0 0x3FF .both

def someWrite : Access := { master := 1, addr := 0x3FF, lanes := .both, op := .write 0xABCD }

theorem test_reset_states_met :
    (portIn .inReset (.held someRead)).part = .inReset ∧ (portIn .running .idle).path.upstream = .idle ∧
    (portIn .running .idle).part ≠ .inReset ∧
    (portIn .running (.held someRead)).path.upstream = .held someRead ∧
    (portIn .transparent (.waiting someWrite .transparent)).path.upstream = .waiting someWrite .transparent := by
  decide +kernel

theorem test_abandoned_accesses_met :
    let w : Waiting := .write 0x3FF .both 0xABCD (.outstanding true) (.ended true true) .answerOnly
    w.writes someWrite .bankA ∧ ¬ w.writes someWrite .bankB ∧
    ¬ (Waiting.read 0x3FF .both .bankA false).writes someRead .bankA ∧
    Waiting.transparent.writes someWrite .bankA ∧ ¬ Waiting.transparent.writes someWrite .bankB ∧
    ¬ Waiting.transparent.writes someRead .bankA :=
  ⟨⟨true, rfl⟩, (fun ⟨_, h⟩ => nomatch h), (fun h => h), ⟨rfl, rfl⟩, (fun h => nomatch h.1), fun h => nomatch h.2⟩

theorem test_abandoned_read_leaves_the_banks :
    let s := portIn .running (.waiting someRead (.read 0x3FF .both .bankA false))
    let bank : Bank := { mirror.bankA with mem := Contents.blank.writeLanes 0x3FF .both 0x1234 }
    (after (exec .reset { s with mirror := { mirror with bankA := bank } })).mirror.bankA.mem = bank.mem := by
  decide +kernel

theorem test_reset_holds_the_access :
    let t := after (exec .reset (portIn .running (.waiting someRead (.read 0x3FF .both .bankA false))))
    t.part = .inReset ∧ t.resetKind = .resetLine ∧ t.path.upstream = .held someRead ∧ t.lines.ready = false ∧
      t.path.response = none ∧ t.door? 95 = some Door.blank ∧ t.door? 96 = none := by decide +kernel

theorem test_power_on_stays_power_on :
    (after (exec .reset (after (exec .powerOn (part (shut .resting)))))).resetKind = .powerOn := by
  decide +kernel

theorem test_hold_met : (portIn .inReset .idle).part = .inReset ∧ (portIn .inReset .idle).path.upstream = .idle ∧
    (portIn (.loading 3) .idle).part = .loading 3 ∧ (portIn (.loading 3) .idle).path.upstream = .idle := by
  decide +kernel

/-- The fault of an attempt that ends in one. -/
theorem fault_of {e : Except LoadFault Settings} {f : LoadFault}
    (h : (match e with | .ok _ => false | .error g => g == f) = true) : e = .error f := by
  cases e with
  | ok => cases h
  | error g => rw [eq_of_beq h]

theorem test_load_faults_met :
    loadAttempt (List.replicate 7 0) none = .error .noAcknowledge ∧
    loadAttempt (header 0x6481 1 0 0) none = .error .badTag ∧
    loadAttempt (header 0x6480 2 0 0) none = .error .badTag ∧
    loadAttempt (header 0x6480 1 2041 0) none = .error .tooLong ∧
    loadAttempt (header 0x6480 1 2040 0 ++ List.replicate 2039 0) none = .error .noAcknowledge ∧
    loadAttempt (header 0x6480 1 1 0 ++ [0]) none = .error .crcMismatch ∧
    loadAttempt (header 0x6480 1 0 0xFFFF) none = .error .rangeViolation :=
  ⟨fault_of (by decide +kernel), fault_of (by decide +kernel), fault_of (by decide +kernel),
    fault_of (by decide +kernel), fault_of (by decide +kernel), fault_of (by decide +kernel),
    fault_of (by decide +kernel)⟩

theorem test_load_faults_operands_met :
    (header 0x6480 1 2040 0).length = 8 ∧ wordAt (header 0x6480 1 2040 0) 0 = 0x6480 ∧
    wordAt (header 0x6480 1 2040 0) 2 = 1 ∧ wordAt (header 0x6480 1 2040 0) 4 = 2040 ∧
    wordAt (header 0x6480 1 2041 0) 4 = 2041 ∧ crcOf [] = BitVec.ofNat 16 0xFFFF ∧
    crcOf [0] ≠ BitVec.ofNat 16 0 ∧ settingsOf [] none = none := by decide +kernel

/-- An attempt that gives settings is a good one. -/
theorem good_of_settings {e : Except LoadFault Settings} {ok : Settings → Bool}
    (h : (match e with | .ok img => ok img | .error _ => false) = true) :
    ∃ img, e = .ok img ∧ ok img = true := by
  cases e with
  | ok img => exact ⟨img, rfl, h⟩
  | error => cases h

theorem test_good_image : ∃ img, loadAttempt goodImage none = .ok img ∧
    (img.doors == [{ swing with scanner := 1 }] && img.imageSize == 1024 && img.readMap == 2 &&
      img.defaultHolder == some 0) = true :=
  good_of_settings (by decide +kernel)

/-- Fields at the edge of their range and beyond it: debounce, heartbeat, door count, a scanner's count, a window's
length, a slot count, a door's scanner, travel limit and margin. -/
theorem test_field_ranges :
    ([(0, 20), (31, 0), (585, 8), (594, 10), (596, 1)] : List (Nat × Byte)).all
      (fun e => (settingsOf (patched e.1 e.2) none).isSome) = true ∧
    ([(0, 21), (11, 9), (18, 2), (32, 2), (57, 1), (585, 9), (592, 0), (594, 9), (596, 0)] : List (Nat × Byte)).all
      (fun e => (settingsOf (patched e.1 e.2) none).isNone) = true := by
  decide +kernel

theorem test_good_attempt_met : (portIn (.loading 1) .idle).part = .loading 1 ∧
    (portIn (.loading 1) .idle).path.upstream = .idle ∧
    (portIn (.loading 3) (.held someRead)).part = .loading 3 ∧
    (portIn (.loading 3) (.held someRead)).path.upstream = .held someRead := by decide +kernel

theorem test_closed_load_judges_the_doors :
    let image := header 0x6480 1 597 (crcOf (patched 14 2)) ++ patched 14 2
    let t := after (exec (.loadAttemptEnd image true true) (portIn (.loading 1) .idle))
    t.command.mode = some .doorsClosed ∧ t.lines.doorsNotClosed = true := by decide +kernel

theorem test_load_enters_running :
    let t := after (exec (.loadAttemptEnd goodImage true true) (portIn (.loading 2) .idle))
    t.part = .running ∧ t.ring.entries.map (·.data) = [2] ∧ t.mirror.bankB.state = .resync ∧
      t.lines.ready = true := by decide +kernel

theorem test_third_fault_enters_transparent :
    let t := after (exec (.loadAttemptEnd [] true true) (portIn (.loading 3) (.held someRead)))
    t.part = .transparent ∧ t.path.upstream = .waiting someRead .transparent ∧ t.lines.partFault = true ∧
      (after (exec (.loadAttemptEnd [] true true) (portIn (.loading 2) .idle))).part = .loading 3 := by
  decide +kernel

/-! ## TRANSPARENT (O9) -/

theorem test_transparent_met :
    (portIn .transparent .idle).part = .transparent ∧ (portIn .transparent .idle).path.upstream = .idle ∧
    (portIn .transparent (.waiting someWrite .transparent)).path.upstream = .waiting someWrite .transparent ∧
    someWrite.op = .write 0xABCD ∧
    (portIn .transparent (.waiting someRead .transparent)).path.upstream = .waiting someRead .transparent ∧
    someRead.op = .read ∧ (mirror.fetch .bankA someRead.addr exact).good someRead.lanes = true ∧
    (mirror.fetch .bankA someRead.addr flipped).good someRead.lanes = false := by decide +kernel

theorem test_transparent_write :
    let t := after (exec (.bankAccessEnd .bankA exact)
      (after (exec (.transparentAccess someWrite) (portIn .transparent .idle))))
    (t.mirror.bankA.mem.readWord 0x3FF).data = 0xABCD ∧ t.path.response = some (.done none) ∧
      t.mirror.bankB.mem = Contents.blank := by decide +kernel

/-! ## The access path (O10 to O17) -/

theorem test_arrival_met : accessOf (.forwardedRead 0 0x3FF .both) = some someRead ∧
    (part (shut .resting)).part = .running ∧ (part (shut .resting)).path.upstream = .idle := by decide +kernel

theorem test_lookup_met :
    let s := part (shut .resting)
    s.lookup 0x605 = { window := some 6, kind := .status, offset := 5 } ∧
    s.lookup 0x60B = { window := some 7, kind := .plain, offset := 7 } ∧
    (s.lookup 0x60C).window = none ∧ (s.lookup 0x5FF).window = none ∧
    (s.lookup 0x38A) = { window := some 3, kind := .order, offset := 10 } ∧
    s.path.windows[7]? = some (some { base := 0x604, length := 8, kind := .plain }) ∧
    (0x604 : Addr).toNat ≤ (0x60B : Addr).toNat ∧ (0x60B : Addr).toNat < (0x604 : Addr).toNat + 8 ∧
    ¬ (0x60C : Addr).toNat < (0x604 : Addr).toNat + 8 := by decide +kernel

/-- A slot of master 0. -/
def slotted (slot : Slot) : State :=
  { part (shut .resting) with path :=
    { (part (shut .resting)).path with slots := setAt (Vector.replicate 8 none) 0 (some slot) } }

theorem test_single_lane_met :
    let s := part (shut .resting)
    let word : State := { s with path := { s.path with laneMode := false } }
    s.part = .running ∧ s.path.upstream = .idle ∧ (s.lookup 0x101).kind.assembled = true ∧
    s.role 5 = .absent ∧ s.role 0 ≠ .absent ∧ word.path.laneMode = false ∧ s.path.laneMode = true ∧
    s.path.slots.get 0 = none ∧
    (slotted { addr := 0x101, lane := .low, byte := 1 }).path.slots.get 0 =
      some { addr := 0x101, lane := .low, byte := 1 } ∧
    (slotted { addr := 0x100, lane := .low, byte := 1 }).path.slots.get 0 =
      some { addr := 0x100, lane := .low, byte := 1 } := by decide +kernel

theorem test_second_half_completes :
    let s := slotted { addr := 0x100, lane := .low, byte := 1 }
    let t := after (exec (.singleLaneWrite 0 0x100 .high 0) { s with yard := (part (ajar .resting)).yard })
    t.path.slots.get 0 = none ∧ drive0 t = some (.queued .toClose .station) ∧
      t.path.response = some (.done none) := by decide +kernel

theorem test_lane_refused_in_word_mode :
    let s := part (shut .resting)
    let t := after (exec (.singleLaneWrite 0 0x100 .high 0x7F) { s with path := { s.path with laneMode := false } })
    t.ring.entries = [{ kind := 7, master := 0, addr := 0x100, detail := 2, data := 0x7F00, time := 100 }] ∧
      t.path.response = some .error := by decide +kernel

theorem test_abandon_met :
    let s := slotted { addr := 0x100, lane := .low, byte := 1 }
    s.path.slots.get someRead.master = some { addr := 0x100, lane := .low, byte := 1 } ∧
    s.part = .running ∧ s.path.upstream = .idle ∧
    assembledLane someRead (s.lookup someRead.addr) = none := by decide +kernel

theorem test_master_check_met :
    let s := part (shut .resting)
    let order (offset : Nat) : Found := { window := some 3, kind := .order, offset := offset }
    s.role 5 = .absent ∧ (s.role 0).authorized = true ∧ s.role 7 = .scanner 2 1 false ∧
    s.role 6 = .station none ∧ (wordWrite 7 0x38A 0).isWrite = true ∧ (order 10).offset = 10 ∧
    (order 9).offset ≠ 10 ∧ (order 10).offset ≠ 9 ∧
    (s.masters.get 7).behaviour = .restrict ∧ (s.masters.get 6).behaviour = .trap ∧
    (station none).behaviour = .drop ∧ (readOf 7 0x300 .both).isWrite = false ∧
    (s.lookup 0x300).kind = .indication 0 ∧ (s.lookup 0x600).kind = .status ∧
    (s.lookup 0x500).kind = .capture := by decide +kernel

theorem test_matrix_met :
    let s := part (shut .resting)
    (wordWrite 4 0 0).isWrite = true ∧ (readOf 4 0 .both).isWrite = false ∧ (s.lookup 0).kind = .plain ∧
    (s.lookup 0x100).kind = .command 0 ∧ s.lookup 0x201 = { window := some 1, kind := .sensor 0, offset := 1 } ∧
    s.role 2 = .scanner 0 2 true ∧ (s.role 0).isScanner = false ∧ (s.lookup 0x303).kind = .indication 0 ∧
    (s.lookup 0x505).kind = .capture ∧ (s.lookup 0x603).kind = .status ∧ (s.lookup 0x380).kind = .order := by
  decide +kernel

/-- A rule of every master on the plain words, with an action. -/
def rule (action : Action) : Rule :=
  { masters := 0xFF, window := none, direction := .either, value := 0, mask := 0, invert := false, action }

def plainFound (addr : Addr) : Found := { window := none, kind := .plain, offset := addr.toNat }

theorem test_rule_met :
    let s := withRules [{ rule .permit with masters := 2 }, rule .refuse] (part (shut .resting))
    Admitted s someRead (plainFound 0x3FF) ∧
    firstMatch someRead (plainFound 0x3FF) s.rules 0 = some (1, rule .refuse) ∧
    firstMatch someWrite (plainFound 0x3FF) s.rules 0 = some (0, { rule .permit with masters := 2 }) ∧
    firstMatch someRead (plainFound 0x3FF) [] 0 = none := by decide +kernel

theorem test_rule_actions_met :
    ∀ action ∈ [Action.permit, .refuse, .refuseQuiet, .force 0x00FF 0x0F0F, .trap, .meter 7],
      Admitted (withRules [rule action] (part (shut .resting))) someWrite (plainFound 0x3FF) ∧
      Admitted (withRules [rule action] (part (shut .resting))) someRead (plainFound 0x3FF) ∧
      firstMatch someWrite (plainFound 0x3FF) (withRules [rule action] (part (shut .resting))).rules 0 =
        some (0, rule action) ∧
      firstMatch someRead (plainFound 0x3FF) (withRules [rule action] (part (shut .resting))).rules 0 =
        some (0, rule action) := by decide +kernel

theorem test_tokens_met :
    let s := part (shut .resting)
    let t (e : Bool) := setAt s.meters 7 { s.meters.get 7 with tokens := 0, exceeded := e }
    0 < (s.meters.get 7).tokens ∧ ((t true).get 7).tokens = 0 ∧ ((t true).get 7).exceeded = true ∧
    ((t false).get 7).tokens = 0 ∧ ((t false).get 7).exceeded = false := by decide +kernel

theorem test_force_rewrites :
    let s := withRules [rule (.force 0x00FF 0x0F0F)] (part (shut .resting))
    (s.arrive someWrite).path.upstream = .waiting someWrite
      (.write 0x3FF .both 0xA0CF (.outstanding true) (.outstanding true) .answerOnly) := by decide +kernel

/-! ## Forwarded and served accesses (O18 to O22) -/

/-- The part with its mirror unit changed. -/
def withMirror (m : Mirror) : State := { part (shut .resting) with mirror := m }

def lostMirror : Mirror :=
  { mirror with
    bankA := { mirror.bankA with state := .failed }
    bankB := { mirror.bankB with state := .failed }
    imageLost := true }

theorem test_forwarded_write_met :
    let s := part (shut .resting)
    let w (addr : Addr) : Access := { someWrite with addr := addr }
    Reaches s (w 0x3FF) (plainFound 0x3FF) ∧ Reaches s (w 0x400) (plainFound 0x400) ∧
    Reaches (withMirror lostMirror) (w 0x3FF) (plainFound 0x3FF) ∧
    s.mirror.imageSize ≤ (0x400 : Addr).toNat ∧ (0x3FF : Addr).toNat < s.mirror.imageSize ∧
    s.mirror.imageLost = false ∧ s.mirror.bankA.state = .inService ∧ (s.lookup 0x303).kind = .indication 0 ∧
    (s.lookup 0x500).kind = .capture ∧ (s.lookup 0x600).kind = .status ∧ s.path.slots.get 1 = none ∧
    (s.role 1).authorized = true := by decide +kernel

theorem test_forwarded_read_met :
    let s := part (shut .resting)
    let failedA := withMirror { mirror with bankA := { mirror.bankA with state := .failed } }
    Reaches s (readOf 4 0x3FF .low) (plainFound 0x3FF) ∧ Reaches s (readOf 4 0x400 .low) (plainFound 0x400) ∧
    Reaches s (readOf 4 0x201 .low) { window := some 1, kind := .sensor 0, offset := 1 } ∧
    Reaches s (readOf 4 0x38A .both) { window := some 3, kind := .order, offset := 10 } ∧
    Reaches (withMirror lostMirror) (readOf 4 0x3FF .low) (plainFound 0x3FF) ∧
    mappedBank s.mirror.readMap 0x3FF = .bankA ∧ (s.mirror.bank .bankA).state = .inService ∧
    (failedA.mirror.bank .bankA).state ≠ .inService ∧ (failedA.mirror.bank .bankB).state = .inService := by
  decide +kernel

theorem test_served_read_met :
    let s := part (shut .resting)
    Reaches s (readOf 4 0x101 .high) { window := some 0, kind := .command 0, offset := 1 } ∧
    Reaches s (readOf 4 0x302 .both) { window := some 2, kind := .indication 0, offset := 2 } ∧
    Reaches s (readOf 4 0x303 .both) { window := some 2, kind := .indication 0, offset := 3 } ∧
    Reaches s (readOf 4 0x505 .both) { window := some 5, kind := .capture, offset := 5 } ∧
    Reaches s (readOf 4 0x607 .low) { window := some 6, kind := .status, offset := 7 } ∧
    s.door? 1 = some hatch := by decide +kernel

theorem test_served_fields_met :
    let x := { shut .resting with prot := { (shut .resting).prot with tripCount := 8 } }
    x.prot.tripCount < 16 ∧ ({ entries := [], dropped := 255 } : Ring).entries.length ≤ 64 ∧
    mirror.bankA.count ≤ 3 ∧ mirror.bankB.count ≤ 3 ∧ mirror.cursor < 262144 ∧
    (∀ g : GroupNum, ((part x).yard.groups.get g).holders.length < 16) ∧
    (∀ g : GroupNum, ((part x).yard.groups.get g).queue.length < 256) := by decide +kernel

theorem test_entry_fields_met :
    let e : Entry := { kind := 26, master := 15, addr := 0x3FFFF, detail := 8, data := 0, time := 0 }
    e.kind < 64 ∧ e.master < 16 ∧ e.detail < 16 ∧ Ring.lawful { entries := [e], dropped := 255 } :=
  ⟨by decide, by decide, by decide, by decide, by decide⟩

theorem test_served_words :
    let s := part (shut (.moving .toOpen .localReq 150))
    ((s.arrive (readOf 4 0x100 .both)).path.response = some (.done (some 0x0002))) ∧
    ((s.arrive (readOf 4 0x600 .both)).path.response = some (.done (some 0x0002))) ∧
    ((s.arrive (readOf 4 0x606 .both)).path.response = some (.done (some 0x031F))) := by decide +kernel

theorem test_command_write_met :
    let s := part (shut .resting)
    s.part = .running ∧ s.path.upstream = .idle ∧ (s.lookup (wordWrite 0 0x101 7).addr).kind = .command 0 ∧
    (wordWrite 0 0x101 7).isWrite = true := by decide +kernel

/-! ## The banks (O23 to O26) -/

/-- A copy from bank A to bank B at a cursor, with counts. -/
def copying (cursor a b : Nat) : State :=
  withMirror { mirror with
    bankA := { mirror.bankA with count := a, mem := (Contents.blank.writeLanes 1 .both 0x34).writeLanes 1023 .both 0x56 }
    bankB := { mirror.bankB with state := .resync, count := b }
    source := some .bankA, cursor := cursor }

/-- The part with bank A's count and an access waiting. -/
def counted (n : Nat) (a : Access) (w : Waiting) : State :=
  waits a w (withMirror { mirror with bankA := { mirror.bankA with count := n } })

theorem test_bank_read_met :
    let w (retry : Bool) : Waiting := .read 0x3FF .both .bankA retry
    let alone := withMirror { mirror with
      bankA := { mirror.bankA with count := 2 }, bankB := { mirror.bankB with state := .failed } }
    (counted 1 someRead (w false)).path.upstream = .waiting someRead (w false) ∧
    (counted 2 someRead (w true)).path.upstream = .waiting someRead (w true) ∧
    ((counted 1 someRead (w false)).mirror.bank .bankA).count + 1 < 3 ∧
    ((counted 2 someRead (w true)).mirror.bank .bankA).count + 1 = 3 ∧
    ((counted 2 someRead (w true)).mirror.bank .bankA).state = .inService ∧
    (counted 2 someRead (w true)).mirror.source = none ∧
    ((counted 2 someRead (w true)).mirror.bank .bankB).state = .inService ∧
    (alone.mirror.bank .bankB).state ≠ .inService ∧ (alone.mirror.bank .bankA).count + 1 = 3 := by
  decide +kernel

theorem test_read_errors_met : (mirror.fetch .bankA 0x3FF exact).good .both = true ∧
    (mirror.fetch .bankA 0x3FF flipped).good .high = true ∧
    ReadErrs mirror .bankA 0x3FF .low (.bankAccessEnd .bankA flipped) 1 ∧
    ReadErrs mirror .bankA 0x3FF .low (.bankCompletionTimeout .bankA) 2 :=
  ⟨by decide +kernel, by decide +kernel, .parity _ (by decide +kernel), .timeout⟩

theorem test_read_retried_and_bank_failed :
    let t := after (exec (.bankAccessEnd .bankA flipped) (counted 2 someRead (.read 0x3FF .both .bankA false)))
    t.mirror.bankA.state = .failed ∧ t.path.upstream = .waiting someRead (.read 0x3FF .both .bankB true) ∧
      t.ring.entries.map (fun e => (e.kind, e.detail, e.data)) = [(20, 1, 0x300), (21, 0, 0)] ∧
      t.lines.partFault = true := by decide +kernel

theorem test_bank_write_met :
    let w (a b : Leg) : Waiting := .write 0x3FF .both 0xABCD a b .answerOnly
    let two := counted 1 someWrite (w (.outstanding true) (.outstanding false))
    let one := counted 1 someWrite (w (.outstanding true) .unused)
    two.path.upstream = .waiting someWrite (w (.outstanding true) (.outstanding false)) ∧
    one.path.upstream = .waiting someWrite (w (.outstanding true) .unused) ∧
    (one.mirror.bank .bankA).count + 1 < 3 ∧ one.mirror.source = none ∧ two.mirror.bankA.count ≤ 2 ∧
    two.mirror.bankB.count ≤ 2 ∧ two.mirror.bankA.state = .inService ∧ two.mirror.bankB.state = .inService := by
  decide +kernel

theorem test_write_ends_met : EndsWrite .bankA true (.bankAccessEnd .bankA flipped) ∧
    EndsWrite .bankB false (.bankCompletionTimeout .bankB) := ⟨.clean _, .error⟩

theorem test_write_answered_when_both_banks_end :
    let s := waits someWrite (.write 0x3FF .both 0xABCD (.outstanding true) (.outstanding true) .answerOnly)
      (part (shut .resting))
    let u := after (exec (.bankAccessEnd .bankB exact) s)
    let t := after (exec (.bankCompletionTimeout .bankA) u)
    u.path.response = none ∧ t.path.response = some (.done none) ∧ t.mirror.bankA.count = 1 ∧
      (t.mirror.bankB.mem.readWord 0x3FF).data = 0xABCD := by decide +kernel

/-- A copy with a write or a read waiting. -/
def copyAnd (cursor a b : Nat) (w : Waiting) : State := waits someWrite w (copying cursor a b)

theorem test_copy_and_access_met :
    (copyAnd 7 2 2 (.read 0x3FF .both .bankA false)).mirror.source = some .bankA ∧
    ((copyAnd 7 2 2 (.read 0x3FF .both .bankA false)).mirror.bank .bankA).count + 1 = 3 ∧
    ((copyAnd 7 2 2 (.read 0x3FF .both .bankA false)).mirror.bank .bankA).state = .inService ∧
    ((copyAnd 7 2 2 (.read 0x3FF .both .bankA false)).mirror.bank (otherBank .bankA)).state = .resync := by
  decide +kernel

theorem test_writes_while_copying :
    let w : Waiting := .write 3 .both 0xABCD (.outstanding true) (.outstanding false) .answerOnly
    let ends (cA cB : Instr) (s : State) : State := after (exec cB (after (exec cA s)))
    let clean := Instr.bankAccessEnd .bankA exact
    let badA := Instr.bankCompletionTimeout .bankA
    let badB := Instr.bankCompletionTimeout .bankB
    (ends clean badB (copyAnd 7 1 1 w)).mirror.cursor = 3 ∧
    (ends clean badB (copyAnd 2 1 1 w)).mirror.cursor = 2 ∧
    (ends clean badB (copyAnd 7 1 2 w)).ring.entries.map (fun e => (e.kind, e.detail)) =
      [(20, 3), (21, 0), (23, 2)] ∧
    (ends badA badB (copyAnd 7 2 2 w)).ring.entries.map (fun e => (e.kind, e.detail)) =
      [(20, 3), (21, 0), (23, 1), (24, 1), (20, 3)] ∧
    (ends badA badB (copyAnd 7 2 2 w)).mirror.imageLost = true := by decide +kernel

theorem test_source_read_aborts_the_copy :
    let t := after (exec (.bankAccessEnd .bankA flipped) (copyAnd 7 2 0 (.read 0x3FF .both .bankA false)))
    t.ring.entries.map (fun e => (e.kind, e.detail)) = [(20, 1), (21, 0), (23, 1), (24, 1)] ∧
      t.mirror.source = none ∧ t.mirror.bankB.state = .failed ∧ t.path.response = some .error := by decide +kernel

theorem test_parity_of_written_bytes :
    let m := Contents.blank.writeLanes 7 .high 0x1300
    Contents.blank.wf ∧ (m.readWord 7).highParity = true ∧ (m.readWord 7).good .both = true ∧
    ({ data := 0x1300, lowParity := true, highParity := true } : BankWord).good .both = false ∧
    ({ data := 0x1300, lowParity := true, highParity := true } : BankWord).good .high = true := by
  refine ⟨⟨by decide, by decide⟩, by decide, by decide, by decide, by decide⟩

theorem test_error_count_met :
    let failed := { mirror with bankA := { mirror.bankA with state := .failed, count := 3 } }
    min ((mirror.bank .bankA).count + 1) 3 < 3 ∧ (failed.bank .bankA).state = .failed ∧
    min (({ mirror with bankA := { mirror.bankA with count := 2 } }.bank .bankA).count + 1) 3 = 3 ∧
    (mirror.bank .bankA).state ≠ .failed := by decide +kernel

theorem test_copy_met :
    (copying 1 0 0).path.upstream = .idle ∧ (copying 1 0 0).mirror.source = some .bankA ∧
    (copying 1022 0 0).mirror.cursor + 1 < (copying 1 0 0).mirror.imageSize ∧
    (copying 1023 0 0).mirror.imageSize ≤ (copying 1023 0 0).mirror.cursor + 1 ∧
    ((copying 1 1 1).mirror.bank .bankA).count < 2 ∧ ((copying 1 2 1).mirror.bank .bankA).count = 2 ∧
    ((copying 1 2 1).mirror.bank .bankA).state = .inService ∧ ((copying 1 1 1).mirror.bank .bankB).count < 2 ∧
    ((copying 1 1 2).mirror.bank .bankB).count = 2 ∧ ((copying 1 1 2).mirror.bank .bankB).state = .resync := by
  decide +kernel

theorem test_copy_reads_met : ((copying 1 0 0).mirror.fetch .bankA 1 exact).good .both = true ∧
    (copying 1 0 0).mirror.cursorAddr = 1 ∧ CopyReadErrs (copying 1 0 0).mirror .bankA (some flipped) 1 ∧
    CopyReadErrs (copying 1 0 0).mirror .bankA none 2 :=
  ⟨by decide +kernel, by decide +kernel, .parity _ (by decide +kernel), .timeout⟩

theorem test_copy_step :
    (after (exec (.copyStep ⟨some exact, true⟩) (copying 1 0 0))).mirror.bankB.mem =
      Contents.blank.writeLanes 1 .both 0x34 ∧
    (after (exec (.copyStep ⟨some exact, true⟩) (copying 1023 0 0))).mirror.bankB.state = .inService ∧
    ((after (exec (.copyStep ⟨some flipped, true⟩) (copying 7 2 0))).ring.entries.map (·.kind)) = [20, 21, 23, 24] := by
  decide +kernel

/-! ## Station requests (O27 to O31) -/

/-- A station's word for door 0 that reaches it, and the same for door 1. -/
theorem test_station_word_met : ([0, 1, 2, 3, 4, 5, 6, 7, 0x0101, 9] : List Word).all (fun w =>
    decide (ReachesDoor (part (shut .resting)) 0 0x100 w 0 0) &&
      decide (ReachesDoor (part (shut .resting)) 0 0x101 w 0 1)) = true := by decide +kernel

theorem test_station_refusals_met :
    let s := part (shut .resting)
    s.door? 0 = some (shut .resting) ∧ s.door? 1 = some hatch ∧ ¬ WordFor (9 : Word) 0 ∧ WordFor (1 : Word) 0 ∧
    WordFor (0x0101 : Word) 1 ∧ hatch.st.cls = .indicated ∧ (shut .isolated).powered = true ∧
    (shut .isolated).drive = .isolated ∧ (shut .resting).drive ≠ .isolated ∧
    { shut .resting with inhibit := .stalled }.inhibit ≠ .none ∧ (shut .resting).inhibit = .none ∧
    (inMode .doorsClosed s).command.mode = some .doorsClosed ∧
    ReachesDoor (part (shut .isolated)) 0 0x100 1 0 0 ∧
    ReachesDoor (inMode .doorsClosed s) 0 0x100 2 0 0 ∧ ReachesDoor (inMode .doorsClosed s) 0 0x100 3 0 0 ∧
    ReachesDoor (inMode .doorsClosed s) 0 0x101 0x0103 0 1 := by
  decide +kernel

theorem test_station_requests_met :
    ∀ drive ∈ [Drive.resting, .recloseWait 150, .tripped 150, .queued .toClose .mode, .queued .toOpen .localReq,
        .warning .station 110, .moving .toClose .zone 150, .moving .toOpen .station 150, .isolated],
      ReachesDoor (part (ajar drive)) 0 0x100 1 0 0 ∧ (part (ajar drive)).door? 0 = some (ajar drive) ∧
      (ajar drive).powered = true ∧ (ajar drive).inhibit = .none ∧
      (part (ajar drive)).command.mode ≠ some .doorsClosed ∧ (ajar drive).position ≠ Direction.toClose.target ∧
      (ajar drive).position = Direction.toOpen.target := by decide +kernel

/-- A freshness timer short of a limit. -/
theorem within_of_start {i : InputPart} {clock limit n : Nat} (h : i.freshness = some n)
    (hn : clock < n + limit) : i.within clock limit := by
  intro start e
  rw [h] at e
  cases e
  exact hn

theorem test_in_touch_met (drive : Drive) : InTouch (part (ajar drive)) (ajar drive) :=
  ⟨within_of_start (n := 95) rfl (show 100 < 95 + 10 by decide),
    within_of_start (n := 95) rfl (show 100 < 95 + 50 by decide)⟩

theorem test_rebind_met : (ajar (.moving .toClose .zone 150)).drive.bound = true ∧
    (ajar (.moving .toClose .zone 150)).drive.hasSlot = true ∧
    (ajar (.moving .toClose .zone 150)).drive.closingRun = true ∧
    (stationRebinds (part (shut .resting)) (shut .resting) .toOpen (.moving .toClose .zone 150)).closingRun =
      false := by decide +kernel

/-- A request whose target the door has reached leaves it RESTING and out of its group, the run's alert ended. -/
theorem test_satisfied_requests :
    let closed (drive : Drive) := after (exec (.stationClose 0 0x100 0) (part (shut drive)))
    let opened (drive : Drive) := after (exec (.stationOpen 0 0x100 0) (part (ajar drive)))
    let left (t : State) := (drive0 t, (t.yard.groups.get 0).holders, (t.yard.groups.get 0).queue)
    let alarmed := { shut (.moving .toClose .zone 150) with prot :=
      { (shut .resting).prot with alert := some .obstruction, tripTimer := some 104 } }
    (∀ drive ∈ [Drive.queued .toClose .mode, .warning .mode 130, .moving .toClose .zone 150],
      (shut drive).drive.bound = true ∧ left (closed drive) = (some .resting, [], [])) ∧
    (∀ drive ∈ [Drive.queued .toOpen .station, .moving .toOpen .station 150, .queued .toClose .mode],
      (ajar drive).drive.bound = true ∧ left (opened drive) = (some .resting, [], [])) ∧
    ((after (exec (.stationClose 0 0x100 0) (part alarmed))).door? 0).map
      (fun z => (z.drive, z.prot.alert, z.prot.tripTimer, z.prot.settle)) = some (.resting, none, none, none) := by
  decide +kernel

theorem test_satisfied_door_in_touch (drive : Drive) : (shut drive).inp.within 100 timing.idleLimit ∧
    (shut drive).position = Direction.toClose.target ∧ (ajar drive).position = Direction.toOpen.target :=
  ⟨within_of_start rfl (by decide), rfl, rfl⟩

/-- The part with two POWERED doors QUEUED in one group. -/
def paired (x y : Door) : State :=
  { part x with yard := { doors := [x, y], groups := #v[group [] [0, 1], group [] [], group [] [], group [] []] } }

theorem test_turned_entries :
    let s := paired (ajar (.queued .toClose .mode)) (seen off .between (.queued .toOpen .station))
    let t := after (exec (.stationOpen 0 0x100 0) { s with yard :=
      { s.yard with doors := [seen off .between (.queued .toClose .mode), seen off .between (.queued .toOpen .station)] } })
    let u := after (exec (.stationClose 0 0x100 0) s)
    GroupFollows 0 (ajar (.queued .toClose .mode)) (ajar (.queued .toClose .mode)) s s ∧
    (t.yard.groups.get 0).queue = [1, 0] ∧ drive0 t = some (.queued .toOpen .station) ∧
    (u.yard.groups.get 0).queue = [0, 1] ∧ drive0 u = some (.queued .toClose .station) := by
  refine ⟨?_, by decide +kernel, by decide +kernel, by decide +kernel, by decide +kernel⟩
  intro g hg
  cases hg
  exact fun _ _ => rfl

theorem test_station_requests :
    drive0 (after (exec (.stationClose 0 0x100 0) (part (ajar .resting)))) = some (.queued .toClose .station) ∧
    drive0 (after (exec (.stationOpen 0 0x100 0) (part (shut .resting)))) = some (.queued .toOpen .station) ∧
    drive0 (after (exec (.stationClose 0 0x100 0) (part (ajar (.moving .toOpen .station 150))))) =
      some (.warning .station 130) ∧
    drive0 (after (exec (.stationStop 0 0x100 0) (part (ajar (.moving .toOpen .station 150))))) = some .resting ∧
    drive0 (after (exec (.stationIsolate 0 0x100 0) (part (ajar (.queued .toOpen .station))))) = some .isolated ∧
    drive0 (after (exec (.stationRestore 0 0x100 0) (inMode .doorsClosed (part (ajar .isolated))))) =
      some (.queued .toClose .mode) ∧
    (after (exec (.stationNone 0 0x100 0) (part (ajar .resting)))).path.response = some (.done none) := by
  decide +kernel

theorem test_request_refused :
    (after (exec (.stationOpen 0 0x100 0) (inMode .doorsClosed (part (shut .resting))))).ring.entries =
      [{ kind := 9, master := 0, addr := 0x100, detail := 5, data := 2, time := 100 }] ∧
    (after (exec (.stationStop 0 0x101 0x20) (inMode .doorsClosed (part (shut .resting))))).ring.entries =
      [{ kind := 9, master := 0, addr := 0x101, detail := 2, data := 0x103, time := 100 }] := by decide +kernel

/-! ## Timers of a door, grants (O32 to O38) -/

theorem test_door_timers_met :
    let warned := ajar (.warning .mode 100)
    let waits := ajar (.recloseWait 100)
    let moving := ajar (.moving .toClose .station 100)
    let tripped := ajar (.tripped 100)
    (part warned).door? 0 = some warned ∧ warned.drive = .warning .mode 100 ∧ 100 ≤ (part warned).clock ∧
    (part waits).door? 0 = some waits ∧ waits.drive = .recloseWait 100 ∧
    (part moving).door? 0 = some moving ∧ moving.drive = .moving .toClose .station 100 ∧
    (part tripped).door? 0 = some tripped ∧ tripped.drive = .tripped 100 ∧ tripped.position ≠ .closed ∧
    (shut (.tripped 100)).position = .closed := by decide +kernel

theorem test_enforced_met : Enforced (inMode .doorsClosed (part (ajar .resting))) (ajar .resting) false ∧
    ¬ Enforced (inMode .doorsClosed (part (ajar .resting))) (ajar .resting) true :=
  ⟨⟨rfl, rfl, rfl, rfl, Or.inl rfl⟩, fun h => nomatch h.2.2.2.1⟩

theorem test_no_slot_is_left (x : Door) : KeepsSlot 0 x (part x) (part x) := fun _ _ _ _ => rfl

/-- A closing door with an alert whose trip timer expires at 100. -/
def alerted : Door :=
  { ajar (.moving .toClose .station 150) with prot :=
    { (ajar .resting).prot with alert := some .both, mark := true, peak := some 90, tripTimer := some 100 } }

theorem test_trip_met : (part alerted).door? 0 = some alerted ∧ alerted.prot.tripTimer = some 100 ∧
    alerted.prot.alert = some .both ∧ 100 ≤ (part alerted).clock ∧
    alerted.inp.within (part alerted).clock (part alerted).times.idleLimit :=
  ⟨rfl, rfl, rfl, Nat.le_refl _, within_of_start rfl (by decide)⟩

theorem test_trip :
    let t := after (exec (.tripTimerExpiry 0) (part alerted))
    drive0 t = some (.tripped 150) ∧ t.ring.entries.map (fun e => (e.kind, e.detail, e.data)) = [(11, 3, 0)] ∧
      (t.yard.groups.get 0).holders = [] := by decide +kernel

theorem test_settle_met :
    let x := { shut .resting with prot := { (shut .resting).prot with settle := some 100, tripCount := 1 } }
    (part x).door? 0 = some x ∧ x.prot.settle = some 100 ∧ 100 ≤ (part x).clock ∧
    (((after (exec (.settleExpiry 0) (part x))).door? 0).map (·.prot.tripCount)) = some 0 := by decide +kernel

/-- A door whose freshness timer meets its limit at 100. -/
def silent (drive : Drive) (limit : Nat) : Door :=
  let x := ajar drive
  { x with
    hold := true
    inp := { x.inp with freshness := some (100 - limit), debounced := { x.inp.debounced with lo := true } } }

theorem test_freshness_met :
    let bound := silent (.moving .toOpen .station 150) 10
    let free := silent .resting 50
    (part bound).door? 0 = some bound ∧ bound.inp.stale = false ∧ bound.inp.freshness = some 90 ∧
    90 + (if bound.drive.bound then timing.activeLimit else timing.idleLimit) ≤ (part bound).clock ∧
    free.inp.freshness = some 50 ∧
    50 + (if free.drive.bound then timing.activeLimit else timing.idleLimit) ≤ (part free).clock ∧
    free.inp.debounced.lo = true ∧ free.powered = true := by decide +kernel

theorem test_freshness_with_lo_met :
    ∀ drive ∈ [Drive.recloseWait 150, .tripped 150, .isolated],
      (part (silent drive 50)).door? 0 = some (silent drive 50) ∧ (silent drive 50).inp.debounced.lo = true ∧
      50 + timing.idleLimit ≤ (part (silent drive 50)).clock ∧ (silent drive 50).drive.bound = false ∧
      drive0 (after (exec (.freshnessExpiry 0) (inMode .doorsClosed (part (silent drive 50))))) = some drive := by
  decide +kernel

theorem test_freshness_expiry_leaves_the_group :
    let s (drive : Drive) := part (silent drive 10)
    let t (drive : Drive) := after (exec (.freshnessExpiry 0) (s drive))
    ((s (.queued .toOpen .station)).yard.groups.get 0).queue = [0] ∧
    ((t (.queued .toOpen .station)).yard.groups.get 0).queue = [] ∧
    ((s (.moving .toOpen .station 150)).yard.groups.get 0).holders = [0] ∧
    ((t (.moving .toOpen .station 150)).yard.groups.get 0).holders = [] ∧
    ((t (.moving .toClose .station 150)).yard.groups.get 0).holders = [0] := by decide +kernel

theorem test_freshness_expiry :
    drive0 (after (exec (.freshnessExpiry 0) (inMode .doorsClosed (part (silent .resting 50))))) =
      some (.recloseWait 200) ∧
    drive0 (after (exec (.freshnessExpiry 0) (part (silent (.moving .toOpen .station 150) 10)))) =
      some .resting := by decide +kernel

/-- A door one of whose inputs has a debounce timer that expires at 100. -/
def bouncing (drive : Drive) (inputs raw : Four Bool) (p : Position)
    (timers : Option DebounceTimer → Four (Option DebounceTimer)) : Door :=
  let x := seen inputs p drive
  { x with inp := { x.inp with raw := raw, timers := timers (some { expiry := 100, report := 0 }) } }

def rises : Door := bouncing .resting off { off with lo := true } .between fun t => { noTimers with lo := t }
def falls : Door := bouncing (.moving .toOpen .localReq 150) { off with lo := true } off .between
  fun t => { noTimers with lo := t }
def calls : Door := bouncing .resting off { off with lc := true } .between fun t => { noTimers with lc := t }
def closes : Door := bouncing (.moving .toClose .station 150) off { off with cl := true } .between
  fun t => { noTimers with cl := t }

theorem test_debounce_met :
    (part rises).door? 0 = some rises ∧ rises.inp.timers.of .lo = some { expiry := 100, report := 0 } ∧
    100 ≤ (part rises).clock ∧ rises.inp.debounced.lo = false ∧ rises.inp.raw.lo = true ∧
    falls.inp.debounced.lo = true ∧ falls.inp.raw.lo = false ∧ calls.inp.debounced.lc = false ∧
    calls.inp.raw.lc = true ∧ closes.position ≠ .closed ∧ closes.prot.peak = none ∧
    (part closes).env.positionOf closes = .between ∧
    (∀ x ∈ [rises, falls, calls, closes], x.inp.freshness = some 95) := by decide +kernel

theorem test_debounce_expiry :
    drive0 (after (exec (.debounceExpiry 0 .lo) (part rises))) = some (.queued .toOpen .localReq) ∧
    drive0 (after (exec (.debounceExpiry 0 .lo) (inMode .doorsClosed (part falls)))) =
      some (.recloseWait 200) ∧
    drive0 (after (exec (.debounceExpiry 0 .lc) (part calls))) = some (.queued .toClose .localReq) ∧
    drive0 (after (exec (.debounceExpiry 0 .cl) (part closes))) = some .resting ∧
    ((after (exec (.debounceExpiry 0 .cl) (part closes))).door? 0).map (·.prot.settle) = some (some 180) := by
  decide +kernel

/-- What an LO rise and an LC rise do in every drive state, and what reaching a target does to a door on its way. -/
theorem test_local_requests :
    let rise (drive : Drive) := drive0 (after (exec (.debounceExpiry 0 .lo) (part { rises with drive := drive })))
    let call (drive : Drive) := drive0 (after (exec (.debounceExpiry 0 .lc) (part { calls with drive := drive })))
    let shuts (drive : Drive) := drive0 (after (exec (.debounceExpiry 0 .cl) (part { closes with drive := drive })))
    [Drive.queued .toClose .mode, .warning .mode 130, .moving .toClose .zone 150, .recloseWait 150, .tripped 150].map
      rise = [some (.queued .toOpen .localReq), some (.moving .toOpen .localReq 160),
        some (.moving .toOpen .localReq 160), some (.queued .toOpen .localReq), some (.queued .toOpen .localReq)] ∧
    [Drive.queued .toOpen .station, .warning .zone 130, .moving .toOpen .station 150, .moving .toClose .station 150].map
      call = [some (.queued .toClose .localReq), some (.moving .toClose .localReq 160),
        some (.moving .toClose .localReq 160), some (.moving .toClose .localReq 150)] ∧
    [Drive.queued .toClose .mode, .warning .mode 130, .moving .toOpen .station 150].map shuts =
      [some .resting, some .resting, some (.moving .toOpen .station 150)] := by decide +kernel

/-- A part whose one POWERED door waits in its queue, and whose other door is INDICATED, meets the laws of the groups. -/
theorem test_grant_met :
    (part (ajar (.queued .toClose .mode))).yard.arbiterLawful ∧
    ((part (ajar (.queued .toClose .mode))).yard.groups.get 0).grantDue = true ∧
    0 ∈ ((part (ajar (.queued .toClose .mode))).yard.groups.get 0).queue.take 1 := by
  refine ⟨⟨by decide, ?_, ?_, by decide, ?_, ?_⟩, by decide, by decide⟩
  · intro g d
    have h : ((part (ajar (.queued .toClose .mode))).yard.groups.get g).holders = [] := by
      revert g; decide
    rw [h]
    constructor
    · intro hd; cases hd
    · rintro ⟨x, hx, hc, hs⟩
      match d with
      | 0 => cases hx; cases hs
      | 1 => cases hx; cases hc
      | d + 2 => cases hx
  · intro g d
    match d with
    | 0 =>
      constructor
      · intro hd
        refine ⟨_, rfl, ?_, rfl⟩
        revert hd; revert g; decide
      · rintro ⟨x, hx, hc, -⟩
        cases hx; cases hc; decide
    | 1 =>
      constructor
      · intro hd; revert hd; revert g; decide
      · rintro ⟨x, hx, hc, -⟩
        cases hx; cases hc
    | d + 2 =>
      constructor
      · intro hd
        have h : ∀ g, ∀ k ∈ ((part (ajar (.queued .toClose .mode))).yard.groups.get g).queue, k = 0 := by decide
        cases h g _ hd
      · rintro ⟨x, hx, -⟩; cases hx
  · intro g; revert g; decide
  · intro d x hx hc
    match d with
    | 0 => cases hx; cases hc
    | 1 => cases hx; exact Or.inl rfl
    | d + 2 => cases hx

theorem test_grant :
    let t := after (exec (.slotGrant 0) (part (ajar (.queued .toClose .mode))))
    drive0 t = some (.warning .mode 130) ∧ (t.yard.groups.get 0).holders = [0] ∧
      drive0 (after (exec (.prewarnExpiry 0) (part (ajar (.warning .mode 100))))) =
        some (.moving .toClose .mode 160) := by decide +kernel

/-! ## Sensor reports (O39 to O41) -/

theorem test_sensor_report_met :
    ReachesSensor (part (shut .resting)) 2 0x201 0x4092 0 1 ∧
    (part (shut .resting)).mirror.imageLost = false ∧ (withMirror lostMirror).mirror.imageLost = true ∧
    ReachesSensor (withMirror lostMirror) 2 0x200 0x4092 0 0 := by decide +kernel

theorem test_sensor_take_met :
    let s := part (shut .resting)
    let unseen := { shut .resting with inp := { (shut .resting).inp with reported := false } }
    s.door? 0 = some (shut .resting) ∧ (shut .resting).inp.lastSeq = some ((0x4012 : Word).extractLsb' 6 2) ∧
    (shut .resting).inp.lastSeq ≠ some ((0x4092 : Word).extractLsb' 6 2) ∧ s.clock < 91 + s.times.activeLimit ∧
    s.clock < 91 + s.times.idleLimit ∧ unseen.inp.reported = false ∧
    (shut .resting).inp.debounced.of .cl ≠ false ∧ (shut .resting).inp.timers.of .cl = none ∧
    0 < s.times.debounce ∧ (part rises).door? 0 = some rises ∧ closes.drive.closingRun = true ∧
    (part closes).door? 0 = some closes ∧ closes.inp.lastSeq ≠ some ((0x4092 : Word).extractLsb' 6 2) ∧
    0 < (part closes).times.tripDelay := by decide +kernel

theorem test_sensor_report :
    let s := withMirror lostMirror
    let t := after (exec (.sensorReport 2 0x200 0x4092) s)
    t.path.response = some (.done none) ∧
      (t.door? 0).map (fun z => (z.inp.pressure, z.inp.timers.cl, z.inp.timers.ol)) =
        some (64, some { expiry := 102, report := 1 }, some { expiry := 102, report := 1 }) := by decide +kernel

/-- A closing door whose baseline has been learned. -/
def closing (alert : Option Cause) : Door :=
  { seen off .between (.moving .toClose .station 150) with prot :=
    { (shut .resting).prot with hot := true, alert := alert, tripTimer := alert.map fun _ => 104 } }

/-- A report's word: OB, PRESSURE, and the raw inputs and PW. -/
def word (inputs ob pressure : Nat) : Word := BitVec.ofNat 16 (0x50 + inputs + 0x20 * ob + 256 * pressure)

theorem test_alert_met :
    let s := part (closing none)
    s.door? 0 = some (closing none) ∧ (closing none).drive.closingRun = true ∧
    (closing none).inp.lastSeq ≠ some ((word 0 0 71).extractLsb' 6 2) ∧
    (word 0 1 70).getLsbD 5 = true ∧ (word 0 0 70).getLsbD 5 = false ∧
    (closing none).prot.baseline + (closing none).st.margin < ((word 0 0 71).extractLsb' 8 8).toNat ∧
    ¬ (closing none).prot.baseline + (closing none).st.margin < ((word 0 0 70).extractLsb' 8 8).toNat ∧
    (closing none).prot.baseline + (closing none).st.margin < 255 ∧ 0 < s.times.tripDelay ∧
    (closing (some .both)).prot.alert ≠ none ∧ (closing none).inhibit ≠ .latched ∧
    (closing none).prot.tripCount < s.times.retryLimit ∧ s.clock < 100 + s.times.activeLimit ∧
    s.clock < 100 + s.times.idleLimit := by decide +kernel

/-- The part with trip delay 0 and no debounce time, so that a report's inputs are taken at once. -/
def prompt (x : Door) : State :=
  { part x with timing := some { timing with tripDelay := 0, debounce := 0 } }

/-- A report that changes no input, one that changes one, a recovering one, and an LC rise that leaves the origin LOCAL:
each leaves the door closing. -/
theorem test_still_closing_met :
    let inputs (lc ol : Bool) : Four Bool := { cl := false, ol := ol, lo := false, lc := lc }
    let stale := { closing none with position := .unknown, inp := { (closing none).inp with stale := true } }
    let s := prompt (closing none)
    takenInputs s (closing none) (inputs false false) = off ∧
    takenInputs (part (closing none)) (closing none) (inputs true true) = off ∧
    takenInputs s (closing none) (inputs false true) = inputs false true ∧
    takenInputs (part stale) stale (inputs false true) = inputs false true ∧
    deliveredDrive s (closing none) off .between = .moving .toClose .station 150 ∧
    deliveredDrive s (closing none) (inputs false true) .opened = .moving .toClose .station 150 ∧
    deliveredDrive (part stale) stale (inputs false true) .opened = .moving .toClose .station 150 ∧
    deliveredDrive s (closing none) (inputs true false) .between = .moving .toClose .localReq 150 := by
  decide +kernel

theorem test_zero_trip_delay :
    let s := prompt (closing none)
    let spent : Door := { closing none with prot := { (closing none).prot with tripCount := 2 } }
    let late := (prompt spent).sensorTake 0 (word 2 1 71) 100
    s.door? 0 = some (closing none) ∧ (prompt spent).door? 0 = some spent ∧
    s.times.tripDelay = 0 ∧ s.times.retryLimit < spent.prot.tripCount + 1 ∧
    drive0 (s.sensorTake 0 0x4770 100) = some (.tripped 150) ∧
    drive0 (s.sensorTake 0 (word 8 1 71) 100) = some .resting ∧
    drive0 ((inMode .doorsClosed s).sensorTake 0 (word 8 1 71) 100) = some (.recloseWait 200) ∧
    drive0 late = some .resting ∧
    late.ring.entries.map (fun e => (e.kind, e.detail, e.data)) = [(11, 3, 0), (12, 3, 0)] ∧
    (late.door? 0).map (fun z => (z.inhibit, z.position)) = some (.latched, .opened) := by decide +kernel

/-- With trip delay 0, a report with OB set that completes a closing door, or turns it, trips nothing. -/
theorem test_report_that_ends_the_run :
    let s := prompt (closing none)
    let shuts := s.sensorTake 0 (word 1 1 71) 100
    let turns := s.sensorTake 0 (word 4 1 71) 100
    s.times.tripDelay = 0 ∧
    (deliveredDrive s (closing none) { off with cl := true } .closed).closingRun = false ∧
    (deliveredDrive s (closing none) { off with lo := true } .between).closingRun = false ∧
    drive0 shuts = some .resting ∧ shuts.ring.entries = [] ∧
    (shuts.door? 0).map (fun z => (z.prot.settle, z.prot.tripCount, z.prot.peak)) = some (some 180, 0, none) ∧
    (shuts.yard.groups.get 0).holders = [] ∧ drive0 turns = some (.moving .toOpen .localReq 160) ∧
    turns.ring.entries = [] ∧ (turns.yard.groups.get 0).holders = [0] := by decide +kernel

/-! ## Alarms and lines (O42, O43) -/

theorem test_end_of_take_met :
    let before := (part (ajar .resting)).yard
    let s := inMode .doorsClosed (part (ajar (.tripped 150)))
    before.doors[0]? = some (ajar .resting) ∧ s.door? 0 = some (ajar (.tripped 150)) ∧
    (ajar .resting).alarmInputs ≠ (ajar (.tripped 150)).alarmInputs ∧
    (State.endTake before s).lines.generalAlarm = .flashing true 104 ∧
    (State.endTake before s).lines.doorsNotClosed = true := by decide +kernel

theorem test_sensor_take_ends_with_the_evaluation :
    let t := (part (closing none)).sensorTake 0 0x4740 100
    (t.door? 0).map (·.alarms.drivePower) = some .activeUnack ∧ t.lines.generalAlarm = .flashing true 104 := by
  decide +kernel

theorem test_position_met :
    (shut .resting).inp.stale = false ∧ (shut .resting).inp.reported = true ∧
    (shut .resting).inp.debounced.cl = true ∧ (shut .resting).inp.debounced.ol = false ∧
    derivePosition true { (shut .resting).inp with debounced := { off with cl := true, ol := true } } = .conflict := by
  decide +kernel

/-- A door with one alarm state. -/
def alarming (a : AlarmState) : Door := { shut .resting with alarms := { Seven.normal with stale := a } }

theorem test_lines_met :
    (∃ x ∈ (part (alarming .clearedUnack)).yard.doors, ∃ a ∈ x.alarms.list, a = .clearedUnack) ∧
    (∃ x ∈ (part (alarming .activeAck)).yard.doors, ∃ a ∈ x.alarms.list, a = .activeAck) := by decide +kernel

/-! ## Orders (O44 to O52) -/

/-- Every order's word reaches it, from the masters that may write one and from one that may not. -/
theorem test_orders_met : (List.range 11).all (fun offset => ([0, 1, 2, 3] : List Master).all fun m =>
    ([0, 1, 2, 3, 65, 0x80, 0x8000, 0xC000] : List Word).all fun w =>
      decide (ReachesOrder (part (shut .resting)) m (BitVec.ofNat 18 (0x380 + offset)) w offset)) = true := by
  decide +kernel

theorem test_order_writers_met :
    let s := part (shut .resting)
    s.command.holder = some 0 ∧ s.command.holder ≠ some 3 ∧ (s.role 3).isService = true ∧
    (s.role 0).isService = false ∧ (s.role 1).isStation = true ∧ (s.role 3).isStation = false ∧
    s.role 2 = .scanner 0 2 true ∧ (s.role 3).isScanner = false ∧ s.doorCount = 2 ∧
    (2 : Word) &&& 0x7F80 = 0 ∧ s.doorCount ≤ field 2 0 7 ∧ field 1 0 7 < s.doorCount ∧
    field 64 0 7 = 64 ∧ field 65 0 7 = 65 := by decide +kernel

theorem test_mode_met :
    let s := part (ajar (.queued .toOpen .station))
    ReachesOrder s 0 0x380 2 0 ∧ ReachesOrder (inMode .doorsClosed s) 0 0x380 1 0 ∧
    s.command.mode ≠ some .doorsClosed ∧ s.command.mode = some .localControl ∧
    (∀ d x, (part (ajar .resting)).door? d = some x → x.inp.freshness = some 95) := by
  refine ⟨by decide +kernel, by decide +kernel, by decide +kernel, by decide +kernel, ?_⟩
  intro d x hx
  match d with
  | 0 => cases hx; rfl
  | 1 => cases hx; rfl
  | d + 2 => cases hx

theorem test_mode_change :
    let t := after (exec (.mode 0 0x380 2) (part (ajar (.moving .toOpen .station 150))))
    drive0 t = some (.warning .mode 130) ∧ t.command.mode = some .doorsClosed ∧
      t.ring.entries = [{ kind := 19, master := 0, addr := 0x380, detail := 1, data := 2, time := 100 }] := by
  decide +kernel

/-- A change of mode evaluates every door, the INDICATED one too (R82 step 6). -/
theorem test_mode_change_evaluates :
    let s := { part (ajar .isolated) with yard := { (part (ajar .isolated)).yard with
      doors := [ajar .isolated, { hatch with position := .opened }] } }
    let t := after (exec (.mode 0 0x380 2) s)
    (t.door? 0).map (·.alarms.doorOpen) = some .normal ∧ (t.door? 1).map (·.alarms.doorOpen) = some .activeUnack ∧
    t.lines.generalAlarm = .flashing true 104 ∧ t.lines.doorsNotClosed = true := by decide +kernel

theorem test_mode_change_grants :
    let closed (drive : Drive) := after (exec (.mode 0 0x380 2) (part (ajar drive)))
    let free (drive : Drive) := after (exec (.mode 0 0x380 1) (inMode .doorsClosed (part (ajar drive))))
    drive0 (closed (.queued .toClose .station)) = some (.warning .station 130) ∧
    drive0 (closed (.queued .toOpen .localReq)) = some (.moving .toOpen .localReq 160) ∧
    drive0 (closed .resting) = some (.warning .mode 130) ∧
    (closed .resting).door? 1 = some hatch ∧ ((closed .resting).yard.groups.get 0).grantDue = false ∧
    drive0 (free (.queued .toClose .zone)) = some (.warning .zone 130) ∧
    drive0 (free (.queued .toClose .mode)) = some .resting := by decide +kernel

theorem test_zone_close :
    drive0 (after (exec (.zoneClose 0 0x381 8) (part (ajar .resting)))) = some (.queued .toClose .zone) ∧
    drive0 (after (exec (.zoneClose 0 0x381 0xFFF7) (part (ajar .resting)))) = some .resting ∧
    drive0 (after (exec (.zoneClose 0 0x381 8) (part (ajar (.warning .localReq 120))))) =
      some (.warning .localReq 120) := by decide +kernel

theorem test_door_clear :
    let x := { ajar (.tripped 150) with inhibit := .stalled, prot := { (ajar .resting).prot with tripCount := 2 } }
    let t := after (exec (.doorClear 0 0x382 0) (inMode .doorsClosed (part x)))
    (t.door? 0).map (fun z => (z.drive, z.inhibit, z.prot.tripCount)) =
      some (.queued .toClose .mode, .none, 0) := by decide +kernel

/-- The part with three POWERED doors of one group, of which door 2 waits to close. -/
def trio (x y : Door) (queue : List Nat) : State :=
  { part x with yard :=
    { doors := [x, y, ajar (.queued .toClose .station)]
      groups := #v[group [] queue, group [] [], group [] [], group [] []] } }

/-- R69: the doors of one take join in door-number order, behind the close that waits. -/
theorem test_joins_in_door_order :
    let s := trio (ajar .resting) (ajar (.queued .toOpen .station)) [2, 1]
    let asked := after (exec (.zoneClose 0 0x381 8) s)
    let closed := after (exec (.mode 0 0x380 2) s)
    let cleared := after (exec (.doorClear 0 0x382 0x8000)
      (inMode .doorsClosed (trio (ajar (.tripped 150)) (ajar (.tripped 150)) [2])))
    ReachesOrder s 0 0x382 0x8000 2 ∧
    (asked.yard.groups.get 0).queue = [2, 0, 1] ∧ (closed.yard.groups.get 0).holders = [2] ∧
    (closed.yard.groups.get 0).queue = [0, 1] ∧ (cleared.yard.groups.get 0).queue = [2, 0, 1] := by decide +kernel

theorem test_alarm_ack :
    ((after (exec (.alarmAck 1 0x383 0x8000) (part (alarming .activeUnack)))).door? 0).map (·.alarms.stale) =
      some .activeAck ∧
    (after (exec (.alarmAck 1 0x383 1) (part (alarming .activeUnack)))).lines.generalAlarm =
      .flashing true 104 := by decide +kernel

theorem test_baseline :
    let x := { closing none with prot := { (closing none).prot with baseline := 99 } }
    ((after (exec (.baseline 3 0x384 8) (part x))).door? 0).map (fun z => (z.prot.baseline, z.prot.hot)) =
      some (50, false) := by decide +kernel

theorem test_capture_release :
    let e : Entry := { kind := 2, master := 0, addr := 0, detail := 1, data := 0, time := 0 }
    let s := { part (shut .resting) with ring := { entries := List.replicate 64 e, dropped := 255 } }
    (after (exec (.captureRelease 3 0x385 64) s)).ring = { entries := [], dropped := 0 } ∧
    (after (exec (.captureRelease 3 0x385 1) s)).ring.entries.length = 63 := by decide +kernel

theorem test_reload_met :
    let s := part (shut .resting)
    let busy := { s with loader := { s.loader with reload := .reloading } }
    ReachesOrder busy 3 0x386 1 6 ∧ busy.loader.reload = .reloading ∧ s.loader.reload ≠ .reloading ∧
    (after (exec (.reload 3 0x386 1) s)).loader.reload = .reloading := by decide +kernel

theorem test_resync_met :
    let s := withMirror { mirror with bankB := { mirror.bankB with state := .failed, count := 3 } }
    ReachesOrder s 3 0x387 1 7 ∧ ReachesOrder (copying 1 0 0) 3 0x387 1 7 ∧
    ReachesOrder (part (shut .resting)) 3 0x387 1 7 ∧
    s.mirror.imageLost = false ∧ (s.mirror.bank .bankB).state = .failed ∧
    (s.mirror.bank .bankA).state = .inService ∧ (copying 1 0 0).mirror.bankB.state = .resync ∧
    (after (exec (.resync 3 0x387 1) s)).mirror.source = some .bankA := by decide +kernel

/-- The part with a holder and a pending transfer. -/
def commanded (holder : Option Master) (requester : Option Master) : State :=
  { part (shut .resting) with command :=
    { mode := some .localControl, holder := holder
      transfer := requester.map fun m => { requester := m, start := 0 } } }

theorem test_transfer_met :
    (∀ n ∈ [(1 : BitVec 3), 2, 3, 4, 5],
      ReachesOrder (commanded (some 0) (some 1)) 0 0x388 (0#13 ++ n) 8 ∧
      ReachesOrder (commanded (some 0) none) 1 0x388 (0#13 ++ n) 8 ∧
      ReachesOrder (commanded none none) 1 0x388 (0#13 ++ n) 8 ∧
      ReachesOrder (commanded none none) 3 0x388 (0#13 ++ n) 8 ∧
      ReachesOrder (commanded none none) 1 0x388 (1#13 ++ n) 8) ∧
    ((commanded (some 0) (some 1)).role 0).isStation = true ∧
    ((commanded (some 0) (some 1)).role 3).isStation = false ∧
    (commanded (some 0) (some 1)).command.transfer = some { requester := 1, start := 0 } := by decide +kernel

theorem test_transfer :
    (after (exec (.transferRequest 1 0x388 0) (commanded none none))).command.holder = some 1 ∧
    (after (exec (.transferAccept 0 0x388 0) (commanded (some 0) (some 1)))).command.holder = some 1 ∧
    (after (exec (.transferDecline 0 0x388 0) (commanded (some 0) (some 1)))).command.transfer = none ∧
    (after (exec (.transferCancel 1 0x388 0) (commanded (some 0) (some 1)))).command.transfer = none ∧
    (after (exec (.transferRelinquish 0 0x388 0) (commanded (some 0) none))).command.holder = none := by
  decide +kernel

theorem test_heartbeat :
    let t := after (exec (.heartbeat 6 0x389 0x1234) (part (shut .resting)))
    ReachesOrder (part (shut .resting)) 6 0x389 0x1234 9 ∧ t.role 6 = .station (some 100) := by decide +kernel

theorem test_attach_met :
    let s := part (shut .resting)
    ReachesOrder s 2 0x38A 0x0100 10 ∧ ReachesOrder s 7 0x38A 0xFFFF 10 ∧ ReachesOrder s 3 0x38A 0x0100 10 ∧
    (0x0100 : Word) &&& 0xC000 = 0 ∧ field 0x0100 0 7 = 0 ∧ field 0x0100 7 7 = 2 ∧
    ¬ (field 0x0180 0 7 = 0 ∧ field 0x0180 7 7 = 2) ∧ (0x4100 : Word) &&& 0xC000 ≠ 0 ∧
    (shut .resting).owner = some 2 ∧ Door.blank.owner ≠ some 0 ∧ (shut .resting).inp.stale = false ∧
    (shut .resting).inp.reported = true := by
  decide +kernel

theorem test_attach :
    let t := after (exec (.attach 2 0x38A 0x0100) (part (shut .resting)))
    let u := after (exec (.attach 2 0x38A 0x0180) (part (shut .resting)))
    t.role 2 = .scanner 0 2 true ∧ (t.door? 0).map (fun z => (z.position, z.inp.reported)) = some (.unknown, false) ∧
    u.role 2 = .scanner 0 2 false ∧ (u.door? 0).map (·.inp.stale) = some true ∧
      u.path.response = some .error := by decide +kernel

/-- Door 0, its LO set, and its group after its scanner's ATTACH in DOORS_CLOSED. -/
def attached (w : Word) (drive : Drive) : Option Drive × Option Bool × Group :=
  let t := after (exec (.attach 2 0x38A w) (inMode .doorsClosed (part (silent drive 5))))
  (drive0 t, (t.door? 0).map (·.hold), t.yard.groups.get 0)

/-- An LO that the loss of sight clears falls, at a match and at a mismatch: the hold ends, an opening stops, and the slot
or the entry is left. -/
theorem test_attach_clears_lo :
    (silent .resting 5).inp.reported = true ∧ (silent .resting 5).inp.stale = false ∧
    (silent .resting 5).inp.debounced.lo = true ∧
    [(.resting, some (.recloseWait 200), []), (.moving .toOpen .localReq 150, some (.recloseWait 200), []),
      (.queued .toOpen .localReq, some .resting, []),
      (.moving .toClose .mode 150, some (.moving .toClose .mode 150), [0])].all
        (fun (drive, left, holders) =>
          attached 0x0100 drive == (left, some false, group holders []) &&
          attached 0x0180 drive == (left, some false, group holders [])) = true := by
  decide +kernel

/-! ## Reloads and the apply (O53, O54) -/

/-- The part while a reload's attempt runs. -/
def reloading (drive : Drive) : State :=
  { part (ajar drive) with loader := { reload := .reloading, lastReloadFailed := false } }

theorem test_reload_attempt_met :
    (reloading .resting).part = .running ∧ (reloading .resting).loader.reload = .reloading ∧
    (reloading (.queued .toOpen .station)).door? 0 = some (ajar (.queued .toOpen .station)) ∧
    (ajar (.queued .toOpen .station)).drive.bound = true := by decide +kernel

theorem test_faulty_reload_met : loadAttempt [] (some mirror.imageSize) = .error .noAcknowledge :=
  fault_of (by decide +kernel)

theorem test_good_reload_met : ∃ img, loadAttempt goodImage (some mirror.imageSize) = .ok img ∧
    (img.doors.length == 1) = true := good_of_settings (by decide +kernel)

theorem test_apply_met : ∀ d x, (reloading .resting).door? d = some x → x.drive.bound = false := by
  intro d x hx
  match d with
  | 0 => cases hx; rfl
  | 1 => cases hx; rfl
  | d + 2 => cases hx

theorem test_good_reload_applies :
    let t := after (exec (.reloadAttemptEnd goodImage) (reloading .resting))
    let u := after (exec (.reloadAttemptEnd goodImage) (reloading (.queued .toOpen .station)))
    t.doorCount = 1 ∧ t.loader.reload = .idle ∧ t.ring.entries.getLast?.map (fun e => (e.kind, e.detail)) = some (25, 1) ∧
      u.doorCount = 2 ∧ (u.loader.reload != .reloading) = true := by decide +kernel

theorem test_held_image_applies :
    let u := after (exec (.reloadAttemptEnd goodImage) (reloading (.queued .toOpen .station)))
    let t := after (exec .apply { u with yard := (part (ajar .resting)).yard })
    t.doorCount = 1 ∧ t.loader.reload = .idle ∧
      t.ring.entries.getLast?.map (fun e => (e.kind, e.detail)) = some (25, 2) := by decide +kernel

/-- Tables for an apply: the part's own, with door 0's static part and the masters 0 to 2 given. -/
def tables (door : DoorStatic) (holder requester scanner : RoleSetting) : Settings :=
  let m (r : RoleSetting) : MasterSetting := { role := r, behaviour := .drop }
  { timing := timing, defaultMode := .localControl, defaultHolder := none, fittedA := true, fittedB := true
    imageSize := 1024, readMap := 2
    masters := #v[m holder, m requester, m scanner, m .service, m .observer, m .absent, m .absent, m .absent]
    windows := [], rules := [], meters := Vector.replicate 8 { rate := 1, burst := 1 }
    slotCounts := #v[1, 1, 1, 1], doors := [door] }

/-- The part with a transfer pending and a slot of master 1, after the apply of tables held. -/
def applied (drive : Drive) (img : Settings) : State :=
  let s := inMode .doorsClosed { commanded (some 0) (some 1) with yard := (part (ajar drive)).yard }
  after (exec .apply { s with
    loader := { reload := .applyPending img, lastReloadFailed := false }
    path := { s.path with slots := setAt s.path.slots 1 (some { addr := 0x100, lane := .low, byte := 7 }) } })

theorem test_apply_premises_met :
    0 < timing.heartbeat ∧ (ajar .resting).inp.within 100 timing.activeLimit ∧ (ajar .resting).powered = true ∧
    GoesStale (part (ajar .resting)) (tables swing .station .station .service) (ajar .resting) ∧
    ¬ GoesStale (part (ajar .resting)) (tables swing .station .station (.scanner 0 2)) (ajar .resting) := by
  refine ⟨by decide, within_of_start rfl (by decide), by decide, ⟨rfl, Or.inl ⟨2, 0, 2, true, rfl, rfl, by decide⟩⟩, ?_⟩
  rintro ⟨-, ⟨m, f, c, auth, hm, hr, h⟩ | ⟨n, hn, h⟩⟩
  · cases hm; cases hr; exact h rfl
  · cases hn; revert h; decide

theorem test_apply_adjusts_doors_and_command :
    let keeps := applied .resting (tables swing .station .station (.scanner 0 2))
    let rests := applied (.tripped 150) (tables { swing with cls := .indicated } .service .station (.scanner 0 2))
    let stale := applied .resting (tables swing .station .observer .service)
    drive0 keeps = some (.queued .toClose .mode) ∧ keeps.command.holder = some 0 ∧
    keeps.ring.entries.map (fun e => (e.kind, e.detail, e.data)) = [(8, 2, 7), (18, 3, 1), (25, 2, 0)] ∧
    drive0 rests = some .resting ∧ rests.command.holder = some 1 ∧
    rests.ring.entries.map (fun e => (e.kind, e.detail, e.data)) = [(8, 2, 7), (17, 8, 1), (25, 2, 0)] ∧
    (stale.door? 0).map (fun z => (z.inp.stale, z.position, z.drive)) = some (true, .unknown, .resting) ∧
    stale.ring.entries.map (fun e => (e.kind, e.detail, e.data)) = [(8, 2, 7), (18, 5, 1), (25, 2, 0)] ∧
    stale.lines.doorsNotClosed = true := by decide +kernel

/-- A part with no door bound anywhere meets the laws of the groups. -/
theorem test_apply_groups_met : (part (ajar .resting)).yard.arbiterLawful := by
  refine ⟨by decide, ?_, ?_, by decide, ?_, ?_⟩
  · intro g d
    have h : ((part (ajar .resting)).yard.groups.get g).holders = [] := by
      revert g; decide
    rw [h]
    constructor
    · intro hd; cases hd
    · rintro ⟨x, hx, hc, hs⟩
      match d with
      | 0 => cases hx; cases hs
      | 1 => cases hx; cases hc
      | d + 2 => cases hx
  · intro g d
    have h : ((part (ajar .resting)).yard.groups.get g).queue = [] := by
      revert g; decide
    rw [h]
    constructor
    · intro hd; cases hd
    · rintro ⟨x, hx, hc, hs⟩
      match d with
      | 0 => cases hx; cases hs
      | 1 => cases hx; cases hc
      | d + 2 => cases hx
  · intro g; revert g; decide
  · intro d x hx hc
    match d with
    | 0 => cases hx; cases hc
    | 1 => cases hx; exact Or.inl rfl
    | d + 2 => cases hx

/-- The doors an apply queues join in door-number order, after one whose change of position has queued it. -/
theorem test_apply_joins_in_door_order :
    let queue (p : Position) : List Nat :=
      let x := { ajar .resting with position := p }
      let t := after (exec .apply { inMode .doorsClosed (part (ajar .resting)) with
        yard := { (part (ajar .resting)).yard with doors := [ajar .resting, x] }
        loader :=
          { reload := .applyPending { tables swing .station .station (.scanner 0 2) with doors := [swing, swing] }
            lastReloadFailed := false } })
      (t.yard.groups.get 0).queue
    queue .opened = [0, 1] ∧ queue .closed = [1, 0] := by decide +kernel

/-- An apply that adds doors: the first door beyond the part's two has a new record. -/
theorem test_added_door_met :
    let img := { tables swing .station .station (.scanner 0 2) with doors := [swing, swing, swing] }
    let t := applied .resting img
    (part (ajar .resting)).doorCount ≤ 2 ∧ 0 < img.timing.idleLimit ∧ t.doorCount = 3 ∧
    (t.door? 2).map (fun z => (z.inp.freshness, z.prot.baseline, z.position)) = some (some 100, 50, .unknown) := by
  decide +kernel

/-- An apply under a new flash pattern, while the line flashes. -/
theorem test_apply_begins_the_on_phase :
    let img := tables swing .station .observer .service
    let flashes (period : Nat) : State := after (exec .apply { part (ajar .resting) with
      lines := { (part (ajar .resting)).lines with generalAlarm := .flashing false 103 }
      loader :=
        { reload := .applyPending { img with timing := { timing with flashPeriod := period } }
          lastReloadFailed := false } })
    (flashes 10).lines.generalAlarm = .flashing false 103 ∧
    (flashes 12).lines.generalAlarm = .flashing true 104 := by decide +kernel

/-! ## Timers of stations, lines and meters (O55) -/

/-- The part at the moment the stations' heartbeat timers expire. -/
def unheard (holder requester : Option Master) : State := { commanded holder requester with clock := 115 }

theorem test_lapse_met :
    (unheard (some 0) (some 1)).role 0 = .station (some 95) ∧
    95 + (unheard (some 0) (some 1)).times.heartbeat ≤ (unheard (some 0) (some 1)).clock ∧
    (unheard (some 0) (some 1)).command.holder ≠ some 1 ∧
    (unheard (some 0) none).command.transfer = none ∧
    (unheard (some 0) (some 1)).command.transfer = some { requester := 1, start := 0 } ∧
    0 + (unheard (some 0) (some 1)).times.transfer ≤ (unheard (some 0) (some 1)).clock := by decide +kernel

theorem test_lapse :
    (after (exec (.heartbeatExpiry 0) (unheard (some 0) (some 1)))).command.holder = some 1 ∧
    (after (exec (.heartbeatExpiry 1) (unheard (some 0) (some 1)))).command.transfer = none ∧
    (after (exec (.heartbeatExpiry 0) (unheard (some 0) none))).command.holder = none ∧
    (after (exec (.heartbeatExpiry 1) (unheard (some 0) none))).ring.entries.map (·.detail) = [0] ∧
    (after (exec .transferTimerExpiry (unheard (some 0) (some 1)))).ring.entries.map (·.detail) = [3] := by
  decide +kernel

/-- The part with its GENERAL_ALARM line flashing. -/
def flashing (on : Bool) : State :=
  { part (shut .resting) with lines := { (part (shut .resting)).lines with generalAlarm := .flashing on 100 } }

theorem test_flash_met :
    (flashing true).lines.generalAlarm = .flashing true 100 ∧ 100 ≤ (flashing true).clock ∧
    (after (exec .flashPhaseExpiry (flashing true))).lines.generalAlarm = .flashing false 106 ∧
    (after (exec .flashPhaseExpiry (flashing false))).lines.generalAlarm = .flashing true 104 := by decide +kernel

theorem test_refill_met :
    let s := { part (shut .resting) with clock := 101 }
    let r := s.meters.get 7
    0 < r.rate ∧ r.start + 10 * (r.refills + 1) / r.rate ≤ s.clock ∧
    ((after (exec (.refillInstant 7) s)).meters.get 7).refills = 202 ∧
    (after (exec (.refillInstant 7) (part (shut .resting)))).meters = (part (shut .resting)).meters := by
  decide +kernel

/-! ## Laws (O56 to O60): a state that a step leads on from and that meets them -/

theorem test_laws_met :
    (part (shut .resting)).ring.lawful ∧ (part (shut .resting)).portLawful ∧
    (part (shut .resting)).mirror.canonical ∧ (part (shut .resting)).commandLawful :=
  ⟨⟨by decide, by decide⟩, Or.inl rfl, ⟨by decide, by decide⟩, by
    constructor
    · intro h e
      cases e
      rfl
    · intro t e
      cases e⟩

theorem test_mirror_law_met : (copying 1023 0 0).mirror.lawful .running where
  counts := by decide
  copyToB := by decide
  copyToA := by decide
  source := by decide
  cursor := by decide
  image := by decide
  lost := by decide

theorem test_trip_law_met : (part (shut .resting)).tripLawful := by
  intro d x hx
  match d with
  | 0 => cases hx; decide
  | 1 => cases hx; decide
  | d + 2 => cases hx

theorem test_inhibit_law_met :
    (part { ajar (.moving .toOpen .localReq 150) with inhibit := .stalled }).inhibitLawful := by
  intro d x hx hi
  match d with
  | 0 =>
    cases hx
    refine ⟨fun _ _ e => ?_, fun _ e => ?_, fun _ e => (Option.some.inj e).symm⟩
    · cases e
    · cases e
  | 1 => cases hx; exact absurd rfl hi
  | d + 2 => cases hx

theorem test_dormant_law_met :
    let s := { portIn .transparent (.waiting someRead .transparent) with yard := Yard.blank }
    s.part ≠ .running ∧ s.dormant :=
  ⟨by decide, fun _ => ⟨rfl, rfl, fun _ _ e => by cases e; rfl⟩⟩

theorem test_position_law_met : (part (shut .resting)).positionLawful := by
  refine ⟨?_, fun _ e => nomatch e⟩
  intro d x hx
  match d with
  | 0 => cases hx; decide
  | 1 => cases hx; decide
  | d + 2 => cases hx

end Sys2Proof.Tests
end

section
/-! SUPPORT. The loss of sight of a door (R14): what FRESHNESS_EXPIRY leaves of the door and of its group. -/

namespace Sys2Proof.Machine

/-! ## An LO fall at a position of UNKNOWN (R39) -/

/-- R39: an LO fall changes the drive state of a POWERED door that is not closing, and begins no closing run. -/
theorem loFallDrive_moves {e : Env} {x : Door} {new : Drive} (h : loFallDrive e x = some new) :
    x.drive.closingRun = false ∧ new.closingRun = false ∧ new ≠ x.drive := by
  unfold loFallDrive at h
  split at h
  · cases h
  · split at h
    · next hd => cases h; simp [hd, Drive.closingRun]
    · next hd => cases h; split <;> simp [hd, Drive.closingRun]
    · next hd =>
      split at h
      · cases h; simp [hd, Drive.closingRun]
      · cases h
    · cases h

theorem Env.doorsClosed_iff {s : State} : s.env.doorsClosed = true ↔ s.command.mode = some .doorsClosed := by
  simp [Env.doorsClosed, State.env]

/-- R39: what an LO fall does, drive state by drive state: an opening stops, a held door waits to reclose. -/
theorem loFallDrive_queued_open {e : Env} {x : Door} {o : Origin} (hp : x.powered = true)
    (hd : x.drive = .queued .toOpen o) : loFallDrive e x = some .resting := by
  simp only [loFallDrive, hp, hd, Bool.not_true, Bool.false_eq_true, if_false]

theorem loFallDrive_moving_open {s : State} {x : Door} {o : Origin} {tr : Nat} (hp : x.powered = true)
    (hd : x.drive = .moving .toOpen o tr) : loFallDrive s.env x =
      some (if s.command.mode = some .doorsClosed then .recloseWait (s.clock + s.times.reclose) else .resting) := by
  simp only [loFallDrive, hp, hd, Bool.not_true, Bool.false_eq_true, if_false, Env.doorsClosed_iff]
  rfl

theorem loFallDrive_resting {s : State} {x : Door} (hp : x.powered = true) (hd : x.drive = .resting) :
    loFallDrive s.env x = if s.command.mode = some .doorsClosed ∧ x.hold = true then
      some (.recloseWait (s.clock + s.times.reclose)) else none := by
  simp only [loFallDrive, hp, hd, Bool.not_true, Bool.false_eq_true, if_false, Bool.and_eq_true, Env.doorsClosed_iff]
  rfl

/-- R39: the drive states that an LO fall leaves alone. -/
inductive Drive.Unmoved : Drive → Prop
  | queued (o : Origin) : Unmoved (.queued .toClose o)
  | warning (o : Origin) (prewarn : Nat) : Unmoved (.warning o prewarn)
  | moving (o : Origin) (travel : Nat) : Unmoved (.moving .toClose o travel)
  | recloseWait (reclose : Nat) : Unmoved (.recloseWait reclose)
  | tripped (retry : Nat) : Unmoved (.tripped retry)
  | isolated : Unmoved .isolated

/-- R39: the drive states that an LO fall acts on, and those it leaves alone. -/
theorem Drive.fall_cases (drive : Drive) : (∃ o, drive = .queued .toOpen o) ∨
    (∃ o tr, drive = .moving .toOpen o tr) ∨ drive = .resting ∨ drive.Unmoved := by
  cases drive with
  | resting => exact .inr (.inr (.inl rfl))
  | queued dir o =>
    cases dir with
    | toOpen => exact .inl ⟨o, rfl⟩
    | toClose => exact .inr (.inr (.inr (.queued o)))
  | warning o prewarn => exact .inr (.inr (.inr (.warning o prewarn)))
  | moving dir o tr =>
    cases dir with
    | toOpen => exact .inr (.inl ⟨o, tr, rfl⟩)
    | toClose => exact .inr (.inr (.inr (.moving o tr)))
  | recloseWait reclose => exact .inr (.inr (.inr (.recloseWait reclose)))
  | tripped retry => exact .inr (.inr (.inr (.tripped retry)))
  | isolated => exact .inr (.inr (.inr .isolated))

/-- R39: a door bound to close goes on as it was. -/
theorem Drive.unmoved_of_closing {drive : Drive} (h : drive.direction = some .toClose) : drive.Unmoved := by
  rcases drive.fall_cases with ⟨o, rfl⟩ | ⟨o, tr, rfl⟩ | rfl | hu
  · cases h
  · cases h
  · cases h
  · exact hu

theorem loFallDrive_unmoved {e : Env} {x : Door} (h : x.drive.Unmoved) : loFallDrive e x = none := by
  unfold loFallDrive
  split
  · rfl
  · generalize x.drive = drive at h ⊢
    cases h <;> rfl

theorem sightlessFalls_unmoved {s : State} {x : Door} (h : x.drive.Unmoved) : sightlessFalls s x = x.drive := by
  unfold sightlessFalls
  split
  · rfl
  · generalize x.drive = drive at h ⊢
    cases h <;> rfl

/-- R39: the same of the statements' account of a door that has lost sight. -/
theorem sightlessFalls_queued_open {s : State} {x : Door} {o : Origin} (hp : x.powered = true)
    (hd : x.drive = .queued .toOpen o) : sightlessFalls s x = .resting := by
  simp only [sightlessFalls, hp, hd, Bool.true_eq_false, if_false]

theorem sightlessFalls_moving_open {s : State} {x : Door} {o : Origin} {tr : Nat} (hp : x.powered = true)
    (hd : x.drive = .moving .toOpen o tr) : sightlessFalls s x =
      if s.command.mode = some .doorsClosed then .recloseWait (s.clock + s.times.reclose) else .resting := by
  simp only [sightlessFalls, hp, hd, Bool.true_eq_false, if_false]

theorem sightlessFalls_resting {s : State} {x : Door} (hp : x.powered = true) (hd : x.drive = .resting) :
    sightlessFalls s x = if s.command.mode = some .doorsClosed ∧ x.hold = true then
      .recloseWait (s.clock + s.times.reclose) else .resting := by
  simp only [sightlessFalls, hp, hd, Bool.true_eq_false, if_false]

theorem sightlessFalls_indicated {s : State} {x : Door} (hp : x.powered = false) :
    sightlessFalls s x = x.drive := if_pos hp

/-- R39: where an LO fall takes a door that has lost sight, whether its drive state changes or not. -/
theorem loFallDrive_sightless (s : State) (x : Door) :
    (loFallDrive s.env x).getD x.drive = sightlessFalls s x := by
  cases hp : x.powered with
  | false => simp only [loFallDrive, sightlessFalls_indicated hp, hp, Bool.not_false, if_true, Option.getD_none]
  | true =>
    rcases x.drive.fall_cases with ⟨o, hd⟩ | ⟨o, tr, hd⟩ | hd | hd
    · rw [loFallDrive_queued_open hp hd, sightlessFalls_queued_open hp hd, Option.getD_some]
    · rw [loFallDrive_moving_open hp hd, sightlessFalls_moving_open hp hd, Option.getD_some]
    · rw [loFallDrive_resting hp hd, sightlessFalls_resting hp hd]
      by_cases hc : s.command.mode = some .doorsClosed ∧ x.hold = true
      · rw [if_pos hc, if_pos hc, Option.getD_some]
      · rw [if_neg hc, if_neg hc, Option.getD_none, hd]
    · rw [loFallDrive_unmoved hd, sightlessFalls_unmoved hd, Option.getD_none]

/-! ## The door that becomes stale (R14) -/

/-- R14, R75: a door whose LO fall changes its drive state leaves its group as it becomes stale. -/
theorem Yard.goStale_falls {y : Yard} {e : Env} {d : Nat} {x : Door} {new : Drive}
    (hx : y.doors[d]? = some x) (hs : x.inp.stale = false) (hlo : x.inp.debounced.lo = true)
    (hn : loFallDrive e x = some new) :
    (y.goStale e d).doors[d]? = some { x.gonestale with drive := new } ∧
      ∀ g, x.st.cls = .powered g → (y.goStale e d).groups.get g =
        { y.groups.get g with
          holders := (y.groups.get g).holders.filter (· != d)
          queue := (y.groups.get g).queue.filter (· != d) } := by
  obtain ⟨hslot, hqueued, -⟩ := loFallDrive_idle hn
  obtain ⟨hrun, hrun', -⟩ := loFallDrive_moves hn
  unfold Yard.goStale Yard.changeStopped
  simp only [hx, hs, hlo, hn, Bool.false_eq_true, if_false, if_true, Yard.modify_get_same, Option.map_some,
    Yard.runTake_eq, Yard.arbiterTake_doors]
  refine ⟨?_, fun g hg => ?_⟩
  · simp [Protection.runTake, Door.positionLost, Door.gonestale, hrun, hrun', hlo]
  · exact (Yard.arbiterTake_own _ _ _ _ _ hg).trans
      (by rw [updateHolders_leave hslot, Yard.updateQueue_leave _ _ _ hqueued]; rfl)

/-- R14: where a door that becomes stale goes. -/
def Door.staleDrive (s : State) (x : Door) : Drive :=
  if x.inp.debounced.lo then sightlessFalls s x else x.drive

/-- R14, R39, R71, R75: the record of a door that becomes stale, and its group. -/
theorem Yard.goStale_result {s : State} {d : Nat} {x : Door} (hx : s.door? d = some x)
    (hs : x.inp.stale = false) :
    let y := s.yard.goStale s.env d
    y.doors[d]? = some { x.gonestale with drive := x.staleDrive s } ∧
      (x.staleDrive s = x.drive → y.groups = s.yard.groups) ∧
      (x.staleDrive s ≠ x.drive → ∀ g, x.st.cls = .powered g → y.groups.get g =
        { s.yard.groups.get g with
          holders := (s.yard.groups.get g).holders.filter (· != d)
          queue := (s.yard.groups.get g).queue.filter (· != d) }) := by
  have hx' : s.yard.doors[d]? = some x := hx
  by_cases hq : x.staleQuiet s.env
  · have stays : x.staleDrive s = x.drive := by
      rcases hq with hlo | hnone
      · simp [Door.staleDrive, hlo]
      · simp [Door.staleDrive, ← loFallDrive_sightless, hnone]
    have hy := Yard.goStale_quiet hx' hs hq
    refine ⟨?_, fun _ => by rw [hy]; rfl, fun h => absurd stays h⟩
    rw [hy, stays, Yard.modify_get_same, hx']
    rfl
  · obtain ⟨hlo, hsome⟩ := not_or.mp hq
    obtain ⟨new, hn⟩ := Option.ne_none_iff_exists'.mp hsome
    have goes : x.staleDrive s = new := by
      simp [Door.staleDrive, ← loFallDrive_sightless, hn, hlo]
    obtain ⟨hdoor, hgroup⟩ := Yard.goStale_falls hx' hs (by simpa using hlo) hn
    obtain ⟨-, -, hne⟩ := loFallDrive_moves hn
    rw [goes]
    exact ⟨hdoor, fun h => absurd h hne, fun _ => hgroup⟩

/-- R14: the timer that expires has stopped with the door's becoming stale. -/
theorem Yard.freshnessExpiry_result {s : State} {d : Nat} {x : Door} (hx : s.door? d = some x)
    (hs : x.inp.stale = false) :
    (s.yard.freshnessExpiry s.env d).doors[d]? = some { x.gonestale with drive := x.staleDrive s } := by
  unfold Yard.freshnessExpiry
  rw [Yard.modify_get_same, (Yard.goStale_result hx hs).1]
  rfl

theorem exec_freshnessExpiry_due {s : State} {d start : Nat} {x : Door} (hx : s.door? d = some x)
    (hf : x.inp.freshness = some start)
    (hdue : start + (if x.drive.bound then s.times.activeLimit else s.times.idleLimit) ≤ s.clock) :
    exec (.freshnessExpiry d) s = .next (s.doorTake (fun y e => y.freshnessExpiry e d) []) := by
  show execFreshnessExpiry d s = _
  unfold execFreshnessExpiry
  rw [State.doorTimer_some hx, Door.freshnessAt, hf, Option.map_some, State.atExpiry_due hdue]

/-- Settles O36: the exact record and group of the door that becomes stale, read off clause by clause. -/
theorem freshnessExpiryMakesTheDoorStale : Obligations.FreshnessExpiryMakesTheDoorStale := by
  unfold Obligations.FreshnessExpiryMakesTheDoorStale
  intro s d x start hx hs hf hdue wait closed
  obtain ⟨-, stands, leaves⟩ := Yard.goStale_result hx hs
  refine ⟨_, exec_freshnessExpiry_due hx hf hdue, State.oneDoor_doorTake (Yard.calm_freshnessExpiry _ _ _),
    State.doorTake_ring _ _ _, fun hlo => ?_, ?_⟩
  · exact stands (by simp [Door.staleDrive, hlo])
  · refine (State.doorTake_door (Yard.freshnessExpiry_result hx hs)).mono fun z hz => ?_
    have hdrive : z.drive = x.staleDrive s := by rw [hz]
    refine ⟨by rw [hz]; rfl, by rw [hz]; rfl, by rw [hz]; rfl, by rw [hz]; rfl, by rw [hz]; rfl, ?_, ?_, ?_, ?_, ?_,
      ?_, ?_, ?_⟩
    · rw [hz]
      simp only [Door.gonestale, Door.positionLost, Protection.cancelSettle]
      split <;> rfl
    · intro hlo
      simp [hdrive, Door.staleDrive, hlo]
    · intro hdir
      simp [hdrive, Door.staleDrive, sightlessFalls_unmoved (Drive.unmoved_of_closing hdir)]
    · intro hwaits
      have stays : x.drive.Unmoved := by
        rcases hwaits with ⟨r, h⟩ | ⟨r, h⟩ | h
        · rw [h]; exact .recloseWait r
        · rw [h]; exact .tripped r
        · rw [h]; exact .isolated
      simp [hdrive, Door.staleDrive, sightlessFalls_unmoved stays]
    · intro hp
      simp [hdrive, Door.staleDrive, sightlessFalls_indicated hp]
    · rw [hdrive]
      exact stands
    · rw [hdrive]
      exact fun h => State.leavesGroup_of (leaves h)
    · intro hlo hp
      have hfalls : z.drive = sightlessFalls s x := by simp [hdrive, Door.staleDrive, hlo]
      refine ⟨fun o hd => ?_, fun o tr hd => ?_, fun hd => ?_⟩
      · rw [hfalls, sightlessFalls_queued_open hp hd]
      · rw [hfalls, sightlessFalls_moving_open hp hd]
      · rw [hfalls, sightlessFalls_resting hp hd]

end Sys2Proof.Machine
end

section
/-! SUPPORT. What the inputs of a door deliver (R12), step by step: the door's exact record and its group after a change
of drive state, the enforcement check, a local request, a change of position. -/

namespace Sys2Proof.Machine

/-! ## A door's group, from one drive state to the next (R66 to R71, R75) -/

/-- R66 to R71, R75: the record of a door's group after its drive state has gone from `old` to `new`. -/
def Yard.followed (y : Yard) (d : Nat) (old new : Drive) (r : Group) : Group :=
  { slotCount := r.slotCount
    holders := if new.hasSlot then r.holders else r.holders.filter (· != d)
    queue :=
      if new.isQueued then
        if old.isQueued && old.queueClass == new.queueClass then r.queue
        else y.enqueue new.queueClass d (r.queue.filter (· != d))
      else r.queue.filter (· != d) }

/-- R66, R67: a door is in its group's lists as its drive state says. -/
structure Group.Shows (r : Group) (d : Nat) (drive : Drive) : Prop where
  queue : d ∈ r.queue ↔ drive.isQueued = true
  holders : d ∈ r.holders ↔ drive.hasSlot = true

/-- A drive state between two others: an entry that has one class before and after has not left it in between. -/
def Drive.between (old mid new : Drive) : Prop :=
  new.isQueued = true → old.isQueued = true → old.queueClass = new.queueClass →
    mid.isQueued = true ∧ mid.queueClass = old.queueClass

theorem Drive.between_refl (old new : Drive) : Drive.between old old new := fun _ h _ => ⟨h, rfl⟩

theorem Drive.between_last (old new : Drive) : Drive.between old new new := fun h _ hc => ⟨h, hc.symm⟩

theorem Drive.between_of_idle {old mid new : Drive} (h : new.isQueued = false) : Drive.between old mid new :=
  fun hn => by rw [h] at hn; cases hn

/-- R67: class 1 is the closes. -/
theorem Drive.queueClass_eq_one {drive : Drive} : drive.queueClass = 1 ↔ ∃ o, drive = .queued .toClose o := by
  unfold Drive.queueClass
  split
  · simp
  · simp
  · next h _ => simpa using h

/-- An entry placed in a queue is all that the queue gains. -/
theorem Yard.filter_enqueue (y : Yard) (cls d : Nat) (l : List Nat) :
    (y.enqueue cls d (l.filter (· != d))).filter (· != d) = l.filter (· != d) := by
  unfold Yard.enqueue
  rw [List.filter_append, List.filter_cons_of_neg (by simp), ← List.filter_append,
    List.takeWhile_append_dropWhile, List.filter_filter]
  simp

theorem Yard.followed_others (y : Yard) (d : Nat) (old new : Drive) (r : Group) :
    (y.followed d old new r).queue.filter (· != d) = r.queue.filter (· != d) ∧
      (y.followed d old new r).holders.filter (· != d) = r.holders.filter (· != d) := by
  have twice : ∀ l : List Nat, (l.filter (· != d)).filter (· != d) = l.filter (· != d) := fun l => by
    rw [List.filter_filter]; simp
  simp only [Yard.followed]
  refine ⟨?_, ?_⟩
  · split
    · split
      · rfl
      · exact y.filter_enqueue _ _ _
    · exact twice _
  · split
    · rfl
    · exact twice _

theorem Yard.followed_shows {y : Yard} {d : Nat} {old new : Drive} {r : Group} (h : r.Shows d old)
    (hs : new.hasSlot = true → old.hasSlot = true) : (y.followed d old new r).Shows d new := by
  unfold Yard.followed
  refine ⟨?_, ?_⟩
  · simp only
    split
    · next hn =>
      split
      · next ho =>
        simp only [Bool.and_eq_true] at ho
        simp [hn, h.queue, ho.1]
      · simp [hn, Yard.mem_enqueue]
    · next hn => simp [hn]
  · simp only
    split
    · next hn => simp [hn, h.holders, hs hn]
    · next hn => simp [hn]

/-- A door whose drive state stands leaves its group as it is. -/
theorem Yard.followed_same {y : Yard} {d : Nat} {drive : Drive} {r : Group} (h : r.Shows d drive) :
    y.followed d drive drive r = r := by
  have hq : drive.isQueued = false → r.queue.filter (· != d) = r.queue := fun hn =>
    filter_ne_of_not_mem (by rw [h.queue, hn]; simp)
  have hh : drive.hasSlot = false → r.holders.filter (· != d) = r.holders := fun hn =>
    filter_ne_of_not_mem (by rw [h.holders, hn]; simp)
  have queue_stands : (y.followed d drive drive r).queue = r.queue := by
    cases hn : drive.isQueued with
    | true => simp [Yard.followed, hn]
    | false => simp only [Yard.followed, hn, Bool.false_eq_true, if_false, hq hn]
  have holders_stand : (y.followed d drive drive r).holders = r.holders := by
    cases hs : drive.hasSlot with
    | true => simp [Yard.followed, hs]
    | false => simp only [Yard.followed, hs, Bool.false_eq_true, if_false, hh hs]
  calc y.followed d drive drive r
      = { slotCount := r.slotCount, holders := (y.followed d drive drive r).holders
          queue := (y.followed d drive drive r).queue } := rfl
    _ = r := by rw [queue_stands, holders_stand]

/-- Two changes of drive state are one, where the last lets a door into no slot and the state between keeps an entry. -/
theorem Yard.followed_followed {y y' : Yard} {d : Nat} {old mid new : Drive} {r : Group}
    (hy : ∀ k, k ≠ d → y'.classOf k = y.classOf k) (hs : new.hasSlot = true → mid.hasSlot = true)
    (hb : Drive.between old mid new) :
    y'.followed d mid new (y.followed d old mid r) = y.followed d old new r := by
  obtain ⟨hqueue, hholders⟩ := y.followed_others d old mid r
  have henq : ∀ l : List Nat, y'.enqueue new.queueClass d (l.filter (· != d)) =
      y.enqueue new.queueClass d (l.filter (· != d)) := fun l =>
    Yard.enqueue_congr _ _ fun a ha => hy a (by rintro rfl; exact not_mem_filter_ne _ _ ha)
  rw [Yard.followed, hqueue, hholders, henq, Yard.followed, Yard.followed]
  congr 1
  · cases hn : new.hasSlot with
    | false => rfl
    | true => simp [hs hn]
  · cases hn : new.isQueued with
    | false => rfl
    | true =>
      by_cases hm : mid.isQueued = true ∧ mid.queueClass = new.queueClass
      · simp [hm]
      · have hold : ¬ (old.isQueued = true ∧ old.queueClass = new.queueClass) := fun ⟨ho, hc⟩ =>
          hm ⟨(hb hn ho hc).1, (hb hn ho hc).2.trans hc⟩
        simp [hm, hold]

/-! ## Operations at one door, with the record they leave -/

/-- An operation at a door of record `x` leaves it as `z` and every other door as it was; the door's group follows the
drive state, and no slot is entered. -/
structure Yard.Takes (d : Nat) (x z : Door) (y y' : Yard) : Prop where
  door : y'.doors[d]? = some z
  others : ∀ k, k ≠ d → y'.doors[k]? = y.doors[k]?
  static : z.static = x.static
  slot : z.drive.hasSlot = true → x.drive.hasSlot = true
  group : ∀ g, x.st.cls = .powered g → (y.groups.get g).Shows d x.drive →
    y'.groups.get g = y.followed d x.drive z.drive (y.groups.get g)

theorem Yard.Takes.trans {d : Nat} {x z w : Door} {y y' y'' : Yard} (h : Yard.Takes d x z y y')
    (k : Yard.Takes d z w y' y'') (hb : Drive.between x.drive z.drive w.drive) : Yard.Takes d x w y y'' where
  door := k.door
  others j hj := (k.others j hj).trans (h.others j hj)
  static := k.static.trans h.static
  slot hs := h.slot (k.slot hs)
  group g hg hr := by
    have hy : ∀ j, j ≠ d → y'.classOf j = y.classOf j := fun j hj => by
      unfold Yard.classOf; rw [h.others j hj]
    have first := h.group g hg hr
    have second := k.group g (by rw [Door.st_congr h.static]; exact hg)
      (by rw [first]; exact Yard.followed_shows hr h.slot)
    rw [second, first, Yard.followed_followed hy k.slot hb]

/-- A change of a record that keeps its static part and drive state. -/
theorem Yard.takes_modify {d : Nat} {x z : Door} {y : Yard} {f : Door → Door} (hx : y.doors[d]? = some x)
    (hf : f x = z) (hst : z.static = x.static) (hd : z.drive = x.drive) : Yard.Takes d x z y (y.modify d f) where
  door := by rw [Yard.modify_get_same, hx, ← hf]; rfl
  others _ hk := Yard.modify_get_ne y f hk
  static := hst
  slot h := by rw [← hd]; exact h
  group g _ hr := by rw [hd, Yard.followed_same hr]; rfl

theorem Yard.takes_refl {d : Nat} {x : Door} {y : Yard} (hx : y.doors[d]? = some x) : Yard.Takes d x x y y where
  door := hx
  others _ _ := rfl
  static := rfl
  slot h := h
  group _ _ hr := (Yard.followed_same hr).symm

/-- An operation after a change of the record. -/
theorem Yard.Takes.after_modify {d : Nat} {x z w : Door} {y y' : Yard} {f : Door → Door}
    (k : Yard.Takes d z w (y.modify d f) y') (hx : y.doors[d]? = some x) (hf : f x = z)
    (hst : z.static = x.static) (hd : z.drive = x.drive) : Yard.Takes d x w y y' :=
  (Yard.takes_modify hx hf hst hd).trans k (by rw [hd]; exact Drive.between_refl _ _)

/-! ## A change of drive state (R22) -/

theorem InputPart.inTouch.within {e : Env} {i : InputPart} (h : i.inTouch e) (drive : Drive) :
    i.within e.clock (e.freshnessLimit drive) := by
  unfold Env.freshnessLimit
  split
  · exact h.1
  · exact h.2

/-- R52: the protection part of a door whose drive state goes from `old` to `new` without completing a run. -/
def Protection.moved (p : Protection) (old new : Drive) : Protection :=
  if old.closingRun = new.closingRun then p else p.noRun

theorem Protection.runTake_moved (p : Protection) (e : Env) (old new : Drive) :
    p.runTake e old new false = p.moved old new := by
  unfold Protection.runTake Protection.moved
  cases old.closingRun <;> cases new.closingRun <;> rfl

/-- R22 step 3 asks of a new drive state whether it is a closing run. -/
theorem Protection.runTake_congr (p : Protection) (e : Env) (old : Drive) {new new' : Drive} (c : Bool)
    (h : new.closingRun = new'.closingRun) : p.runTake e old new c = p.runTake e old new' c := by
  simp only [Protection.runTake, h]

theorem Protection.moved_same {p : Protection} {old new : Drive} (h : old.closingRun = new.closingRun) :
    p.moved old new = p := if_pos h

/-- Two such changes are one, where the state between is in a run with the state before or with the one after. -/
theorem Protection.moved_moved {p : Protection} {old mid new : Drive}
    (h : mid.closingRun = old.closingRun ∨ mid.closingRun = new.closingRun) :
    (p.moved old mid).moved mid new = p.moved old new := by
  rcases h with h | h
  · rw [Protection.moved_same h.symm]; simp only [Protection.moved, h]
  · rw [Protection.moved_same h]; simp only [Protection.moved, h]

theorem Yard.takes_changeDrive {y : Yard} {e : Env} {d : Nat} {x : Door} {new : Drive} (c : Bool)
    (hx : y.doors[d]? = some x) (ht : x.inp.inTouch e) (hs : new.hasSlot = true → x.drive.hasSlot = true) :
    Yard.Takes d x { x with drive := new, prot := x.prot.runTake e x.drive new c } y (y.changeDrive e d new c) where
  door := Yard.changeDrive_within_door hx (.inr (ht.within new))
  others := (Yard.calm_changeDrive y e d new c).others
  static := rfl
  slot := hs
  group g hg hr := by
    rw [Yard.changeDrive_own hx (.inr (.inl (ht.within new))) hg, Yard.followed]
    congr 1
    · cases hn : new.hasSlot with
      | false => simp [updateHolders_leave hn]
      | true => simp [updateHolders_stay hn (hr.holders.mpr (hs hn))]
    · unfold Yard.updateQueue
      rw [Yard.enqueue_modify _ _ _ _ (not_mem_filter_ne _ _)]

/-- The same of a change that completes no run. -/
theorem Yard.takes_move {y : Yard} {e : Env} {d : Nat} {x : Door} {new : Drive}
    (hx : y.doors[d]? = some x) (ht : x.inp.inTouch e) (hs : new.hasSlot = true → x.drive.hasSlot = true) :
    Yard.Takes d x { x with drive := new, prot := x.prot.moved x.drive new } y (y.changeDrive e d new false) := by
  rw [← Protection.runTake_moved _ e]
  exact Yard.takes_changeDrive false hx ht hs

/-! ## The enforcement check (R41) -/

/-- R41: where the enforcement check takes a door that has come to rest. -/
def Door.restDrive (s : State) (x : Door) : Drive :=
  if Enforced s x x.hold then .queued .toClose .mode else .resting

theorem Door.restDrive_idle (s : State) (x : Door) :
    (x.restDrive s).hasSlot = false ∧ (x.restDrive s).closingRun = false := by
  unfold Door.restDrive; split <;> exact ⟨rfl, rfl⟩

theorem Door.restDrive_resting {s : State} {x : Door} (h : ¬ Enforced s x x.hold) : x.restDrive s = .resting :=
  if_neg h

/-- R41: the check of a RESTING door. -/
theorem Yard.takes_enforce {y : Yard} {s : State} {d : Nat} {x : Door} (hx : y.doors[d]? = some x)
    (ht : x.inp.inTouch s.env) (hd : x.drive = .resting) :
    Yard.Takes d x { x with drive := x.restDrive s } y (y.enforce s.env d) := by
  unfold Door.restDrive
  by_cases he : Enforced s x x.hold
  · rw [if_pos he, Yard.enforce_queues hx (Door.enforceable_iff.mpr ⟨he, hd⟩)]
    have h := Yard.takes_move (new := .queued .toClose .mode) hx ht (by simp [Drive.hasSlot])
    rwa [Protection.moved_same (by rw [hd]; rfl)] at h
  · rw [if_neg he, Yard.enforce_passes hx (by simp [← Bool.not_eq_true, Door.enforceable_iff, he]), ← hd]
    exact Yard.takes_refl hx

/-- R20, R41: a door brought to rest, where the check does not queue it again in the class it left. -/
theorem Yard.takes_rest {y : Yard} {s : State} {d : Nat} {x : Door} (c : Bool) (hx : y.doors[d]? = some x)
    (ht : x.inp.inTouch s.env) (hq : Enforced s x x.hold → x.drive.queueClass ≠ 1) :
    Yard.Takes d x
      { x with drive := x.restDrive s, prot := x.prot.runTake s.env x.drive (x.restDrive s) c } y
      (y.rest s.env d c) := by
  rw [Protection.runTake_congr _ _ _ (new' := .resting) c (x.restDrive_idle s).2]
  have stops := Yard.takes_changeDrive (new := .resting) c hx ht (by simp [Drive.hasSlot])
  refine stops.trans (Yard.takes_enforce stops.door ht rfl) ?_
  intro hn _ hc
  by_cases he : Enforced s x x.hold
  · have hr : x.restDrive s = .queued .toClose .mode := if_pos he
    exact absurd (hc.trans (congrArg Drive.queueClass hr)) (hq he)
  · have hr : x.restDrive s = .resting := if_neg he
    exact absurd ((congrArg Drive.isQueued hr).symm.trans hn) (by simp [Drive.isQueued])

/-! ## Local requests (R23 to R27, R37, R38) -/

/-- R23, R25 to R27: a request of origin LOCAL of a door not at its target. -/
theorem requestedDrive_local {s : State} {x : Door} {dir : Direction} (h : x.drive ≠ .isolated) :
    requestedDrive s.env x dir .localReq = some (localBinds s x dir x.drive) := by
  have origin : ∀ o, updatedOrigin o .localReq = .localReq := fun o => by simp [updatedOrigin]
  have start : ∀ k, startDrive s.env x k .localReq = .moving k .localReq (s.clock + x.st.travelLimit) := fun k => by
    simp [startDrive, Origin.remote, State.env]
  unfold requestedDrive localBinds
  cases hd : x.drive with
  | resting => rfl
  | queued k o => simp only [origin, ite_self]
  | warning o p =>
    cases dir with
    | toClose => rfl
    | toOpen => simp only [start, reduceCtorEq, if_false]
  | moving k o tr => simp only [origin, start]; split <;> simp_all
  | recloseWait r => rfl
  | tripped r => rfl
  | isolated => exact absurd hd h

/-- R24, R25: the record after a local request, of a door that the enforcement check would not move from its target. -/
theorem Yard.takes_localRequest {y : Yard} {s : State} {d : Nat} {x : Door} {dir : Direction}
    (hx : y.doors[d]? = some x) (ht : x.inp.inTouch s.env) (hi : x.drive ≠ .isolated)
    (he : x.position = dir.target → ¬ Enforced s x x.hold) :
    let new := localAsks s x x.position dir x.drive
    Yard.Takes d x { x with drive := new, prot := x.prot.moved x.drive new } y
      (y.motionRequest s.env d dir .localReq) := by
  intro new
  unfold Yard.motionRequest
  simp only [hx]
  by_cases hp : x.position = dir.target
  · have hnew : new = .resting := if_pos hp
    rw [if_pos hp, hnew]
    split
    · next hd =>
      rw [Protection.moved_same (by rw [hd]), ← hd]
      exact Yard.takes_refl hx
    · next hd => exact absurd hd hi
    · have h := Yard.takes_rest false hx ht fun h => absurd h (he hp)
      rwa [Door.restDrive_resting (he hp), Protection.runTake_moved] at h
  · have hnew : new = localBinds s x dir x.drive := if_neg hp
    have hreq := requestedDrive_local (s := s) (dir := dir) hi
    rw [if_neg hp, hreq, hnew]
    exact Yard.takes_move hx ht (requestedDrive_slot hreq)

theorem Door.takesLocal_iff {x : Door} : x.takesLocal = true ↔ x.powered = true ∧ x.drive ≠ .isolated := by
  unfold Door.takesLocal
  cases x.drive <;> simp [Drive.isIsolated]

/-- R24, R41: a door that stands CLOSED is none that the check queues. -/
theorem not_enforced_of_closed {s : State} {x : Door} {hold : Bool} (h : x.position = .closed) :
    ¬ Enforced s x hold := by
  rintro ⟨-, -, -, -, hp | hp⟩ <;> rw [h] at hp <;> cases hp

/-- R37: the record of a door on which an LO rise acts. -/
def Door.loRisen (s : State) (x : Door) : Door :=
  let new := localAsks s x x.position .toOpen x.drive
  { x with drive := new, hold := x.hold || s.env.doorsClosed, prot := x.prot.moved x.drive new }

theorem Yard.takes_loRise {y : Yard} {s : State} {d : Nat} {x : Door} (hx : y.doors[d]? = some x)
    (ht : x.inp.inTouch s.env) (hl : x.powered = true ∧ x.drive ≠ .isolated) :
    Yard.Takes d x (x.loRisen s) y (y.loRise s.env d) := by
  let held : Door := { x with hold := x.hold || s.env.doorsClosed }
  have hold_set : (if s.env.doorsClosed then y.modify d fun z => { z with hold := true } else y) =
      y.modify d fun _ => held := by
    cases hm : s.env.doorsClosed with
    | true => exact Yard.modify_congr hx (by simp [held, hm])
    | false => exact (Yard.modify_self fun z hz => by simp_all [held]).symm
  have free : ¬ Enforced s held held.hold := by
    rintro ⟨hm, -, -, hh, -⟩
    simp [held, Env.doorsClosed_iff.mpr hm] at hh
  unfold Yard.loRise
  simp only [hx, Door.takesLocal_iff.mpr hl, if_true, hold_set]
  have asks := Yard.takes_localRequest (dir := .toOpen) (s := s) (x := held) (y := y.modify d fun _ => held) (d := d)
    (by rw [Yard.modify_get_same, hx]; rfl) ht hl.2 fun _ => free
  exact asks.after_modify hx rfl rfl rfl

/-- R38: the record of a door on which an LC rise acts. -/
def Door.lcRisen (s : State) (x : Door) : Door :=
  let new := localAsks s x x.position .toClose x.drive
  { x with drive := new, prot := x.prot.moved x.drive new }

theorem Yard.takes_lcRise {y : Yard} {s : State} {d : Nat} {x : Door} (hx : y.doors[d]? = some x)
    (ht : x.inp.inTouch s.env) (hl : x.powered = true ∧ x.drive ≠ .isolated)
    (hlo : x.inp.debounced.lo = false) : Yard.Takes d x (x.lcRisen s) y (y.lcRise s.env d) := by
  unfold Yard.lcRise
  simp only [hx, Door.takesLocal_iff.mpr hl, hlo, Bool.not_false, Bool.and_self, if_true]
  exact Yard.takes_localRequest hx ht hl.2 not_enforced_of_closed

/-! ## The LO fall (R39) -/

/-- R39: the record of a door after an LO fall. -/
def Door.loFallen (s : State) (x : Door) : Door :=
  let new := if x.powered = true then localFalls s x x.position x.drive else x.drive
  { x with drive := new, hold := false, prot := x.prot.moved x.drive new }

theorem localFalls_moving_open (s : State) (x : Door) (p : Position) (o : Origin) (tr : Nat) :
    localFalls s x p (.moving .toOpen o tr) =
      if s.command.mode = some .doorsClosed then .recloseWait (s.clock + s.times.reclose) else .resting := rfl

theorem localFalls_resting (s : State) (x : Door) (p : Position) :
    localFalls s x p .resting = if s.command.mode = some .doorsClosed ∧ x.hold = true then
      .recloseWait (s.clock + s.times.reclose) else .resting := rfl

theorem localFalls_unmoved {s : State} {x : Door} {p : Position} {drive : Drive} (h : drive.Unmoved) :
    localFalls s x p drive = drive := by
  cases h <;> rfl

/-- R39: what an LO fall does to a POWERED door: nothing, a stop, or a wait to reclose. -/
theorem loFallDrive_cases {s : State} {x : Door} (hp : x.powered = true) :
    (loFallDrive s.env x = none ∧ localFalls s x x.position x.drive = x.drive) ∨
    (loFallDrive s.env x = some .resting ∧ x.drive.queueClass ≠ 1 ∧
      localFalls s x x.position x.drive = ({ x with hold := false } : Door).restDrive s) ∨
    ∃ r, loFallDrive s.env x = some (.recloseWait r) ∧ localFalls s x x.position x.drive = .recloseWait r := by
  rcases x.drive.fall_cases with ⟨o, hd⟩ | ⟨o, tr, hd⟩ | hd | hd
  · have not_close : x.drive.queueClass ≠ 1 := by simp [Drive.queueClass_eq_one, hd]
    exact .inr (.inl ⟨loFallDrive_queued_open hp hd, not_close, by rw [hd]; rfl⟩)
  · rw [loFallDrive_moving_open hp hd, hd, localFalls_moving_open]
    by_cases hm : s.command.mode = some .doorsClosed
    · rw [if_pos hm]
      exact .inr (.inr ⟨_, rfl, rfl⟩)
    · have free : ¬ Enforced s { x with hold := false } false := fun h => hm h.1
      rw [if_neg hm]
      exact .inr (.inl ⟨rfl, by simp [Drive.queueClass_eq_one], (Door.restDrive_resting free).symm⟩)
  · rw [loFallDrive_resting hp hd, hd, localFalls_resting]
    by_cases hm : s.command.mode = some .doorsClosed ∧ x.hold = true
    · rw [if_pos hm, if_pos hm]
      exact .inr (.inr ⟨_, rfl, rfl⟩)
    · rw [if_neg hm, if_neg hm]
      exact .inl ⟨rfl, rfl⟩
  · exact .inl ⟨loFallDrive_unmoved hd, localFalls_unmoved hd⟩

theorem Yard.takes_loFall {y : Yard} {s : State} {d : Nat} {x : Door} (hx : y.doors[d]? = some x)
    (ht : x.inp.inTouch s.env) : Yard.Takes d x (x.loFallen s) y (y.loFall s.env d) := by
  have hx0 : (y.modify d fun z => { z with hold := false }).doors[d]? = some { x with hold := false } := by
    rw [Yard.modify_get_same, hx]; rfl
  have nothing : loFallDrive s.env x = none → x.loFallen s = { x with hold := false } →
      Yard.Takes d x (x.loFallen s) y (y.loFall s.env d) := fun hn hz => by
    simp only [Yard.loFall, hx, hn, hz]
    exact Yard.takes_modify hx rfl rfl rfl
  cases hp : x.powered with
  | false => exact nothing (by simp [loFallDrive, hp]) (by simp [Door.loFallen, hp, Protection.moved_same])
  | true =>
    rcases loFallDrive_cases (s := s) hp with ⟨hn, hl⟩ | ⟨hn, hq, hl⟩ | ⟨r, hn, hl⟩
    · exact nothing hn (by simp [Door.loFallen, hl, Protection.moved_same])
    · simp only [Yard.loFall, Door.loFallen, hx, hn, hp, hl, if_true]
      have rests := Yard.takes_rest (s := s) false hx0 ht fun _ => hq
      rw [Protection.runTake_moved] at rests
      exact rests.after_modify hx rfl rfl rfl
    · simp only [Yard.loFall, Door.loFallen, hx, hn, hp, hl, if_true]
      have waits := Yard.takes_move (new := .recloseWait r) hx0 ht (by simp [Drive.hasSlot])
      exact waits.after_modify hx rfl rfl rfl

end Sys2Proof.Machine
end

section
/-! SUPPORT. The delivery of a door's inputs (R12): the position, then LO, then LC, and what the three leave together. -/

namespace Sys2Proof.Machine

/-! ## A change of position (R5, R30) -/

/-- R5, R30, R41, R58: the record of a door whose position becomes `p`. -/
def Door.positioned (s : State) (x : Door) (p : Position) : Door :=
  let new := arrives s x p
  let prot := x.prot.runTake s.env x.drive new true
  { x with
    position := p
    drive := new
    prot := if x.position = .closed ∧ p ≠ .closed then prot.cancelSettle else prot }

theorem Protection.runTake_same (p : Protection) (e : Env) (drive : Drive) (c : Bool) :
    p.runTake e drive drive c = p := by
  cases h : drive.closingRun <;> simp [Protection.runTake, h]

theorem Door.positioned_same (s : State) (x : Door) : x.positioned s x.position = x := by
  simp [Door.positioned, arrives, Protection.runTake_same]

theorem Drive.reached_iff {drive : Drive} {p : Position} :
    drive.reached p = true ↔ drive.direction.map Direction.target = some p := by
  unfold Drive.reached
  cases drive.direction with
  | none => simp
  | some dir => simp only [Option.map_some, Option.some.injEq, beq_iff_eq]; exact eq_comm

/-- R30: a door whose drive state stands at the position it has come to, or that goes to rest there: one that rested
already, or one at its target, queued again only where it stands open. -/
theorem arrives_cases (s : State) (x : Door) (p : Position) :
    arrives s x p = x.drive ∨
    ((x.drive = .resting ∨ x.drive.direction.map Direction.target = some p) ∧
      (arrives s x p = .resting ∨ arrives s x p = .queued .toClose .mode ∧ p ≠ .closed)) := by
  unfold arrives
  split
  · exact .inl rfl
  · split
    · next h =>
      refine .inr ⟨h.symm, ?_⟩
      split
      · next he => exact .inr ⟨rfl, fun hp => not_enforced_of_closed hp he⟩
      · exact .inl rfl
    · exact .inl rfl

theorem arrives_isolated {s : State} {x : Door} {p : Position} :
    arrives s x p = .isolated ↔ x.drive = .isolated := by
  rcases arrives_cases s x p with h | ⟨h, h' | ⟨h', -⟩⟩
  · rw [h]
  all_goals
    rw [h']
    constructor
    · rintro ⟨⟩
    · intro hd; simp [hd, Drive.direction] at h

/-- R5, R30, R41: completion and the enforcement check of a door whose new position is written. -/
theorem Yard.takes_arrive {y : Yard} {s : State} {d : Nat} {x : Door} {p : Position}
    (hx : y.doors[d]? = some { x with position := p }) (ht : x.inp.inTouch s.env) (hp : p ≠ x.position) :
    Yard.Takes d { x with position := p }
      { x with
        position := p
        drive := arrives s x p
        prot := x.prot.runTake s.env x.drive (arrives s x p) true }
      y ((if x.drive.reached p then y.changeDrive s.env d .resting true else y).enforce s.env d) := by
  let moved : Door := { x with position := p }
  have rests : (x.drive.direction.map Direction.target = some p ∨ x.drive = .resting) →
      arrives s x p = moved.restDrive s := fun h => by
    rw [arrives, if_neg hp, if_pos h]; rfl
  by_cases hr : x.drive.direction.map Direction.target = some p
  · rw [if_pos (Drive.reached_iff.mpr hr), rests (.inl hr)]
    refine Yard.takes_rest (x := moved) true hx ht fun he hc => ?_
    obtain ⟨o, hd⟩ := Drive.queueClass_eq_one.mp hc
    rw [show x.drive = _ from hd] at hr
    exact not_enforced_of_closed (Option.some.inj hr).symm he
  · rw [if_neg (by rwa [Drive.reached_iff])]
    by_cases hd : x.drive = .resting
    · have check := Yard.takes_enforce (x := moved) hx ht hd
      have prot : x.prot.runTake s.env x.drive (arrives s x p) true = x.prot := by
        rw [rests (.inr hd), Protection.runTake_congr _ _ _ (new' := x.drive), Protection.runTake_same]
        rw [(moved.restDrive_idle s).2, hd]; rfl
      rw [prot, rests (.inr hd)]
      exact check
    · have stands : arrives s x p = x.drive := by rw [arrives, if_neg hp, if_neg (not_or.mpr ⟨hr, hd⟩)]
      rw [stands, Protection.runTake_same, Yard.enforce_passes hx (Door.enforceable_of_drive hd)]
      exact Yard.takes_refl hx

/-- R4, R5: the position derived afresh, with what its change hands on. -/
theorem Yard.takes_rederive {y : Yard} {s : State} {d : Nat} {x : Door} (hx : y.doors[d]? = some x)
    (ht : x.inp.inTouch s.env) :
    Yard.Takes d x (x.positioned s (s.env.positionOf x)) y (y.rederive s.env d) := by
  generalize hp : s.env.positionOf x = p
  unfold Yard.rederive
  simp only [hx, hp]
  by_cases hsame : p = x.position
  · rw [if_pos hsame, hsame, Door.positioned_same]
    exact Yard.takes_refl hx
  · rw [if_neg hsame]
    have hx1 : (y.modify d fun z => { z with position := p }).doors[d]? = some { x with position := p } := by
      rw [Yard.modify_get_same, hx]; rfl
    have arrive := (Yard.takes_arrive hx1 ht hsame).after_modify hx rfl rfl rfl
    unfold Yard.positionChange Door.positioned
    simp only [hx1]
    by_cases hc : x.position = .closed
    · rw [if_pos hc, if_pos ⟨hc, fun h => hsame (h.trans hc.symm)⟩]
      exact arrive.trans (Yard.takes_modify arrive.door rfl rfl rfl) (Drive.between_last _ _)
    · rw [if_neg hc, if_neg fun h => hc h.1]
      exact arrive

/-! ## LO and LC (R12 steps 3 and 4) -/

/-- R37, R38: a door on which a local rise acts. -/
abbrev Door.Local (x : Door) : Prop := x.powered = true ∧ x.drive ≠ .isolated

/-- R12 step 3: the record after LO, whose debounced value was `before`. -/
def Door.afterLo (s : State) (x : Door) (before : Bool) : Door :=
  if before = false ∧ x.inp.debounced.lo = true ∧ x.Local then x.loRisen s
  else if before = true ∧ x.inp.debounced.lo = false then x.loFallen s
  else x

/-- R12 step 4: the record after LC, whose debounced value was `before`. -/
def Door.afterLc (s : State) (x : Door) (before : Bool) : Door :=
  if before = false ∧ x.inp.debounced.lc = true ∧ x.Local ∧ x.inp.debounced.lo = false then x.lcRisen s else x

theorem Door.afterLo_eq (s : State) (x : Door) (before : Bool) :
    x.afterLo s before = { x with
      drive := (x.afterLo s before).drive
      hold := (x.afterLo s before).hold
      prot := x.prot.moved x.drive (x.afterLo s before).drive } := by
  unfold Door.afterLo
  split
  · rfl
  · split
    · rfl
    · simp [Protection.moved_same]

theorem Door.afterLc_eq (s : State) (x : Door) (before : Bool) :
    x.afterLc s before = { x with
      drive := (x.afterLc s before).drive
      prot := x.prot.moved x.drive (x.afterLc s before).drive } := by
  unfold Door.afterLc
  split
  · rfl
  · simp [Protection.moved_same]

theorem Yard.takes_deliverLo {y : Yard} {s : State} {d : Nat} {x : Door} (before : Bool)
    (hx : y.doors[d]? = some x) (ht : x.inp.inTouch s.env) :
    Yard.Takes d x (x.afterLo s before) y (y.deliverLo s.env d before x.inp.debounced.lo) := by
  unfold Yard.deliverLo Door.afterLo
  cases before <;> cases hlo : x.inp.debounced.lo
  case false.true =>
    have is_set : ((y.doors[d]?).map (·.inp.debounced.lo)).getD false = true := by simp [hx, hlo]
    simp only [is_set, if_true]
    by_cases hl : x.Local
    · rw [if_pos ⟨trivial, trivial, hl⟩]
      exact Yard.takes_loRise hx ht hl
    · have passes : y.loRise s.env d = y := by
        simp only [Yard.loRise, hx, Door.takesLocal_iff, hl, if_false]
      rw [if_neg fun ⟨_, _, h⟩ => hl h, if_neg (by simp), passes]
      exact Yard.takes_refl hx
  case true.false => simpa using Yard.takes_loFall hx ht
  all_goals simpa using Yard.takes_refl hx

theorem Yard.takes_deliverLc {y : Yard} {s : State} {d : Nat} {x : Door} (before : Bool)
    (hx : y.doors[d]? = some x) (ht : x.inp.inTouch s.env) :
    Yard.Takes d x (x.afterLc s before) y (y.deliverLc s.env d before x.inp.debounced.lc) := by
  unfold Yard.deliverLc Door.afterLc
  by_cases hrise : before = false ∧ x.inp.debounced.lc = true
  · by_cases hl : x.Local ∧ x.inp.debounced.lo = false
    · rw [if_pos ⟨hrise.1, hrise.2, hl⟩]
      simpa [hrise] using Yard.takes_lcRise hx ht hl.1 hl.2
    · have passes : y.lcRise s.env d = y := by
        simp only [Yard.lcRise, hx, Bool.and_eq_true, Door.takesLocal_iff, Bool.not_eq_true', hl, if_false]
      rw [if_neg fun ⟨_, _, h⟩ => hl h, passes, ite_self]
      exact Yard.takes_refl hx
  · have none_rises : (!before && x.inp.debounced.lc) = false := by
      cases before <;> simp_all
    rw [none_rises, if_neg fun ⟨hb, hlc, _⟩ => hrise ⟨hb, hlc⟩]
    exact Yard.takes_refl hx

/-! ## The drive states that follow one another -/

/-- R23, R24: a local request queues no door that stands at its target. -/
theorem localAsks_queued {s : State} {x : Door} {p : Position} {dir : Direction} {drive : Drive}
    (h : (localAsks s x p dir drive).isQueued = true) :
    p ≠ dir.target ∧ localAsks s x p dir drive = .queued dir .localReq := by
  unfold localAsks at h ⊢
  split at h
  · cases h
  · next hp =>
    rw [if_neg hp]
    refine ⟨hp, ?_⟩
    cases drive with
    | warning o p => cases h
    | moving k o tr => cases h
    | isolated => cases h
    | _ => rfl

/-- R39: an LO fall leaves a close alone, begins and ends no closing run, and isolates no door. -/
theorem localFalls_close (s : State) (x : Door) (p : Position) (o : Origin) :
    localFalls s x p (.queued .toClose o) = .queued .toClose o := rfl

theorem localFalls_closingRun (s : State) (x : Door) (p : Position) (drive : Drive) :
    (localFalls s x p drive).closingRun = drive.closingRun := by
  unfold localFalls
  split
  · split <;> rfl
  · split <;> rfl
  · split <;> rfl
  · rfl

theorem localFalls_isolated {s : State} {x : Door} {p : Position} {drive : Drive} :
    localFalls s x p drive = .isolated ↔ drive = .isolated := by
  unfold localFalls
  split
  · split <;> simp
  · split <;> simp
  · split <;> simp
  · rfl

theorem localFalls_resting_idle (s : State) (x : Door) (p : Position) :
    (localFalls s x p .resting).isQueued = false := by
  unfold localFalls
  simp only
  split <;> rfl

/-- R12 step 3: where LO takes a door. -/
theorem Door.afterLo_cases (s : State) (x : Door) (before : Bool) :
    (x.afterLo s before).drive = x.drive ∨
    (x.inp.debounced.lo = true ∧ (x.afterLo s before).drive = localAsks s x x.position .toOpen x.drive) ∨
    (x.inp.debounced.lo = false ∧ (x.afterLo s before).drive = localFalls s x x.position x.drive) := by
  unfold Door.afterLo
  split
  · next h =>
    obtain ⟨-, hlo, -⟩ := h
    exact .inr (.inl ⟨hlo, rfl⟩)
  · split
    · next h =>
      by_cases hp : x.powered = true
      · exact .inr (.inr ⟨h.2, by simp [Door.loFallen, hp]⟩)
      · exact .inl (by simp [Door.loFallen, hp])
    · exact .inl rfl

/-- R12 step 4: where LC takes a door. -/
theorem Door.afterLc_cases (s : State) (x : Door) (before : Bool) :
    (x.afterLc s before).drive = x.drive ∨
    (x.inp.debounced.lo = false ∧ (x.afterLc s before).drive = localAsks s x x.position .toClose x.drive) := by
  unfold Door.afterLc
  split
  · next h =>
    obtain ⟨-, -, -, hlo⟩ := h
    exact .inr ⟨hlo, rfl⟩
  · exact .inl rfl

end Sys2Proof.Machine
end

section
/-! SUPPORT. R12 whole: the record and the group that a change of a door's inputs leaves, against the statements' own
`deliveredDrive`, `deliveredHold` and `Delivered`. -/

namespace Sys2Proof.Machine

/-! ## The three deliveries together -/

/-- R12: the record after the position, LO and LC have been delivered; `before` are the debounced inputs as they were. -/
def Door.deliver (s : State) (x : Door) (before : Four Bool) : Door :=
  ((x.positioned s (s.env.positionOf x)).afterLo s before.lo).afterLc s before.lc

/-- R68, R71: LO puts no entry back into the class that the change of position has taken it from. -/
theorem between_afterLo (s : State) (x : Door) (p : Position) (before : Bool) :
    Drive.between x.drive (arrives s x p) ((x.positioned s p).afterLo s before).drive := by
  have hdrive : (x.positioned s p).drive = arrives s x p := rfl
  rcases arrives_cases s x p with h | ⟨horigin, h⟩
  · rw [h]; exact Drive.between_refl _ _
  · rcases (x.positioned s p).afterLo_cases s before with hlo | ⟨-, hlo⟩ | ⟨-, hlo⟩
    · rw [hlo, hdrive]; exact Drive.between_last _ _
    · intro hn ho hc
      obtain ⟨hp, hnew⟩ := localAsks_queued (hlo ▸ hn)
      rw [hlo, hnew] at hc
      rcases horigin with hd | hd
      · rw [hd] at ho; cases ho
      · cases hx : x.drive with
        | queued dir o =>
          cases dir with
          | toClose => rw [hx] at hc; cases hc
          | toOpen => rw [hx] at hd; exact absurd (Option.some.inj hd).symm hp
        | _ => rw [hx] at ho; cases ho
    · rw [hlo, hdrive]
      rcases h with h | ⟨h, -⟩
      · rw [h]; exact Drive.between_of_idle (localFalls_resting_idle _ _ _)
      · rw [h, localFalls_close]; exact Drive.between_last _ _

/-- R68, R71: nor does LC, after the position and LO. -/
theorem between_afterLc (s : State) (x : Door) (p : Position) (bo bc : Bool) :
    let x2 := (x.positioned s p).afterLo s bo
    Drive.between x.drive x2.drive (x2.afterLc s bc).drive := by
  intro x2
  rcases x2.afterLc_cases s bc with hlc | ⟨hlo, hlc⟩
  · rw [hlc]; exact Drive.between_last _ _
  · intro hn ho hc
    obtain ⟨hp, hnew⟩ := localAsks_queued (hlc ▸ hn)
    rw [hlc, hnew] at hc
    obtain ⟨o, hx⟩ := Drive.queueClass_eq_one.mp hc
    have hpos : x2.position = p := by
      simp only [x2]; rw [Door.afterLo_eq]; rfl
    have h1 : arrives s x p = x.drive := by
      rcases arrives_cases s x p with h | ⟨hd | hd, -⟩
      · exact h
      · rw [hx] at hd; cases hd
      · rw [hx] at hd; exact absurd (hpos.trans (Option.some.inj hd).symm) hp
    have hdrive : (x.positioned s p).drive = .queued .toClose o := h1.trans hx
    have hlo1 : (x.positioned s p).inp.debounced.lo = false := by
      rw [← hlo]; simp only [x2]; rw [Door.afterLo_eq]
    have h2 : x2.drive = x.drive := by
      rcases (x.positioned s p).afterLo_cases s bo with h | ⟨h, -⟩ | ⟨-, h⟩
      · exact h.trans h1
      · rw [hlo1] at h; cases h
      · rw [hdrive, localFalls_close] at h; exact h.trans hx.symm
    exact ⟨by rw [h2]; exact ho, by rw [h2]⟩

/-- R12: the record and the group after a change of inputs, of a door whose freshness timer meets no limit. -/
theorem Yard.takes_deliver {y : Yard} {s : State} {d : Nat} {x : Door} (before : Four Bool)
    (hx : y.doors[d]? = some x) (ht : x.inp.inTouch s.env) :
    Yard.Takes d x (x.deliver s before) y (y.deliver s.env d before x.inp.debounced) := by
  let x1 := x.positioned s (s.env.positionOf x)
  let x2 := x1.afterLo s before.lo
  have hinp : x2.inp = x.inp := by simp only [x2]; rw [Door.afterLo_eq]; rfl
  have position : Yard.Takes d x x1 y (y.rederive s.env d) := Yard.takes_rederive hx ht
  have lo := Yard.takes_deliverLo before.lo position.door ht
  have lc := Yard.takes_deliverLc (x := x2) before.lc lo.door (by rw [hinp]; exact ht)
  rw [hinp] at lc
  exact (position.trans lo (between_afterLo _ _ _ _)).trans lc (between_afterLc _ _ _ _ _)

/-! ## The drive state and the hold flag -/

theorem Door.afterLo_drive (s : State) (x : Door) (before : Bool) :
    (x.afterLo s before).drive =
      if x.powered = false ∨ x.drive = .isolated then x.drive
      else if before = false ∧ x.inp.debounced.lo = true then localAsks s x x.position .toOpen x.drive
      else if before = true ∧ x.inp.debounced.lo = false then localFalls s x x.position x.drive
      else x.drive := by
  unfold Door.afterLo
  by_cases hl : x.Local
  · have hnot : ¬ (x.powered = false ∨ x.drive = .isolated) := by simpa [not_or] using hl
    rw [if_neg hnot]
    by_cases hr : before = false ∧ x.inp.debounced.lo = true
    · rw [if_pos hr, if_pos ⟨hr.1, hr.2, hl⟩]; rfl
    · rw [if_neg hr, if_neg fun ⟨hb, hlo, _⟩ => hr ⟨hb, hlo⟩]
      split
      · simp [Door.loFallen, hl.1]
      · rfl
  · have hnot : x.powered = false ∨ x.drive = .isolated := by
      by_contra h
      exact hl (by simpa [not_or] using h)
    rw [if_pos hnot, if_neg fun ⟨_, _, h⟩ => hl h]
    split
    · rcases hnot with hp | hi
      · simp [Door.loFallen, hp]
      · simp only [Door.loFallen]
        split
        · rw [hi]; exact localFalls_isolated.mpr rfl
        · rfl
    · rfl

theorem Door.afterLc_drive (s : State) (x : Door) (before : Bool) :
    (x.afterLc s before).drive =
      if x.powered = false ∨ x.drive = .isolated then x.drive
      else if before = false ∧ x.inp.debounced.lc = true ∧ x.inp.debounced.lo = false then
        localAsks s x x.position .toClose x.drive
      else x.drive := by
  unfold Door.afterLc
  by_cases hl : x.Local
  · have hnot : ¬ (x.powered = false ∨ x.drive = .isolated) := by simpa [not_or] using hl
    rw [if_neg hnot]
    by_cases hr : before = false ∧ x.inp.debounced.lc = true ∧ x.inp.debounced.lo = false
    · obtain ⟨hb, hlc, hlo⟩ := hr
      rw [if_pos ⟨hb, hlc, hl, hlo⟩, if_pos ⟨hb, hlc, hlo⟩]; rfl
    · rw [if_neg hr, if_neg fun ⟨hb, hlc, _, hlo⟩ => hr ⟨hb, hlc, hlo⟩]
  · have hnot : x.powered = false ∨ x.drive = .isolated := by
      by_contra h
      exact hl (by simpa [not_or] using h)
    rw [if_pos hnot, if_neg fun ⟨_, _, h, _⟩ => hl h]

/-- A door that a fresh value of its inputs has reached, before it is delivered. -/
def Door.withInputs (x : Door) (i : InputPart) (seen : Bool) : Door := { x with inp := i, powerSeen := seen }

/-- R12, R37 to R39: the drive state after the three deliveries is the statements' own. -/
theorem Door.deliver_drive (s : State) (x : Door) (i : InputPart) (seen : Bool) :
    ((x.withInputs i seen).deliver s x.inp.debounced).drive =
      deliveredDrive s x i.debounced (s.env.positionOf (x.withInputs i seen)) := by
  generalize hp : s.env.positionOf (x.withInputs i seen) = p
  let x1 := (x.withInputs i seen).positioned s p
  let x2 := x1.afterLo s x.inp.debounced.lo
  let d1 := arrives s x p
  have lo : x2.drive =
      if x.powered = false ∨ d1 = .isolated then d1
      else if x.inp.debounced.lo = false ∧ i.debounced.lo = true then localAsks s x p .toOpen d1
      else if x.inp.debounced.lo = true ∧ i.debounced.lo = false then localFalls s x p d1
      else d1 := x1.afterLo_drive s x.inp.debounced.lo
  have lc : (x2.afterLc s x.inp.debounced.lc).drive =
      if x.powered = false ∨ x2.drive = .isolated then x2.drive
      else if x.inp.debounced.lc = false ∧ i.debounced.lc = true ∧ i.debounced.lo = false then
        localAsks s x p .toClose x2.drive
      else x2.drive := by
    have same : x2 = { x1 with drive := x2.drive, hold := x2.hold, prot := x2.prot } := by
      simp only [x2]; rw [Door.afterLo_eq]
    rw [Door.afterLc_drive, same]
    rfl
  have whole : (x.withInputs i seen).deliver s x.inp.debounced = x2.afterLc s x.inp.debounced.lc := by
    simp only [x2, x1, Door.deliver, hp]
  rw [whole, lc, deliveredDrive]
  by_cases hl : x.powered = false ∨ d1 = .isolated
  · have h2 : x2.drive = d1 := by rw [lo, if_pos hl]
    rw [h2, if_pos hl, if_pos hl]
  · rw [if_neg hl]
    rw [if_neg hl] at lo
    obtain ⟨hpow, hiso⟩ := not_or.mp hl
    by_cases hr : x.inp.debounced.lo = false ∧ i.debounced.lo = true
    · rw [if_pos hr]
      rw [if_pos hr] at lo
      have lc_ignored : ¬ (x.inp.debounced.lc = false ∧ i.debounced.lc = true ∧ i.debounced.lo = false) := by
        simp [hr.2]
      rw [if_neg lc_ignored, ite_self, lo]
    · rw [if_neg hr]
      rw [if_neg hr] at lo
      have not_isolated : x2.drive ≠ .isolated := by
        rw [lo]
        split
        · rwa [ne_eq, localFalls_isolated]
        · exact hiso
      rw [if_neg (not_or.mpr ⟨hpow, not_isolated⟩), lo]

/-- R37, R39: the hold flag after the three deliveries is the statements' own. -/
theorem Door.deliver_hold (s : State) (x : Door) (i : InputPart) (seen : Bool) :
    ((x.withInputs i seen).deliver s x.inp.debounced).hold = deliveredHold s x i.debounced := by
  generalize hp : s.env.positionOf (x.withInputs i seen) = p
  let x1 := (x.withInputs i seen).positioned s p
  have whole : ((x.withInputs i seen).deliver s x.inp.debounced).hold = (x1.afterLo s x.inp.debounced.lo).hold := by
    simp only [Door.deliver, hp]; rw [Door.afterLc_eq]
  have isolated : x1.drive = .isolated ↔ x.drive = .isolated := arrives_isolated
  have inputs : x1.inp = i := rfl
  have powered : x1.powered = x.powered := rfl
  have rises : (x.inp.debounced.lo = false ∧ i.debounced.lo = true ∧ x1.Local) ↔
      (x.inp.debounced.lo = false ∧ i.debounced.lo = true ∧ x.powered = true ∧ x.drive ≠ .isolated) := by
    simp only [Door.Local, ne_eq, isolated, powered]
  rw [whole, Door.afterLo, deliveredHold, inputs]
  by_cases hr : x.inp.debounced.lo = false ∧ i.debounced.lo = true ∧ x.powered = true ∧ x.drive ≠ .isolated
  · rw [if_pos (rises.mpr hr), if_neg (by simp [hr.1])]
    simp only [hr, ne_eq, not_false_eq_true, true_and]
    exact congrArg (x.hold || ·) (Bool.eq_iff_iff.mpr (by rw [Env.doorsClosed_iff, decide_eq_true_iff]))
  · rw [if_neg (rises.not.mpr hr)]
    by_cases hf : x.inp.debounced.lo = true ∧ i.debounced.lo = false
    · rw [if_pos hf, if_pos hf]; rfl
    · have no_hold : ¬ (x.inp.debounced.lo = false ∧ i.debounced.lo = true ∧ x.powered = true ∧
          x.drive ≠ .isolated ∧ s.command.mode = some .doorsClosed) :=
        fun ⟨hb, hlo, hp, hi, _⟩ => hr ⟨hb, hlo, hp, hi⟩
      rw [if_neg hf, if_neg hf, decide_eq_false no_hold, Bool.or_false]
      rfl

/-! ## The protection part -/

/-- LO or LC ends a run or begins one, not both: LC acts where LO is clear, and an LO fall does neither. -/
theorem Door.deliver_prot (s : State) (x : Door) (before : Four Bool) :
    let x1 := x.positioned s (s.env.positionOf x)
    (x.deliver s before).prot = x1.prot.moved x1.drive (x.deliver s before).drive := by
  intro x1
  let x2 := x1.afterLo s before.lo
  have lo : x2 = { x1 with drive := x2.drive, hold := x2.hold, prot := x1.prot.moved x1.drive x2.drive } :=
    x1.afterLo_eq s before.lo
  have lc : (x.deliver s before).prot = x2.prot.moved x2.drive (x.deliver s before).drive :=
    congrArg Door.prot (x2.afterLc_eq s before.lc)
  have lo_prot : x2.prot = x1.prot.moved x1.drive x2.drive := by rw [lo]
  rw [lc, lo_prot, Protection.moved_moved]
  rcases x2.afterLc_cases s before.lc with h | ⟨hlo, -⟩
  · exact .inr (congrArg Drive.closingRun h.symm)
  · have hlo1 : x1.inp.debounced.lo = false := by rw [← hlo, lo]
    rcases x1.afterLo_cases s before.lo with h | ⟨h, -⟩ | ⟨-, h⟩
    · exact .inl (congrArg Drive.closingRun h)
    · rw [hlo1] at h; cases h
    · exact .inl ((congrArg Drive.closingRun h).trans (localFalls_closingRun _ _ _ _))

/-- R30: a closing run completes as the door comes to CLOSED. -/
theorem Door.positioned_completes {s : State} {x : Door} (hrun : x.drive.closingRun = true)
    (hp : x.position ≠ .closed) : (x.positioned s .closed).drive = .resting := by
  show arrives s x .closed = .resting
  have target : x.drive.direction.map Direction.target = some .closed := by
    cases hd : x.drive with
    | moving dir o tr =>
      cases dir with
      | toClose => rfl
      | toOpen => rw [hd] at hrun; cases hrun
    | _ => rw [hd] at hrun; cases hrun
  rw [arrives, if_neg (Ne.symm hp), if_pos (.inl target), if_neg (not_enforced_of_closed rfl)]

/-- R30: any other change of position leaves a closing run as it is. -/
theorem Door.positioned_run {s : State} {x : Door} {p : Position}
    (h : ¬ (x.drive.closingRun = true ∧ x.position ≠ .closed ∧ p = .closed)) :
    (x.positioned s p).drive.closingRun = x.drive.closingRun := by
  show (arrives s x p).closingRun = _
  by_cases hp : p = x.position
  · rw [arrives, if_pos hp]
  · rcases arrives_cases s x p with ha | ⟨horigin, ha⟩
    · rw [ha]
    · have stopped : (arrives s x p).closingRun = false := by
        rcases ha with ha | ⟨ha, -⟩ <;> rw [ha] <;> rfl
      rw [stopped]
      cases hd : x.drive with
      | moving dir o tr =>
        cases dir with
        | toOpen => rfl
        | toClose =>
          rw [hd] at horigin
          have hc : p = .closed := (Option.some.inj (horigin.resolve_left (by rintro ⟨⟩))).symm
          exact absurd ⟨by rw [hd]; rfl, fun hx => hp (hc.trans hx.symm), hc⟩ h
      | _ => rfl

/-- R49, R66: a closing run holds a slot. -/
theorem Drive.hasSlot_of_closingRun {drive : Drive} (h : drive.closingRun = true) : drive.hasSlot = true := by
  cases drive with
  | moving dir o tr => rfl
  | _ => cases h

/-- R23, R26, R39: neither a local request nor an LO fall lets a door into a slot. -/
theorem localAsks_slot {s : State} {x : Door} {p : Position} {dir : Direction} {drive : Drive}
    (h : (localAsks s x p dir drive).hasSlot = true) : drive.hasSlot = true := by
  unfold localAsks at h
  split at h
  · cases h
  · cases drive with
    | warning o p => rfl
    | moving k o tr => rfl
    | _ => cases h

theorem localFalls_slot {s : State} {x : Door} {p : Position} {drive : Drive}
    (h : (localFalls s x p drive).hasSlot = true) : drive.hasSlot = true := by
  unfold localFalls at h
  split at h
  · split at h <;> cases h
  · rfl
  · split at h <;> cases h
  · exact h

/-- LO and LC begin no closing run of a door that the position has left without a slot. -/
theorem Door.deliver_slot {s : State} {x : Door} {before : Four Bool}
    (h : (x.deliver s before).drive.hasSlot = true) :
    (x.positioned s (s.env.positionOf x)).drive.hasSlot = true := by
  let x1 := x.positioned s (s.env.positionOf x)
  let x2 := x1.afterLo s before.lo
  have h2 : x2.drive.hasSlot = true := by
    rcases x2.afterLc_cases s before.lc with hc | ⟨-, hc⟩
    · rw [← hc]; exact h
    · exact localAsks_slot (hc ▸ h)
  rcases x1.afterLo_cases s before.lo with hc | ⟨-, hc⟩ | ⟨-, hc⟩
  · rw [← hc]; exact h2
  · exact localAsks_slot (hc ▸ h2)
  · exact localFalls_slot (hc ▸ h2)

/-- R61: a baseline moves towards the peak and stays a number. -/
theorem learnedBaseline_eq (baseline peak : Nat) :
    (learnedBaseline baseline peak : Int) = baseline + ((peak : Int) - baseline).tdiv 4 := by
  have nonneg : 0 ≤ (baseline : Int) + ((peak : Int) - baseline).tdiv 4 := by
    rcases le_total baseline peak with h | h
    · have := Int.tdiv_nonneg (a := (peak : Int) - baseline) (b := 4) (by omega) (by omega)
      omega
    · rw [← neg_sub, Int.neg_tdiv, Int.tdiv_eq_ediv_of_nonneg (by omega)]
      omega
  rw [learnedBaseline, Int.toNat_of_nonneg nonneg]

/-- R61: what a completed run teaches. -/
theorem Protection.learn_tripCount (p : Protection) : p.learn.tripCount = p.tripCount := by
  unfold Protection.learn
  split
  · split <;> rfl
  · rfl

theorem Protection.learn_nothing {p : Protection} (h : p.mark = true ∨ p.peak = none) : p.learn = p := by
  unfold Protection.learn
  split
  · next hm hk => rcases h with h | h <;> simp_all
  · rfl

theorem Protection.learn_peak {p : Protection} {peak : Nat} (hm : p.mark = false) (hk : p.peak = some peak) :
    p.learn.hot = true ∧ (p.hot = false → p.learn.baseline = peak) ∧
      (p.hot = true → (p.learn.baseline : Int) = p.baseline + ((peak : Int) - p.baseline).tdiv 4) := by
  unfold Protection.learn
  simp only [hm, hk]
  cases hh : p.hot with
  | true => exact ⟨rfl, nofun, fun _ => learnedBaseline_eq _ _⟩
  | false => exact ⟨rfl, fun _ => rfl, nofun⟩

/-! ## What a change of inputs delivers -/

/-- R12: what a change of a door's inputs to `i` leaves of its record `x`. -/
structure Door.DeliveredTo (s : State) (x : Door) (i : InputPart) (z : Door) : Prop where
  inp : z.inp = i
  position : z.position = s.env.positionOf z
  inhibit : z.inhibit = x.inhibit
  drive : z.drive = deliveredDrive s x i.debounced z.position
  hold : z.hold = deliveredHold s x i.debounced
  completed : completesRun x z → z.drive.closingRun = false ∧ z.prot = x.prot.endRun true s.clock
  stands : ¬ completesRun x z →
    let p := { x.prot with settle := if x.position = .closed ∧ z.position ≠ .closed then none else x.prot.settle }
    z.prot = if x.drive.closingRun = z.drive.closingRun then p else p.noRun

theorem Door.deliver_eq (s : State) (x : Door) (before : Four Bool) :
    x.deliver s before = { x with
      position := s.env.positionOf x
      drive := (x.deliver s before).drive
      hold := (x.deliver s before).hold
      prot := (x.deliver s before).prot } := by
  unfold Door.deliver
  rw [Door.afterLc_eq, Door.afterLo_eq]
  rfl

theorem Door.deliver_deliveredTo (s : State) (x : Door) (i : InputPart) (seen : Bool) :
    x.DeliveredTo s i ((x.withInputs i seen).deliver s x.inp.debounced) := by
  let x0 := x.withInputs i seen
  let z := x0.deliver s x.inp.debounced
  have record : z = { x0 with position := s.env.positionOf x0, drive := z.drive, hold := z.hold, prot := z.prot } :=
    x0.deliver_eq s x.inp.debounced
  have inp : z.inp = i := by rw [record]; rfl
  have position : z.position = s.env.positionOf x0 := by rw [record]
  let x1 := x0.positioned s (s.env.positionOf x0)
  have prot : z.prot = x1.prot.moved x1.drive z.drive := x0.deliver_prot s x.inp.debounced
  refine ⟨inp, ?_, by rw [show Door.inhibit _ = _ from congrArg Door.inhibit record]; rfl, ?_,
    x.deliver_hold s i seen, ?_, ?_⟩
  · show z.position = s.env.positionOf z
    rw [position, record]
    rfl
  · show z.drive = deliveredDrive s x i.debounced z.position
    rw [position]
    exact x.deliver_drive s i seen
  · rintro ⟨hrun, hopen, hclosed⟩
    have hp : s.env.positionOf x0 = .closed := position.symm.trans hclosed
    have rests : x1.drive = .resting := by
      simp only [x1, hp]
      exact Door.positioned_completes hrun hopen
    have stopped : z.drive.closingRun = false := by
      by_contra hz
      have h1 := Door.deliver_slot (Drive.hasSlot_of_closingRun (by simpa using hz))
      rw [show Door.drive _ = _ from rests] at h1
      cases h1
    refine ⟨stopped, ?_⟩
    show z.prot = _
    rw [prot, rests, Protection.moved_same (old := .resting) stopped.symm]
    have hx1 : x1.prot = x.prot.runTake s.env x.drive x1.drive true := if_neg fun h => hopen h.1
    rw [hx1, rests, Protection.runTake, hrun]
    rfl
  · intro hnot p
    have runs : x1.drive.closingRun = x.drive.closingRun :=
      Door.positioned_run fun ⟨hrun, hopen, hclosed⟩ => hnot ⟨hrun, hopen, position.trans hclosed⟩
    have settled : x1.prot = p := by
      have hrun : x.prot.runTake s.env x.drive x1.drive true = x.prot := by
        rw [Protection.runTake_congr _ _ _ (new' := x.drive) true runs, Protection.runTake_same]
      have hx1 : x1.prot = if x.position = .closed ∧ s.env.positionOf x0 ≠ .closed then
        (x.prot.runTake s.env x.drive x1.drive true).cancelSettle
        else x.prot.runTake s.env x.drive x1.drive true := rfl
      simp only [hx1, hrun, p]
      rw [show Door.position _ = _ from position]
      split <;> rfl
    show z.prot = _
    rw [prot, settled, Protection.moved, runs]

end Sys2Proof.Machine
end

section
/-! SUPPORT. From the record that a change of inputs leaves to the statements' `Delivered`; DEBOUNCE_EXPIRY (R11). -/

namespace Sys2Proof.Machine

/-! ## The statements' predicate -/

/-- The alarm states are no part of what is delivered. -/
theorem Door.DeliveredTo.ofAlarms {s : State} {x z w : Door} {i : InputPart} (h : x.DeliveredTo s i z)
    (hw : z.sameButAlarms w) : x.DeliveredTo s i w := by
  rw [hw]
  exact ⟨h.inp, h.position, h.inhibit, h.drive, h.hold, h.completed, h.stands⟩

/-- R53, R56: no change of inputs counts as a trip. -/
theorem Door.DeliveredTo.tripCount {s : State} {x z : Door} {i : InputPart} (h : x.DeliveredTo s i z) :
    z.prot.tripCount = x.prot.tripCount := by
  by_cases hc : completesRun x z
  · rw [(h.completed hc).2]
    exact x.prot.learn_tripCount
  · rw [h.stands hc]
    split <;> rfl

theorem Yard.Takes.groupFollows {s t : State} {d : Nat} {x z : Door} {y : Yard} (h : Yard.Takes d x z s.yard y)
    (ht : t.yard.groups = y.groups) : GroupFollows d x z s t := by
  intro g hg r others behind hq hh
  rw [ht, h.group g hg ⟨hq, hh⟩]
  rfl

/-- R52, R58, R61: the statements' account of a completed run. -/
theorem Door.DeliveredTo.delivered {s t : State} {d : Nat} {x z : Door} {i : InputPart} (h : x.DeliveredTo s i z)
    (hg : GroupFollows d x z s t) : Delivered s t d x z where
  drive := by rw [h.inp]; exact h.drive
  hold := by rw [h.inp]; exact h.hold
  group := hg
  completed hc := by
    rw [(h.completed hc).2]
    refine ⟨rfl, x.prot.learn_tripCount, rfl, rfl, rfl, rfl, fun hn => ?_, fun peak hm hk => ?_⟩
    · have nothing := Protection.learn_nothing hn
      show x.prot.learn.baseline = _ ∧ x.prot.learn.hot = _
      exact ⟨congrArg Protection.baseline nothing, congrArg Protection.hot nothing⟩
    · exact Protection.learn_peak hm hk
  stands hc _ := h.stands hc

/-- A closing run that goes on: what becomes of its protection part is not the delivery's to say. -/
theorem Door.DeliveredTo.delivered_closing {s t : State} {d : Nat} {x z : Door} {i : InputPart} {p : Protection}
    (h : x.DeliveredTo s i z) (hg : GroupFollows d x z s t) (hx : x.drive.closingRun = true)
    (hz : z.drive.closingRun = true) : Delivered s t d x { z with prot := p } where
  drive := by rw [show Door.inp _ = i from h.inp]; exact h.drive
  hold := by rw [show Door.inp _ = i from h.inp]; exact h.hold
  group := hg
  completed hc := absurd hz (by rw [(h.completed hc).1]; simp)
  stands _ hs := by
    rcases hs with hs | hs
    · rw [hx] at hs; cases hs
    · exact absurd hz (by rw [show z.drive.closingRun = false from hs]; simp)

/-- The end of a take changes neither the groups nor what is delivered of a record. -/
theorem Delivered.ofAlarms {s t t' : State} {d : Nat} {x z w : Door} (h : Delivered s t d x z)
    (ht : t'.yard.groups = t.yard.groups) (hw : z.sameButAlarms w) : Delivered s t' d x w := by
  rw [hw]
  refine ⟨h.drive, h.hold, ?_, h.completed, h.stands⟩
  intro g hg r others behind hq hh
  rw [ht]
  exact h.group g hg hq hh

/-! ## DEBOUNCE_EXPIRY (R11) -/

/-- R11: what becomes of one input as the timers of a report expire. -/
theorem InputPart.expire_of (i : InputPart) (report : Nat) (k : Input) :
    ((i.expire report).debounced.of k, (i.expire report).timers.of k) =
      expireInput report (i.raw.of k) (i.debounced.of k) (i.timers.of k) := by
  cases k <;> rfl

theorem expireInput_eq (report : Nat) (raw debounced : Bool) (timer : Option DebounceTimer) :
    expireInput report raw debounced timer =
      if timer.any (·.report == report) then (raw, none) else (debounced, timer) := by
  cases timer with
  | none => rfl
  | some u => simp [expireInput]

theorem Yard.debounceExpiry_takes {s : State} {d report : Nat} {x : Door} (hx : s.door? d = some x)
    (ht : x.inp.inTouch s.env) :
    Yard.Takes d x ((x.withInputs (x.inp.expire report) x.powerSeen).deliver s x.inp.debounced) s.yard
      (s.yard.debounceExpiry s.env d report) := by
  have hx' : s.yard.doors[d]? = some x := hx
  unfold Yard.debounceExpiry
  simp only [hx']
  have deliver := Yard.takes_deliver (s := s) (x := x.withInputs (x.inp.expire report) x.powerSeen)
    (y := s.yard.modify d fun z => { z with inp := x.inp.expire report }) (d := d) x.inp.debounced
    (by rw [Yard.modify_get_same, hx']; rfl) ht
  exact deliver.after_modify hx' rfl rfl rfl

theorem exec_debounceExpiry_due {s : State} {d : Nat} {i : Input} {x : Door} {tm : DebounceTimer}
    (hx : s.door? d = some x) (htm : x.inp.timers.of i = some tm) (hdue : tm.expiry ≤ s.clock) :
    exec (.debounceExpiry d i) s = .next (s.takeDebounce d tm.report) := by
  have timer : (s.door? d).bind (·.debounceTimer i) = some tm := by rw [hx]; exact htm
  show execDebounceExpiry d i s = _
  unfold execDebounceExpiry
  rw [timer]
  simp only [State.atExpiry_due hdue]

/-- Settles O37: the record after the position, LO and LC have been delivered, against the statement's own account. -/
theorem debounceExpiryDelivers : Obligations.DebounceExpiryDelivers := by
  unfold Obligations.DebounceExpiryDelivers
  intro s d x i tm hx htm hdue ht expires
  have takes := Yard.debounceExpiry_takes (report := tm.report) hx ht
  have record := x.deliver_deliveredTo s (x.inp.expire tm.report) x.powerSeen
  refine ⟨_, exec_debounceExpiry_due hx htm hdue, State.oneDoor_doorTake (Yard.calm_debounceExpiry _ _ _ _),
    State.doorTake_ring _ _ _, ?_⟩
  refine (State.doorTake_door takes.door).mono fun z hz => ?_
  have after := record.ofAlarms hz
  have inputs : ∀ k, (z.inp.debounced.of k, z.inp.timers.of k) =
      if expires k then (x.inp.raw.of k, none) else (x.inp.debounced.of k, x.inp.timers.of k) := fun k => by
    have started : expires k = (x.inp.timers.of k).any (·.report == tm.report) := by
      simp only [expires]
      cases x.inp.timers.of k <;> rfl
    rw [after.inp, InputPart.expire_of, expireInput_eq, started]
  refine ⟨fun k => ?_, fun k => ?_, by rw [after.inp]; rfl, after.position, after.inhibit, ?_, after.tripCount,
    after.delivered ?_⟩
  · rw [show z.inp.debounced.of k = _ from congrArg Prod.fst (inputs k)]
    split <;> rfl
  · rw [show z.inp.timers.of k = _ from congrArg Prod.snd (inputs k)]
    split <;> rfl
  · rw [hz, Door.deliver_eq]; rfl
  · rw [hz]
    exact takes.groupFollows (t := s.takeDebounce d tm.report) (State.doorTake_yard _ _ _)

end Sys2Proof.Machine
end

section
/-! SUPPORT. The sensor take (R6 to R15) and the alert evaluation that may follow it (R12 step 5). -/

namespace Sys2Proof.Machine

/-! ## A fresh report's inputs (R8 to R10, R15) -/

/-- R8, R9: the fields a fresh report stores, recovering or not. -/
theorem InputPart.takeReport_fields (i : InputPart) (time arrival : Nat) (r : Report) :
    let j := i.takeReport time arrival r
    j.lastSeq = some r.seq ∧ j.raw = r.inputs ∧ j.pw = r.pw ∧ j.ob = r.ob ∧ j.pressure = r.pressure ∧
      j.freshness = some arrival ∧ j.reported = true ∧ j.stale = false := by
  unfold InputPart.takeReport
  split
  · exact ⟨rfl, rfl, rfl, rfl, rfl, rfl, rfl, rfl⟩
  · next h =>
    obtain ⟨hstale, hreported⟩ : i.stale = false ∧ i.reported = true := by simpa using h
    exact ⟨rfl, rfl, rfl, rfl, rfl, rfl, hreported, hstale⟩

/-- R15: a recovering report takes every input at once. -/
theorem InputPart.takeReport_recovering {i : InputPart} (time arrival : Nat) (r : Report)
    (h : i.stale = true ∨ i.reported = false) :
    (i.takeReport time arrival r).debounced = r.inputs ∧
      ∀ k, (i.takeReport time arrival r).timers.of k = none := by
  have recovers : (i.stale || !i.reported) = true := by simpa using h
  rw [InputPart.takeReport, if_pos recovers]
  exact ⟨rfl, fun k => by cases k <;> rfl⟩

/-- R10: any other takes each input through debounce. -/
theorem InputPart.takeReport_fresh {i : InputPart} (time arrival : Nat) (r : Report)
    (hs : i.stale = false) (hr : i.reported = true) (k : Input) :
    ((i.takeReport time arrival r).debounced.of k, (i.takeReport time arrival r).timers.of k) =
      debounceInput time arrival i.reports (r.inputs.of k) (i.debounced.of k) (i.timers.of k) := by
  rw [InputPart.takeReport, if_neg (by simp [hs, hr])]
  cases k <;> rfl

/-- R10: an input that agrees with its debounced value has no timer. -/
theorem debounceInput_agrees {time arrival report : Nat} {raw debounced : Bool} {timer : Option DebounceTimer}
    (h : raw = debounced) : debounceInput time arrival report raw debounced timer = (debounced, none) := if_pos h

/-- R10: one that differs keeps a timer that runs; with none, it is taken at once or starts one. -/
theorem debounceInput_running {time arrival report : Nat} {raw debounced : Bool} {u : DebounceTimer}
    (h : raw ≠ debounced) : debounceInput time arrival report raw debounced (some u) = (debounced, some u) :=
  if_neg h

theorem debounceInput_at_once {arrival report : Nat} {raw debounced : Bool} (h : raw ≠ debounced) :
    debounceInput 0 arrival report raw debounced none = (raw, none) := if_neg h

theorem debounceInput_starts {time arrival report : Nat} {raw debounced : Bool} (h : raw ≠ debounced)
    (ht : 0 < time) : debounceInput time arrival report raw debounced none =
      (debounced, some { expiry := arrival + time, report := report }) :=
  (if_neg h).trans (if_neg ht.ne')

/-! ## The alert evaluation -/

/-- R53: a trip leaves the inputs and the position of a door whose freshness timer meets no limit. -/
theorem Yard.trip_inSight {y : Yard} {e : Env} {d : Nat} {x : Door} (hx : y.doors[d]? = some x)
    (ht : x.inp.inTouch e) :
    ∃ z, (y.trip e d).1.doors[d]? = some z ∧ z.static = x.static ∧ z.inp = x.inp ∧ z.position = x.position ∧
      z.powerSeen = x.powerSeen := by
  have hx1 : (y.modify d fun z => z.countTrip e).doors[d]? = some (x.countTrip e) := by
    rw [Yard.modify_get_same, hx]; rfl
  have fresh : (y.modify d fun z => z.countTrip e).Fresh False e d := Yard.fresh_of hx1 ht
  have drives := Yard.steady_changeDrive fresh (x.tripDrive e) false
  have steady : Yard.Steady False d (y.modify d fun z => z.countTrip e) (y.trip e d).1 := by
    unfold Yard.trip
    simp only [hx]
    split
    · exact drives.andThen fresh Yard.steady_enforce
    · exact drives
  obtain ⟨z, hz, hs⟩ := steady.door _ hx1
  obtain ⟨hinp, hpos⟩ := hs.inSight
  exact ⟨z, hz, hs.static, hinp, hpos, hs.powerSeen⟩

/-- R49: a door that is not closing is not evaluated. -/
theorem Yard.evaluateAlert_idle {y : Yard} {e : Env} {d : Nat} {x : Door} (r : Report)
    (hx : y.doors[d]? = some x) (hrun : x.drive.closingRun = false) : y.evaluateAlert e d r = (y, []) := by
  simp [Yard.evaluateAlert, hx, hrun]

/-- R50, R51: the protection part after the evaluation of a report. -/
def Door.evaluated (e : Env) (x : Door) (r : Report) : Protection :=
  x.prot.evaluate x.st.margin r.ob r.pressure (e.clock + e.times.tripDelay)

/-- R51: an evaluation that trips nothing at once changes the protection part alone. -/
theorem Yard.evaluateAlert_quiet {y : Yard} {e : Env} {d : Nat} {x : Door} {r : Report}
    (hx : y.doors[d]? = some x) (hrun : x.drive.closingRun = true)
    (hq : 0 < e.times.tripDelay ∨ x.prot.alert ≠ none) :
    y.evaluateAlert e d r = (y.modify d fun z => { z with prot := x.evaluated e r }, []) := by
  have no_trip : ¬ (x.prot.alert = none ∧ (x.evaluated e r).alert ≠ none ∧ e.times.tripDelay = 0) := fun h =>
    hq.elim (fun hd => by omega) fun ha => ha h.1
  simp only [Yard.evaluateAlert, hx, hrun, if_true]
  exact if_neg no_trip

/-- R12 step 5: the evaluation leaves the inputs and the position. -/
theorem Yard.evaluateAlert_inSight {y : Yard} {e : Env} {d : Nat} {x : Door} (r : Report)
    (hx : y.doors[d]? = some x) (ht : x.inp.inTouch e) :
    ∃ z, (y.evaluateAlert e d r).1.doors[d]? = some z ∧ z.static = x.static ∧ z.inp = x.inp ∧
      z.position = x.position ∧ z.powerSeen = x.powerSeen := by
  have hx1 : (y.modify d fun z => { z with prot := x.evaluated e r }).doors[d]? =
      some { x with prot := x.evaluated e r } := by
    rw [Yard.modify_get_same, hx]; rfl
  unfold Yard.evaluateAlert
  simp only [hx]
  split
  · split
    · exact Yard.trip_inSight (x := { x with prot := x.evaluated e r }) hx1 ht
    · exact ⟨_, hx1, rfl, rfl, rfl, rfl⟩
  · exact ⟨x, hx, rfl, rfl, rfl, rfl⟩

/-! ## The sensor take -/

/-- R4: a position is read off the static part and the inputs. -/
theorem Env.positionOf_congr (e : Env) {x z : Door} (hs : z.static = x.static) (hi : z.inp = x.inp) :
    e.positionOf z = e.positionOf x := by
  have owner : z.owner = x.owner := congrArg (Option.map DoorStatic.scanner) hs
  simp only [Env.positionOf, Env.authorized, owner, hi]

/-- The input part that a fresh report leaves. -/
def Door.reportTaken (s : State) (x : Door) (w : Word) (arrival : Nat) : InputPart :=
  x.inp.takeReport s.times.debounce arrival (reportOf w)

/-- The record and the yard that a fresh report leaves before the alert evaluation. -/
def Door.reportDelivered (s : State) (x : Door) (w : Word) (arrival : Nat) : Door :=
  (x.withInputs (x.reportTaken s w arrival) true).deliver s x.inp.debounced

def Yard.reportDelivered (y : Yard) (s : State) (d : Nat) (x : Door) (w : Word) (arrival : Nat) : Yard :=
  (y.modify d fun z => { z with inp := x.reportTaken s w arrival, powerSeen := true }).deliver s.env d
    x.inp.debounced (x.reportTaken s w arrival).debounced

/-- R7: a repeat is not taken. -/
theorem Yard.sensorTake_repeat {y : Yard} {e : Env} {d : Nat} {x : Door} {w : Word} {arrival : Nat}
    (hx : y.doors[d]? = some x) (h : x.inp.lastSeq = some (reportOf w).seq) :
    y.sensorTake e d w arrival = (y, []) := by
  simp [Yard.sensorTake, hx, h]

theorem Yard.sensorTake_fresh {s : State} {d : Nat} {x : Door} {w : Word} {arrival : Nat}
    (hx : s.door? d = some x) (h : x.inp.lastSeq ≠ some (reportOf w).seq) :
    s.yard.sensorTake s.env d w arrival =
      if x.drive.closingRun then (s.yard.reportDelivered s d x w arrival).evaluateAlert s.env d (reportOf w)
      else (s.yard.reportDelivered s d x w arrival, []) := by
  have hx' : s.yard.doors[d]? = some x := hx
  simp only [Yard.sensorTake, hx', if_neg h]
  rfl

/-- R13: a report that has not waited as long as either limit leaves a timer that meets none. -/
theorem Door.reportTaken_inTouch {s : State} {x : Door} {w : Word} {arrival : Nat}
    (ha : s.clock < arrival + s.times.activeLimit) (hi : s.clock < arrival + s.times.idleLimit) :
    (x.reportTaken s w arrival).inTouch s.env := by
  obtain ⟨-, -, -, -, -, started, -⟩ := x.inp.takeReport_fields s.times.debounce arrival (reportOf w)
  refine ⟨fun start h => ?_, fun start h => ?_⟩ <;> cases started.symm.trans h
  · exact ha
  · exact hi

theorem Yard.reportDelivered_takes {s : State} {d : Nat} {x : Door} {w : Word} {arrival : Nat}
    (hx : s.door? d = some x) (ht : (x.reportTaken s w arrival).inTouch s.env) :
    Yard.Takes d x (x.reportDelivered s w arrival) s.yard (s.yard.reportDelivered s d x w arrival) := by
  have hx' : s.yard.doors[d]? = some x := hx
  have deliver := Yard.takes_deliver (s := s) (x := x.withInputs (x.reportTaken s w arrival) true)
    (y := s.yard.modify d fun z => { z with inp := x.reportTaken s w arrival, powerSeen := true }) (d := d)
    x.inp.debounced (by rw [Yard.modify_get_same, hx']; rfl) ht
  exact deliver.after_modify hx' rfl rfl rfl

/-- R12: what the sensor take of a fresh report leaves of its door's record `x`: the inputs of the report, the position
they give, and what they deliver, but for the protection part of a door that goes on closing, and for a trip. -/
structure Door.ReportTaken (s t : State) (d : Nat) (x : Door) (w : Word) (arrival : Nat) (cs : List Capture)
    (z : Door) : Prop where
  inp : z.inp = x.reportTaken s w arrival
  position : z.position = s.env.positionOf z
  powerSeen : z.powerSeen = true
  quiet : x.drive.closingRun = true → 0 < s.times.tripDelay ∨ x.prot.alert ≠ none → Delivered s t d x z
  stopped : (deliveredDrive s x z.inp.debounced z.position).closingRun = false → cs = [] ∧ Delivered s t d x z
  idle : x.drive.closingRun = false → cs = [] ∧ Delivered s t d x z

/-- R12, R50, R51: the take of a fresh report; on a door that goes on closing the evaluation follows the delivery. -/
theorem Yard.sensorTake_taken {s : State} {d : Nat} {x : Door} {w : Word} {arrival : Nat}
    (hx : s.door? d = some x) (h : x.inp.lastSeq ≠ some (reportOf w).seq)
    (ht : (x.reportTaken s w arrival).inTouch s.env) :
    let out := s.yard.sensorTake s.env d w arrival
    ∃ z, out.1.doors[d]? = some z ∧ x.ReportTaken s (s.setYard out.1) d w arrival out.2 z := by
  rw [Yard.sensorTake_fresh hx h]
  let y1 := s.yard.reportDelivered s d x w arrival
  let z1 := x.reportDelivered s w arrival
  have takes : Yard.Takes d x z1 s.yard y1 := Yard.reportDelivered_takes hx ht
  have record : x.DeliveredTo s (x.reportTaken s w arrival) z1 := x.deliver_deliveredTo s _ true
  have seen : z1.powerSeen = true := by
    simp only [z1, Door.reportDelivered]; rw [Door.deliver_eq]; rfl
  have touch : z1.inp.inTouch s.env := by rw [record.inp]; exact ht
  have follows : ∀ t : State, t.yard.groups = y1.groups → GroupFollows d x z1 s t := fun _ => takes.groupFollows
  have not_evaluated : Door.ReportTaken s (s.setYard y1) d x w arrival [] z1 :=
    have delivered := record.delivered (follows (s.setYard y1) rfl)
    ⟨record.inp, record.position, seen, fun _ _ => delivered, fun _ => ⟨rfl, delivered⟩,
      fun _ => ⟨rfl, delivered⟩⟩
  cases hrun : x.drive.closingRun with
  | false => exact ⟨z1, takes.door, not_evaluated⟩
  | true =>
    rw [if_pos rfl]
    cases hrun1 : z1.drive.closingRun with
    | false =>
      rw [Yard.evaluateAlert_idle (reportOf w) takes.door hrun1]
      exact ⟨z1, takes.door, not_evaluated⟩
    | true =>
      obtain ⟨z, hz, hstatic, hinp, hpos, hseen⟩ := Yard.evaluateAlert_inSight (reportOf w) takes.door touch
      refine ⟨z, hz, hinp.trans record.inp, ?_, hseen.trans seen, fun _ hq => ?_, fun hstop => ?_, fun hidle => ?_⟩
      · rw [hpos, Env.positionOf_congr _ hstatic hinp]
        exact record.position
      · have alert : z1.prot.alert = x.prot.alert := by
          have goes_on := record.stands fun hc => by simp [(record.completed hc).1] at hrun1
          rw [goes_on, hrun, hrun1]
          rfl
        have out := Yard.evaluateAlert_quiet (e := s.env) (r := reportOf w) takes.door hrun1 (by rw [alert]; exact hq)
        rw [out, Yard.modify_get_same, takes.door] at hz
        rw [out, ← Option.some.inj hz]
        exact record.delivered_closing (follows _ rfl) hrun hrun1
      · rw [hinp, record.inp, hpos, ← record.drive, hrun1] at hstop
        cases hstop
      · rw [hrun] at hidle
        cases hidle

/-- R104: a sensor take ends with the evaluation of the alarms. -/
theorem State.sensorTake_oneDoor (s : State) (d : Nat) (w : Word) (arrival : Nat) :
    OneDoor d s (s.sensorTake d w arrival) := by
  unfold State.sensorTake
  apply State.oneDoor_take
  · rw [State.captures_yard]
    exact Yard.calm_sensorTake _ _ _ _ _
  · rw [State.captures_eq]
    rfl

/-- R10: what debounce leaves of one input of a door that a report does not recover. -/
theorem Door.reportTaken_input {s : State} {x : Door} {w : Word} {arrival : Nat} (hs : x.inp.stale = false)
    (hr : x.inp.reported = true) (k : Input) :
    let raw := (reportOf w).inputs.of k
    let i := x.reportTaken s w arrival
    (raw = x.inp.debounced.of k → i.debounced.of k = x.inp.debounced.of k ∧ i.timers.of k = none) ∧
    (raw ≠ x.inp.debounced.of k →
      (∀ u, x.inp.timers.of k = some u → i.debounced.of k = x.inp.debounced.of k ∧ i.timers.of k = some u) ∧
      (x.inp.timers.of k = none → s.times.debounce = 0 → i.debounced.of k = raw ∧ i.timers.of k = none) ∧
      (x.inp.timers.of k = none → 0 < s.times.debounce → i.debounced.of k = x.inp.debounced.of k ∧
        (i.timers.of k).map (·.expiry) = some (arrival + s.times.debounce))) := by
  intro raw i
  have taken : (i.debounced.of k, i.timers.of k) = _ :=
    InputPart.takeReport_fresh s.times.debounce arrival (reportOf w) hs hr k
  refine ⟨fun h => ?_, fun h => ⟨fun u hu => ?_, fun hn h0 => ?_, fun hn hpos => ?_⟩⟩
  · rw [debounceInput_agrees h] at taken
    exact Prod.mk.inj taken
  · rw [hu, debounceInput_running h] at taken
    exact Prod.mk.inj taken
  · rw [hn, h0, debounceInput_at_once h] at taken
    exact Prod.mk.inj taken
  · rw [hn, debounceInput_starts h hpos] at taken
    obtain ⟨hdebounced, htimer⟩ := Prod.mk.inj taken
    exact ⟨hdebounced, by rw [htimer]; rfl⟩

/-- Settles O40: the sensor take of a fresh report by `Yard.sensorTake_taken`, its inputs field by field. -/
theorem sensorTakeUpdatesTheInputs : Obligations.SensorTakeUpdatesTheInputs := by
  unfold Obligations.SensorTakeUpdatesTheInputs
  intro s d x w arrival hx seq raw t
  have frame : OneDoor d s t := s.sensorTake_oneDoor d w arrival
  refine ⟨fun hrepeat => ?_, fun hfresh hactive hidle => ⟨frame, ?_⟩⟩
  · have same : s.yard.sensorTake s.env d w arrival = (s.yard, []) := Yard.sensorTake_repeat hx hrepeat
    have ends : t = State.endTake s.yard s := by
      simp only [t, State.sensorTake, same]; rfl
    exact ⟨by rw [ends]; exact State.endTake_yard_same, by rw [ends]; rfl, frame⟩
  · obtain ⟨v, hv, taken⟩ := Yard.sensorTake_taken hx hfresh (Door.reportTaken_inTouch hactive hidle)
    let out := s.yard.sensorTake s.env d w arrival
    have groups : t.yard.groups = out.1.groups := by
      simp only [t, State.sensorTake, State.endTake_yard_groups, State.captures_yard]; rfl
    have ring : out.2 = [] → t.ring = s.ring := fun hnone => by
      simp only [t, State.sensorTake]
      rw [show (Yard.sensorTake _ _ _ _ _).2 = [] from hnone]
      rfl
    have ended : DoorAfter d t v.sameButAlarms := by
      apply State.endTake_door
      rw [State.captures_door]
      exact hv
    refine ended.mono fun z hz => ?_
    have delivered : Delivered s (s.setYard out.1) d x v → Delivered s t d x z := fun h => h.ofAlarms groups hz
    have inp : z.inp = x.reportTaken s w arrival := by rw [hz]; exact taken.inp
    obtain ⟨hseq, hraw, hpw, hob, hpressure, hstart, hreported, hstale⟩ :=
      x.inp.takeReport_fields s.times.debounce arrival (reportOf w)
    refine ⟨by rw [hz]; exact taken.powerSeen, ?_⟩
    rw [inp]
    have position : v.position = z.position := by rw [hz]
    refine ⟨hseq, hraw, hpw, hob, hpressure, hstart, hreported, hstale, by rw [hz]; exact taken.position,
      fun hrun hq => delivered (taken.quiet hrun hq), fun hstop => ?_, fun hrun => ?_,
      InputPart.takeReport_recovering _ _ _, fun hs hr k => Door.reportTaken_input hs hr k⟩
    · obtain ⟨hnone, hdelivered⟩ := taken.stopped (by rw [taken.inp, position]; exact hstop)
      exact ⟨ring hnone, delivered hdelivered⟩
    · obtain ⟨hnone, hdelivered⟩ := taken.idle hrun
      exact ⟨ring hnone, delivered hdelivered⟩

end Sys2Proof.Machine
end

section
/-! SUPPORT. The law of R23 and R55 under each operation of the door table: a door whose inhibit is not NONE goes only
where that law lets it. -/

namespace Sys2Proof.Machine

/-! ## Where a door goes that becomes stale on its way (R14, R22, R39) -/

/-- R39: where an LO fall leaves a door. -/
def Drive.Fallen (drive : Drive) : Prop := drive = .resting ∨ ∃ r, drive = .recloseWait r

theorem Drive.Fallen.not_bound {drive : Drive} (h : drive.Fallen) : drive.bound = false := by
  rcases h with rfl | ⟨r, rfl⟩ <;> rfl

theorem loFallDrive_fallen {e : Env} {x : Door} {new : Drive} (h : loFallDrive e x = some new) :
    x.powered = true ∧ new.Fallen := by
  unfold loFallDrive at h
  split at h
  · cases h
  · next hp =>
    refine ⟨by simpa using hp, ?_⟩
    split at h
    · cases h; exact .inl rfl
    · cases h
      split
      · exact .inr ⟨_, rfl⟩
      · exact .inl rfl
    · split at h
      · cases h; exact .inr ⟨_, rfl⟩
      · cases h
    · cases h

/-- R22, R14: a door that goes to a drive state is there, or has become stale on its way and has let go of LO. -/
structure Door.Turns (new : Drive) (x z : Door) : Prop where
  static : z.static = x.static
  inhibit : z.inhibit = x.inhibit
  drive : z.drive = new ∨ (x.powered = true ∧ z.drive.Fallen)

theorem Door.turns_self (x : Door) : Door.Turns x.drive x x := ⟨rfl, rfl, .inl rfl⟩

theorem Door.Turns.bound {new : Drive} {x z : Door} (h : Door.Turns new x z) (hn : new.bound = false) :
    z.drive.bound = false := by
  rcases h.drive with hd | ⟨-, hd⟩
  · rw [hd, hn]
  · exact hd.not_bound

theorem Door.powered_congr {x z : Door} (h : z.static = x.static) : z.powered = x.powered := by
  unfold Door.powered; rw [Door.st_congr h]

/-- R14: staleness leaves the drive state, but for the LO fall. -/
theorem Yard.goStale_turns {y : Yard} (e : Env) {d : Nat} {x : Door} (hx : y.doors[d]? = some x) :
    ∃ z, (y.goStale e d).doors[d]? = some z ∧ Door.Turns x.drive x z := by
  obtain ⟨z, hz, steady⟩ := (Yard.steady_goStale trivial y e d).door x hx
  refine ⟨z, hz, steady.static, steady.inhibit, ?_⟩
  cases hs : x.inp.stale with
  | true =>
    have same : y.goStale e d = y := by simp [Yard.goStale, hx, hs]
    rw [same, hx] at hz
    obtain rfl := Option.some.inj hz
    exact .inl rfl
  | false =>
    by_cases hq : x.staleQuiet e
    · rw [Yard.goStale_quiet hx hs hq, Yard.modify_get_same, hx] at hz
      obtain rfl := Option.some.inj hz
      exact .inl rfl
    · obtain ⟨hlo, hfall⟩ := not_or.mp hq
      obtain ⟨new, hn⟩ := Option.ne_none_iff_exists'.mp hfall
      rw [(Yard.goStale_falls hx hs (by simpa using hlo) hn).1] at hz
      obtain rfl := Option.some.inj hz
      exact .inr (loFallDrive_fallen hn)

theorem Yard.judgeFreshness_turns {y : Yard} (e : Env) {d : Nat} {x : Door} (hx : y.doors[d]? = some x) :
    ∃ z, (y.judgeFreshness e d).doors[d]? = some z ∧ Door.Turns x.drive x z := by
  unfold Yard.judgeFreshness
  simp only [hx]
  split
  · exact ⟨x, hx, x.turns_self⟩
  · split
    · exact Yard.goStale_turns e hx
    · exact ⟨x, hx, x.turns_self⟩

/-- R22: a change of drive state. -/
theorem Yard.changeDrive_turns {y : Yard} (e : Env) {d : Nat} {x : Door} (new : Drive) (c : Bool)
    (hx : y.doors[d]? = some x) :
    ∃ z, (y.changeDrive e d new c).doors[d]? = some z ∧ Door.Turns new x z := by
  let gone : Yard := (y.modify d fun z => { z with drive := new }).arbiterTake d x x.drive new
  have hgone : gone.doors[d]? = some { x with drive := new } := by
    simp [gone, hx]
  have judged : ∃ z, (if x.drive.bound = new.bound then gone else gone.judgeFreshness e d).doors[d]? = some z ∧
      Door.Turns new x z := by
    split
    · exact ⟨_, hgone, rfl, rfl, .inl rfl⟩
    · obtain ⟨z, hz, turns⟩ := Yard.judgeFreshness_turns e hgone
      exact ⟨z, hz, turns.static, turns.inhibit, turns.drive⟩
  obtain ⟨z, hz, turns⟩ := judged
  unfold Yard.changeDrive
  simp only [hx, Yard.runTake_eq, Yard.modify_get_same]
  exact ⟨_, congrArg (Option.map _) hz, turns.static, turns.inhibit, turns.drive⟩

/-! ## The law, door by door -/

/-- R23, R55: where a door may be whose inhibit is not NONE. -/
def Drive.UnderInhibit (drive : Drive) : Prop :=
  (∀ o p, drive ≠ .warning o p) ∧ (∀ r, drive ≠ .tripped r) ∧ ∀ o, drive.origin = some o → o = .localReq

@[simp] theorem Drive.underInhibit_resting : Drive.resting.UnderInhibit := by
  simp [Drive.UnderInhibit, Drive.origin]

@[simp] theorem Drive.underInhibit_isolated : Drive.isolated.UnderInhibit := by
  simp [Drive.UnderInhibit, Drive.origin]

@[simp] theorem Drive.underInhibit_recloseWait (r : Nat) : (Drive.recloseWait r).UnderInhibit := by
  simp [Drive.UnderInhibit, Drive.origin]

@[simp] theorem Drive.underInhibit_queued {dir : Direction} {o : Origin} :
    (Drive.queued dir o).UnderInhibit ↔ o = .localReq := by
  simp [Drive.UnderInhibit, Drive.origin]

@[simp] theorem Drive.underInhibit_moving {dir : Direction} {o : Origin} {tr : Nat} :
    (Drive.moving dir o tr).UnderInhibit ↔ o = .localReq := by
  simp [Drive.UnderInhibit, Drive.origin]

@[simp] theorem Drive.not_underInhibit_warning (o : Origin) (p : Nat) : ¬ (Drive.warning o p).UnderInhibit :=
  fun h => h.1 o p rfl

@[simp] theorem Drive.not_underInhibit_tripped (r : Nat) : ¬ (Drive.tripped r).UnderInhibit :=
  fun h => h.2.1 r rfl

theorem Drive.Fallen.underInhibit {drive : Drive} (h : drive.Fallen) : drive.UnderInhibit := by
  rcases h with rfl | ⟨r, rfl⟩
  · exact Drive.underInhibit_resting
  · exact Drive.underInhibit_recloseWait r

/-- R23, R55: the law at one door. -/
def Door.Heeds (x : Door) : Prop := x.inhibit ≠ .none → x.drive.UnderInhibit

/-- R23, R55: the law at every door. -/
def Yard.Heeds (y : Yard) : Prop := ∀ (d : Nat) (x : Door), y.doors[d]? = some x → x.Heeds

theorem State.inhibitLawful_iff {s : State} : s.inhibitLawful ↔ s.yard.Heeds := Iff.rfl

/-- The law at every door but one. -/
def Yard.HeedsBut (d : Nat) (y : Yard) : Prop := ∀ (k : Nat) (x : Door), k ≠ d → y.doors[k]? = some x → x.Heeds

theorem Yard.Heeds.but {y : Yard} (h : y.Heeds) (d : Nat) : y.HeedsBut d := fun k x _ hx => h k x hx

theorem Yard.HeedsBut.modify {y : Yard} {d : Nat} (h : y.HeedsBut d) (f : Door → Door) : (y.modify d f).HeedsBut d :=
  fun k x hk hx => h k x hk (by rwa [Yard.modify_get_ne y f hk] at hx)

/-- An operation at a door keeps the law where it brings the door itself under it. -/
theorem Yard.HeedsBut.heeds {y y' : Yard} {d : Nat} (h : y.HeedsBut d)
    (others : ∀ k, k ≠ d → y'.doors[k]? = y.doors[k]?) (door : ∀ z, y'.doors[d]? = some z → z.Heeds) :
    y'.Heeds := by
  intro k z hz
  by_cases hk : k = d
  · subst hk; exact door z hz
  · exact h k z hk (by rwa [others k hk] at hz)

theorem Door.Turns.heeds {new : Drive} {x z : Door} (h : Door.Turns new x z)
    (hn : x.inhibit ≠ .none → new.UnderInhibit) : z.Heeds := by
  intro hi
  rw [h.inhibit] at hi
  rcases h.drive with hd | ⟨-, hd⟩
  · rw [hd]; exact hn hi
  · exact hd.underInhibit

/-- An operation at a door that keeps the number of records finds a record where it leaves one. -/
theorem Yard.AtDoor.found {R : Door → Door → Prop} {d : Nat} {y y' : Yard} (h : Yard.AtDoor R d y y') {z : Door}
    (hz : y'.doors[d]? = some z) : ∃ x, y.doors[d]? = some x ∧ R x z := by
  cases hx : y.doors[d]? with
  | none =>
    have gone : y'.doors[d]? = none := by
      have short : y.doors.length ≤ d := by simpa using hx
      simp [h.length, short]
    rw [gone] at hz; cases hz
  | some x =>
    obtain ⟨w, hw, hr⟩ := h.door x hx
    rw [hw] at hz
    obtain rfl := Option.some.inj hz
    exact ⟨x, rfl, hr⟩

/-! ## The operations at one door -/

theorem Yard.heeds_modify {y : Yard} (h : y.Heeds) (d : Nat) {f : Door → Door}
    (hf : ∀ x, y.doors[d]? = some x → x.Heeds → (f x).Heeds) : (y.modify d f).Heeds := by
  refine (h.but d).heeds (fun k hk => Yard.modify_get_ne y f hk) fun z hz => ?_
  rw [Yard.modify_get_same] at hz
  obtain ⟨x, hx, rfl⟩ := Option.map_eq_some_iff.mp hz
  exact hf x hx (h d x hx)

/-- R22: a change of drive state brings a door under the law where the new state allows it. -/
theorem Yard.heeds_changeDrive {y : Yard} {d : Nat} (h : y.HeedsBut d) (e : Env) {new : Drive} (c : Bool)
    (hn : ∀ x, y.doors[d]? = some x → x.inhibit ≠ .none → new.UnderInhibit) :
    (y.changeDrive e d new c).Heeds := by
  have calm := Yard.calm_changeDrive y e d new c
  refine h.heeds calm.others fun z hz => ?_
  obtain ⟨x, hx, -⟩ := calm.found hz
  obtain ⟨w, hw, turns⟩ := Yard.changeDrive_turns e new c hx
  rw [hw] at hz
  obtain rfl := Option.some.inj hz
  exact turns.heeds (hn x hx)

theorem Yard.heeds_goStale {y : Yard} (h : y.Heeds) (e : Env) (d : Nat) : (y.goStale e d).Heeds := by
  have calm := Yard.calm_goStale y e d
  refine (h.but d).heeds calm.others fun z hz => ?_
  obtain ⟨x, hx, -⟩ := calm.found hz
  obtain ⟨w, hw, turns⟩ := Yard.goStale_turns e hx
  rw [hw] at hz
  obtain rfl := Option.some.inj hz
  exact turns.heeds (h d x hx)

theorem Yard.heeds_judgeFreshness {y : Yard} (h : y.Heeds) (e : Env) (d : Nat) : (y.judgeFreshness e d).Heeds := by
  unfold Yard.judgeFreshness
  split
  · exact h
  · split
    · exact h
    · split
      · exact Yard.heeds_goStale h e d
      · exact h

/-- R41: the enforcement check passes over an inhibited door. -/
theorem Yard.heeds_enforce {y : Yard} (h : y.Heeds) (e : Env) (d : Nat) : (y.enforce e d).Heeds := by
  unfold Yard.enforce
  split
  · exact h
  · next x hx =>
    split
    · next he =>
      refine Yard.heeds_changeDrive (h.but d) e _ fun z hz hi => absurd ?_ hi
      rw [hx] at hz
      obtain rfl := Option.some.inj hz
      unfold Door.enforceable at he
      simp only [Bool.and_eq_true, beq_iff_eq] at he
      exact he.1.1.1.2
    · exact h

theorem Yard.heeds_rest {y : Yard} {d : Nat} (h : y.HeedsBut d) (e : Env) (c : Bool) : (y.rest e d c).Heeds :=
  Yard.heeds_enforce (Yard.heeds_changeDrive h e c fun _ _ _ => Drive.underInhibit_resting) e d

/-! ## Requests (R23 to R27) and grants (R28) -/

theorem startDrive_local (e : Env) (x : Door) (dir : Direction) :
    startDrive e x dir .localReq = .moving dir .localReq (e.clock + x.st.travelLimit) := by
  simp [startDrive, Origin.remote]

theorem updatedOrigin_local (o : Origin) : updatedOrigin o .localReq = .localReq := by
  simp [updatedOrigin]

/-- R25 to R27: a request of origin LOCAL leaves a door under that origin. -/
theorem requestedDrive_local_underInhibit {e : Env} {x : Door} {dir : Direction} {new : Drive}
    (h : requestedDrive e x dir .localReq = some new) : new.UnderInhibit := by
  unfold requestedDrive at h
  simp only [startDrive_local, updatedOrigin_local, ite_self, if_true] at h
  repeat' split at h
  all_goals cases h
  all_goals simp

/-- R23: a request reaches an inhibited door only with origin LOCAL. -/
theorem Yard.heeds_motionRequest {y : Yard} (h : y.Heeds) (e : Env) (d : Nat) (dir : Direction) {o : Origin}
    (ho : ∀ x, y.doors[d]? = some x → x.inhibit ≠ .none → o = .localReq) :
    (y.motionRequest e d dir o).Heeds := by
  unfold Yard.motionRequest
  split
  · exact h
  · next x hx =>
    split
    · split
      · exact h
      · exact h
      · exact Yard.heeds_rest (h.but d) e _
    · split
      · next new hn =>
        refine Yard.heeds_changeDrive (h.but d) e _ fun z hz hi => ?_
        rw [hx] at hz
        obtain rfl := Option.some.inj hz
        rw [ho x hx hi] at hn
        exact requestedDrive_local_underInhibit hn
      · exact h

/-- R28: a grant takes a door on with the origin it waited with. -/
theorem Yard.heeds_grantHead {y : Yard} (h : y.Heeds) (e : Env) (d : Nat) : (y.grantHead e d).Heeds := by
  unfold Yard.grantHead
  split
  · exact h
  · next x hx =>
    split
    · next dir o hd =>
      refine Yard.heeds_changeDrive (h.but d) e _ fun z hz hi => ?_
      rw [hx] at hz
      obtain rfl := Option.some.inj hz
      have waits := h d x hx hi
      rw [hd, Drive.underInhibit_queued] at waits
      rw [waits, startDrive_local, Drive.underInhibit_moving]
    · exact h

theorem Yard.heeds_grants {y : Yard} (h : y.Heeds) (e : Env) (g : GroupNum) (fuel : Nat) :
    (y.grants e g fuel).Heeds := by
  induction fuel generalizing y with
  | zero => exact h
  | succ n ih =>
    unfold Yard.grants
    split
    · split
      · exact ih (Yard.heeds_grantHead h e _)
      · exact h
    · exact h

theorem Yard.heeds_foldl {α : Type} {f : Yard → α → Yard} (hf : ∀ y a, y.Heeds → (f y a).Heeds) (l : List α)
    {y : Yard} (h : y.Heeds) : (l.foldl f y).Heeds := by
  induction l generalizing y with
  | nil => exact h
  | cons a l ih => exact ih (hf y a h)

theorem Yard.heeds_grantAll {y : Yard} (h : y.Heeds) (e : Env) : (y.grantAll e).Heeds :=
  Yard.heeds_foldl (fun _ g h => Yard.heeds_grants h e g _) _ h

theorem Yard.heeds_enforceAll {y : Yard} (h : y.Heeds) (e : Env) : (y.enforceAll e).Heeds :=
  Yard.heeds_foldl (fun _ d h => Yard.heeds_enforce h e d) _ h

/-! ## Sensor events (R5, R12, R37 to R39) -/

theorem Yard.heeds_loRise {y : Yard} (h : y.Heeds) (e : Env) (d : Nat) : (y.loRise e d).Heeds := by
  unfold Yard.loRise
  split
  · exact h
  · split
    · refine Yard.heeds_motionRequest ?_ e d _ fun _ _ _ => rfl
      split
      · exact Yard.heeds_modify h d fun _ _ hz => hz
      · exact h
    · exact h

theorem Yard.heeds_lcRise {y : Yard} (h : y.Heeds) (e : Env) (d : Nat) : (y.lcRise e d).Heeds := by
  unfold Yard.lcRise
  split
  · exact h
  · split
    · exact Yard.heeds_motionRequest h e d _ fun _ _ _ => rfl
    · exact h

theorem Yard.heeds_loFall {y : Yard} (h : y.Heeds) (e : Env) (d : Nat) : (y.loFall e d).Heeds := by
  unfold Yard.loFall
  split
  · exact h
  · have clear : (y.modify d fun z => { z with hold := false }).Heeds := Yard.heeds_modify h d fun _ _ hz => hz
    simp only
    split
    · exact Yard.heeds_rest (clear.but d) e _
    · next hn =>
      exact Yard.heeds_changeDrive (clear.but d) e _ fun _ _ _ => (loFallDrive_fallen hn).2.underInhibit
    · exact clear

theorem Yard.heeds_positionChange {y : Yard} (h : y.Heeds) (e : Env) (d : Nat) (old new : Position) :
    (y.positionChange e d old new).Heeds := by
  unfold Yard.positionChange
  split
  · exact h
  · have checked : ∀ b : Bool, ((if b then y.changeDrive e d .resting true else y).enforce e d).Heeds := fun b => by
      refine Yard.heeds_enforce ?_ e d
      split
      · exact Yard.heeds_changeDrive (h.but d) e _ fun _ _ _ => Drive.underInhibit_resting
      · exact h
    simp only
    split
    · exact Yard.heeds_modify (checked _) d fun _ _ hz => hz
    · exact checked _

theorem Yard.heeds_rederive {y : Yard} (h : y.Heeds) (e : Env) (d : Nat) : (y.rederive e d).Heeds := by
  unfold Yard.rederive
  split
  · exact h
  · simp only
    split
    · exact h
    · exact Yard.heeds_positionChange (by exact Yard.heeds_modify h d fun _ _ hz => hz) e d _ _

theorem Yard.heeds_deliver {y : Yard} (h : y.Heeds) (e : Env) (d : Nat) (before after : Four Bool) :
    (y.deliver e d before after).Heeds := by
  have positioned := Yard.heeds_rederive h e d
  have afterLo : ((y.rederive e d).deliverLo e d before.lo after.lo).Heeds := by
    unfold Yard.deliverLo
    split
    · split
      · exact Yard.heeds_loRise positioned e d
      · exact positioned
    · exact Yard.heeds_loFall positioned e d
    · exact positioned
  unfold Yard.deliver Yard.deliverLc
  split
  · exact Yard.heeds_lcRise afterLo e d
  · exact afterLo

/-- R53: a trip takes a door to TRIPPED only where its inhibit is NONE and stays so. -/
theorem Door.tripDrive_underInhibit {e : Env} {x : Door} (h : x.Heeds) (hrun : x.drive.closingRun = true)
    (hi : (x.countTrip e).inhibit ≠ .none) : (x.tripDrive e).UnderInhibit := by
  unfold Door.tripDrive
  split
  · exact Drive.underInhibit_resting
  · next hlatch =>
    have inhibited : x.inhibit ≠ .none := by simpa [Door.countTrip, hlatch] using hi
    have isLocal : x.drive.origin = some .localReq := by
      have under := h inhibited
      generalize x.drive = drive at hrun under ⊢
      cases drive with
      | moving dir o tr => rw [Drive.underInhibit_moving.mp under]; rfl
      | _ => cases hrun
    rw [if_pos isLocal]
    split <;> simp

theorem Yard.heeds_trip {y : Yard} (h : y.Heeds) (e : Env) (d : Nat)
    (hrun : ∀ x, y.doors[d]? = some x → x.drive.closingRun = true) : (y.trip e d).1.Heeds := by
  unfold Yard.trip
  split
  · exact h
  · next x hx =>
    have tripped : ((y.modify d fun z => z.countTrip e).changeDrive e d (x.tripDrive e) false).Heeds := by
      refine Yard.heeds_changeDrive ((h.but d).modify _) e _ fun z hz hi => ?_
      rw [Yard.modify_get_same, hx] at hz
      obtain rfl := Option.some.inj hz
      exact Door.tripDrive_underInhibit (h d x hx) (hrun x hx) hi
    simp only
    split
    · exact Yard.heeds_enforce tripped e d
    · exact tripped

theorem Yard.heeds_evaluateAlert {y : Yard} (h : y.Heeds) (e : Env) (d : Nat) (r : Report) :
    (y.evaluateAlert e d r).1.Heeds := by
  unfold Yard.evaluateAlert
  split
  · exact h
  · next x hx =>
    split
    · next hrun =>
      have judged : ∀ p, (y.modify d fun z => { z with prot := p }).Heeds := fun p =>
        Yard.heeds_modify h d fun _ _ hz => hz
      simp only
      split
      · refine Yard.heeds_trip (judged _) e d fun z hz => ?_
        rw [Yard.modify_get_same, hx] at hz
        obtain rfl := Option.some.inj hz
        exact hrun
      · exact judged _
    · exact h

theorem Yard.heeds_sensorTake {y : Yard} (h : y.Heeds) (e : Env) (d : Nat) (w : Word) (arrival : Nat) :
    (y.sensorTake e d w arrival).1.Heeds := by
  unfold Yard.sensorTake
  split
  · exact h
  · simp only
    split
    · exact h
    · have delivered : ∀ (i : InputPart) (before : Four Bool),
          ((y.modify d fun z => { z with inp := i, powerSeen := true }).deliver e d before i.debounced).Heeds :=
        fun i before => Yard.heeds_deliver (by exact Yard.heeds_modify h d fun _ _ hz => hz) e d _ _
      split
      · exact Yard.heeds_evaluateAlert (delivered _ _) e d _
      · exact delivered _ _

/-! ## Expiries -/

theorem Yard.heeds_debounceExpiry {y : Yard} (h : y.Heeds) (e : Env) (d report : Nat) :
    (y.debounceExpiry e d report).Heeds := by
  unfold Yard.debounceExpiry
  split
  · exact h
  · exact Yard.heeds_deliver (by exact Yard.heeds_modify h d fun _ _ hz => hz) e d _ _

theorem Yard.heeds_freshnessExpiry {y : Yard} (h : y.Heeds) (e : Env) (d : Nat) : (y.freshnessExpiry e d).Heeds :=
  Yard.heeds_modify (Yard.heeds_goStale h e d) d fun _ _ hz => hz

/-- R29: a WARNING door is one whose inhibit is NONE. -/
theorem Yard.heeds_prewarnExpiry {y : Yard} (h : y.Heeds) (e : Env) (d : Nat) : (y.prewarnExpiry e d).Heeds := by
  unfold Yard.prewarnExpiry
  split
  · exact h
  · next x hx =>
    split
    · next o p hd =>
      refine Yard.heeds_changeDrive (h.but d) e _ fun z hz hi => ?_
      rw [hx] at hz
      obtain rfl := Option.some.inj hz
      exact absurd (h d x hx hi) (by rw [hd]; exact Drive.not_underInhibit_warning o p)
    · exact h

theorem Yard.heeds_travelExpiry {y : Yard} (h : y.Heeds) (e : Env) (d : Nat) : (y.travelExpiry e d).Heeds :=
  Yard.heeds_rest ((h.but d).modify _) e _

/-- R55: a TRIPPED door is one whose inhibit is NONE. -/
theorem Yard.heeds_retryExpiry {y : Yard} (h : y.Heeds) (e : Env) (d : Nat)
    (ht : ∀ x, y.doors[d]? = some x → ∃ r, x.drive = .tripped r) : (y.retryExpiry e d).Heeds := by
  refine Yard.heeds_motionRequest h e d _ fun x hx hi => ?_
  obtain ⟨r, hd⟩ := ht x hx
  exact absurd (h d x hx hi) (by rw [hd]; exact Drive.not_underInhibit_tripped r)

theorem Yard.heeds_settleExpiry {y : Yard} (h : y.Heeds) (d : Nat) : (y.settleExpiry d).Heeds :=
  Yard.heeds_modify h d fun _ _ hz => hz

/-! ## Station requests and orders -/

/-- R33: a station CLOSE that is not refused finds no inhibit. -/
theorem Door.closeRefusal_none {x : Door} :
    x.closeRefusal = none ↔ x.powered = true ∧ x.drive ≠ .isolated ∧ x.inhibit = .none := by
  unfold Door.closeRefusal
  cases hp : x.powered <;> cases hd : x.drive <;> simp [Drive.isIsolated]

theorem Door.openRefusal_none {e : Env} {x : Door} :
    x.openRefusal e = none ↔ x.closeRefusal = none ∧ e.doorsClosed = false := by
  unfold Door.openRefusal
  split
  · next h => simp [h]
  · next h => simp [h]

theorem Yard.heeds_stationRequest {y z : Yard} (h : y.Heeds) {e : Env} {d : Nat} {w : Word}
    (hz : y.stationRequest e d w = .ok z) : z.Heeds := by
  have motion : ∀ x dir, y.doors[d]? = some x → x.closeRefusal = none →
      (y.motionRequest e d dir .station).Heeds := fun x dir hx hr => by
    refine Yard.heeds_motionRequest h e d dir fun v hv hi => absurd ?_ hi
    rw [hx] at hv
    obtain rfl := Option.some.inj hv
    obtain ⟨-, -, free⟩ := Door.closeRefusal_none.mp hr
    exact free
  have hold : ∀ f : Door → Bool, (y.modify d fun z => { z with hold := f z }).Heeds := fun f =>
    Yard.heeds_modify h d fun _ _ hz => hz
  unfold Yard.stationRequest at hz
  split at hz
  · cases hz
  · next x hx =>
    split at hz
    · split at hz
      · cases hz; exact h
      · unfold Yard.stationClose at hz
        split at hz
        · cases hz
        · next hr => cases hz; exact motion x _ hx hr
      · unfold Yard.stationOpen at hz
        split at hz
        · cases hz
        · next hr => cases hz; exact motion x _ hx (Door.openRefusal_none.mp hr).1
      · unfold Yard.stationStop at hz
        split at hz
        · cases hz
        · split at hz
          · cases hz; exact h
          · cases hz; exact h
          · cases hz; exact Yard.heeds_rest (h.but d) e _
      · unfold Yard.stationIsolate at hz
        split at hz
        · cases hz; exact h
        · cases hz
          exact Yard.heeds_changeDrive ((hold _).but d) e _ fun _ _ _ => Drive.underInhibit_isolated
      · unfold Yard.stationRestore at hz
        split at hz
        · cases hz; exact Yard.heeds_rest ((hold _).but d) e _
        · cases hz; exact h
    · cases hz

/-- R42: no door whose inhibit is not NONE waits or moves for a station. -/
theorem Yard.heeds_toDoorsClosed {y : Yard} (h : y.Heeds) (e : Env) (d : Nat) : (y.toDoorsClosed e d).Heeds := by
  unfold Yard.toDoorsClosed
  split
  · exact h
  · next x hx =>
    split
    · refine Yard.heeds_modify ?_ d fun _ _ hz => hz
      split
      · next new hn =>
        refine Yard.heeds_changeDrive (h.but d) e _ fun z hz hi => ?_
        rw [hx] at hz
        obtain rfl := Option.some.inj hz
        have under := h d x hx hi
        unfold toDoorsClosedDrive at hn
        split at hn
        · cases hn; exact Drive.underInhibit_resting
        · next hd => rw [hd, Drive.underInhibit_moving] at under; cases under
        · cases hn
      · exact h
    · exact h

theorem Yard.heeds_toLocalControl {y : Yard} (h : y.Heeds) (e : Env) (d : Nat) : (y.toLocalControl e d).Heeds := by
  unfold Yard.toLocalControl
  split
  · exact h
  · refine Yard.heeds_modify ?_ d fun _ _ hz => hz
    split
    · next x _ new hn =>
      have rests : new = .resting := by
        unfold toLocalControlDrive at hn
        split at hn <;> cases hn <;> rfl
      rw [rests]
      exact Yard.heeds_changeDrive (h.but d) e _ fun _ _ _ => Drive.underInhibit_resting
    · exact h

theorem Yard.heeds_modeChange {y : Yard} (h : y.Heeds) (e : Env) : (y.modeChange e).Heeds := by
  unfold Yard.modeChange
  simp only
  split
  · exact Yard.heeds_grantAll (Yard.heeds_enforceAll
      (Yard.heeds_foldl (fun _ d h => Yard.heeds_toDoorsClosed h e d) _ h) e) e
  · exact Yard.heeds_grantAll (Yard.heeds_foldl (fun _ d h => Yard.heeds_toLocalControl h e d) _ h) e

theorem Yard.heeds_zoneClose {y : Yard} (h : y.Heeds) (e : Env) (mask : Word) : (y.zoneClose e mask).Heeds := by
  refine Yard.heeds_foldl (fun y d h => ?_) _ h
  unfold Yard.zoneCloseDoor
  split
  · exact h
  · next x hx =>
    split
    · next hsel =>
      simp only [Bool.and_eq_true, Option.isNone_iff_eq_none, Door.closeRefusal_none] at hsel
      obtain ⟨-, -, -, free⟩ := hsel
      refine Yard.heeds_motionRequest h e d _ fun z hz hi => absurd ?_ hi
      rw [hx] at hz
      obtain rfl := Option.some.inj hz
      exact free
    · exact h

/-- R59: a cleared door has no inhibit. -/
theorem Yard.heeds_clearDoor {y : Yard} (h : y.Heeds) (e : Env) (d : Nat) : (y.clearDoor e d).Heeds := by
  unfold Yard.clearDoor
  split
  · exact h
  · have clear : (y.modify d fun z => { z with inhibit := .none, prot := { z.prot with tripCount := 0 } }).Heeds :=
      Yard.heeds_modify h d fun _ _ _ hi => absurd rfl hi
    simp only
    split
    · exact Yard.heeds_rest (clear.but d) e _
    · exact Yard.heeds_enforce clear e d

theorem Yard.heeds_baseline {y : Yard} (h : y.Heeds) (mask : Word) : (y.baseline mask).Heeds := by
  intro d z hz
  unfold Yard.baseline at hz
  rw [List.getElem?_map] at hz
  obtain ⟨x, hx, rfl⟩ := Option.map_eq_some_iff.mp hz
  have heeds := h d x hx
  split <;> exact heeds

theorem Yard.heeds_staleDoors {y : Yard} (h : y.Heeds) (e : Env) (ds : List Nat) : (y.staleDoors e ds).Heeds :=
  Yard.heeds_foldl (fun _ d h => Yard.heeds_goStale h e d) _ h

theorem Yard.heeds_reattach {y : Yard} (h : y.Heeds) (e : Env) (m : Master) : (y.reattach e m).Heeds := by
  refine Yard.heeds_foldl (fun y d h => ?_) _ h
  unfold Yard.reattachDoor
  split
  · exact h
  · have forgot : (y.modify d Door.forgetReports).Heeds := Yard.heeds_modify h d fun _ _ hz => hz
    have blind : ((y.modify d Door.forgetReports).modify d fun z => { z with inp := z.inp.loseSight }).Heeds :=
      Yard.heeds_modify forgot d fun _ _ hz => hz
    simp only
    split
    · split
      · exact Yard.heeds_loFall blind e d
      · exact blind
    · exact forgot

/-- R104: the end of a take keeps the law. -/
theorem State.heeds_endTake {s : State} (b : Yard) (h : s.yard.Heeds) : (State.endTake b s).yard.Heeds := by
  intro d z hz
  rw [State.endTake_yard_doors, evaluateChanged_get] at hz
  obtain ⟨x, hx, rfl⟩ := Option.map_eq_some_iff.mp hz
  have heeds := h d x hx
  split <;> exact heeds

end Sys2Proof.Machine
end

section
/-! SUPPORT. The laws that speak of the door table and the arbiter alone: what they must be kept by so that every step
keeps them, and the apply (R170), which finds every door at rest. -/

namespace Sys2Proof.Machine

/-! ## The apply's yard (R170) -/

/-- R170 step 1: the door records and the groups under the new settings. -/
def Yard.replaced (y : Yard) (clock : Nat) (img : Settings) : Yard :=
  { doors := replaceDoors clock y.doors img.doors
    groups := four fun g => { y.groups.get g with slotCount := some (img.slotCounts.get g) } }

/-- R100, R170: what an apply makes of the yard, with the doors of lost scanners. -/
def Yard.applied (y : Yard) (clock : Nat) (img : Settings) (lost : List Nat) (e1 e2 e3 : Env) : Yard :=
  (((y.replaced clock img).staleDoors e1 lost).settleApply e2 y.doors).enforceAll e3

theorem State.discardSlots_yard (s : State) : s.discardSlots.yard = s.yard := by
  have one : ∀ (t : State) m, (t.discardSlot m).yard = t.yard := fun t m => by
    unfold State.discardSlot; split <;> rfl
  unfold State.discardSlots
  induction masterNumbers generalizing s with
  | nil => rfl
  | cons m l ih => exact (ih (s.discardSlot m)).trans (one s m)

theorem State.lapse_yard (s : State) (m : Master) : (s.lapse m).yard = s.yard := by
  rw [State.lapse_eq]
  split
  · split
    · rfl
    · split <;> rfl
  · split <;> rfl

/-- R100: the adjustment of the masters reaches the doors of lost scanners alone. -/
theorem State.adjustMasters_yard (s old : State) (img : Settings) :
    ∃ e lost, (s.adjustMasters old img).yard = s.yard.staleDoors e lost := by
  have heartbeats : ∀ (l : List Master) (t : State), (l.foldl State.judgeHeartbeat t).yard = t.yard := fun l => by
    induction l with
    | nil => exact fun _ => rfl
    | cons m l ih =>
      intro t
      refine (ih _).trans ?_
      unfold State.judgeHeartbeat
      split
      · split
        · exact t.lapse_yard m
        · rfl
      · rfl
  have requester : ∀ t : State, t.dropRequester.yard = t.yard := fun t => by
    unfold State.dropRequester
    split
    · split <;> rfl
    · rfl
  have holder : ∀ t : State, t.dropHolder.yard = t.yard := fun t => by
    unfold State.dropHolder
    split
    · split
      · rfl
      · split <;> rfl
    · rfl
  have transfer : ∀ t : State, t.judgeTransfer.yard = t.yard := fun t => by
    unfold State.judgeTransfer
    split
    · split <;> rfl
    · rfl
  refine ⟨(((masterNumbers.foldl State.judgeHeartbeat s).dropRequester).dropHolder.judgeTransfer).env,
    lostDoors old.yard.doors old.masters img, ?_⟩
  unfold State.adjustMasters
  rw [State.setYard_yard, transfer, holder, requester, heartbeats]

theorem State.applyImage_yard (s : State) (img : Settings) (detail : Nat) :
    ∃ u before lost e1 e2 e3, s.applyImage img detail = State.endTake before u ∧
      u.yard = s.yard.applied s.clock img lost e1 e2 e3 := by
  let s1 := ((s.replaceTables img).discardSlots).adjustMasters s img
  let s3 := (s1.setYard (s1.yard.settleApply s1.env s.yard.doors)).capture (Capture.ofPart 25 detail 0)
  obtain ⟨e1, lost, adjusted⟩ : ∃ e lost, s1.yard = (s.yard.replaced s.clock img).staleDoors e lost := by
    obtain ⟨e, lost, h⟩ := ((s.replaceTables img).discardSlots).adjustMasters_yard s img
    rw [State.discardSlots_yard] at h
    exact ⟨e, lost, h⟩
  refine ⟨s3.setYard (s3.yard.enforceAll s3.env), _, lost, e1, s1.env, s3.env, rfl, ?_⟩
  rw [Yard.applied, ← adjusted]
  rfl

/-! ## Doors at rest (R169) -/

/-- No door is QUEUED, WARNING or MOVING, and no group has an entry. -/
structure Yard.AtRest (y : Yard) : Prop where
  holders : ∀ g, (y.groups.get g).holders = []
  queue : ∀ g, (y.groups.get g).queue = []
  doors : ∀ (d : Nat) (x : Door), y.doors[d]? = some x → x.drive.bound = false

theorem Drive.idle_of_not_bound {drive : Drive} (h : drive.bound = false) :
    drive.hasSlot = false ∧ drive.isQueued = false := by
  cases drive <;> simp_all [Drive.bound, Drive.hasSlot, Drive.isQueued]

theorem Door.powered_eq_false {x : Door} : x.powered = false ↔ x.st.cls = .indicated := by
  unfold Door.powered
  split
  · next h => simp [h]
  · next h => simp [h]

/-- R21, R66, R67: doors at rest meet the laws of the power groups, where the INDICATED ones are RESTING or ISOLATED. -/
theorem Yard.AtRest.arbiterLawful {y : Yard} (h : y.AtRest)
    (hi : ∀ (d : Nat) (x : Door), y.doors[d]? = some x → x.st.cls = .indicated →
      x.drive = .resting ∨ x.drive = .isolated) : y.arbiterLawful where
  once g := by rw [h.holders, h.queue]; exact ⟨List.nodup_nil, List.nodup_nil⟩
  holders g d := by
    rw [h.holders]
    refine ⟨(absurd · List.not_mem_nil), fun ⟨x, hx, _, hs⟩ => ?_⟩
    rw [(Drive.idle_of_not_bound (h.doors d x hx)).1] at hs
    cases hs
  queue g d := by
    rw [h.queue]
    refine ⟨(absurd · List.not_mem_nil), fun ⟨x, hx, _, hq⟩ => ?_⟩
    rw [(Drive.idle_of_not_bound (h.doors d x hx)).2] at hq
    cases hq
  slots g := by rw [h.holders]; exact Nat.zero_le _
  order g := by rw [h.queue]; exact List.Pairwise.nil
  indicated := hi

/-- R169: the apply is due where no door is QUEUED, WARNING or MOVING; then no group has an entry. -/
theorem Yard.atRest_of_still {y : Yard} (hl : y.arbiterLawful) (h : y.still = true) : y.AtRest := by
  have rests : ∀ (d : Nat) (x : Door), y.doors[d]? = some x → x.drive.bound = false := fun d x hx => by
    have all := List.all_eq_true.mp h x (List.mem_of_getElem? hx)
    simpa using all
  refine ⟨fun g => ?_, fun g => ?_, rests⟩
  · refine List.eq_nil_iff_forall_not_mem.mpr fun d hd => ?_
    obtain ⟨x, hx, -, hs⟩ := (hl.holders g d).mp hd
    rw [(Drive.idle_of_not_bound (rests d x hx)).1] at hs
    cases hs
  · refine List.eq_nil_iff_forall_not_mem.mpr fun d hd => ?_
    obtain ⟨x, hx, -, hq⟩ := (hl.queue g d).mp hd
    rw [(Drive.idle_of_not_bound (rests d x hx)).2] at hq
    cases hq

/-- R14: a door at rest that becomes stale stays at rest, and its group has no entry of it. -/
theorem Yard.AtRest.goStale {y : Yard} (h : y.AtRest) (e : Env) (d : Nat) : (y.goStale e d).AtRest := by
  have calm := Yard.calm_goStale y e d
  have groups : ∀ g, (y.goStale e d).groups.get g = y.groups.get g := fun g => by
    by_cases own : ∃ x, y.doors[d]? = some x ∧ x.st.cls = .powered g
    · obtain ⟨x, hx, hg⟩ := own
      exact Yard.goStale_idle_own hx (h.doors d x hx) hg (by rw [h.queue]; exact List.not_mem_nil)
        (by rw [h.holders]; exact List.not_mem_nil)
    · exact calm.groups g fun x hx hg => own ⟨x, hx, hg⟩
  refine ⟨fun g => by rw [groups, h.holders], fun g => by rw [groups, h.queue], fun k z hz => ?_⟩
  by_cases hk : k = d
  · subst hk
    obtain ⟨x, hx, -⟩ := calm.found hz
    obtain ⟨w, hw, turns⟩ := Yard.goStale_turns e hx
    rw [hw] at hz
    obtain rfl := Option.some.inj hz
    exact turns.bound (h.doors k x hx)
  · exact h.doors k z (by rwa [calm.others k hk] at hz)

/-! ## Steps 1 to 4 of the apply -/

/-- R19: a record under the new settings: one that was kept, or a new one. -/
theorem replaceDoors_get {clock k : Nat} {z : Door} : ∀ {doors : List Door} {new : List DoorStatic},
    (replaceDoors clock doors new)[k]? = some z →
      (∃ x st, doors[k]? = some x ∧ z = { x with static := some st }) ∨
        doors[k]? = none ∧ ∃ st, z = Door.fresh st clock
  | _, [], h => by simp [replaceDoors] at h
  | [], st :: rest, h => by
    cases k with
    | zero => exact .inr ⟨rfl, st, by simpa [replaceDoors] using h.symm⟩
    | succ k =>
      have tail : (replaceDoors clock [] rest)[k]? = some z := by simpa [replaceDoors] using h
      rcases replaceDoors_get tail with ⟨x, _, hx, -⟩ | ⟨-, fresh⟩
      · simp at hx
      · exact .inr ⟨rfl, fresh⟩
  | x :: doors, st :: rest, h => by
    cases k with
    | zero => exact .inl ⟨x, st, rfl, by simpa [replaceDoors] using h.symm⟩
    | succ k =>
      have tail : (replaceDoors clock doors rest)[k]? = some z := by simpa [replaceDoors] using h
      simpa only [List.getElem?_cons_succ] using replaceDoors_get tail

theorem adjustDoors_get (limit : Nat) (k : Nat) : ∀ (before doors : List Door),
    (adjustDoors limit before doors)[k]? = (doors[k]?).map (Door.adjust limit before[k]?)
  | _, [] => by simp [adjustDoors]
  | [], x :: doors => by
    cases k with
    | zero => rfl
    | succ k => simpa [adjustDoors] using adjustDoors_get limit k [] doors
  | o :: before, x :: doors => by
    cases k with
    | zero => rfl
    | succ k => simpa [adjustDoors] using adjustDoors_get limit k before doors

/-- R170 steps 1 to 3: every door is at rest, and one that is INDICATED is RESTING or ISOLATED, or was POWERED before. -/
structure Yard.Resettled (before : List Door) (y : Yard) : Prop where
  atRest : y.AtRest
  indicated : ∀ (d : Nat) (x : Door), y.doors[d]? = some x → x.powered = false →
    (x.drive = .resting ∨ x.drive = .isolated) ∨ (before[d]?.map Door.powered).getD false = true

theorem Yard.resettled_replaced {y : Yard} (hl : y.arbiterLawful) (h : y.still = true) (clock : Nat)
    (img : Settings) : (y.replaced clock img).Resettled y.doors := by
  have rest := Yard.atRest_of_still hl h
  refine ⟨⟨fun g => ?_, fun g => ?_, fun d z hz => ?_⟩, fun d z hz _ => ?_⟩
  · simp [Yard.replaced, rest.holders]
  · simp [Yard.replaced, rest.queue]
  · rcases replaceDoors_get hz with ⟨x, st, hx, rfl⟩ | ⟨-, st, rfl⟩
    · exact rest.doors d x hx
    · rfl
  · rcases replaceDoors_get hz with ⟨x, st, hx, rfl⟩ | ⟨-, st, rfl⟩
    · rw [hx]
      cases hp : x.powered with
      | true => exact .inr hp
      | false => exact .inl (hl.indicated d x hx (Door.powered_eq_false.mp hp))
    · exact .inl (.inl rfl)

theorem Yard.Resettled.goStale {before : List Door} {y : Yard} (h : y.Resettled before) (e : Env) (d : Nat) :
    (y.goStale e d).Resettled before := by
  have calm := Yard.calm_goStale y e d
  refine ⟨h.atRest.goStale e d, fun k z hz hp => ?_⟩
  by_cases hk : k = d
  · subst hk
    obtain ⟨x, hx, -⟩ := calm.found hz
    obtain ⟨w, hw, turns⟩ := Yard.goStale_turns e hx
    rw [hw] at hz
    obtain rfl := Option.some.inj hz
    rw [Door.powered_congr turns.static] at hp
    rcases turns.drive with hd | ⟨powered, -⟩
    · rw [hd]; exact h.indicated k x hx hp
    · rw [hp] at powered; cases powered
  · exact h.indicated k z (by rwa [calm.others k hk] at hz) hp

theorem Yard.Resettled.staleDoors {before : List Door} {y : Yard} (h : y.Resettled before) (e : Env)
    (doors : List Nat) : (y.staleDoors e doors).Resettled before := by
  unfold Yard.staleDoors
  induction doors generalizing y with
  | nil => exact h
  | cons d l ih => exact ih (h.goStale e d)

/-- R170 step 4: the doors adjusted meet the laws of the power groups. -/
theorem Yard.Resettled.arbiterLawful_adjust {before : List Door} {y : Yard} (h : y.Resettled before)
    (limit : Nat) : ({ y with doors := adjustDoors limit before y.doors } : Yard).arbiterLawful := by
  have adjusted : ∀ (d : Nat) (z : Door), (adjustDoors limit before y.doors)[d]? = some z →
      ∃ x, y.doors[d]? = some x ∧ z = x.adjust limit before[d]? := fun d z hz => by
    rw [adjustDoors_get] at hz
    obtain ⟨x, hx, rfl⟩ := Option.map_eq_some_iff.mp hz
    exact ⟨x, hx, rfl⟩
  have becomes : ∀ x : Door, x.becomeIndicated.drive = .isolated ∨ x.becomeIndicated.drive = .resting := fun x => by
    unfold Door.becomeIndicated
    simp only
    split
    · exact .inl rfl
    · exact .inr rfl
  refine Yard.AtRest.arbiterLawful ⟨h.atRest.holders, h.atRest.queue, fun d z hz => ?_⟩ fun d z hz hi => ?_
  · obtain ⟨x, hx, rfl⟩ := adjusted d z hz
    unfold Door.adjust Door.clampTrips
    simp only
    split
    · rcases becomes x with hd | hd <;> rw [hd] <;> rfl
    · exact h.atRest.doors d x hx
  · obtain ⟨x, hx, rfl⟩ := adjusted d z hz
    rw [← Door.powered_eq_false] at hi
    have static : (x.adjust limit before[d]?).static = x.static := by
      unfold Door.adjust Door.clampTrips
      simp only
      split <;> rfl
    have hp : x.powered = false := by rw [← Door.powered_congr static]; exact hi
    unfold Door.adjust Door.clampTrips
    simp only [hp, Bool.not_false, Bool.and_true]
    split
    · exact (becomes x).symm
    · next hold => exact (h.indicated d x hx hp).resolve_right hold

/-! ## The laws of the power groups and of the inhibit across an apply -/

theorem Yard.arbiterLawful_applied {y : Yard} (hl : y.arbiterLawful) (h : y.still = true) (clock : Nat)
    (img : Settings) (lost : List Nat) (e1 e2 e3 : Env) : (y.applied clock img lost e1 e2 e3).arbiterLawful := by
  have adjusted := ((Yard.resettled_replaced hl h clock img).staleDoors e1 lost).arbiterLawful_adjust
    e2.times.retryLimit
  refine Yard.arbiterLawful_enforceAll ?_ e3
  exact Yard.arbiterLawful_foldl (fun _ d h => Yard.arbiterLawful_rederive h e2 d) _
    (Yard.arbiterLawful_foldl (fun _ d h => Yard.arbiterLawful_judgeFreshness h e2 d) _ adjusted)

theorem Door.heeds_of_none {x : Door} (h : x.inhibit = .none) : x.Heeds := fun hi => absurd h hi

theorem Door.Heeds.adjust {x : Door} (h : x.Heeds) (limit : Nat) (old : Option Door) : (x.adjust limit old).Heeds := by
  unfold Door.adjust Door.clampTrips
  split
  · exact Door.heeds_of_none rfl
  · exact h

theorem Yard.heeds_applied {y : Yard} (h : y.Heeds) (clock : Nat) (img : Settings) (lost : List Nat)
    (e1 e2 e3 : Env) : (y.applied clock img lost e1 e2 e3).Heeds := by
  have replaced : (y.replaced clock img).Heeds := fun d z hz => by
    rcases replaceDoors_get hz with ⟨x, st, hx, rfl⟩ | ⟨-, st, rfl⟩
    · exact h d x hx
    · exact Door.heeds_of_none rfl
  have stale := Yard.heeds_staleDoors replaced e1 lost
  refine Yard.heeds_enforceAll (Yard.heeds_foldl (fun _ d h => Yard.heeds_rederive h e2 d) _
    (Yard.heeds_foldl (fun _ d h => Yard.heeds_judgeFreshness h e2 d) _ fun d z hz => ?_)) e3
  rw [adjustDoors_get] at hz
  obtain ⟨x, hx, rfl⟩ := Option.map_eq_some_iff.mp hz
  exact (stale d x hx).adjust _ _

/-! ## Laws of the yard -/

/-- R167: the door records and the groups at entry to RUNNING. -/
def Yard.entered (img : Settings) : Yard :=
  { doors := img.doors.map fun st => Door.fresh st 0
    groups := four fun g => { slotCount := some (img.slotCounts.get g), holders := [], queue := [] } }

/-- One condition for each operation on the yard: a law of the yard that meets them all is kept by every step. -/
structure Yard.Kept (law : Yard → Prop) : Prop where
  blank : law Yard.blank
  entered : ∀ img, law (Yard.entered img)
  applied : ∀ y clock img lost e1 e2 e3, law y → y.still = true → law (y.applied clock img lost e1 e2 e3)
  endTake : ∀ (s : State) b, law s.yard → law (State.endTake b s).yard
  station : ∀ y e d w z, law y → y.stationRequest e d w = .ok z → law z
  sensor : ∀ y e d w arrival, law y → law (y.sensorTake e d w arrival).1
  modeChange : ∀ y e, law y → law (y.modeChange e)
  zoneClose : ∀ y e mask, law y → law (y.zoneClose e mask)
  clearDoor : ∀ y e d, law y → law (y.clearDoor e d)
  acknowledgeDoor : ∀ y d, law y → law (y.acknowledgeDoor d)
  baseline : ∀ y mask, law y → law (y.baseline mask)
  reattach : ∀ y e m, law y → law (y.reattach e m)
  staleDoors : ∀ y e doors, law y → law (y.staleDoors e doors)
  debounce : ∀ y e d report, law y → law (y.debounceExpiry e d report)
  freshness : ∀ y e d, law y → law (y.freshnessExpiry e d)
  grant : ∀ y e g, law y → law (y.grantGroup e g)
  prewarn : ∀ y e d, law y → law (y.prewarnExpiry e d)
  travel : ∀ y e d, law y → law (y.travelExpiry e d)
  reclose : ∀ y e d, law y → law (y.recloseExpiry e d)
  trip : ∀ y e d, law y → (∀ x, y.doors[d]? = some x → x.drive.closingRun = true) → law (y.trip e d).1
  retry : ∀ y e d, law y → (∀ x, y.doors[d]? = some x → ∃ r, x.drive = .tripped r) → law (y.retryExpiry e d)
  settle : ∀ y d, law y → law (y.settleExpiry d)

namespace Yard.Kept

variable {law : Yard → Prop}

/-- A take of door events. -/
theorem doorTake (k : Yard.Kept law) {s : State} {f : Yard → Env → Yard} {cs : List Capture}
    (h : law (f s.yard s.env)) : law (s.doorTake f cs).yard :=
  k.endTake _ _ (by rw [State.captures_yard]; exact h)

theorem forSelected (_ : Yard.Kept law) {y : Yard} (h : law y) (sel : DoorSelect) {f : Yard → Nat → Yard}
    (hf : ∀ y d, law y → law (f y d)) : law (y.forSelected sel f) := by
  cases sel with
  | one d => exact hf _ _ h
  | all => exact List.foldlRecOn (motive := law) _ _ h fun y hy d _ => hf y d hy

/-- What an order's take leaves. -/
theorem order (k : Yard.Kept law) {s t : State} {m : Master} {addr : Addr} {w : Word} (h : law s.yard)
    (take : s.OrderTake m addr w t) : law t.yard := by
  cases take with
  | mode v => exact k.endTake _ _ (k.modeChange _ _ h)
  | zoneClose => exact k.endTake _ _ (k.zoneClose _ _ _ h)
  | doorClear sel => exact k.endTake _ _ (k.forSelected h sel fun y d hy => k.clearDoor y _ d hy)
  | alarmAck sel => exact k.endTake _ _ (k.forSelected h sel fun y d hy => k.acknowledgeDoor y d hy)
  | baseline => exact k.baseline _ _ h
  | attach => exact k.endTake _ _ (k.reattach _ _ _ h)
  | mismatch => exact k.endTake _ _ (k.staleDoors _ _ _ h)
  | _ => exact h

theorem applyImage (k : Yard.Kept law) {s : State} (img : Settings) (detail : Nat) (h : law s.yard)
    (still : s.yard.still = true) : law (s.applyImage img detail).yard := by
  obtain ⟨u, before, lost, e1, e2, e3, applied, yard⟩ := s.applyImage_yard img detail
  rw [applied]
  exact k.endTake _ _ (by rw [yard]; exact k.applied _ _ _ _ _ _ _ h still)

theorem takeMirror_yard (s : State) (r : Mirror × List Capture) : (s.takeMirror r).yard = s.yard := by
  unfold State.takeMirror
  rw [State.judgeFault_yard, State.captures_yard]

/-- Every take of the part keeps the law. -/
theorem kept (k : Yard.Kept law) : Machine.Kept fun s => law s.yard where
  pending _ _ h := h
  clock _ h := h
  capture _ _ h := h
  answer _ _ h := h
  setUpstream _ _ h := h
  setSlot _ _ _ h := h
  setMeter _ _ _ h := h
  station _ _ _ _ h hy := k.endTake _ _ (k.station _ _ _ _ _ h hy)
  order _ _ _ _ _ h _ take := k.order h take
  sensor _ _ _ _ h := k.endTake _ _ (by rw [State.captures_yard]; exact k.sensor _ _ _ _ _ h)
  store _ _ _ _ _ h := h
  forget _ _ _ h := h
  clean _ _ h := h
  countLeg _ _ _ _ _ h := by rw [takeMirror_yard]; exact h
  countError _ _ _ _ _ h := by rw [takeMirror_yard]; exact h
  copyStep _ _ h := by rw [takeMirror_yard]; exact h
  beginReset _ _ _ := k.blank
  release _ _ h _ := h
  nextAttempt _ _ _ h _ := h
  enterTransparent _ _ h _ := h
  enterRunning s n _ img a b _ _ _ := k.endTake _ _ (by rw [takeMirror_yard]; exact k.entered img)
  ready _ h := h
  freePort _ h := h
  reloadFault _ _ h := h
  hold _ _ _ h _ := h
  applyNow _ _ _ h _ _ still := k.applyImage _ _ h still
  applyHeld _ _ h _ still := k.applyImage _ _ h still
  debounce _ _ _ h := k.doorTake (k.debounce _ _ _ _ h)
  freshness _ _ h := k.doorTake (k.freshness _ _ _ h)
  grant _ _ h := k.doorTake (k.grant _ _ _ h)
  prewarn _ _ h := k.doorTake (k.prewarn _ _ _ h)
  travel _ _ _ _ _ _ h _ _ := k.doorTake (k.travel _ _ _ h)
  reclose _ _ _ _ h _ _ := k.doorTake (k.reclose _ _ _ h)
  trip s d x h hx hrun := k.doorTake (k.trip _ _ _ h fun z hz => by
    rw [show s.yard.doors[d]? = some x from hx] at hz
    obtain rfl := Option.some.inj hz
    exact hrun)
  retry s d x n h hx hd := k.doorTake (k.retry _ _ _ h fun z hz => by
    rw [show s.yard.doors[d]? = some x from hx] at hz
    obtain rfl := Option.some.inj hz
    exact ⟨n, hd⟩)
  settle _ _ h := k.doorTake (k.settle _ _ h)
  lapse s m _ h _ := by rw [State.lapse_yard]; exact h
  transferExpiry s h := by unfold State.takeTransferExpiry; split <;> exact h
  phase _ h := h

end Yard.Kept

/-! ## The power groups (R21, R66, R67) and the inhibit (R23, R55) -/

/-- R29: a WARNING door holds its slot already. -/
theorem Yard.arbiterLawful_prewarnExpiry {y : Yard} (hl : y.arbiterLawful) (e : Env) (d : Nat) :
    (y.prewarnExpiry e d).arbiterLawful := by
  unfold Yard.prewarnExpiry
  split
  · exact hl
  · next x hx =>
    split
    · next o p hd =>
      refine Yard.arbiterLawful_changeDrive hl e d _ fun z hz => ?_
      rw [hx] at hz
      obtain rfl := Option.some.inj hz
      refine ⟨fun _ _ _ => .inl (by rw [hd]; rfl), fun hi => ?_⟩
      rcases hl.indicated d x hx hi with h | h <;> rw [hd] at h <;> cases h
    · exact hl

theorem Yard.arbiterLawful_retryExpiry {y : Yard} (hl : y.arbiterLawful) (e : Env) (d : Nat)
    (ht : ∀ x, y.doors[d]? = some x → ∃ r, x.drive = .tripped r) : (y.retryExpiry e d).arbiterLawful := by
  refine Yard.arbiterLawful_motionRequest hl e d _ _ fun x hx _ hd => ?_
  obtain ⟨r, ht⟩ := ht x hx
  rw [ht] at hd
  cases hd

theorem Yard.arbiterLawful_baseline {y : Yard} (hl : y.arbiterLawful) (mask : Word) :
    (y.baseline mask).arbiterLawful := by
  refine Yard.arbiterLawful_of (z := y.baseline mask) hl rfl fun k => ?_
  unfold Yard.baseline
  rw [List.getElem?_map]
  cases y.doors[k]? with
  | none => rfl
  | some x =>
    simp only [Option.map_some]
    split <;> rfl

theorem Yard.kept_arbiterLawful : Yard.Kept Yard.arbiterLawful where
  blank := by
    have blankDoor : ∀ (d : Nat) (x : Door), Yard.blank.doors[d]? = some x → x.drive = .resting := fun d x hx => by
      rw [List.eq_of_mem_replicate (List.mem_of_getElem? hx)]; rfl
    refine Yard.AtRest.arbiterLawful ⟨fun g => ?_, fun g => ?_, fun d x hx => ?_⟩ fun d x hx _ => ?_
    · simp [Yard.blank, Group.blank]
    · simp [Yard.blank, Group.blank]
    · rw [blankDoor d x hx]; rfl
    · exact .inl (blankDoor d x hx)
  entered img := by
    have freshDoor : ∀ (d : Nat) (x : Door), (Yard.entered img).doors[d]? = some x → x.drive = .resting :=
      fun d x hx => by
        obtain ⟨st, -, rfl⟩ := List.mem_map.mp (List.mem_of_getElem? hx)
        rfl
    refine Yard.AtRest.arbiterLawful ⟨fun g => ?_, fun g => ?_, fun d x hx => ?_⟩ fun d x hx _ => ?_
    · simp [Yard.entered]
    · simp [Yard.entered]
    · rw [freshDoor d x hx]; rfl
    · exact .inl (freshDoor d x hx)
  applied _ _ _ _ _ _ _ h still := Yard.arbiterLawful_applied h still _ _ _ _ _ _
  endTake _ b h := State.arbiterLawful_endTake b h
  station _ _ _ _ _ h hz := Yard.arbiterLawful_stationRequest h hz
  sensor _ _ _ _ _ h := Yard.arbiterLawful_sensorTake h _ _ _ _
  modeChange _ _ h := Yard.arbiterLawful_modeChange h _
  zoneClose _ _ _ h := Yard.arbiterLawful_zoneClose h _ _
  clearDoor _ _ _ h := Yard.arbiterLawful_clearDoor h _ _
  acknowledgeDoor _ _ h := Yard.arbiterLawful_modify h _ _ fun _ _ => ⟨rfl, rfl⟩
  baseline _ _ h := Yard.arbiterLawful_baseline h _
  reattach _ _ _ h := Yard.arbiterLawful_reattach h _ _
  staleDoors _ _ _ h := Yard.arbiterLawful_staleDoors h _ _
  debounce _ _ _ _ h := Yard.arbiterLawful_debounceExpiry h _ _ _
  freshness _ _ _ h := Yard.arbiterLawful_modify (Yard.arbiterLawful_goStale h _ _) _ _ fun _ _ => ⟨rfl, rfl⟩
  grant _ _ _ h := Yard.arbiterLawful_grantGroup h _ _
  prewarn _ _ _ h := Yard.arbiterLawful_prewarnExpiry h _ _
  travel _ _ _ h := Yard.arbiterLawful_rest (by exact Yard.arbiterLawful_modify h _ _ fun _ _ => ⟨rfl, rfl⟩) _ _ _
  reclose _ _ _ h := Yard.arbiterLawful_rest h _ _ _
  trip _ _ _ h hrun := Yard.arbiterLawful_trip h _ _ hrun
  retry _ _ _ h ht := Yard.arbiterLawful_retryExpiry h _ _ ht
  settle _ _ h := Yard.arbiterLawful_modify h _ _ fun _ _ => ⟨rfl, rfl⟩

theorem Yard.kept_heeds : Yard.Kept Yard.Heeds where
  blank d x hx := by
    rw [List.eq_of_mem_replicate (List.mem_of_getElem? hx)]
    exact Door.heeds_of_none rfl
  entered img d x hx := by
    obtain ⟨st, -, rfl⟩ := List.mem_map.mp (List.mem_of_getElem? hx)
    exact Door.heeds_of_none rfl
  applied _ _ _ _ _ _ _ h _ := Yard.heeds_applied h _ _ _ _ _ _
  endTake _ b h := State.heeds_endTake b h
  station _ _ _ _ _ h hz := Yard.heeds_stationRequest h hz
  sensor _ _ _ _ _ h := Yard.heeds_sensorTake h _ _ _ _
  modeChange _ _ h := Yard.heeds_modeChange h _
  zoneClose _ _ _ h := Yard.heeds_zoneClose h _ _
  clearDoor _ _ _ h := Yard.heeds_clearDoor h _ _
  acknowledgeDoor _ d h := Yard.heeds_modify h d fun _ _ hz => hz
  baseline _ _ h := Yard.heeds_baseline h _
  reattach _ _ _ h := Yard.heeds_reattach h _ _
  staleDoors _ _ _ h := Yard.heeds_staleDoors h _ _
  debounce _ _ _ _ h := Yard.heeds_debounceExpiry h _ _ _
  freshness _ _ _ h := Yard.heeds_freshnessExpiry h _ _
  grant _ _ _ h := Yard.heeds_grants h _ _ _
  prewarn _ _ _ h := Yard.heeds_prewarnExpiry h _ _
  travel _ _ _ h := Yard.heeds_travelExpiry h _ _
  reclose _ _ d h := Yard.heeds_rest (h.but d) _ _
  trip _ _ _ h hrun := Yard.heeds_trip h _ _ hrun
  retry _ _ _ h ht := Yard.heeds_retryExpiry h _ _ ht
  settle _ _ h := Yard.heeds_settleExpiry h _

/-- Settles O59: both are laws of the yard that every operation on it keeps. -/
theorem powerGroupLaws : Obligations.PowerGroupLaws :=
  ⟨Yard.kept_arbiterLawful.kept.step, Yard.kept_heeds.kept.step⟩

end Sys2Proof.Machine
end

section
/-! SUPPORT. Station requests (R32 to R36): what becomes of a station's word, and what a taken request leaves of the part.
-/

namespace Sys2Proof.Machine

/-! ## The word (R32) -/

theorem requestOf_append (rest : BitVec 13) (n : BitVec 3) : requestOf (rest ++ n) = n.toNat := by
  unfold requestOf field
  rw [BitVec.extractLsb'_append_eq_right]

theorem stationWordOk_iff {w : Word} {d : Nat} : stationWordOk w d = true ↔ WordFor w d ∧ requestOf w < 6 := by
  simp only [stationWordOk, checkOf, reservedClear, WordFor, Bool.and_eq_true, beq_iff_eq, decide_eq_true_eq]

/-- R32: the request that a word for the door spells, by its number. -/
def Yard.requested (y : Yard) (e : Env) (d : Nat) (x : Door) : Nat → RequestResult
  | 0 => y.stationNone
  | 1 => y.stationClose e d x
  | 2 => y.stationOpen e d x
  | 3 => y.stationStop e d x
  | 4 => y.stationIsolate e d x
  | _ => y.stationRestore e d x

theorem Yard.stationRequest_judged {y : Yard} {e : Env} {d : Nat} {x : Door} {w : Word} (hx : y.doors[d]? = some x)
    (hw : WordFor w d) (hn : requestOf w < 6) : y.stationRequest e d w = y.requested e d x (requestOf w) := by
  unfold Yard.stationRequest Yard.requested
  simp only [hx, stationWordOk_iff.mpr ⟨hw, hn⟩, if_true] <;> rfl

/-- R32: a word that is not for the door, or whose REQUEST is 6 or 7. -/
theorem Yard.stationRequest_bad {y : Yard} {e : Env} {d : Nat} {x : Door} {w : Word} (hx : y.doors[d]? = some x)
    (hw : ¬ (WordFor w d ∧ requestOf w < 6)) : y.stationRequest e d w = .error .badRequest := by
  unfold Yard.stationRequest
  simp only [hx, stationWordOk_iff, hw, if_false]

/-! ## The requests' own tests (R33, R34) -/

theorem Door.closeRefusal_indicated {x : Door} (h : x.st.cls = .indicated) : x.closeRefusal = some .notPowered := by
  simp [Door.closeRefusal, Door.powered_eq_false.mpr h]

theorem Door.closeRefusal_isolated {x : Door} (hp : x.powered = true) (hd : x.drive = .isolated) :
    x.closeRefusal = some .isolated := by
  simp [Door.closeRefusal, hp, hd, Drive.isIsolated]

theorem Drive.isIsolated_iff {drive : Drive} : drive.isIsolated = true ↔ drive = .isolated := by
  cases drive <;> simp [Drive.isIsolated]

theorem Door.closeRefusal_inhibited {x : Door} (hp : x.powered = true) (hd : x.drive ≠ .isolated)
    (hi : x.inhibit ≠ .none) : x.closeRefusal = some .inhibited := by
  simp [Door.closeRefusal, hp, Drive.isIsolated_iff, hd, hi]

/-- R33: an OPEN meets the tests of a CLOSE first. -/
theorem Door.openRefusal_of_close {e : Env} {x : Door} {r : RequestRefusal} (h : x.closeRefusal = some r) :
    x.openRefusal e = some r := by
  simp [Door.openRefusal, h]

theorem Door.openRefusal_mode {s : State} {x : Door} (h : x.closeRefusal = none)
    (hm : s.command.mode = some .doorsClosed) : x.openRefusal s.env = some .mode := by
  simp [Door.openRefusal, h, Env.doorsClosed_iff.mpr hm]

theorem Door.stopRefusal_indicated {e : Env} {x : Door} (h : x.st.cls = .indicated) :
    x.stopRefusal e = some .notPowered := by
  simp [Door.stopRefusal, Door.powered_eq_false.mpr h]

theorem Door.stopRefusal_mode {s : State} {x : Door} (hp : x.powered = true)
    (hm : s.command.mode = some .doorsClosed) : x.stopRefusal s.env = some .mode := by
  simp [Door.stopRefusal, hp, Env.doorsClosed_iff.mpr hm]

theorem Env.not_doorsClosed {s : State} (h : s.command.mode ≠ some .doorsClosed) : s.env.doorsClosed = false := by
  rw [← Bool.not_eq_true, Env.doorsClosed_iff]; exact h

theorem Door.stopRefusal_none {s : State} {x : Door} (hp : x.powered = true)
    (hm : s.command.mode ≠ some .doorsClosed) : x.stopRefusal s.env = none := by
  simp [Door.stopRefusal, hp, Env.not_doorsClosed hm]

/-! ## From the command to the request -/

/-- The station's commands, each with the REQUEST it writes. -/
def stationCommands (m : Master) (addr : Addr) (rest : BitVec 13) : List (Instr × BitVec 3) :=
  [(.stationNone m addr rest, 0#3), (.stationClose m addr rest, 1#3), (.stationOpen m addr rest, 2#3),
    (.stationStop m addr rest, 3#3), (.stationIsolate m addr rest, 4#3), (.stationRestore m addr rest, 5#3)]

theorem exec_station_arrives {m : Master} {addr : Addr} {rest : BitVec 13} {c : Instr} {n : BitVec 3}
    (h : (c, n) ∈ stationCommands m addr rest) (s : State) :
    exec c s = .next (s.arrive (wordWrite m addr (rest ++ n))) := by
  simp only [stationCommands, List.mem_cons, Prod.mk.injEq, List.not_mem_nil, or_false] at h
  rcases h with ⟨rfl, rfl⟩ | ⟨rfl, rfl⟩ | ⟨rfl, rfl⟩ | ⟨rfl, rfl⟩ | ⟨rfl, rfl⟩ | ⟨rfl, rfl⟩ <;> rfl

/-- R32: the station's commands write no REQUEST of 6 or 7. -/
theorem stationCommands_request {m : Master} {addr : Addr} {rest : BitVec 13} {c : Instr} {n : BitVec 3}
    (h : (c, n) ∈ stationCommands m addr rest) : requestOf (rest ++ n) < 6 := by
  simp only [stationCommands, List.mem_cons, Prod.mk.injEq, List.not_mem_nil, or_false] at h
  rw [requestOf_append]
  rcases h with ⟨-, rfl⟩ | ⟨-, rfl⟩ | ⟨-, rfl⟩ | ⟨-, rfl⟩ | ⟨-, rfl⟩ | ⟨-, rfl⟩ <;> decide

/-- R32: a refused request. -/
theorem State.arrive_door_refused {s : State} {m : Master} {addr : Addr} {w : Word} {b offset : Nat}
    {r : RequestRefusal} (h : ReachesDoor s m addr w b offset)
    (hr : s.yard.stationRequest s.env (b + offset) w = .error r) :
    s.arrive (wordWrite m addr w) = s.refuseRequest m addr w r.code := by
  rw [State.arrive_door h]
  unfold State.stationWrite
  rw [hr]
  rfl

/-- R32, R104: the part after a taken request, DONE, with the yard it has left. -/
def State.stationTaken (s : State) (y : Yard) : State := ((s.setYard y).endTake s.yard).answer (.done none)

theorem State.arrive_door_taken {s : State} {m : Master} {addr : Addr} {w : Word} {b offset : Nat} {y : Yard}
    (h : ReachesDoor s m addr w b offset) (hy : s.yard.stationRequest s.env (b + offset) w = .ok y) :
    s.arrive (wordWrite m addr w) = s.stationTaken y := by
  rw [State.arrive_door h]
  unfold State.stationWrite
  rw [hy]
  rfl

/-- A station's command on a door, by its own request. -/
theorem exec_station_taken {s : State} {m : Master} {addr : Addr} {rest : BitVec 13} {b offset : Nat} {x : Door}
    {c : Instr} {n : BitVec 3} {y : Yard} (hc : (c, n) ∈ stationCommands m addr rest)
    (h : ReachesDoor s m addr (rest ++ n) b offset) (hw : WordFor (rest ++ n) (b + offset))
    (hx : s.door? (b + offset) = some x) (hy : s.yard.requested s.env (b + offset) x n.toNat = .ok y) :
    exec c s = .next (s.stationTaken y) := by
  rw [exec_station_arrives hc]
  refine congrArg _ (State.arrive_door_taken h ?_)
  rw [Yard.stationRequest_judged hx hw (stationCommands_request hc), requestOf_append, hy]

theorem exec_station_refused {s : State} {m : Master} {addr : Addr} {rest : BitVec 13} {b offset : Nat} {x : Door}
    {c : Instr} {n : BitVec 3} {r : RequestRefusal} (hc : (c, n) ∈ stationCommands m addr rest)
    (h : ReachesDoor s m addr (rest ++ n) b offset) (hw : WordFor (rest ++ n) (b + offset))
    (hx : s.door? (b + offset) = some x) (hr : s.yard.requested s.env (b + offset) x n.toNat = .error r) :
    exec c s = .next (s.refuseRequest m addr (rest ++ n) r.code) := by
  rw [exec_station_arrives hc]
  refine congrArg _ (State.arrive_door_refused h ?_)
  rw [Yard.stationRequest_judged hx hw (stationCommands_request hc), requestOf_append, hr]

/-! ## What a refused request and a taken one leave -/

theorem Yard.stationClose_refused {y : Yard} {e : Env} {d : Nat} {x : Door} {r : RequestRefusal}
    (h : x.closeRefusal = some r) : y.stationClose e d x = .error r := by
  simp [Yard.stationClose, h]

theorem Yard.stationOpen_refused {y : Yard} {e : Env} {d : Nat} {x : Door} {r : RequestRefusal}
    (h : x.openRefusal e = some r) : y.stationOpen e d x = .error r := by
  simp [Yard.stationOpen, h]

theorem Yard.stationStop_refused {y : Yard} {e : Env} {d : Nat} {x : Door} {r : RequestRefusal}
    (h : x.stopRefusal e = some r) : y.stationStop e d x = .error r := by
  simp [Yard.stationStop, h]

/-- Settles O27: the word as a whole first, then each request's own tests, of which the first that fails refuses. -/
theorem stationRequestsAreRefused : Obligations.StationRequestsAreRefused := by
  unfold Obligations.StationRequestsAreRefused
  intro s m addr rest b offset x hx d closed refuses
  have motion : ∀ c n, (c, n) ∈ [(Instr.stationClose m addr rest, 1#3), (.stationOpen m addr rest, 2#3)] →
      (c, n) ∈ stationCommands m addr rest ∧ ∀ r, x.closeRefusal = some r →
        s.yard.requested s.env d x n.toNat = .error r := fun c n hc => by
    simp only [List.mem_cons, Prod.mk.injEq, List.not_mem_nil, or_false] at hc
    rcases hc with ⟨rfl, rfl⟩ | ⟨rfl, rfl⟩
    · exact ⟨by simp [stationCommands], fun r hr => Yard.stationClose_refused hr⟩
    · exact ⟨by simp [stationCommands], fun r hr => Yard.stationOpen_refused (Door.openRefusal_of_close hr)⟩
  refine ⟨fun c n hc reaches bad => ?_, fun w reaches big => ?_, fun c n hc => ?_, ?_, ?_, ?_⟩
  · rw [exec_station_arrives hc]
    exact congrArg _ (State.arrive_door_refused reaches (Yard.stationRequest_bad hx fun h => bad h.1))
  · exact congrArg Host.Outcome.next (State.arrive_door_refused reaches
      (Yard.stationRequest_bad hx fun h => absurd h.2 (Nat.not_lt.mpr big)))
  · obtain ⟨hmem, hclose⟩ := motion c n hc
    exact ⟨fun reaches ⟨hw, hi⟩ => exec_station_refused (r := .notPowered) hmem reaches hw hx
        (hclose _ (Door.closeRefusal_indicated hi)),
      fun reaches ⟨hw, hp, hd⟩ => exec_station_refused (r := .isolated) hmem reaches hw hx
        (hclose _ (Door.closeRefusal_isolated hp hd)),
      fun reaches ⟨hw, hp, hd, hi⟩ => exec_station_refused (r := .inhibited) hmem reaches hw hx
        (hclose _ (Door.closeRefusal_inhibited hp hd hi))⟩
  · exact fun reaches ⟨hw, hp, hd, hi, hm⟩ => exec_station_refused (r := .mode) (by simp [stationCommands]) reaches
      hw hx (Yard.stationOpen_refused (Door.openRefusal_mode (Door.closeRefusal_none.mpr ⟨hp, hd, hi⟩) hm))
  · exact fun reaches ⟨hw, hi⟩ => exec_station_refused (r := .notPowered) (by simp [stationCommands]) reaches
      hw hx (Yard.stationStop_refused (Door.stopRefusal_indicated hi))
  · exact fun reaches ⟨hw, hp, hm⟩ => exec_station_refused (r := .mode) (by simp [stationCommands]) reaches
      hw hx (Yard.stationStop_refused (Door.stopRefusal_mode hp hm))

/-- A taken request answers DONE, makes no capture, and reaches its door alone. -/
theorem State.stationTaken_frame {s : State} {y : Yard} {d : Nat} (h : Yard.Calm d s.yard y) :
    let t := s.stationTaken y
    t.path = { s.path with upstream := .idle, response := some (.done none) } ∧ t.ring = s.ring ∧
      OneDoor d { s with path := t.path } t :=
  ⟨rfl, rfl, State.oneDoor_take (s := { s with path := (s.stationTaken y).path })
    (u := { s with path := (s.stationTaken y).path, yard := y }) h rfl⟩

theorem State.stationTaken_door {s : State} {y : Yard} {d : Nat} {z : Door} (hz : y.doors[d]? = some z) :
    DoorAfter d (s.stationTaken y) z.sameButAlarms :=
  State.endTake_door (b := s.yard) (s := s.setYard y) hz

@[simp] theorem State.stationTaken_groups (s : State) (y : Yard) : (s.stationTaken y).yard.groups = y.groups := rfl

/-- A request that changes no door leaves the yard as it is. -/
theorem State.stationTaken_same (s : State) : (s.stationTaken s.yard).yard = s.yard :=
  State.endTake_yard_same (s := s)

end Sys2Proof.Machine
end

section
/-! SUPPORT. Doors that come to rest, join the queue or are turned (R20, R23 to R27, R41): the record and the group that
the operation leaves. -/

namespace Sys2Proof.Machine

/-! ## A change of drive state -/

/-- R52: a change that leads into no closing run. -/
theorem Protection.moved_leaving {p : Protection} {old new : Drive} (h : new.closingRun = false) :
    p.moved old new = p.leaving old := by
  unfold Protection.moved Protection.leaving
  rw [h]
  cases old.closingRun <;> rfl

theorem Drive.not_closingRun_of_not_bound {drive : Drive} (h : drive.bound = false) : drive.closingRun = false := by
  cases drive <;> simp_all [Drive.bound, Drive.closingRun]

/-- R66 to R71, R75: the group follows a door that no LO fall overtakes and that enters no slot. -/
theorem Yard.changeDrive_followed {y : Yard} {e : Env} {d : Nat} {x : Door} {new : Drive} {c : Bool}
    (hx : y.doors[d]? = some x) (h : x.plain e new) (hs : new.hasSlot = true → x.drive.hasSlot = true)
    {g : GroupNum} (hg : x.st.cls = .powered g) (hr : (y.groups.get g).Shows d x.drive) :
    (y.changeDrive e d new c).groups.get g = y.followed d x.drive new (y.groups.get g) := by
  rw [Yard.changeDrive_own hx h hg, Yard.followed]
  congr 1
  · cases hn : new.hasSlot with
    | false => simp [updateHolders_leave hn]
    | true => simp [updateHolders_stay hn (hr.holders.mpr (hs hn))]
  · unfold Yard.updateQueue
    rw [Yard.enqueue_modify _ _ _ _ (not_mem_filter_ne _ _)]

/-- R22, R52: a door that leaves the bound states for one that no LO fall takes it out of. -/
structure Door.Stops (e : Env) (new : Drive) (x z : Door) : Prop where
  drive : z.drive = new
  inhibit : z.inhibit = x.inhibit
  tripCount : z.prot.tripCount = x.prot.tripCount
  run : x.drive.closingRun = true → z.prot.alert = none ∧ z.prot.tripTimer = none
  hold : x.hold = false → z.hold = false
  within : x.inp.within e.clock e.times.idleLimit →
    z = { x with drive := new, prot := x.prot.leaving x.drive }

/-- The record of a door that stops, where its freshness timer meets no limit. -/
theorem Yard.changeDrive_stopped {y : Yard} {e : Env} {d : Nat} {x : Door} {new : Drive}
    (hx : y.doors[d]? = some x) (hb : new.bound = false)
    (h : x.drive.bound = false ∨ x.inp.within e.clock e.times.idleLimit) :
    (y.changeDrive e d new false).doors[d]? =
      some { x with drive := new, prot := x.prot.leaving x.drive } := by
  have limit : e.freshnessLimit new = e.times.idleLimit := by simp [Env.freshnessLimit, hb]
  rw [Yard.changeDrive_within_door hx (by rw [hb, limit]; exact h), Protection.runTake_moved,
    Protection.moved_leaving (Drive.not_closingRun_of_not_bound hb)]

theorem Yard.changeDrive_stops {y : Yard} {e : Env} {d : Nat} {x : Door} {new : Drive}
    (hx : y.doors[d]? = some x) (hb : new.bound = false) (h : ({ x with drive := new } : Door).staleQuiet e) :
    ∃ z, (y.changeDrive e d new false).doors[d]? = some z ∧ Door.Stops e new x z := by
  obtain ⟨⟨z, hz, driven⟩, -⟩ := Yard.changeDrive_quiet (c := false) hx h
  have run := Drive.not_closingRun_of_not_bound hb
  refine ⟨z, hz, driven.drive, driven.steady.inhibit, driven.steady.tripCount, fun hc => ?_, fun hh => ?_,
    fun hw => ?_⟩
  · rcases driven.prot with hp | hp <;> rw [hp, Protection.runTake_moved, Protection.moved_leaving run] <;>
      simp [Protection.leaving, hc, Protection.noRun]
  · rcases driven.hold with h | h <;> rw [h, hh]
    rfl
  · rw [Yard.changeDrive_stopped hx hb (.inr hw)] at hz
    exact (Option.some.inj hz).symm

theorem groupFollows_changeDrive {s t : State} {d : Nat} {x z : Door} {new : Drive} {c : Bool}
    (hx : s.door? d = some x) (h : x.plain s.env new) (hs : new.hasSlot = true → x.drive.hasSlot = true)
    (hz : z.drive = new) (ht : t.yard.groups = (s.yard.changeDrive s.env d new c).groups) :
    GroupFollows d x z s t := by
  subst hz
  intro g hg r others behind hq hh
  rw [ht, Yard.changeDrive_followed hx h hs hg ⟨hq, hh⟩]
  rfl

/-- R75: the group of a door that comes to rest, stale or not. -/
theorem leavesGroup_changeDrive {s t : State} {d : Nat} {x w : Door} {y : Yard} {new : Drive}
    (hw : y.doors[d]? = some w) (hst : w.st = x.st) (hb : new.bound = false) (hy : y.groups = s.yard.groups)
    (ht : t.yard.groups = (y.changeDrive s.env d new false).groups) : LeavesGroup d x s t := by
  refine State.leavesGroup_of fun g hg => ?_
  rw [ht, Yard.changeDrive_resting_leaves hw (by rw [hst]; exact hg) hb, hy]

/-! ## Coming to rest (R20, R41) -/

/-- R41: a door that the enforcement check passes over wherever it has come to rest. -/
theorem Yard.rest_unenforced {y : Yard} {e : Env} {d : Nat} {x : Door} {c : Bool} (hx : y.doors[d]? = some x)
    (h : e.doorsClosed = false ∨ x.inhibit ≠ .none ∨ x.position.standsOpen = false) :
    y.rest e d c = y.changeDrive e d .resting c := by
  obtain ⟨z, hz, steady⟩ := (Yard.steady_changeDrive (Yard.fresh_true e d y) .resting c).door x hx
  refine Yard.enforce_passes hz ?_
  have open_of : z.position.standsOpen = true → x.position.standsOpen = true := fun ho => by
    rcases steady.sight with ⟨-, hp⟩ | ⟨-, -, hp⟩
    · rwa [hp] at ho
    · rw [hp] at ho; cases ho
  have inhibit := steady.inhibit
  rw [← Bool.not_eq_true]
  intro he
  unfold Door.enforceable at he
  simp only [Bool.and_eq_true, beq_iff_eq] at he
  obtain ⟨⟨⟨⟨⟨hm, -⟩, hi⟩, -⟩, -⟩, ho⟩ := he
  rcases h with h | h | h
  · rw [h] at hm; cases hm
  · exact h (inhibit.symm.trans hi)
  · rw [open_of ho] at h; cases h

/-- R14, R39: a door that comes to rest rests or waits to reclose, its inhibit and its count standing. -/
theorem Yard.changeDrive_rests {y : Yard} {d : Nat} {x : Door} (e : Env) (hx : y.doors[d]? = some x) :
    ∃ z, (y.changeDrive e d .resting false).doors[d]? = some z ∧ z.drive.bound = false ∧
      z.inhibit = x.inhibit ∧ z.prot.tripCount = x.prot.tripCount := by
  obtain ⟨z, hz, steady⟩ := (Yard.steady_changeDrive (Yard.fresh_true e d y) .resting false).door x hx
  obtain ⟨w, hw, turns⟩ := Yard.changeDrive_turns e .resting false hx
  rw [hw] at hz
  obtain rfl := Option.some.inj hz
  exact ⟨w, hw, turns.bound rfl, steady.inhibit, steady.tripCount⟩

/-- R41: the enforcement check of a RESTING door. -/
theorem Yard.enforce_enforced {y : Yard} {s : State} {d : Nat} {x : Door} (hx : y.doors[d]? = some x)
    (hd : x.drive = .resting) (h : Enforced s x x.hold) :
    y.enforce s.env d = y.changeDrive s.env d (.queued .toClose .mode) false :=
  Yard.enforce_queues hx (Door.enforceable_iff.mpr ⟨h, hd⟩)

theorem Yard.enforce_not_enforced {y : Yard} {s : State} {d : Nat} {x : Door} (hx : y.doors[d]? = some x)
    (h : ¬ Enforced s x x.hold) : y.enforce s.env d = y :=
  Yard.enforce_passes hx (by rw [← Bool.not_eq_true, Door.enforceable_iff]; exact fun he => h he.1)

/-- R39: an LO fall leaves a door that is QUEUED to close where it is. -/
theorem Door.staleQuiet_queuedToClose (e : Env) (x : Door) (o : Origin) :
    ({ x with drive := .queued .toClose o } : Door).staleQuiet e :=
  .inr (loFallDrive_unmoved (.queued o))

/-! ## Joining the queue (R68) -/

theorem Yard.classOf_le_three (y : Yard) (d : Nat) : y.classOf d ≤ 3 := by
  unfold Yard.classOf
  split
  · unfold Drive.queueClass
    split <;> omega
  · exact Nat.le_refl 3

/-- R67: the last class goes behind every entry. -/
theorem Yard.enqueue_last (y : Yard) (d : Nat) (l : List Nat) : y.enqueue 3 d l = l ++ [d] := by
  have all : ∀ e ∈ l, decide (y.classOf e ≤ 3) = true := fun e _ => decide_eq_true (y.classOf_le_three e)
  rw [Yard.enqueue, List.takeWhile_eq_self_iff.mpr all, List.dropWhile_eq_nil_iff.mpr all]

/-- R68: a door joins its group's queue where the group gains its entry at the tail of the class. -/
theorem joinsQueue_of {s t : State} {d : Nat} {x : Door} {dir : Direction} {o : Origin} (ho : o ≠ .localReq)
    (h : ∀ g, x.st.cls = .powered g → d ∉ (s.yard.groups.get g).queue → d ∉ (s.yard.groups.get g).holders →
      t.yard.groups.get g = { s.yard.groups.get g with
        queue := s.yard.enqueue (Drive.queued dir o).queueClass d (s.yard.groups.get g).queue }) :
    JoinsQueue d dir x s t := by
  intro g hg hq hh
  rw [h g hg hq hh]
  refine ⟨rfl, rfl, ?_⟩
  cases dir with
  | toClose => rfl
  | toOpen =>
    have last : (Drive.queued .toOpen o).queueClass = 3 := by
      cases o with
      | localReq => exact absurd rfl ho
      | _ => rfl
    simp only [last, Yard.enqueue_last]

/-! ## Motion requests (R23 to R27) -/

theorem Yard.motionRequest_resting {y : Yard} {e : Env} {d : Nat} {x : Door} {dir : Direction} {o : Origin}
    (hx : y.doors[d]? = some x) (hp : x.position = dir.target) (hd : x.drive = .resting) :
    y.motionRequest e d dir o = y := by
  simp only [Yard.motionRequest, hx, if_pos hp, hd]

/-- R24: a satisfied request brings the door to rest. -/
theorem Yard.motionRequest_satisfied {y : Yard} {e : Env} {d : Nat} {x : Door} {dir : Direction} {o : Origin}
    (hx : y.doors[d]? = some x) (hp : x.position = dir.target) (hr : x.drive ≠ .resting)
    (hi : x.drive ≠ .isolated) : y.motionRequest e d dir o = y.rest e d false := by
  simp only [Yard.motionRequest, hx, if_pos hp]

theorem Yard.motionRequest_away {y : Yard} {e : Env} {d : Nat} {x : Door} {dir : Direction} {o : Origin} {new : Drive}
    (hx : y.doors[d]? = some x) (hp : x.position ≠ dir.target) (hn : requestedDrive e x dir o = some new) :
    y.motionRequest e d dir o = y.changeDrive e d new false := by
  simp only [Yard.motionRequest, hx, if_neg hp, hn]

/-- R24, R41: a door at the target of a request that has passed its gates is none that the enforcement check queues. -/
theorem rests_at_target {s : State} {x : Door} {dir : Direction} (hp : x.position = dir.target)
    (hm : dir = .toOpen → s.command.mode ≠ some .doorsClosed) :
    s.env.doorsClosed = false ∨ x.inhibit ≠ .none ∨ x.position.standsOpen = false := by
  cases dir with
  | toClose => exact .inr (.inr (by rw [hp]; rfl))
  | toOpen => exact .inl (Env.not_doorsClosed (hm rfl))

/-- R23, R27: the drive states from which a request queues the door. -/
def Drive.Standing (drive : Drive) : Prop :=
  drive = .resting ∨ (∃ r, drive = .recloseWait r) ∨ ∃ r, drive = .tripped r

theorem Drive.Standing.idle {drive : Drive} (h : drive.Standing) :
    drive.bound = false ∧ drive.isQueued = false ∧ drive.closingRun = false ∧ drive ≠ .isolated := by
  rcases h with rfl | ⟨r, rfl⟩ | ⟨r, rfl⟩ <;> exact ⟨rfl, rfl, rfl, nofun⟩

theorem requestedDrive_standing {e : Env} {x : Door} {dir : Direction} {o : Origin} (h : x.drive.Standing) :
    requestedDrive e x dir o = some (.queued dir o) := by
  unfold requestedDrive
  rcases h with h | ⟨r, h⟩ | ⟨r, h⟩ <;> rw [h]

theorem updatedOrigin_station (o : Origin) : updatedOrigin o .station = stationOrigin o := by
  cases o <;> rfl

theorem startDrive_station (s : State) (x : Door) (dir : Direction) :
    startDrive s.env x dir .station =
      if dir = .toClose ∧ 0 < s.times.prewarn then .warning .station (s.clock + s.times.prewarn)
      else .moving dir .station (s.clock + x.st.travelLimit) := by
  simp [startDrive, Origin.remote, State.env]

/-- R25, R26: a station's request of a door that is bound somewhere. -/
theorem requestedDrive_bound {s : State} {x : Door} {dir : Direction} (h : x.drive.bound = true) :
    requestedDrive s.env x dir .station = some (stationRebinds s x dir x.drive) := by
  unfold requestedDrive stationRebinds
  cases hd : x.drive with
  | queued k o => simp only [updatedOrigin_station]; split <;> rfl
  | warning o p =>
    cases dir with
    | toClose => simp [updatedOrigin_station]
    | toOpen => simp [startDrive_station]
  | moving k o tr => simp only [updatedOrigin_station, startDrive_station]; split <;> rfl
  | _ => rw [hd] at h; cases h

/-- R26: a door turned about keeps its slot, or its place among those that wait for one. -/
theorem stationRebinds_keeps (s : State) (x : Door) (dir : Direction) (drive : Drive) :
    (stationRebinds s x dir drive).bound = drive.bound ∧ (stationRebinds s x dir drive).hasSlot = drive.hasSlot := by
  unfold stationRebinds
  split
  · split <;> exact ⟨rfl, rfl⟩
  · split <;> exact ⟨rfl, rfl⟩
  · split
    · exact ⟨rfl, rfl⟩
    · split <;> exact ⟨rfl, rfl⟩
  · exact ⟨rfl, rfl⟩

end Sys2Proof.Machine
end

section
/-! SUPPORT. The station's requests (R33 to R36) on a door that a well-formed word has reached. -/

namespace Sys2Proof.Machine

/-! ## STATION_CLOSE and STATION_OPEN (R33) -/

/-- R33: the two motion requests, with the direction each asks for. -/
def stationMotions (m : Master) (addr : Addr) (rest : BitVec 13) : List (Instr × BitVec 3 × Direction) :=
  [(.stationClose m addr rest, 1#3, .toClose), (.stationOpen m addr rest, 2#3, .toOpen)]

/-- R33: a CLOSE or an OPEN that passes its tests is a motion request of origin STATION. -/
theorem exec_station_motion {s : State} {m : Master} {addr : Addr} {rest : BitVec 13} {b offset : Nat} {x : Door}
    {c : Instr} {n : BitVec 3} {dir : Direction} (hc : (c, n, dir) ∈ stationMotions m addr rest)
    (h : ReachesDoor s m addr (rest ++ n) b offset) (hw : WordFor (rest ++ n) (b + offset))
    (hx : s.door? (b + offset) = some x) (hp : x.powered = true) (hi : x.inhibit = .none)
    (hd : x.drive ≠ .isolated) (hm : dir = .toOpen → s.command.mode ≠ some .doorsClosed) :
    exec c s = .next (s.stationTaken (s.yard.motionRequest s.env (b + offset) dir .station)) := by
  have free := Door.closeRefusal_none.mpr ⟨hp, hd, hi⟩
  simp only [stationMotions, List.mem_cons, Prod.mk.injEq, List.not_mem_nil, or_false] at hc
  rcases hc with ⟨rfl, rfl, rfl⟩ | ⟨rfl, rfl, rfl⟩
  · refine exec_station_taken (by simp [stationCommands]) h hw hx ?_
    show Yard.stationClose _ _ _ _ = _
    simp only [Yard.stationClose, free]
  · refine exec_station_taken (by simp [stationCommands]) h hw hx ?_
    show Yard.stationOpen _ _ _ _ = _
    simp only [Yard.stationOpen, Door.openRefusal_none.mpr ⟨free, Env.not_doorsClosed (hm rfl)⟩]

/-- R23, R68: the yard after a request away from the target, of a door that stands still. -/
theorem Yard.motionRequest_queues {s : State} {d : Nat} {x : Door} {dir : Direction} (hx : s.door? d = some x)
    (hd : x.drive.Standing) (hp : x.position ≠ dir.target) (hw : x.inp.within s.clock s.times.activeLimit) :
    let y := s.yard.motionRequest s.env d dir .station
    y.doors[d]? = some { x with drive := .queued dir .station } ∧
      ∀ t : State, t.yard.groups = y.groups → JoinsQueue d dir x s t := by
  obtain ⟨-, unqueued, idle, -⟩ := hd.idle
  rw [Yard.motionRequest_away hx hp (requestedDrive_standing hd)]
  refine ⟨?_, fun t ht => joinsQueue_of (o := .station) nofun fun g hg hq hh => ?_⟩
  · rw [Yard.changeDrive_within_door hx (.inr hw), Protection.runTake_moved, Protection.moved_same]
    rw [idle]; rfl
  · rw [ht, Yard.changeDrive_joins hx (.inr (.inl hw)) rfl unqueued hg hq hh]

/-- Settles O28: the request by where the door stands and what it waits for. -/
theorem stationRequestQueues : Obligations.StationRequestQueues := by
  unfold Obligations.StationRequestQueues
  intro s m addr rest b offset x c n dir hc reaches hw hx hp hi hm standing
  obtain ⟨unbound, -, idle, hiso⟩ := Drive.Standing.idle standing
  obtain ⟨path, ring, frame⟩ := State.stationTaken_frame
    (Yard.calm_motionRequest s.yard s.env (b + offset) dir .station)
  refine ⟨_, exec_station_motion hc reaches hw hx hp hi hiso hm, path, ring, frame, fun away hin => ?_,
    fun there hd => ?_, fun there hd => ?_⟩
  · obtain ⟨door, joins⟩ := Yard.motionRequest_queues hx standing away hin
    exact ⟨State.stationTaken_door door, joins _ rfl⟩
  · rw [Yard.motionRequest_resting hx there hd]
    exact s.stationTaken_same
  · refine State.stationTaken_door ?_
    rw [Yard.motionRequest_satisfied hx there hd hiso, Yard.rest_unenforced hx (rests_at_target there hm),
      Yard.changeDrive_stopped hx rfl (.inl unbound)]
    simp [Protection.leaving, idle]

/-- Settles O29: a bound door at the request's target comes to rest, and any other is turned or goes on. -/
theorem stationRequestRebinds : Obligations.StationRequestRebinds := by
  unfold Obligations.StationRequestRebinds
  intro s m addr rest b offset x c n dir hc reaches hw hx hp hi hm bound
  have hiso : x.drive ≠ .isolated := fun h => by rw [h] at bound; cases bound
  have hrest : x.drive ≠ .resting := fun h => by rw [h] at bound; cases bound
  obtain ⟨path, ring, frame⟩ := State.stationTaken_frame
    (Yard.calm_motionRequest s.yard s.env (b + offset) dir .station)
  refine ⟨_, exec_station_motion hc reaches hw hx hp hi hiso hm, path, ring, frame, fun there => ?_,
    fun away => ?_⟩
  · have rests : s.yard.motionRequest s.env (b + offset) dir .station =
        s.yard.changeDrive s.env (b + offset) .resting false := by
      rw [Yard.motionRequest_satisfied hx there hrest hiso, Yard.rest_unenforced hx (rests_at_target there hm)]
    rw [rests]
    obtain ⟨z, hz, record⟩ := Yard.changeDrive_rests s.env hx
    exact ⟨leavesGroup_changeDrive hx rfl rfl rfl rfl,
      (State.stationTaken_door hz).mono fun w same => by rw [same]; exact record,
      fun hin => State.stationTaken_door (Yard.changeDrive_stopped hx rfl (.inr hin))⟩
  · obtain ⟨keepsBound, keepsSlot⟩ := stationRebinds_keeps s x dir x.drive
    have plain : x.plain s.env (stationRebinds s x dir x.drive) := .inl keepsBound.symm
    rw [Yard.motionRequest_away hx away (requestedDrive_bound bound)]
    refine ⟨fun hs g hg hh hq => ?_, (State.stationTaken_door
      (Yard.changeDrive_within_door hx (.inl keepsBound.symm))).mono fun z same => ?_⟩
    · exact Yard.changeDrive_keeps hx plain (keepsSlot.trans hs) hg hq hh
    · have hprot : z.prot = x.prot.moved x.drive (stationRebinds s x dir x.drive) := by
        rw [same]; exact Protection.runTake_moved _ _ _ _
      have hdrive : z.drive = stationRebinds s x dir x.drive := by rw [same]
      refine ⟨hdrive, groupFollows_changeDrive hx plain (fun h => keepsSlot ▸ h) hdrive rfl, by rw [same],
        by rw [same], by rw [same], by rw [same], ?_, fun hrun hend => ?_⟩
      · rw [same]
        exact Protection.runTake_tripCount _ _ _ _ _
      · rw [hdrive] at hend
        rw [hprot, Protection.moved_leaving hend]
        simp [Protection.leaving, hrun, Protection.noRun]

/-! ## STATION_NONE and STATION_STOP (R32, R34) -/

/-- R39: in LOCAL_CONTROL an LO fall leaves a RESTING door where it is. -/
theorem Door.staleQuiet_resting {s : State} (x : Door) (hp : x.powered = true)
    (hm : s.command.mode ≠ some .doorsClosed) : ({ x with drive := .resting } : Door).staleQuiet s.env := by
  refine .inr ?_
  rw [loFallDrive_resting (x := { x with drive := .resting }) hp rfl, if_neg fun h => hm h.1]

theorem Door.staleQuiet_isolated (e : Env) (x : Door) : ({ x with drive := .isolated } : Door).staleQuiet e :=
  .inr (loFallDrive_unmoved .isolated)

theorem Yard.stationStop_idle {y : Yard} {s : State} {d : Nat} {x : Door} (hr : x.stopRefusal s.env = none)
    (h : x.drive = .resting ∨ x.drive = .isolated) : y.stationStop s.env d x = .ok y := by
  unfold Yard.stationStop
  rcases h with h | h <;> simp only [hr, h]

theorem Yard.stationStop_stops {y : Yard} {s : State} {d : Nat} {x : Door} (hr : x.stopRefusal s.env = none)
    (hd : x.drive ≠ .resting) (hi : x.drive ≠ .isolated) : y.stationStop s.env d x = .ok (y.rest s.env d false) := by
  unfold Yard.stationStop
  simp only [hr]

/-- Settles O30: a STOP brings the door to rest, where the enforcement check of DOORS_CLOSED passes it over. -/
theorem stationNoneAndStop : Obligations.StationNoneAndStop := by
  refine ⟨fun s m addr rest b offset x reaches hw hx => ?_, fun s m addr rest b offset x reaches hw hx hp hm => ?_⟩
  · obtain ⟨path, ring, frame⟩ := State.stationTaken_frame (Yard.Calm.refl (b + offset) s.yard)
    exact ⟨_, exec_station_taken (by simp [stationCommands]) reaches hw hx rfl, path, ring, s.stationTaken_same, frame⟩
  · have taken : ∀ {y}, s.yard.stationStop s.env (b + offset) x = .ok y →
        exec (.stationStop m addr rest) s = .next (s.stationTaken y) := fun hy =>
      exec_station_taken (by simp [stationCommands]) reaches hw hx hy
    have free := Door.stopRefusal_none hp hm
    by_cases idle : x.drive = .resting ∨ x.drive = .isolated
    · obtain ⟨path, ring, frame⟩ := State.stationTaken_frame (Yard.Calm.refl (b + offset) s.yard)
      exact ⟨_, taken (Yard.stationStop_idle free idle), path, ring, frame, fun _ => s.stationTaken_same,
        fun hr hi => absurd idle (not_or.mpr ⟨hr, hi⟩)⟩
    · obtain ⟨hr, hi⟩ := not_or.mp idle
      obtain ⟨path, ring, frame⟩ := State.stationTaken_frame (Yard.calm_rest s.yard s.env (b + offset) false)
      refine ⟨_, taken (Yard.stationStop_stops free hr hi), path, ring, frame, fun h => absurd h idle, fun _ _ => ?_⟩
      rw [Yard.rest_unenforced hx (.inl (Env.not_doorsClosed hm))]
      obtain ⟨z, hz, stops⟩ := Yard.changeDrive_stops hx rfl (Door.staleQuiet_resting x hp hm)
      refine ⟨leavesGroup_changeDrive hx rfl rfl rfl rfl, (State.stationTaken_door hz).mono fun w same => ?_⟩
      rw [same]
      exact ⟨stops.drive, stops.inhibit, stops.tripCount, stops.run, fun hin => by
        rw [stops.within hin]; exact ⟨rfl, rfl, rfl⟩⟩

/-! ## STATION_ISOLATE and STATION_RESTORE (R35, R36) -/

/-- R35: the record of a door whose hold flag a request has set. -/
theorem Yard.modify_hold_get {y : Yard} {d : Nat} {x : Door} (hx : y.doors[d]? = some x) (f : Door → Bool) :
    (y.modify d fun z => { z with hold := f z }).doors[d]? = some { x with hold := f x } := by
  rw [Yard.modify_get_same, hx]; rfl

theorem Yard.stationIsolate_same {y : Yard} {e : Env} {d : Nat} {x : Door} (h : x.drive = .isolated) :
    y.stationIsolate e d x = .ok y := by
  simp [Yard.stationIsolate, h, Drive.isIsolated]

theorem Yard.stationIsolate_isolates {y : Yard} {e : Env} {d : Nat} {x : Door} (h : x.drive ≠ .isolated) :
    y.stationIsolate e d x =
      .ok ((y.modify d fun z => { z with hold := false }).changeDrive e d .isolated false) := by
  simp [Yard.stationIsolate, Drive.isIsolated_iff, h]

theorem Yard.stationRestore_same {y : Yard} {e : Env} {d : Nat} {x : Door} (h : x.drive ≠ .isolated) :
    y.stationRestore e d x = .ok y := by
  simp [Yard.stationRestore, Drive.isIsolated_iff, h]

theorem Yard.stationRestore_restores {y : Yard} {e : Env} {d : Nat} {x : Door} (h : x.drive = .isolated) :
    y.stationRestore e d x = .ok ((y.modify d fun z =>
      { z with hold := z.hold || (x.powered && e.doorsClosed && x.inp.debounced.lo) }).rest e d false) := by
  simp [Yard.stationRestore, h, Drive.isIsolated]

/-- R41: where the enforcement check takes a RESTING door that may become stale as it joins the queue. -/
theorem Yard.enforce_resting {y : Yard} {s : State} {d : Nat} {x : Door} (hx : y.doors[d]? = some x)
    (hd : x.drive = .resting) :
    ∃ z, (y.enforce s.env d).doors[d]? = some z ∧ z.drive = x.restDrive s ∧ z.hold = x.hold ∧
      z.inhibit = x.inhibit ∧ z.prot.tripCount = x.prot.tripCount := by
  by_cases he : Enforced s x x.hold
  · rw [Yard.enforce_enforced hx hd he]
    obtain ⟨⟨z, hz, driven⟩, -⟩ := Yard.changeDrive_quiet (c := false) hx (Door.staleQuiet_queuedToClose _ x .mode)
    obtain ⟨-, -, -, free, -⟩ := id he
    refine ⟨z, hz, by rw [driven.drive, Door.restDrive, if_pos he], ?_, driven.steady.inhibit, driven.steady.tripCount⟩
    rcases driven.hold with h | h
    · exact h
    · rw [h, free]; rfl
  · rw [Yard.enforce_not_enforced hx he]
    exact ⟨x, hx, by rw [hd, Door.restDrive_resting he], rfl, rfl, rfl⟩

/-- Settles O31: ISOLATE is a stop in ISOLATED; RESTORE is a stop in RESTING, with the enforcement check after it. -/
theorem stationIsolateAndRestore : Obligations.StationIsolateAndRestore := by
  refine ⟨fun s m addr rest b offset x reaches hw hx => ?_, fun s m addr rest b offset x reaches hw hx => ?_⟩
  · have taken : ∀ {y}, s.yard.stationIsolate s.env (b + offset) x = .ok y →
        exec (.stationIsolate m addr rest) s = .next (s.stationTaken y) := fun hy =>
      exec_station_taken (by simp [stationCommands]) reaches hw hx hy
    by_cases hi : x.drive = .isolated
    · obtain ⟨path, ring, frame⟩ := State.stationTaken_frame (Yard.Calm.refl (b + offset) s.yard)
      exact ⟨_, taken (Yard.stationIsolate_same hi), path, ring, frame, fun _ => s.stationTaken_same,
        fun h => absurd hi h⟩
    · obtain ⟨path, ring, frame⟩ := State.stationTaken_frame
        (Yard.Calm.after (Yard.calm_changeDrive (s.yard.modify (b + offset) fun z => { z with hold := false }) s.env
          (b + offset) .isolated false) fun _ => ⟨rfl, rfl⟩)
      refine ⟨_, taken (Yard.stationIsolate_isolates hi), path, ring, frame, fun h => absurd h hi, fun _ => ?_⟩
      have cleared := Yard.modify_hold_get hx fun _ => false
      obtain ⟨z, hz, stops⟩ := Yard.changeDrive_stops (e := s.env) cleared rfl (Door.staleQuiet_isolated _ _)
      refine ⟨leavesGroup_changeDrive cleared rfl rfl rfl rfl, (State.stationTaken_door hz).mono fun w same => ?_⟩
      rw [same]
      refine ⟨stops.drive, stops.hold rfl, stops.inhibit, stops.tripCount, stops.run, fun hin => ?_⟩
      rw [stops.within hin]
      refine ⟨rfl, rfl, ?_⟩
      show (x.prot.leaving x.drive).settle = _
      unfold Protection.leaving
      split <;> rfl
  · have taken : ∀ {y}, s.yard.stationRestore s.env (b + offset) x = .ok y →
        exec (.stationRestore m addr rest) s = .next (s.stationTaken y) := fun hy =>
      exec_station_taken (by simp [stationCommands]) reaches hw hx hy
    by_cases hi : x.drive = .isolated
    · obtain ⟨path, ring, frame⟩ := State.stationTaken_frame
        (Yard.Calm.after (Yard.calm_rest (s.yard.modify (b + offset) fun z => { z with hold := z.hold ||
          (x.powered && s.env.doorsClosed && x.inp.debounced.lo) }) s.env (b + offset) false) fun _ => ⟨rfl, rfl⟩)
      refine ⟨_, taken (Yard.stationRestore_restores hi), path, ring, frame, fun h => absurd hi h, fun _ => ?_⟩
      intro hold
      have held := Yard.modify_hold_get hx fun z =>
        z.hold || (x.powered && s.env.doorsClosed && x.inp.debounced.lo)
      have rested := Yard.changeDrive_stopped (e := s.env) held (new := .resting) rfl (.inl (by rw [hi]; rfl))
      obtain ⟨z, hz, drive, zhold, inhibit, count⟩ := Yard.enforce_resting rested rfl
      refine (State.stationTaken_door hz).mono fun w same => ?_
      rw [same]
      refine ⟨zhold, inhibit, count.trans ?_, fun he => drive.trans (if_pos he), fun he => drive.trans (if_neg he)⟩
      show (x.prot.leaving x.drive).tripCount = _
      rw [hi]; rfl
    · obtain ⟨path, ring, frame⟩ := State.stationTaken_frame (Yard.Calm.refl (b + offset) s.yard)
      exact ⟨_, taken (Yard.stationRestore_same hi), path, ring, frame, fun _ => s.stationTaken_same,
        fun h => absurd h hi⟩

end Sys2Proof.Machine
end

section
/-! SUPPORT. The expiries of a WARNING, a waiting and a MOVING door (R29, R31, R40). -/

namespace Sys2Proof.Machine

/-! ## PREWARN_EXPIRY (R29) -/

theorem exec_prewarnExpiry_due {s : State} {d p : Nat} {x : Door} {o : Origin} (hx : s.door? d = some x)
    (hd : x.drive = .warning o p) (hdue : p ≤ s.clock) :
    exec (.prewarnExpiry d) s = .next (s.doorTake (fun y e => y.prewarnExpiry e d) []) := by
  show execPrewarnExpiry d s = _
  unfold execPrewarnExpiry
  rw [State.doorTimer_some hx, Door.prewarnAt, hd]
  simp only [State.atExpiry_due hdue]

theorem Yard.prewarnExpiry_moves {s : State} {d p : Nat} {x : Door} {o : Origin} (hx : s.door? d = some x)
    (hd : x.drive = .warning o p) : s.yard.prewarnExpiry s.env d =
      s.yard.changeDrive s.env d (.moving .toClose o (s.clock + x.st.travelLimit)) false := by
  have hx' : s.yard.doors[d]? = some x := hx
  simp only [Yard.prewarnExpiry, hx', hd] <;> rfl

/-! ## RECLOSE_EXPIRY (R40, R41) -/

theorem exec_recloseExpiry_due {s : State} {d r : Nat} {x : Door} (hx : s.door? d = some x)
    (hd : x.drive = .recloseWait r) (hdue : r ≤ s.clock) :
    exec (.recloseExpiry d) s = .next (s.doorTake (fun y e => y.recloseExpiry e d) []) := by
  show execRecloseExpiry d s = _
  unfold execRecloseExpiry
  rw [State.doorTimer_some hx, Door.recloseAt, hd]
  simp only [State.atExpiry_due hdue]

/-- R40: the record of a door whose wait has ended, before the enforcement check. -/
theorem Yard.recloseExpiry_rested {s : State} {d r : Nat} {x : Door} (hx : s.door? d = some x)
    (hd : x.drive = .recloseWait r) :
    (s.yard.changeDrive s.env d .resting false).doors[d]? = some { x with drive := .resting } := by
  rw [Yard.changeDrive_stopped hx rfl (.inl (by rw [hd]; rfl)), hd]
  rfl

/-- R41, R68: the enforcement check puts a door that has come to rest from outside the queue at the tail of the closes. -/
theorem Yard.rest_joinsQueue {s t : State} {d : Nat} {x : Door} (hx : s.door? d = some x)
    (hx1 : (s.yard.changeDrive s.env d .resting false).doors[d]? = some { x with drive := .resting })
    (he : Enforced s x x.hold) (ht : t.yard.groups = (s.yard.rest s.env d false).groups) :
    JoinsQueue d .toClose x s t := by
  let y1 := s.yard.changeDrive s.env d .resting false
  refine joinsQueue_of (o := .mode) nofun fun g hg hq hh => ?_
  have own : y1.groups.get g = s.yard.groups.get g :=
    (Yard.changeDrive_resting_leaves hx hg rfl).trans (by
      rw [filter_ne_of_not_mem hq, filter_ne_of_not_mem hh])
  have joined := Yard.changeDrive_joins (c := false) hx1 (.inr (.inr (Door.staleQuiet_queuedToClose s.env _ .mode)))
    rfl rfl hg (by rw [own]; exact hq) (by rw [own]; exact hh)
  have others : y1.enqueue 1 d (s.yard.groups.get g).queue = s.yard.enqueue 1 d (s.yard.groups.get g).queue := by
    refine Yard.enqueue_congr _ _ fun a ha => ?_
    unfold Yard.classOf
    rw [(Yard.calm_changeDrive s.yard s.env d .resting false).others a fun h => hq (h ▸ ha)]
  rw [ht, Yard.rest, Yard.enforce_enforced hx1 rfl he, joined, own]
  exact congrArg (fun q => { s.yard.groups.get g with queue := q }) others

/-- Settles O32: a WARNING door goes on to its run; a waiting one rests, and joins the queue where the check finds it. -/
theorem prewarnAndRecloseExpire : Obligations.PrewarnAndRecloseExpire := by
  refine ⟨fun s d x o p hx hd hdue => ?_, fun s d x r hx hd hdue => ?_⟩
  · have bound : x.drive.bound = (Drive.moving .toClose o (s.clock + x.st.travelLimit)).bound := by rw [hd]; rfl
    refine ⟨_, exec_prewarnExpiry_due hx hd hdue, State.oneDoor_doorTake (Yard.calm_prewarnExpiry _ _ _),
      State.doorTake_ring _ _ _, fun g hg hh hq => ?_, State.doorTake_door ?_⟩
    · rw [State.doorTake_yard, Yard.prewarnExpiry_moves hx hd]
      exact Yard.changeDrive_keeps hx (.inl bound) rfl hg hq hh
    · rw [Yard.prewarnExpiry_moves hx hd, Yard.changeDrive_within_door hx (.inl bound), Protection.runTake_moved, hd]
      rfl
  · have rested := Yard.recloseExpiry_rested hx hd
    refine ⟨_, exec_recloseExpiry_due hx hd hdue, State.oneDoor_doorTake (Yard.calm_rest _ _ _ _),
      State.doorTake_ring _ _ _, fun he => ⟨?_, ?_, fun touch => ?_⟩, fun he => ?_⟩
    · exact Yard.rest_joinsQueue hx rested he (State.doorTake_yard _ _ _)
    · obtain ⟨z, hz, drive, -⟩ := Yard.enforce_resting rested rfl
      refine (State.doorTake_door hz).mono fun w same => ?_
      rw [same]
      exact drive.trans (if_pos he)
    · have queued := (Yard.takes_enforce rested touch rfl).door
      have goes : ({ x with drive := .resting } : Door).restDrive s = .queued .toClose .mode := if_pos he
      rw [goes] at queued
      exact State.doorTake_door queued
    · refine State.doorTake_door ?_
      rw [Yard.recloseExpiry, Yard.rest, Yard.enforce_not_enforced rested he]
      exact rested

/-! ## TRAVEL_EXPIRY (R31) -/

theorem exec_travelExpiry_due {s : State} {d tr : Nat} {x : Door} {dir : Direction} {o : Origin}
    (hx : s.door? d = some x) (hd : x.drive = .moving dir o tr) (hdue : tr ≤ s.clock) :
    exec (.travelExpiry d) s = .next (s.doorTake (fun y e => y.travelExpiry e d) [stalledCapture d]) := by
  show execTravelExpiry d s = _
  unfold execTravelExpiry
  rw [State.doorTimer_some hx, Door.travelAt, hd]
  simp only [State.atExpiry_due hdue]

theorem Inhibit.stall_eq (i : Inhibit) : i.stall = if i = .latched then .latched else .stalled := by
  cases i <;> rfl

theorem Inhibit.stall_ne_none (i : Inhibit) : i.stall ≠ .none := by
  cases i <;> simp [Inhibit.stall]

/-- R31, R41: a stalled door is none that the enforcement check queues. -/
theorem Yard.travelExpiry_stops {y : Yard} {e : Env} {d : Nat} {x : Door} (hx : y.doors[d]? = some x) :
    let y1 := y.modify d fun z => { z with inhibit := z.inhibit.stall }
    y1.doors[d]? = some { x with inhibit := x.inhibit.stall } ∧
      y.travelExpiry e d = y1.changeDrive e d .resting false := by
  have stalled : (y.modify d fun z => { z with inhibit := z.inhibit.stall }).doors[d]? =
      some { x with inhibit := x.inhibit.stall } := by
    rw [Yard.modify_get_same, hx]; rfl
  exact ⟨stalled, Yard.rest_unenforced stalled (.inr (.inl (Inhibit.stall_ne_none _)))⟩

/-- Settles O33: the inhibit first, which keeps the enforcement check away, and then the stop. -/
theorem travelExpiryStallsTheDoor : Obligations.TravelExpiryStallsTheDoor := by
  unfold Obligations.TravelExpiryStallsTheDoor
  intro s d x dir o tr hx hd hdue
  obtain ⟨stalled, stops⟩ := Yard.travelExpiry_stops (e := s.env) (show s.yard.doors[d]? = some x from hx)
  rw [← Inhibit.stall_eq]
  refine ⟨_, exec_travelExpiry_due hx hd hdue, State.oneDoor_doorTake (Yard.calm_travelExpiry _ _ _), ?_,
    State.doorTake_ring _ _ _, ?_, fun hin => State.doorTake_door ?_⟩
  · exact leavesGroup_changeDrive stalled rfl rfl rfl (by rw [State.doorTake_yard, stops])
  · obtain ⟨z, hz, record⟩ := Yard.changeDrive_rests s.env stalled
    rw [← stops] at hz
    exact (State.doorTake_door hz).mono fun w same => by rw [same]; exact record
  · rw [stops, Yard.changeDrive_stopped stalled rfl (.inr hin)]

end Sys2Proof.Machine
end

section
/-! SUPPORT. The served words as numbers (R45, R114, R115, R161, R164): each field at its place in chapter 12. -/

namespace Sys2Proof.Machine

/-! ## Words composed field by field -/

/-- The next field of a word, above the number that the fields below it make. -/
theorem field_above {w : Word} {a v n : Nat} (hw : w.toNat = a) (ha : a < 2 ^ n) (hv : v * 2 ^ n < 65536) :
    (w ||| fieldAt v n).toNat = a + v * 2 ^ n := by
  rw [or_fieldAt_toNat (by rw [hw]; exact ha) hv, hw]

/-- The next flag of a word. -/
theorem flag_above {w : Word} {a n : Nat} {b : Bool} (hw : w.toNat = a) (ha : a < 2 ^ n) (hn : n < 16) :
    (w ||| bitAt b n).toNat = a + b.toNat * 2 ^ n := by
  rw [or_bitAt_toNat (by rw [hw]; exact ha) hn, hw]

/-! ## The bounds of the codes -/

theorem Drive.commandCode_le (drive : Drive) : drive.commandCode ≤ 2 := by
  unfold Drive.commandCode; split <;> omega

theorem InputPart.seqEcho_lt (i : InputPart) : i.seqEcho < 4 := by
  unfold InputPart.seqEcho
  cases i.lastSeq with
  | none => exact Nat.zero_lt_succ 3
  | some q => exact q.isLt

theorem Position.code_le (p : Position) : p.code ≤ 4 := by
  cases p <;> simp [Position.code]

theorem Drive.code_le (drive : Drive) : drive.code ≤ 6 := by
  cases drive <;> simp [Drive.code]

theorem Inhibit.code_le (i : Inhibit) : i.code ≤ 2 := by
  cases i <;> simp [Inhibit.code]

theorem AlarmState.code_le (a : AlarmState) : a.code ≤ 3 := by
  cases a <;> simp [AlarmState.code]

theorem BankState.code_le (b : BankState) : b.code ≤ 3 := by
  cases b <;> simp [BankState.code]

theorem ReloadState.code_le (r : ReloadState) : r.code ≤ 2 := by
  cases r <;> simp [ReloadState.code]

theorem ResetCause.code_le (r : ResetCause) : r.code ≤ 1 := by
  cases r <;> simp [ResetCause.code]

theorem modeCode_le (mode : Option VesselMode) : (mode.map modeCode).getD 0 ≤ 2 := by
  rcases mode with _ | _ | _ <;> simp [modeCode]

theorem masterCode_lt (m : Option Master) : (m.map Fin.val).getD 0 < 8 := by
  cases m with
  | none => exact Nat.zero_lt_succ 7
  | some k => exact k.isLt

/-! ## A door's words (R45, R114, R115) -/

theorem Door.commandWord_toNat {d : Nat} (x : Door) (hd : d < 96) :
    (x.commandWord d).toNat = x.drive.commandCode + x.drive.warn.toNat * 2 ^ 2 + x.inp.seqEcho * 2 ^ 3 + d * 2 ^ 8 +
      x.inp.stale.toNat * 2 ^ 15 := by
  have hcode := x.drive.commandCode_le
  have hwarn := x.drive.warn.toNat_le
  have hseq := x.inp.seqEcho_lt
  have command := fieldAt_zero_toNat (v := x.drive.commandCode) (by omega)
  have warn := flag_above (n := 2) (b := x.drive.warn) command (by omega) (by omega)
  have seq := field_above (n := 3) (v := x.inp.seqEcho) warn (by omega) (by omega)
  have door := field_above (n := 8) (v := d) seq (by omega) (by omega)
  exact flag_above (n := 15) door (by omega) (by omega)

theorem Door.stateWord_toNat (x : Door) (ht : x.prot.tripCount < 16) :
    x.stateWord.toNat = x.position.code + x.drive.code * 2 ^ 3 + (x.drive.direction == some .toOpen).toNat * 2 ^ 6 +
      x.inhibit.code * 2 ^ 7 + x.hold.toNat * 2 ^ 9 + x.prot.tripCount * 2 ^ 10 + x.anyUnack.toNat * 2 ^ 14 +
      x.anyActive.toNat * 2 ^ 15 := by
  have hpos := x.position.code_le
  have hdrive := x.drive.code_le
  have hopen := (x.drive.direction == some .toOpen).toNat_le
  have hinhibit := x.inhibit.code_le
  have hhold := x.hold.toNat_le
  have hunack := x.anyUnack.toNat_le
  have position := fieldAt_zero_toNat (v := x.position.code) (by omega)
  have drive := field_above (n := 3) (v := x.drive.code) position (by omega) (by omega)
  have opens := flag_above (n := 6) (b := x.drive.direction == some .toOpen) drive (by omega) (by omega)
  have inhibit := field_above (n := 7) (v := x.inhibit.code) opens (by omega) (by omega)
  have hold := flag_above (n := 9) (b := x.hold) inhibit (by omega) (by omega)
  have trips := field_above (n := 10) (v := x.prot.tripCount) hold (by omega) (by omega)
  have unack := flag_above (n := 14) (b := x.anyUnack) trips (by omega) (by omega)
  exact flag_above (n := 15) unack (by omega) (by omega)

theorem Door.alarmWord_toNat (x : Door) :
    x.alarmWord.toNat = x.alarms.doorOpen.code + x.alarms.tripped.code * 2 ^ 2 + x.alarms.latched.code * 2 ^ 4 +
      x.alarms.stalled.code * 2 ^ 6 + x.alarms.stale.code * 2 ^ 8 + x.alarms.conflict.code * 2 ^ 10 +
      x.alarms.drivePower.code * 2 ^ 12 + x.prot.hot.toNat * 2 ^ 14 + (!x.powered).toNat * 2 ^ 15 := by
  have hopen := x.alarms.doorOpen.code_le
  have htripped := x.alarms.tripped.code_le
  have hlatched := x.alarms.latched.code_le
  have hstalled := x.alarms.stalled.code_le
  have hstale := x.alarms.stale.code_le
  have hconflict := x.alarms.conflict.code_le
  have hpower := x.alarms.drivePower.code_le
  have hhot := x.prot.hot.toNat_le
  have doorOpen := fieldAt_zero_toNat (v := x.alarms.doorOpen.code) (by omega)
  have tripped := field_above (n := 2) (v := x.alarms.tripped.code) doorOpen (by omega) (by omega)
  have latched := field_above (n := 4) (v := x.alarms.latched.code) tripped (by omega) (by omega)
  have stalled := field_above (n := 6) (v := x.alarms.stalled.code) latched (by omega) (by omega)
  have stale := field_above (n := 8) (v := x.alarms.stale.code) stalled (by omega) (by omega)
  have conflict := field_above (n := 10) (v := x.alarms.conflict.code) stale (by omega) (by omega)
  have power := field_above (n := 12) (v := x.alarms.drivePower.code) conflict (by omega) (by omega)
  have hot := flag_above (n := 14) (b := x.prot.hot) power (by omega) (by omega)
  exact flag_above (n := 15) hot (by omega) (by omega)

/-! ## The capture window (R161) -/

theorem Entry.word0_toNat {e : Entry} (hk : e.kind < 64) (hm : e.master < 16) (hd : e.detail < 16) :
    e.word0.toNat = e.kind + e.master * 2 ^ 6 + e.addr.toNat / 65536 * 2 ^ 10 + e.detail * 2 ^ 12 := by
  have high : (e.addr >>> 16).toNat = e.addr.toNat / 65536 := by
    rw [BitVec.toNat_ushiftRight, Nat.shiftRight_eq_div_pow]
  have haddr := e.addr.isLt
  unfold Entry.word0
  rw [high]
  have kind := fieldAt_zero_toNat (v := e.kind) (by omega)
  have master := field_above (n := 6) (v := e.master) kind (by omega) (by omega)
  have addr := field_above (n := 10) (v := e.addr.toNat / 65536) master (by omega) (by omega)
  exact field_above (n := 12) addr (by omega) (by omega)

theorem Ring.word_counts {r : Ring} (h : r.lawful) :
    (r.word 4).toNat = r.entries.length ∧ (r.word 5).toNat = r.dropped := by
  obtain ⟨hlen, hdrop⟩ := h
  constructor
  · show (BitVec.ofNat 16 r.entries.length).toNat = _
    rw [BitVec.toNat_ofNat, Nat.mod_eq_of_lt (by omega)]
  · show (BitVec.ofNat 16 r.dropped).toNat = _
    rw [BitVec.toNat_ofNat, Nat.mod_eq_of_lt (by omega)]

theorem Ring.word_empty {r : Ring} (h : r.entries = []) {k : Nat} (hk : k < 4) : r.word k = 0 := by
  unfold Ring.word
  rw [h]
  match k, hk with
  | 0, _ => rfl
  | 1, _ => rfl
  | 2, _ => rfl
  | 3, _ => rfl

theorem Ring.word_entry {r : Ring} {e : Entry} {es : List Entry} (h : r.entries = e :: es) :
    r.word 0 = e.word0 ∧ r.word 1 = e.addr.setWidth 16 ∧ r.word 2 = e.data ∧ r.word 3 = e.time := by
  unfold Ring.word
  rw [h]
  exact ⟨rfl, rfl, rfl, rfl⟩

/-! ## The status words (R164) -/

theorem State.status0_toNat (s : State) :
    s.status0.toNat = s.resetCause.code + (s.command.mode.map modeCode).getD 0 * 2 ^ 1 +
      (s.command.holder.map Fin.val).getD 0 * 2 ^ 3 + s.command.holder.isNone.toNat * 2 ^ 6 +
      ((s.command.transfer.map (·.requester)).map Fin.val).getD 0 * 2 ^ 7 +
      s.command.transfer.isSome.toNat * 2 ^ 10 + s.loader.reload.code * 2 ^ 11 +
      s.loader.lastReloadFailed.toNat * 2 ^ 13 := by
  have hcause := s.resetCause.code_le
  have hmode := modeCode_le s.command.mode
  have hholder := masterCode_lt s.command.holder
  have hvacant := s.command.holder.isNone.toNat_le
  have hrequester := masterCode_lt (s.command.transfer.map (·.requester))
  have hpending := s.command.transfer.isSome.toNat_le
  have hreload := s.loader.reload.code_le
  have cause := fieldAt_zero_toNat (v := s.resetCause.code) (by omega)
  have mode := field_above (n := 1) (v := (s.command.mode.map modeCode).getD 0) cause (by omega) (by omega)
  have holder := field_above (n := 3) (v := (s.command.holder.map Fin.val).getD 0) mode (by omega) (by omega)
  have vacant := flag_above (n := 6) (b := s.command.holder.isNone) holder (by omega) (by omega)
  have requester := field_above (n := 7) (v := ((s.command.transfer.map (·.requester)).map Fin.val).getD 0) vacant
    (by omega) (by omega)
  have pending := flag_above (n := 10) (b := s.command.transfer.isSome) requester (by omega) (by omega)
  have reload := field_above (n := 11) (v := s.loader.reload.code) pending (by omega) (by omega)
  have all := flag_above (n := 13) (b := s.loader.lastReloadFailed) reload (by omega) (by omega)
  rw [Option.map_map] at all ⊢
  exact all

theorem Mirror.status1_toNat {m : Mirror} (ha : m.bankA.count ≤ 3) (hb : m.bankB.count ≤ 3) :
    m.status1.toNat = m.bankA.state.code + m.bankB.state.code * 2 ^ 2 + m.bankA.count * 2 ^ 4 +
      m.bankB.count * 2 ^ 6 + m.imageLost.toNat * 2 ^ 8 := by
  have hstateA := m.bankA.state.code_le
  have hstateB := m.bankB.state.code_le
  have stateA := fieldAt_zero_toNat (v := m.bankA.state.code) (by omega)
  have stateB := field_above (n := 2) (v := m.bankB.state.code) stateA (by omega) (by omega)
  have countA := field_above (n := 4) (v := m.bankA.count) stateB (by omega) (by omega)
  have countB := field_above (n := 6) (v := m.bankB.count) countA (by omega) (by omega)
  exact flag_above (n := 8) countB (by omega) (by omega)

theorem Mirror.status2_toNat {m : Mirror} (h : m.cursor < 262144) :
    m.status2.toNat = if m.source = none then 0 else m.cursor / 4 := by
  unfold Mirror.status2
  cases m.source with
  | none => rfl
  | some b =>
    simp only [Option.isSome_some, if_true, reduceCtorEq, if_false]
    rw [BitVec.toNat_ofNat, Nat.mod_eq_of_lt (by omega)]

theorem Yard.status3_toNat {y : Yard} (h : ∀ g, (y.groups.get g).holders.length < 16) :
    y.status3.toNat = (y.groups.get 0).holders.length + (y.groups.get 1).holders.length * 2 ^ 4 +
      (y.groups.get 2).holders.length * 2 ^ 8 + (y.groups.get 3).holders.length * 2 ^ 12 := by
  have h0 := h 0
  have h1 := h 1
  have h2 := h 2
  have h3 := h 3
  have first := fieldAt_zero_toNat (v := (y.groups.get 0).holders.length) (by omega)
  have second := field_above (n := 4) (v := (y.groups.get 1).holders.length) first (by omega) (by omega)
  have third := field_above (n := 8) (v := (y.groups.get 2).holders.length) second (by omega) (by omega)
  exact field_above (n := 12) third (by omega) (by omega)

theorem Yard.queueWord_toNat {y : Yard} {g k : GroupNum} (hg : (y.groups.get g).queue.length < 256)
    (hk : (y.groups.get k).queue.length < 256) :
    (y.queueWord g k).toNat = (y.groups.get g).queue.length + (y.groups.get k).queue.length * 2 ^ 8 := by
  have first := fieldAt_zero_toNat (v := (y.groups.get g).queue.length) (by omega)
  exact field_above (n := 8) first (by omega) (by omega)

theorem getLsbD_bitAt (b : Bool) {n i : Nat} (hi : i < 16) : (bitAt b n).getLsbD i = (b && i == n) := by
  cases b with
  | false => exact BitVec.getLsbD_zero
  | true =>
    show ((1#16) <<< n).getLsbD i = _
    rw [BitVec.getLsbD_shiftLeft, BitVec.getLsbD_one, Bool.true_and, Bool.eq_iff_iff]
    simp only [hi, Bool.and_eq_true, decide_eq_true_eq, Bool.not_eq_true', decide_eq_false_iff_not, beq_iff_eq]
    exact ⟨fun ⟨⟨_, above⟩, _, le⟩ => by omega, fun same => ⟨⟨trivial, by omega⟩, by omega, by omega⟩⟩

/-- R164: a bit of status word 6 is set by the master it stands for. -/
theorem State.status6_getLsbD (s : State) {i : Nat} (hi : i < 16) :
    s.status6.getLsbD i =
      masterNumbers.any fun m => ((s.role m).authorized && i == m.val) || ((s.role m).live && i == 8 + m.val) := by
  have fold : ∀ (l : List Master) (w : Word),
      (l.foldl (fun w m => w ||| bitAt (s.role m).authorized m.val ||| bitAt (s.role m).live (8 + m.val)) w).getLsbD i =
        (w.getLsbD i ||
          l.any fun m => ((s.role m).authorized && i == m.val) || ((s.role m).live && i == 8 + m.val)) := by
    intro l
    induction l with
    | nil => simp
    | cons m l ih =>
      intro w
      rw [List.foldl_cons, ih, List.any_cons, BitVec.getLsbD_or, BitVec.getLsbD_or, getLsbD_bitAt _ hi,
        getLsbD_bitAt _ hi, Bool.or_assoc, Bool.or_assoc, Bool.or_assoc]
  have none : (0 : Word).getLsbD i = false := BitVec.getLsbD_zero
  unfold State.status6
  rw [fold, none, Bool.false_or]

theorem mem_masterNumbers (m : Master) : m ∈ masterNumbers := by
  fin_cases m <;> decide

theorem State.status6_bits (s : State) (k : Master) :
    s.status6.getLsbD k.val = (s.role k).authorized ∧ s.status6.getLsbD (8 + k.val) = (s.role k).live := by
  have hk := k.isLt
  constructor
  · rw [s.status6_getLsbD (by omega), Bool.eq_iff_iff, List.any_eq_true]
    simp only [Bool.or_eq_true, Bool.and_eq_true, beq_iff_eq]
    refine ⟨fun ⟨m, _, h⟩ => ?_, fun h => ⟨k, mem_masterNumbers k, .inl ⟨h, rfl⟩⟩⟩
    rcases h with ⟨h, same⟩ | ⟨-, other⟩
    · rwa [Fin.ext same]
    · omega
  · rw [s.status6_getLsbD (by omega), Bool.eq_iff_iff, List.any_eq_true]
    simp only [Bool.or_eq_true, Bool.and_eq_true, beq_iff_eq]
    refine ⟨fun ⟨m, _, h⟩ => ?_, fun h => ⟨k, mem_masterNumbers k, .inr ⟨h, rfl⟩⟩⟩
    rcases h with ⟨-, other⟩ | ⟨h, same⟩
    · have hm := m.isLt
      omega
    · rwa [show k = m from Fin.ext (Nat.add_left_cancel same)]

/-! ## The fields in the words of the statement -/

/-- A word's field at bit `n`, with the place written before the value. -/
theorem place_congr {a b v u n : Nat} (hab : a = b) (hvu : v = u) : a + v * 2 ^ n = b + 2 ^ n * u := by
  rw [hab, hvu, Nat.mul_comm]

/-- Settles O21: each word as the sum of its fields, and each field by the cases of what it shows. -/
theorem servedWordsCarryTheirFields : Obligations.ServedWordsCarryTheirFields := by
  unfold Obligations.ServedWordsCarryTheirFields
  refine ⟨?command, ?state, ?alarm, ?capture, ?status⟩
  case command =>
    intro d x hd
    refine (x.commandWord_toNat hd).trans ?_
    refine congrArg₂ Nat.add (place_congr (n := 8) (place_congr (n := 3) (congrArg₂ Nat.add ?code ?warn) ?seq) rfl) ?stale
    case code => rcases x.drive with _ | _ | _ | ⟨_ | _, _, _⟩ | _ | _ | _ <;> rfl
    case warn => rcases x.drive with _ | _ | _ | ⟨_ | _, _ | _, _⟩ | _ | _ | _ <;> rfl
    case seq =>
      show x.inp.seqEcho = _
      unfold InputPart.seqEcho
      cases x.inp.lastSeq <;> rfl
    case stale => cases x.inp.stale <;> rfl
  case state =>
    intro x ht
    refine (x.stateWord_toNat ht).trans ?_
    refine place_congr (n := 15) (place_congr (n := 14) (place_congr (n := 10) (place_congr (n := 9)
      (place_congr (n := 7) (place_congr (n := 6) (place_congr (n := 3) ?position ?drive) ?opens) ?inhibit)
      rfl) rfl) rfl) rfl
    case position => cases x.position <;> rfl
    case drive => cases x.drive <;> rfl
    case opens => rcases x.drive with _ | ⟨_ | _, _⟩ | _ | ⟨_ | _, _, _⟩ | _ | _ | _ <;> rfl
    case inhibit => cases x.inhibit <;> rfl
  case alarm =>
    intro x code
    have hcode : ∀ a, code a = a.code := fun a => by cases a <;> rfl
    refine x.alarmWord_toNat.trans ?_
    simp only [hcode]
    omega
  case capture =>
    intro r hr
    obtain ⟨length, dropped⟩ := Ring.word_counts hr
    refine ⟨length, dropped, fun h k hk => Ring.word_empty h hk, fun e es h hk hm hd => ?_⟩
    obtain ⟨w0, w1, w2, w3⟩ := Ring.word_entry h
    refine ⟨?_, by rw [w1, BitVec.toNat_setWidth], w2, w3⟩
    rw [w0, Entry.word0_toNat hk hm hd]
    omega
  case status =>
    intro s bank m holders queued
    have hbank : ∀ b, bank b = b.code := fun b => by cases b <;> rfl
    refine ⟨?word0, fun ha hb => ?word1, Mirror.status2_toNat, fun h => ?word3, fun h => ⟨?word4, ?word5⟩,
      s.status6_bits, BitVec.toNat_ofNat _ _⟩
    case word0 =>
      refine s.status0_toNat.trans ?_
      refine place_congr (n := 13) (place_congr (n := 11) (place_congr (n := 10) (place_congr (n := 7)
        (place_congr (n := 6) (place_congr (n := 3) (place_congr (n := 1) ?cause ?mode) ?holder) rfl) ?requester)
        rfl) ?reload) rfl
      case cause => cases s.resetCause <;> rfl
      case mode => rcases s.command.mode with _ | _ | _ <;> rfl
      case holder => cases s.command.holder <;> rfl
      case requester => cases s.command.transfer <;> rfl
      case reload => cases s.loader.reload <;> rfl
    case word1 =>
      refine (Mirror.status1_toNat ha hb).trans ?_
      simp only [hbank]
      omega
    case word3 =>
      exact (Yard.status3_toNat h).trans
        (place_congr (n := 12) (place_congr (n := 8) (place_congr (n := 4) rfl rfl) rfl) rfl)
    case word4 => exact (Yard.queueWord_toNat (h 0) (h 1)).trans (place_congr (n := 8) rfl rfl)
    case word5 => exact (Yard.queueWord_toNat (h 2) (h 3)).trans (place_congr (n := 8) rfl rfl)

end Sys2Proof.Machine
end

section
/-! SUPPORT. The groups apart from one door (R65): no operation at a door touches the other entries, the other holders or
the slot count of any group, whatever the door's own part in its group. -/

namespace Sys2Proof.Machine

/-- A group's record with a door taken out of its lists. -/
def Group.without (r : Group) (d : Nat) : Group :=
  { r with holders := r.holders.filter (· != d), queue := r.queue.filter (· != d) }

/-- The groups apart from a door. -/
def Yard.apart (y : Yard) (d : Nat) (g : GroupNum) : Group := (y.groups.get g).without d

theorem Yard.apart_congr {y z : Yard} (d : Nat) (h : z.groups = y.groups) : z.apart d = y.apart d := by
  unfold Yard.apart; rw [h]

/-! ## The arbiter's two lists -/

theorem filter_updateHolders (d : Nat) (new : Drive) (l : List Nat) :
    (updateHolders d new l).filter (· != d) = l.filter (· != d) := by
  unfold updateHolders
  split
  · split <;> simp
  · simp

theorem Yard.filter_updateQueue (y : Yard) (d : Nat) (old new : Drive) (l : List Nat) :
    (y.updateQueue d old new l).filter (· != d) = l.filter (· != d) := by
  unfold Yard.updateQueue
  split
  · split
    · rfl
    · exact y.filter_enqueue _ _ _
  · simp

@[simp] theorem Yard.apart_arbiterTake (y : Yard) (d : Nat) (x : Door) (old new : Drive) :
    (y.arbiterTake d x old new).apart d = y.apart d := by
  funext g
  unfold Yard.apart
  by_cases hg : x.st.cls = .powered g
  · rw [Yard.arbiterTake_own _ _ _ _ _ hg]
    simp only [Group.without, filter_updateHolders, Yard.filter_updateQueue]
  · rw [Yard.arbiterTake_other _ _ _ _ _ hg]

/-! ## Operations at the door -/

variable (y : Yard) (e : Env) (d : Nat)

@[simp] theorem Yard.apart_modify (f : Door → Door) : (y.modify d f).apart d = y.apart d := rfl

@[simp] theorem Yard.apart_runTake (old new : Drive) (c : Bool) : (y.runTake e d old new c).apart d = y.apart d :=
  Yard.apart_congr d (Yard.runTake_groups _ _ _ _ _ _)

@[simp] theorem Yard.apart_changeStopped (new : Drive) : (y.changeStopped e d new).apart d = y.apart d := by
  unfold Yard.changeStopped; split <;> simp

@[simp] theorem Yard.apart_goStale : (y.goStale e d).apart d = y.apart d := by
  unfold Yard.goStale
  split
  · rfl
  · split
    · rfl
    · simp only
      split
      · split <;> simp
      · simp

@[simp] theorem Yard.apart_judgeFreshness : (y.judgeFreshness e d).apart d = y.apart d := by
  unfold Yard.judgeFreshness
  split
  · rfl
  · split
    · rfl
    · split <;> simp

@[simp] theorem Yard.apart_changeDrive (new : Drive) (c : Bool) :
    (y.changeDrive e d new c).apart d = y.apart d := by
  unfold Yard.changeDrive
  split
  · rfl
  · simp only
    split <;> simp

@[simp] theorem Yard.apart_enforce : (y.enforce e d).apart d = y.apart d := by
  unfold Yard.enforce
  split
  · rfl
  · split <;> simp

@[simp] theorem Yard.apart_rest (c : Bool) : (y.rest e d c).apart d = y.apart d := by
  simp [Yard.rest]

@[simp] theorem Yard.apart_motionRequest (dir : Direction) (o : Origin) :
    (y.motionRequest e d dir o).apart d = y.apart d := by
  unfold Yard.motionRequest
  split
  · rfl
  · split
    · split <;> simp
    · split <;> simp

/-! ## What a change of inputs delivers (R12) -/

@[simp] theorem Yard.apart_rederive : (y.rederive e d).apart d = y.apart d := by
  unfold Yard.rederive
  split
  · rfl
  · simp only
    split
    · rfl
    · unfold Yard.positionChange
      split
      · simp
      · simp only
        split <;> split <;> simp

@[simp] theorem Yard.apart_deliverLo (before after : Bool) :
    (y.deliverLo e d before after).apart d = y.apart d := by
  unfold Yard.deliverLo Yard.loRise Yard.loFall
  split
  · split
    · split
      · rfl
      · split
        · split <;> simp
        · rfl
    · rfl
  · split
    · rfl
    · simp only
      split <;> simp
  · rfl

@[simp] theorem Yard.apart_deliverLc (before after : Bool) :
    (y.deliverLc e d before after).apart d = y.apart d := by
  unfold Yard.deliverLc Yard.lcRise
  split
  · split
    · rfl
    · split <;> simp
  · rfl

@[simp] theorem Yard.apart_deliver (before after : Four Bool) :
    (y.deliver e d before after).apart d = y.apart d := by
  simp [Yard.deliver]

/-! ## A door that leaves its group -/

/-- R75: a door that goes where it is unbound leaves behind the group apart from it. -/
theorem Yard.changeDrive_unbound_apart {y : Yard} {e : Env} {d : Nat} {x : Door} {new : Drive} {c : Bool}
    (hx : y.doors[d]? = some x) {g : GroupNum} (hg : x.st.cls = .powered g) (hb : new.bound = false) :
    (y.changeDrive e d new c).groups.get g = y.apart d g :=
  Yard.changeDrive_resting_leaves hx hg hb

theorem leavesGroup_apart {s t : State} {d : Nat} {x : Door}
    (h : ∀ g, x.st.cls = .powered g → t.yard.groups.get g = s.yard.apart d g) : LeavesGroup d x s t :=
  State.leavesGroup_of fun g hg => h g hg

end Sys2Proof.Machine
end

section
/-! SUPPORT. Trips (R53, R54): the record, the group and the captures that a trip leaves; TRIP_TIMER_EXPIRY. -/

namespace Sys2Proof.Machine

/-! ## The trip of a door -/

/-- R41, R53: a trip that brings a door to rest brings it where the enforcement check passes it over: LATCHED, or in
LOCAL_CONTROL. -/
theorem Door.tripDrive_resting {e : Env} {x : Door} (h : x.tripDrive e = .resting) :
    e.doorsClosed = false ∨ (x.countTrip e).inhibit ≠ .none := by
  unfold Door.tripDrive at h
  split at h
  · next hl => exact .inr (by simp [Door.countTrip, hl])
  · split at h
    · split at h
      · cases h
      · next hm => exact .inl (by simpa using hm)
    · cases h

theorem Yard.countTrip_get {y : Yard} {d : Nat} {x : Door} (e : Env) (hx : y.doors[d]? = some x) :
    (y.modify d fun z => z.countTrip e).doors[d]? = some (x.countTrip e) := by
  rw [Yard.modify_get_same, hx]; rfl

/-- R53: the count and the inhibit, then the change of drive state, and nothing after it. -/
theorem Yard.trip_eq {y : Yard} {e : Env} {d : Nat} {x : Door} (hx : y.doors[d]? = some x) :
    y.trip e d = ((y.modify d fun z => z.countTrip e).changeDrive e d (x.tripDrive e) false, x.tripCaptures e d) := by
  have counted := Yard.countTrip_get e hx
  unfold Yard.trip
  simp only [hx]
  split
  · next hr =>
    have rests : (y.modify d fun z => z.countTrip e).rest e d false = _ :=
      Yard.rest_unenforced counted ((Door.tripDrive_resting hr).imp_right .inl)
    rw [hr]
    exact congrArg (·, _) rests
  · rfl

/-- R53 step 1, R75: the tripped door has left its group. -/
theorem Yard.trip_apart {y : Yard} {e : Env} {d : Nat} {x : Door} (hx : y.doors[d]? = some x) {g : GroupNum}
    (hg : x.st.cls = .powered g) : (y.trip e d).1.groups.get g = y.apart d g := by
  obtain ⟨-, -, unbound⟩ := x.tripDrive_idle e
  rw [Yard.trip_eq hx, Yard.changeDrive_unbound_apart (Yard.countTrip_get e hx) hg unbound, Yard.apart_modify]

/-- R52, R53: the record that the trip of a closing door leaves. -/
def Door.tripped (e : Env) (x : Door) : Door :=
  { x with
    inhibit := if x.tripLatches e then .latched else x.inhibit
    prot := { x.prot.noRun with tripCount := x.trippedCount }
    drive := x.tripDrive e }

theorem Yard.trip_door {y : Yard} {e : Env} {d : Nat} {x : Door} (hx : y.doors[d]? = some x)
    (hrun : x.drive.closingRun = true) (hin : x.inp.within e.clock e.times.idleLimit) :
    (y.trip e d).1.doors[d]? = some (x.tripped e) := by
  obtain ⟨-, -, unbound⟩ := x.tripDrive_idle e
  rw [Yard.trip_eq hx, Yard.changeDrive_stopped (Yard.countTrip_get e hx) unbound (.inr hin)]
  simp [Door.tripped, Door.countTrip, Protection.leaving, hrun, Protection.noRun]

theorem Door.tripLatches_iff {s : State} {x : Door} :
    x.tripLatches s.env = true ↔ s.times.retryLimit < x.trippedCount := decide_eq_true_iff

/-- R53 steps 3 to 5: where the trip of a closing door leads, by the origin of its run. -/
theorem Door.tripDrive_closing {s : State} {x : Door} {o : Origin} {tr : Nat} (hd : x.drive = .moving .toClose o tr) :
    x.tripDrive s.env =
      if s.times.retryLimit < x.trippedCount then .resting
      else if o ≠ .localReq then .tripped (s.clock + s.times.retryDelay)
      else if s.command.mode = some .doorsClosed then .recloseWait (s.clock + s.times.reclose)
      else .resting := by
  unfold Door.tripDrive
  simp only [Door.tripLatches_iff, Env.doorsClosed_iff, hd, Drive.origin, Option.some.injEq]
  by_cases ho : o = .localReq
  · simp only [ho, if_true, ne_eq, not_true, if_false]; rfl
  · simp only [ho, if_false, ne_eq, not_false_eq_true, if_true]; rfl

/-- R54: the ring after the captures of a trip. -/
theorem State.ring_tripCaptures (s : State) (x : Door) (d : Nat) :
    let tripped := s.ring.push (s.entryNow 11 15 0 (causeCode x.prot.alert) d)
    (s.captures (x.tripCaptures s.env d)).ring =
      if s.times.retryLimit < x.trippedCount then tripped.push (s.entryNow 12 15 0 x.trippedCount d)
      else tripped := by
  simp only [Door.tripCaptures, Door.tripLatches_iff]
  split <;> rfl

/-! ## TRIP_TIMER_EXPIRY -/

theorem exec_tripTimerExpiry_due {s : State} {d tt : Nat} {x : Door} (hx : s.door? d = some x)
    (hrun : x.drive.closingRun = true) (ht : x.prot.tripTimer = some tt) (hdue : tt ≤ s.clock) :
    exec (.tripTimerExpiry d) s = .next (s.takeTrip d) := by
  show execTripTimerExpiry d s = _
  unfold execTripTimerExpiry
  rw [State.doorTimer_some hx, Door.tripAt, if_pos hrun, ht]
  simp only [State.atExpiry_due hdue]

/-- Settles O34: the trip of a closing door by `Yard.trip_eq`. -/
theorem tripTimerExpiryTripsTheDoor : Obligations.TripTimerExpiryTripsTheDoor := by
  unfold Obligations.TripTimerExpiryTripsTheDoor
  intro s d x o tr tt cause hx hd htt hdue hcause hin n latches code tripped
  have hrun : x.drive.closingRun = true := by rw [hd]; rfl
  have trip := Yard.trip_eq (e := s.env) (show s.yard.doors[d]? = some x from hx)
  refine ⟨_, exec_tripTimerExpiry_due hx hrun htt hdue, State.oneDoor_doorTake (Yard.calm_trip _ _ _), ?_, ?_, ?_⟩
  · refine leavesGroup_apart fun g hg => ?_
    rw [State.takeTrip, State.doorTake_yard]
    exact Yard.trip_apart hx hg
  · rw [State.takeTrip, State.doorTake_ring, trip]
    have code_eq : causeCode x.prot.alert = code := by rw [hcause]; cases cause <;> rfl
    have captured := s.ring_tripCaptures x d
    rw [code_eq] at captured
    exact captured
  · refine (State.doorTake_door (Yard.trip_door hx hrun hin)).mono fun z same => ?_
    simp only [Door.tripped, Door.tripDrive_closing hd, Door.tripLatches_iff] at same
    exact same

end Sys2Proof.Machine
end

section
/-! SUPPORT. RETRY_EXPIRY and SETTLE_EXPIRY (R55, R58). -/

namespace Sys2Proof.Machine

/-! ## RETRY_EXPIRY (R55) -/

/-- R68: a remote request to close puts a door from outside the queue at the tail of the closes, stale or not. -/
theorem joinsQueue_changeDrive {s t : State} {d : Nat} {x : Door} {o : Origin} (hx : s.door? d = some x)
    (hq : x.drive.isQueued = false) (ho : o ≠ .localReq)
    (ht : t.yard.groups = (s.yard.changeDrive s.env d (.queued .toClose o) false).groups) :
    JoinsQueue d .toClose x s t :=
  joinsQueue_of ho fun g hg hqueue hholders => by
    rw [ht, Yard.changeDrive_joins hx (.inr (.inr (Door.staleQuiet_queuedToClose s.env x o))) rfl hq hg hqueue hholders]

/-- R52: a door that stands still and joins the queue begins and ends no run. -/
theorem Yard.changeDrive_queued_door {y : Yard} {e : Env} {d : Nat} {x : Door} {o : Origin}
    (hx : y.doors[d]? = some x) (hrun : x.drive.closingRun = false) (ht : x.inp.inTouch e) :
    (y.changeDrive e d (.queued .toClose o) false).doors[d]? = some { x with drive := .queued .toClose o } := by
  rw [Yard.changeDrive_within_door hx (.inr (ht.within _)), Protection.runTake_moved, Protection.moved_same hrun]

theorem exec_retryExpiry_due {s : State} {d r : Nat} {x : Door} (hx : s.door? d = some x)
    (hd : x.drive = .tripped r) (hdue : r ≤ s.clock) :
    exec (.retryExpiry d) s = .next (s.doorTake (fun y e => y.retryExpiry e d) []) := by
  show execRetryExpiry d s = _
  unfold execRetryExpiry
  rw [State.doorTimer_some hx, Door.retryAt, hd]
  simp only [State.atExpiry_due hdue]

/-- R24, R55: a TRIPPED door that stands CLOSED comes to rest. -/
theorem Yard.retryExpiry_closed {y : Yard} {e : Env} {d r : Nat} {x : Door} (hx : y.doors[d]? = some x)
    (hd : x.drive = .tripped r) (hp : x.position = .closed) :
    (y.retryExpiry e d).doors[d]? = some { x with drive := .resting } := by
  rw [Yard.retryExpiry, Yard.motionRequest_satisfied (dir := .toClose) hx hp (by simp [hd]) (by simp [hd]),
    Yard.rest_unenforced hx (.inr (.inr (by rw [hp]; rfl))), Yard.changeDrive_stopped hx rfl (.inl (by rw [hd]; rfl)),
    hd]
  rfl

theorem Yard.retryExpiry_away {y : Yard} {e : Env} {d r : Nat} {x : Door} (hx : y.doors[d]? = some x)
    (hd : x.drive = .tripped r) (hp : x.position ≠ .closed) :
    y.retryExpiry e d = y.changeDrive e d (.queued .toClose .retry) false :=
  Yard.motionRequest_away hx hp (requestedDrive_standing (.inr (.inr ⟨r, hd⟩)))

/-! ## SETTLE_EXPIRY (R58) -/

theorem exec_settleExpiry_due {s : State} {d n : Nat} {x : Door} (hx : s.door? d = some x)
    (hn : x.prot.settle = some n) (hdue : n ≤ s.clock) :
    exec (.settleExpiry d) s = .next (s.doorTake (fun y _ => y.settleExpiry d) []) := by
  show execSettleExpiry d s = _
  unfold execSettleExpiry
  rw [State.doorTimer_some hx, Door.settleAt, hn]
  simp only [State.atExpiry_due hdue]

/-- Settles O35: the retry is a request to close, satisfied where the door stands CLOSED; the settle expiry changes the
record alone. -/
theorem retryAndSettleExpire : Obligations.RetryAndSettleExpire := by
  refine ⟨fun s d x r hx hd hdue => ?_, fun s d x n hx hn hdue => ?_⟩
  · refine ⟨_, exec_retryExpiry_due hx hd hdue, State.oneDoor_doorTake (Yard.calm_motionRequest _ _ _ _ _),
      State.doorTake_ring _ _ _, fun hp => State.doorTake_door (Yard.retryExpiry_closed hx hd hp), fun hp => ?_⟩
    have queues := Yard.retryExpiry_away (e := s.env) hx hd hp
    have idle : x.drive.isQueued = false ∧ x.drive.closingRun = false := by rw [hd]; exact ⟨rfl, rfl⟩
    refine ⟨joinsQueue_changeDrive (o := .retry) hx idle.1 nofun
      ((State.doorTake_yard _ _ _).trans (congrArg _ queues)), ?_,
      fun touch => State.doorTake_door (queues ▸ Yard.changeDrive_queued_door hx idle.2 touch)⟩
    obtain ⟨⟨z, hz, driven⟩, -⟩ :=
      Yard.changeDrive_quiet (c := false) hx (Door.staleQuiet_queuedToClose s.env x .retry)
    refine (State.doorTake_door (queues ▸ hz)).mono fun w same => ?_
    rw [same]
    exact ⟨driven.drive, driven.steady.tripCount⟩
  · refine ⟨_, exec_settleExpiry_due hx hn hdue, State.oneDoor_doorTake (Yard.calm_settleExpiry _ _),
      State.doorTake_ring _ _ _, State.doorTake_yard _ _ _, State.doorTake_door ?_⟩
    rw [Yard.settleExpiry, Yard.modify_get_same, show s.yard.doors[d]? = some x from hx]
    rfl

end Sys2Proof.Machine
end

section
/-! SUPPORT. From an order's command to its take (R80, R132); BASELINE, RELOAD and HEARTBEAT (R62, R88, R168). -/

namespace Sys2Proof.Machine

/-! ## The access of an order (log 1) -/

/-- R80, R132: a taken order is forwarded with the state its take has left. -/
theorem exec_order_taken {s t : State} {m : Master} {addr : Addr} {w : Word} {offset : Nat} {c : Instr}
    (hc : exec c s = .next (s.arrive (wordWrite m addr w))) (h : ReachesOrder s m addr w offset)
    (ht : s.takeOrder offset m addr w = .taken t) : exec c s = .next (t.forwardOrder m addr w) := by
  rw [hc, State.arrive_order h, State.orderWrite_taken ht]

/-- R80: a refused order. -/
theorem exec_order_refused {s : State} {m : Master} {addr : Addr} {w : Word} {offset : Nat} {c : Instr}
    {r : OrderRefusal} (hc : exec c s = .next (s.arrive (wordWrite m addr w))) (h : ReachesOrder s m addr w offset)
    (hr : s.takeOrder offset m addr w = .refused r) : exec c s = .next (s.refuseOrder m addr w r.code) := by
  rw [hc, State.arrive_order h, State.orderWrite_refused hr]

/-! ## The three takes -/

theorem State.takeBaseline_taken {s : State} {m : Master} {w : Word}
    (h : s.command.holder = some m ∨ (s.role m).isService = true) :
    s.takeBaseline m w = .taken (s.setYard (s.yard.baseline w)) := if_pos h

theorem State.takeBaseline_writer {s : State} {m : Master} {w : Word} (hh : s.command.holder ≠ some m)
    (hs : (s.role m).isService = false) : s.takeBaseline m w = .refused .writer :=
  if_neg (not_or.mpr ⟨hh, by simp [hs]⟩)

/-- R62: a door of a masked zone takes its initial baseline, COLD; any other stands. -/
theorem Yard.baseline_get {y : Yard} {d : Nat} {x : Door} (mask : Word) (hx : y.doors[d]? = some x) :
    (y.baseline mask).doors[d]? = some (if zoneSelected mask x.st.zone then x.resetBaseline else x) := by
  rw [Yard.baseline, List.getElem?_map, hx]
  rfl

theorem State.takeReload_writer {s : State} {m : Master} {w : Word} (hs : (s.role m).isService = false) :
    s.takeReload m w = .refused .writer := by
  simp [State.takeReload, hs]

theorem State.takeReload_value {s : State} {m : Master} {w : Word} (hs : (s.role m).isService = true)
    (hw : w ≠ 1) : s.takeReload m w = .refused .badValue := by
  have unconfirmed : confirmOf w = false := beq_eq_false_iff_ne.mpr hw
  simp [State.takeReload, hs, unconfirmed]

theorem State.takeReload_busy {s : State} {m : Master} (hs : (s.role m).isService = true)
    (hb : s.loader.reload = .reloading) : s.takeReload m 1 = .refused .busy := by
  simp [State.takeReload, hs, confirmOf, hb]

theorem State.takeReload_taken {s : State} {m : Master} (hs : (s.role m).isService = true)
    (hb : s.loader.reload ≠ .reloading) :
    s.takeReload m 1 = .taken { s with loader := { s.loader with reload := .reloading } } := by
  simp [State.takeReload, hs, confirmOf, hb]

theorem State.takeHeartbeat_taken {s : State} {m : Master} (h : (s.role m).isStation = true) :
    s.takeHeartbeat m = .taken (s.setRole m (.station (some s.clock))) := if_pos h

theorem State.takeHeartbeat_writer {s : State} {m : Master} (h : (s.role m).isStation = false) :
    s.takeHeartbeat m = .refused .writer := if_neg (by simp [h])

/-- Settles O48: each order's take by its writer, its value and what runs. -/
theorem baselineReloadHeartbeatOrders : Obligations.BaselineReloadHeartbeatOrders := by
  refine ⟨fun s m addr w h => ⟨fun hh hs => ?_, fun hw => ?_⟩,
    fun s m addr w h => ⟨fun hs => ?_, fun hs hw => ?_, fun hs hw hb => ?_, fun hs hw hb => ?_⟩,
    fun s m addr w h => ⟨fun hs => ?_, fun hs => ?_⟩⟩
  · exact exec_order_refused (r := .writer) rfl h (State.takeBaseline_writer hh hs)
  · refine ⟨_, exec_order_taken rfl h (State.takeBaseline_taken hw), rfl, List.length_map _, fun d x hx => ?_⟩
    exact Yard.baseline_get w hx
  · exact exec_order_refused (r := .writer) rfl h (State.takeReload_writer hs)
  · exact exec_order_refused (r := .badValue) rfl h (State.takeReload_value hs hw)
  · subst hw
    exact exec_order_refused (r := .busy) rfl h (State.takeReload_busy hs hb)
  · subst hw
    exact exec_order_taken rfl h (State.takeReload_taken hs hb)
  · exact exec_order_refused (r := .writer) rfl h (State.takeHeartbeat_writer hs)
  · exact exec_order_taken rfl h (State.takeHeartbeat_taken hs)

end Sys2Proof.Machine
end

section
/-! SUPPORT. The alert evaluation (R49 to R51) of a fresh report on a door that it leaves closing, and the trip at
once. -/

namespace Sys2Proof.Machine

/-! ## What a fresh report delivers (R8 to R10, R12, R15) -/

theorem Four.ext_of {α : Type} {v w : Four α} (h : ∀ k, v.of k = w.of k) : v = w := by
  cases v; cases w
  have hcl := h .cl
  have hol := h .ol
  have hlo := h .lo
  have hlc := h .lc
  simp only [Four.of] at hcl hol hlo hlc
  rw [hcl, hol, hlo, hlc]

theorem takenInputs_of (s : State) (x : Door) (raw : Four Bool) (k : Input) :
    (takenInputs s x raw).of k =
      if x.inp.stale = true ∨ x.inp.reported = false ∨ (x.inp.timers.of k = none ∧ s.times.debounce = 0)
      then raw.of k else x.inp.debounced.of k := by
  cases k <;> rfl

/-- R9, R10, R15: the debounced inputs that a fresh report leaves are the statements' own. -/
theorem Door.reportTaken_debounced (s : State) (x : Door) (w : Word) (arrival : Nat) :
    (x.reportTaken s w arrival).debounced = takenInputs s x (reportOf w).inputs := by
  refine Four.ext_of fun k => ?_
  rw [takenInputs_of]
  by_cases hrecovers : x.inp.stale = true ∨ x.inp.reported = false
  · obtain ⟨debounced, -⟩ := InputPart.takeReport_recovering s.times.debounce arrival (reportOf w) hrecovers
    rw [Door.reportTaken, debounced, if_pos (hrecovers.imp_right .inl)]
  · obtain ⟨hstale, hreported⟩ := not_or.mp hrecovers
    obtain ⟨agrees, differs⟩ := Door.reportTaken_input (s := s) (w := w) (arrival := arrival)
      (by simpa using hstale) (by simpa using hreported) k
    by_cases hraw : (reportOf w).inputs.of k = x.inp.debounced.of k
    · rw [(agrees hraw).1, hraw, ite_self]
    · obtain ⟨running, at_once, starts⟩ := differs hraw
      cases htimer : x.inp.timers.of k with
      | some u => rw [(running u htimer).1, if_neg (by simp [hstale, hreported])]
      | none =>
        rcases Nat.eq_zero_or_pos s.times.debounce with h0 | hpos
        · rw [(at_once htimer h0).1, if_pos (.inr (.inr ⟨rfl, h0⟩))]
        · rw [(starts htimer hpos).1, if_neg (by simp [hstale, hreported, hpos.ne'])]

/-- R4: a position is read off the owner, the two flags and the debounced inputs. -/
theorem Env.positionOf_inputs (e : Env) {x z : Door} (hs : z.static = x.static) (hstale : z.inp.stale = x.inp.stale)
    (hreported : z.inp.reported = x.inp.reported) (hd : z.inp.debounced = x.inp.debounced) :
    e.positionOf z = e.positionOf x := by
  have owner : z.owner = x.owner := congrArg (Option.map DoorStatic.scanner) hs
  have authorized : e.authorized z = e.authorized x := by simp only [Env.authorized, owner]
  unfold Env.positionOf derivePosition
  rw [authorized, hstale, hreported, hd]

/-- R4: the position that a fresh report's inputs give. -/
def Door.reportPosition (s : State) (x : Door) (raw : Four Bool) : Position :=
  s.env.positionOf { x with inp := { x.inp with debounced := takenInputs s x raw, reported := true, stale := false } }

/-- R12, R58: the record that a fresh report leaves of a closing door which goes on closing. -/
theorem Door.reportDelivered_closing {s : State} {x : Door} {w : Word} {arrival : Nat} {o : Origin} {tr : Nat}
    (hrun : x.drive.closingRun = true) :
    let after := takenInputs s x (reportOf w).inputs
    let p := x.reportPosition s (reportOf w).inputs
    deliveredDrive s x after p = .moving .toClose o tr →
    x.reportDelivered s w arrival = { x with
      inp := x.reportTaken s w arrival, powerSeen := true, position := p, drive := .moving .toClose o tr
      hold := deliveredHold s x after
      prot := { x.prot with settle := if x.position = .closed ∧ p ≠ .closed then none else x.prot.settle } } := by
  intro after p hmoves
  let z := x.reportDelivered s w arrival
  have record : x.DeliveredTo s (x.reportTaken s w arrival) z := x.deliver_deliveredTo s _ true
  obtain ⟨-, -, -, -, -, -, hreported, hstale⟩ := x.inp.takeReport_fields s.times.debounce arrival (reportOf w)
  have inputs : (x.reportTaken s w arrival).debounced = after := x.reportTaken_debounced s w arrival
  have derived : s.env.positionOf (x.withInputs (x.reportTaken s w arrival) true) = p :=
    Env.positionOf_inputs _ rfl hstale hreported inputs
  have whole : z = { x.withInputs (x.reportTaken s w arrival) true with
      position := s.env.positionOf (x.withInputs (x.reportTaken s w arrival) true)
      drive := z.drive, hold := z.hold, prot := z.prot } := Door.deliver_eq s _ _
  rw [derived] at whole
  have position : z.position = p := by rw [whole]
  have drive : z.drive = .moving .toClose o tr := by
    rw [record.drive, inputs, position]; exact hmoves
  have goes_on : ¬ completesRun x z := fun hc => by
    have stopped := (record.completed hc).1
    rw [drive] at stopped; cases stopped
  have prot := record.stands goes_on
  rw [hrun, drive, position] at prot
  have hold : z.hold = deliveredHold s x after := by rw [record.hold, inputs]
  show z = _
  rw [whole, drive, hold, prot]
  rfl

/-! ## The evaluation (R50, R51) -/

theorem pressureTest_iff {p : Protection} {margin pressure : Nat} : pressureTest p margin pressure = true ↔
    p.hot = true ∧ p.baseline + margin < 255 ∧ p.baseline + margin < pressure := by
  simp [pressureTest, and_assoc]

theorem causeOf_none {ob pressure : Bool} (ho : ¬ ob = true) (hp : ¬ pressure = true) :
    causeOf ob pressure = none := by
  simp [causeOf, ho, hp]

theorem causeOf_some {ob pressure : Bool} {cause : Cause}
    (h : (cause = .both ∧ ob = true ∧ pressure = true) ∨ (cause = .obstruction ∧ ob = true ∧ ¬ pressure = true) ∨
      (cause = .pressure ∧ ¬ ob = true ∧ pressure = true)) : causeOf ob pressure = some cause := by
  rcases h with ⟨rfl, ho, hp⟩ | ⟨rfl, ho, hp⟩ | ⟨rfl, ho, hp⟩ <;> simp [causeOf, ho, hp]

/-- R51: an evaluation that finds no cause lowers the alert and ends its timer. -/
theorem Protection.evaluate_none {p : Protection} {margin pressure tripAt : Nat} {ob : Bool}
    (h : causeOf ob (pressureTest p margin pressure) = none) :
    p.evaluate margin ob pressure tripAt = { p with
      peak := some (raisePeak p.peak pressure), alert := none
      tripTimer := if p.alert = none then p.tripTimer else none } := by
  unfold Protection.evaluate Protection.takeResult
  rw [h]
  cases p.alert <;> simp

/-- R51: one that finds a cause raises the alert, with its mark and its timer, or keeps it with the new cause. -/
theorem Protection.evaluate_some {p : Protection} {margin pressure tripAt : Nat} {ob : Bool} {cause : Cause}
    (h : causeOf ob (pressureTest p margin pressure) = some cause) :
    p.evaluate margin ob pressure tripAt = { p with
      peak := some (raisePeak p.peak pressure), alert := some cause, mark := p.mark || p.alert.isNone
      tripTimer := if p.alert = none then some tripAt else p.tripTimer } := by
  unfold Protection.evaluate Protection.takeResult
  rw [h]
  cases p.alert <;> simp

/-- R51, R53: the evaluation of a report trips the door at once: it raises an alert, and the trip delay is 0. -/
def Door.TripsAtOnce (e : Env) (x : Door) (r : Report) : Prop :=
  x.prot.alert = none ∧ (x.evaluated e r).alert ≠ none ∧ e.times.tripDelay = 0

theorem Yard.evaluateAlert_goesOn {y : Yard} {e : Env} {d : Nat} {x : Door} {r : Report}
    (hx : y.doors[d]? = some x) (hrun : x.drive.closingRun = true) (h : ¬ x.TripsAtOnce e r) :
    y.evaluateAlert e d r = (y.modify d fun z => { z with prot := x.evaluated e r }, []) := by
  simp only [Yard.evaluateAlert, hx, hrun, if_true]
  exact if_neg h

theorem Yard.evaluateAlert_trips {y : Yard} {e : Env} {d : Nat} {x : Door} {r : Report}
    (hx : y.doors[d]? = some x) (hrun : x.drive.closingRun = true) (h : x.TripsAtOnce e r) :
    y.evaluateAlert e d r = (y.modify d fun z => { z with prot := x.evaluated e r }).trip e d := by
  simp only [Yard.evaluateAlert, hx, hrun, if_true]
  exact if_pos h

/-! ## The sensor take of a door that goes on closing -/

/-- R66: a door that is closing before and after keeps its slot. -/
theorem Yard.Takes.keepsSlot {s t : State} {d : Nat} {x z : Door} {y : Yard} (h : Yard.Takes d x z s.yard y)
    (hx : x.drive.closingRun = true) (hz : z.drive.closingRun = true) (ht : t.yard.groups = y.groups) :
    KeepsSlot d x s t := by
  have unqueued : ∀ {drive : Drive}, drive.closingRun = true → drive.isQueued = false := fun {drive} hd => by
    cases drive <;> simp_all [Drive.closingRun, Drive.isQueued]
  intro g hg hholds hwaits
  have shows : (s.yard.groups.get g).Shows d x.drive :=
    ⟨by simp [hwaits, unqueued hx], by simp [hholds, Drive.hasSlot_of_closingRun hx]⟩
  rw [ht, h.group g hg shows, Yard.followed, Drive.hasSlot_of_closingRun hz, unqueued hz, if_pos rfl,
    if_neg Bool.false_ne_true, filter_ne_of_not_mem hwaits]

theorem State.sensorTake_doorTake (s : State) (d : Nat) (w : Word) (arrival : Nat) :
    s.sensorTake d w arrival =
      s.doorTake (fun y e => (y.sensorTake e d w arrival).1) (s.yard.sensorTake s.env d w arrival).2 := rfl

section

variable {s : State} {d arrival : Nat} {x v : Door} {w : Word}

/-- R49: the report of a closing door that stays so is evaluated on the record it has delivered. -/
theorem Yard.sensorTake_evaluates (hx : s.door? d = some x) (hfresh : x.inp.lastSeq ≠ some (reportOf w).seq)
    (hrun : x.drive.closingRun = true) : s.yard.sensorTake s.env d w arrival =
      (s.yard.reportDelivered s d x w arrival).evaluateAlert s.env d (reportOf w) := by
  rw [Yard.sensorTake_fresh hx hfresh, if_pos hrun]

/-- R50, R51: the part after a report that trips nothing at once. -/
theorem State.sensorTake_goesOn (hx : s.door? d = some x) (hfresh : x.inp.lastSeq ≠ some (reportOf w).seq)
    (hrun : x.drive.closingRun = true) (touch : (x.reportTaken s w arrival).inTouch s.env)
    (hv : x.reportDelivered s w arrival = v) (hvrun : v.drive.closingRun = true)
    (h : ¬ v.TripsAtOnce s.env (reportOf w)) :
    let t := s.sensorTake d w arrival
    t.ring = s.ring ∧ KeepsSlot d x s t ∧
      DoorAfter d t (Door.sameButAlarms { v with prot := v.evaluated s.env (reportOf w) }) := by
  have takes := Yard.reportDelivered_takes hx touch
  rw [hv] at takes
  have out := (Yard.sensorTake_evaluates (arrival := arrival) hx hfresh hrun).trans
    (Yard.evaluateAlert_goesOn takes.door hvrun h)
  rw [State.sensorTake_doorTake]
  refine ⟨by rw [State.doorTake_ring, out]; rfl,
    takes.keepsSlot hrun hvrun ((State.doorTake_yard _ _ _).trans (by rw [out]; rfl)), State.doorTake_door ?_⟩
  rw [out, Yard.modify_get_same, takes.door]
  rfl

/-- R51, R53: the part after a report that does. -/
theorem State.sensorTake_trips (hx : s.door? d = some x) (hfresh : x.inp.lastSeq ≠ some (reportOf w).seq)
    (hrun : x.drive.closingRun = true) (touch : (x.reportTaken s w arrival).inTouch s.env)
    (hv : x.reportDelivered s w arrival = v) (hvrun : v.drive.closingRun = true)
    (hin : v.inp.inTouch s.env) (h : v.TripsAtOnce s.env (reportOf w)) :
    let t := s.sensorTake d w arrival
    let alerted := { v with prot := v.evaluated s.env (reportOf w) }
    t.ring = (s.captures (alerted.tripCaptures s.env d)).ring ∧ LeavesGroup d x s t ∧
      DoorAfter d t (alerted.tripped s.env).sameButAlarms := by
  intro t alerted
  have takes := Yard.reportDelivered_takes hx touch
  rw [hv] at takes
  let y1 := s.yard.reportDelivered s d x w arrival
  have door : (y1.modify d fun z => { z with prot := v.evaluated s.env (reportOf w) }).doors[d]? = some alerted := by
    rw [Yard.modify_get_same, takes.door]; rfl
  have out := (Yard.sensorTake_evaluates (arrival := arrival) hx hfresh hrun).trans
    (Yard.evaluateAlert_trips takes.door hvrun h)
  have groups : ∀ g, x.st.cls = .powered g → (s.sensorTake d w arrival).yard.groups.get g = s.yard.apart d g :=
    fun g hg => calc
      _ = (s.yard.sensorTake s.env d w arrival).1.groups.get g := by
        rw [State.sensorTake_doorTake, State.doorTake_yard]
      _ = y1.apart d g := by
        rw [out]
        exact Yard.trip_apart door (by rw [show alerted.st = x.st from Door.st_congr takes.static]; exact hg)
      _ = s.yard.apart d g := by
        simp only [y1, Yard.reportDelivered, Yard.apart_deliver, Yard.apart_modify]
  refine ⟨?_, leavesGroup_apart groups, ?_⟩
  · show (s.sensorTake d w arrival).ring = _
    rw [State.sensorTake_doorTake, State.doorTake_ring, out, Yard.trip_eq door]
  · have tripped := Yard.trip_door door hvrun hin.2
    rw [← out] at tripped
    exact State.doorTake_door (f := fun y e => (y.sensorTake e d w arrival).1) tripped

end

/-- Settles O41: the report's delivery by `Door.reportDelivered_closing`, then the evaluation by the cause it finds. -/
theorem alertEvaluation : Obligations.AlertEvaluation := by
  unfold Obligations.AlertEvaluation
  intro s d x w arrival o tr hx hrun hfresh raw after p hmoves hactive hidle pressure obstructed pressed peak settle t
    leaves
  have touch : (x.reportTaken s w arrival).inTouch s.env := Door.reportTaken_inTouch hactive hidle
  let v : Door := { x with
    inp := x.reportTaken s w arrival, powerSeen := true, position := p, drive := .moving .toClose o tr
    hold := deliveredHold s x after, prot := { x.prot with settle := settle } }
  have hv : x.reportDelivered s w arrival = v := Door.reportDelivered_closing hrun hmoves
  have leaves_of : ∀ {drive inhibit prot}, DoorAfter d t (Door.sameButAlarms { v with drive, inhibit, prot }) →
      leaves drive inhibit prot := fun h => h.mono fun z same => by
    have inp : z.inp = x.reportTaken s w arrival := by rw [same]
    rw [inp]
    exact ⟨x.reportTaken_debounced s w arrival, same⟩
  have test : pressureTest v.prot v.st.margin pressure = true ↔ pressed := pressureTest_iff
  refine ⟨s.sensorTake_oneDoor d w arrival, fun hob hpr => ?_, fun cause hcause => ?_⟩
  · have lowered : v.evaluated s.env (reportOf w) = _ :=
      Protection.evaluate_none (causeOf_none hob (test.not.mpr hpr))
    have stays : ¬ v.TripsAtOnce s.env (reportOf w) := fun h => h.2.1 (by rw [lowered])
    obtain ⟨ring, slot, door⟩ := State.sensorTake_goesOn hx hfresh hrun touch hv rfl stays
    rw [lowered] at door
    exact ⟨ring, slot, leaves_of door⟩
  · rw [← test] at hcause
    have raised : v.evaluated s.env (reportOf w) = _ := Protection.evaluate_some (causeOf_some hcause)
    refine ⟨fun hstays => ?_, fun hnew h0 => ?_⟩
    · have stays : ¬ v.TripsAtOnce s.env (reportOf w) := fun ⟨hnone, _, h0⟩ =>
        hstays.elim (fun h => h hnone) fun h => h.ne' h0
      obtain ⟨ring, slot, door⟩ := State.sensorTake_goesOn hx hfresh hrun touch hv rfl stays
      rw [raised] at door
      exact ⟨ring, slot, leaves_of door⟩
    · intro n latches tripped
      have trips : v.TripsAtOnce s.env (reportOf w) := ⟨hnew, by rw [raised]; nofun, h0⟩
      obtain ⟨ring, group, door⟩ := State.sensorTake_trips hx hfresh hrun touch hv rfl touch trips
      rw [raised] at ring door
      refine ⟨ring.trans ?_, group, leaves_of ?_⟩
      · rw [State.ring_tripCaptures]
        cases cause <;> rfl
      · simp only [Door.tripped, Door.tripLatches_iff] at door
        rw [Door.tripDrive_closing rfl] at door
        exact door

end Sys2Proof.Machine
end

section
/-! SUPPORT. The takes in which doors join as closes (R69): one door after another, in door-number order, each of which
leaves its place, keeps it, or joins behind the closes already waiting. -/

namespace Sys2Proof.Machine

/-! ## Lists of door numbers -/

/-- A list in which the entries that satisfy `p` come first. -/
theorem filter_append_filter_not {p : Nat → Bool} {l : List Nat}
    (h : l.Pairwise fun a b => p b = true → p a = true) : l.filter p ++ l.filter (fun k => !p k) = l := by
  induction l with
  | nil => rfl
  | cons a l ih =>
    obtain ⟨hfirst, hrest⟩ := List.pairwise_cons.mp h
    cases ha : p a with
    | true => simp [ha, ih hrest]
    | false =>
      have none_left : l.filter p = [] := List.filter_eq_nil_iff.mpr fun b hb hpb => by
        rw [hfirst b hb hpb] at ha; cases ha
      have all_right : l.filter (fun k => !p k) = l := List.filter_eq_self.mpr fun b hb => by
        simpa using List.filter_eq_nil_iff.mp none_left b hb
      simp [ha, none_left, all_right]

/-- A number above all that satisfy `p` comes behind them. -/
theorem filter_range_insert {p q : Nat → Bool} {d n : Nat} (hd : d < n) (hp : ∀ k, p k = true → k < d)
    (hq : ∀ k, q k = (k == d || p k)) : (List.range n).filter q = (List.range n).filter p ++ [d] := by
  obtain rfl : q = fun k => k == d || p k := funext hq
  induction n with
  | zero => cases hd
  | succ n ih =>
    have above : p n = false := by
      by_contra hn
      have := hp n (by simpa using hn)
      omega
    rcases Nat.lt_succ_iff_lt_or_eq.mp hd with hlt | rfl
    · simp [List.range_succ, ih hlt, above, hlt.ne']
    · have below : (List.range d).filter (fun k => k == d || p k) = (List.range d).filter p :=
        List.filter_congr fun k hk => by simp [(List.mem_range.mp hk).ne]
      simp [List.range_succ, below, above]

/-- R68: an entry placed behind the entries of its class or before it. -/
theorem Yard.enqueue_between {y : Yard} {cls d : Nat} {front back : List Nat} (hf : ∀ k ∈ front, y.classOf k ≤ cls)
    (hb : ∀ k ∈ back, cls < y.classOf k) : y.enqueue cls d (front ++ back) = front ++ d :: back := by
  have passes : ∀ k ∈ front, decide (y.classOf k ≤ cls) = true := fun k hk => decide_eq_true (hf k hk)
  have stops : back.takeWhile (fun e => decide (y.classOf e ≤ cls)) = [] ∧
      back.dropWhile (fun e => decide (y.classOf e ≤ cls)) = back := by
    cases back with
    | nil => exact ⟨rfl, rfl⟩
    | cons a l =>
      have := hb a (by simp)
      simp [this]
  unfold Yard.enqueue
  rw [List.takeWhile_append_of_pos passes, List.dropWhile_append_of_pos passes, stops.1, stops.2, List.append_nil]

/-! ## The lists of a group, by the drive states of its doors -/

/-- R67: a door QUEUED to close, class 1. -/
def Drive.waitsToClose (drive : Drive) : Bool := drive.isQueued && drive.direction == some .toClose

theorem Drive.waitsToClose_iff {drive : Drive} :
    drive.waitsToClose = true ↔ drive.isQueued = true ∧ drive.queueClass = 1 := by
  cases drive with
  | queued dir o =>
    cases dir <;> cases o <;> simp [Drive.waitsToClose, Drive.isQueued, Drive.direction, Drive.queueClass]
  | _ => simp [Drive.waitsToClose, Drive.isQueued]

theorem Drive.queueClass_pos (drive : Drive) : 1 ≤ drive.queueClass := by
  unfold Drive.queueClass; split <;> omega

theorem State.slotted_eq {t : State} {d : Nat} {x : Door} (hx : t.door? d = some x) :
    t.slotted d = x.drive.hasSlot := by
  simp [State.slotted, hx]

theorem State.waiting_eq {t : State} {d : Nat} {x : Door} (hx : t.door? d = some x) :
    t.waiting d = x.drive.isQueued := by
  simp [State.waiting, hx]

theorem State.waitsToClose_eq {t : State} {g : GroupNum} {d : Nat} {x : Door} (hx : t.door? d = some x) :
    t.waitsToClose g d = (x.st.cls == .powered g && x.drive.waitsToClose) := by
  simp [State.waitsToClose, hx, Drive.waitsToClose, Bool.and_assoc]

/-- A door's part in the lists is read off its record. -/
theorem State.lists_congr {s t : State} {d : Nat} (h : t.door? d = s.door? d) :
    t.slotted d = s.slotted d ∧ t.waiting d = s.waiting d ∧ ∀ g, t.waitsToClose g d = s.waitsToClose g d := by
  simp only [State.slotted, State.waiting, State.waitsToClose, h, true_and, implies_true]

theorem Yard.arbiterLawful.shows {y : Yard} (hl : y.arbiterLawful) {d : Nat} {x : Door} {g : GroupNum}
    (hx : y.doors[d]? = some x) (hg : x.st.cls = .powered g) : (y.groups.get g).Shows d x.drive := by
  have own : ∀ {p : Door → Prop}, (∃ z, y.doors[d]? = some z ∧ z.st.cls = .powered g ∧ p z) ↔ p x := fun {p} =>
    ⟨fun ⟨z, hz, _, hp⟩ => (Option.some.inj (hx.symm.trans hz)) ▸ hp, fun hp => ⟨x, hx, hg, hp⟩⟩
  exact ⟨(hl.queue g d).trans own, (hl.holders g d).trans own⟩

/-- R69: the group's record that `ClosesJoin` gives. -/
def closesJoined (s t : State) (g : GroupNum) : Group :=
  let r := s.yard.groups.get g
  { slotCount := r.slotCount
    holders := r.holders.filter t.slotted
    queue := r.queue.filter (fun d => s.waitsToClose g d && t.waitsToClose g d) ++
      (List.range s.doorCount).filter (fun d => t.waitsToClose g d && !s.waitsToClose g d) ++
      r.queue.filter fun d => t.waiting d && !t.waitsToClose g d }

theorem closesJoin_iff {s t : State} : ClosesJoin s t ↔ ∀ g, t.yard.groups.get g = closesJoined s t g := Iff.rfl

/-- A group none of whose doors has changed its part in the lists. -/
theorem closesJoined_congr {s t t' : State} {g : GroupNum} (hl : s.yard.arbiterLawful)
    (hw : ∀ k, t'.waitsToClose g k = t.waitsToClose g k)
    (h : ∀ k x, s.door? k = some x → x.st.cls = .powered g → t'.slotted k = t.slotted k ∧ t'.waiting k = t.waiting k) :
    closesJoined s t' g = closesJoined s t g := by
  unfold closesJoined
  have holders : (s.yard.groups.get g).holders.filter t'.slotted = (s.yard.groups.get g).holders.filter t.slotted :=
    List.filter_congr fun k hk => by
      obtain ⟨x, hx, hg, -⟩ := (hl.holders g k).mp hk
      exact (h k x hx hg).1
  have opens : (s.yard.groups.get g).queue.filter (fun k => t'.waiting k && !t.waitsToClose g k) =
      (s.yard.groups.get g).queue.filter (fun k => t.waiting k && !t.waitsToClose g k) :=
    List.filter_congr fun k hk => by
      obtain ⟨x, hx, hg, -⟩ := (hl.queue g k).mp hk
      rw [(h k x hx hg).2]
  simp only [holders, hw, opens]

/-- R67, R68: where no door has been taken yet, the closes stand before the opens. -/
theorem closesJoin_refl {s : State} (hl : s.yard.arbiterLawful) : ClosesJoin s s := by
  refine closesJoin_iff.mpr fun g => ?_
  have classes : ∀ k ∈ (s.yard.groups.get g).queue,
      s.waiting k = true ∧ (s.waitsToClose g k = true ↔ s.yard.classOf k = 1) := fun k hk => by
    obtain ⟨x, hx, hg, hq⟩ := (hl.queue g k).mp hk
    have cls : s.yard.classOf k = x.drive.queueClass := by simp only [Yard.classOf, hx]
    rw [State.waiting_eq hx, State.waitsToClose_eq hx, cls]
    simp [hg, hq, Drive.waitsToClose_iff]
  have holders : (s.yard.groups.get g).holders.filter s.slotted = (s.yard.groups.get g).holders :=
    List.filter_eq_self.mpr fun k hk => by
      obtain ⟨x, hx, -, hs⟩ := (hl.holders g k).mp hk
      rw [State.slotted_eq hx, hs]
  have sorted : (s.yard.groups.get g).queue.Pairwise fun a b =>
      s.waitsToClose g b = true → s.waitsToClose g a = true := by
    refine (hl.order g).imp_of_mem fun {a b} ha hb hab hclose => (classes a ha).2.mpr ?_
    have last := (classes b hb).2.mp hclose
    obtain ⟨x, hx, -, -⟩ := (hl.queue g a).mp ha
    have first : 1 ≤ s.yard.classOf a := by simp only [Yard.classOf, hx]; exact x.drive.queueClass_pos
    omega
  have opens : (s.yard.groups.get g).queue.filter (fun k => s.waiting k && !s.waitsToClose g k) =
      (s.yard.groups.get g).queue.filter (fun k => !s.waitsToClose g k) :=
    List.filter_congr fun k hk => by rw [(classes k hk).1, Bool.true_and]
  have whole := filter_append_filter_not sorted
  unfold closesJoined
  simp only [holders, opens, Bool.and_self, Bool.and_not_self, List.filter_false, List.append_nil]
  rw [whole]

theorem Group.eq_of {r q : Group} (hs : r.slotCount = q.slotCount) (hh : r.holders = q.holders)
    (hq : r.queue = q.queue) : r = q := by
  cases r; cases q
  simp_all

/-! ## One door of such a take -/

/-- The take of one door, of record `x`, in which it may join as a close, or leave, and does nothing else in its
group. -/
structure Yard.Closes (d : Nat) (x z : Door) (y y' : Yard) : Prop where
  takes : Yard.Takes d x z y y'
  calm : Yard.Calm d y y'
  closes : z.drive.isQueued = true → z.drive = x.drive ∨ z.drive.waitsToClose = true

section

variable {s : State} {y y' : Yard} {d : Nat} {x z : Door} {g : GroupNum}

theorem Yard.Closes.door (h : Yard.Closes d x z y y') (s : State) : (s.setYard y').door? d = some z := h.takes.door

theorem Yard.Closes.others (h : Yard.Closes d x z y y') {k : Nat} (hk : k ≠ d) :
    (s.setYard y').door? k = (s.setYard y).door? k := h.takes.others k hk

/-- R65: another group than the door's stands. -/
theorem Yard.Closes.other_group (h : Yard.Closes d x z y y') (hls : s.yard.arbiterLawful)
    (hx : y.doors[d]? = some x) (hsx : s.door? d = some x) (hg : x.st.cls ≠ .powered g)
    (prev : y.groups.get g = closesJoined s (s.setYard y) g) :
    y'.groups.get g = closesJoined s (s.setYard y') g := by
  rw [h.calm.groups g fun w hw => (Option.some.inj (hx.symm.trans hw)) ▸ hg, prev]
  refine (closesJoined_congr hls (fun k => ?_) fun k w hw hc => ?_).symm
  · by_cases hk : k = d
    · have not_own : z.st.cls ≠ .powered g := by rw [Door.st_congr h.takes.static]; exact hg
      rw [hk, State.waitsToClose_eq (h.door s), State.waitsToClose_eq (t := s.setYard y) hx]
      rw [beq_false_of_ne not_own, beq_false_of_ne hg, Bool.false_and, Bool.false_and]
    · exact (State.lists_congr (h.others hk)).2.2 g
  · have hk : k ≠ d := by
      rintro rfl
      exact hg ((Option.some.inj (hsx.symm.trans hw)) ▸ hc)
    obtain ⟨slotted, waiting, -⟩ := State.lists_congr (h.others (s := s) hk)
    exact ⟨slotted, waiting⟩

/-- R75: the holders are those that are still in WARNING or MOVING. -/
theorem Yard.Closes.holders (h : Yard.Closes d x z y y') (hx : y.doors[d]? = some x)
    (prev : y.groups.get g = closesJoined s (s.setYard y) g) :
    (if z.drive.hasSlot then (y.groups.get g).holders else (y.groups.get g).holders.filter (· != d)) =
      (closesJoined s (s.setYard y') g).holders := by
  have here : (s.setYard y').slotted d = z.drive.hasSlot := State.slotted_eq (h.door s)
  have there : (s.setYard y).slotted d = x.drive.hasSlot := State.slotted_eq hx
  have other : ∀ k, k ≠ d → (s.setYard y').slotted k = (s.setYard y).slotted k := fun k hk =>
    (State.lists_congr (h.others hk)).1
  rw [prev]
  unfold closesJoined
  simp only
  split
  · next hs =>
    refine List.filter_congr fun k _ => ?_
    by_cases hk : k = d
    · rw [hk, here, there, hs, h.takes.slot hs]
    · rw [other k hk]
  · next hs =>
    rw [List.filter_filter]
    refine List.filter_congr fun k _ => ?_
    by_cases hk : k = d
    · simp [hk, here, hs]
    · simp [hk, other k hk]

/-- R68: a door whose entry keeps its class keeps its place. -/
theorem Yard.Closes.queue_stays (h : Yard.Closes d x z y y') (hx : y.doors[d]? = some x)
    (hxq : x.drive.isQueued = true) (hzq : z.drive.isQueued = true) (hc : x.drive.queueClass = z.drive.queueClass)
    (prev : y.groups.get g = closesJoined s (s.setYard y) g) :
    (y.groups.get g).queue = (closesJoined s (s.setYard y') g).queue := by
  have close : z.drive.waitsToClose = x.drive.waitsToClose := by
    rw [Bool.eq_iff_iff, Drive.waitsToClose_iff, Drive.waitsToClose_iff, hxq, hzq, hc]
  have lists : ∀ k, (s.setYard y').waiting k = (s.setYard y).waiting k ∧
      (s.setYard y').waitsToClose g k = (s.setYard y).waitsToClose g k := fun k => by
    by_cases hk : k = d
    · rw [hk, State.waiting_eq (h.door s), State.waiting_eq (t := s.setYard y) hx, State.waitsToClose_eq (h.door s),
        State.waitsToClose_eq (t := s.setYard y) hx, hxq, hzq, close, Door.st_congr h.takes.static]
      exact ⟨rfl, rfl⟩
    · obtain ⟨-, waiting, closing⟩ := State.lists_congr (h.others (s := s) hk)
      exact ⟨waiting, closing g⟩
  rw [prev]
  simp only [closesJoined, lists]

/-- R71: a door that is not QUEUED afterwards has no entry. -/
theorem Yard.Closes.queue_leaves (h : Yard.Closes d x z y y') (hq : z.drive.isQueued = false)
    (prev : y.groups.get g = closesJoined s (s.setYard y) g) :
    (y.groups.get g).queue.filter (· != d) = (closesJoined s (s.setYard y') g).queue := by
  have waiting : ∀ k, (s.setYard y').waiting k = (k != d && (s.setYard y).waiting k) := fun k => by
    by_cases hk : k = d
    · rw [hk, State.waiting_eq (h.door s), hq]; simp
    · rw [(State.lists_congr (h.others hk)).2.1]; simp [hk]
  have closing : ∀ k, (s.setYard y').waitsToClose g k = (k != d && (s.setYard y).waitsToClose g k) := fun k => by
    by_cases hk : k = d
    · rw [hk, State.waitsToClose_eq (h.door s)]; simp [Drive.waitsToClose, hq]
    · rw [(State.lists_congr (h.others hk)).2.2 g]; simp [hk]
  rw [prev]
  unfold closesJoined
  simp only [List.filter_append, List.filter_filter, waiting, closing]
  refine congrArg₂ (· ++ ·) (congrArg₂ (· ++ ·) ?_ ?_) ?_ <;> refine List.filter_congr fun k _ => ?_ <;>
    cases k != d <;> simp

/-- R67: the classes of the closes and of the other entries. -/
theorem Yard.classOf_closing {k : Nat} (h : (s.setYard y).waitsToClose g k = true) : y.classOf k = 1 := by
  cases hw : y.doors[k]? with
  | none => simp [State.waitsToClose, State.door?, hw] at h
  | some w =>
    rw [State.waitsToClose_eq (t := s.setYard y) hw, Bool.and_eq_true] at h
    simp only [Yard.classOf, hw]
    exact (Drive.waitsToClose_iff.mp h.2).2

theorem Yard.classOf_opening {k : Nat} (hl : y.arbiterLawful) (hk : k ∈ (y.groups.get g).queue)
    (h : (s.setYard y).waitsToClose g k = false) : 1 < y.classOf k := by
  obtain ⟨w, hw, hg, hq⟩ := (hl.queue g k).mp hk
  have not_one : w.drive.queueClass ≠ 1 := fun h1 => by
    rw [State.waitsToClose_eq (t := s.setYard y) hw, hg, Drive.waitsToClose_iff.mpr ⟨hq, h1⟩] at h
    simp at h
  have pos := w.drive.queueClass_pos
  simp only [Yard.classOf, hw]
  omega

/-- R69: a door that joins as a close stands behind the closes that wait, and behind the doors of lower number that have
joined before it. -/
theorem Yard.Closes.queue_joins (h : Yard.Closes d x z y y') (hly : y.arbiterLawful)
    (hrest : ∀ k, d ≤ k → y.doors[k]? = s.yard.doors[k]?) (hx : y.doors[d]? = some x)
    (hxq : x.drive.waitsToClose = false) (hzq : z.drive.waitsToClose = true) (hg : x.st.cls = .powered g)
    (prev : y.groups.get g = closesJoined s (s.setYard y) g) :
    y.enqueue 1 d ((y.groups.get g).queue.filter (· != d)) = (closesJoined s (s.setYard y') g).queue := by
  let t := s.setYard y
  let t' := s.setYard y'
  let r := s.yard.groups.get g
  have hsx : s.door? d = some x := (hrest d (Nat.le_refl d)).symm.trans hx
  have here : s.waitsToClose g d = false ∧ t.waitsToClose g d = false ∧ t'.waitsToClose g d = true := by
    have hzg : z.st.cls = .powered g := by rw [Door.st_congr h.takes.static]; exact hg
    refine ⟨?_, ?_, ?_⟩
    · rw [State.waitsToClose_eq hsx, hxq, Bool.and_false]
    · rw [State.waitsToClose_eq (t := s.setYard y) hx, hxq, Bool.and_false]
    · rw [State.waitsToClose_eq (h.door s), hzq, hzg]; simp
  have other : ∀ k, k ≠ d → t'.waiting k = t.waiting k ∧ t'.waitsToClose g k = t.waitsToClose g k := fun k hk =>
    have lists := State.lists_congr (h.others hk)
    ⟨lists.2.1, lists.2.2 g⟩
  let closes := r.queue.filter fun k => s.waitsToClose g k && t.waitsToClose g k
  let joined := (List.range s.doorCount).filter fun k => t.waitsToClose g k && !s.waitsToClose g k
  let opens := r.queue.filter fun k => k != d && (t.waiting k && !t.waitsToClose g k)
  have before : (y.groups.get g).queue.filter (· != d) = (closes ++ joined) ++ opens := by
    rw [prev]
    simp only [closesJoined, List.filter_append, List.filter_filter]
    refine congrArg (· ++ opens) (congrArg₂ (· ++ ·) ?_ ?_) <;> refine List.filter_congr fun k _ => ?_
    · by_cases hk : k = d
      · simp [hk, here.1]
      · simp [hk, t]
    · by_cases hk : k = d
      · simp [hk, here.2.1]
      · simp [hk, t]
  have after : (closesJoined s t' g).queue = (closes ++ (joined ++ [d])) ++ opens := by
    have joins : (List.range s.doorCount).filter (fun k => t'.waitsToClose g k && !s.waitsToClose g k) =
        joined ++ [d] := by
      refine filter_range_insert ?_ (fun k hk => ?_) fun k => ?_
      · exact (List.getElem?_eq_some_iff.mp hsx).1
      · by_contra hge
        have same := (State.lists_congr (s := s) (t := t) (hrest k (by omega))).2.2 g
        simp [same] at hk
      · by_cases hk : k = d
        · simp [hk, here]
        · simp [hk, (other k hk).2]
    simp only [closesJoined]
    rw [joins]
    refine congrArg₂ (· ++ ·) (congrArg (· ++ (joined ++ [d])) ?_) ?_ <;> refine List.filter_congr fun k _ => ?_
    · by_cases hk : k = d
      · simp [hk, here.1]
      · rw [(other k hk).2]
    · by_cases hk : k = d
      · simp [hk, here.2.2]
      · simp [hk, other k hk]
  have front : ∀ k ∈ closes ++ joined, y.classOf k ≤ 1 := fun k hk => by
    rcases List.mem_append.mp hk with hk | hk
    · exact (Yard.classOf_closing (Bool.and_eq_true_iff.mp (List.mem_filter.mp hk).2).2).le
    · exact (Yard.classOf_closing (Bool.and_eq_true_iff.mp (List.mem_filter.mp hk).2).1).le
  have back : ∀ k ∈ opens, 1 < y.classOf k := fun k hk => by
    have entry : k ∈ (y.groups.get g).queue.filter (· != d) := before ▸ List.mem_append_right _ hk
    obtain ⟨-, -, not_closing⟩ : k ≠ d ∧ t.waiting k = true ∧ t.waitsToClose g k = false := by
      simpa using (List.mem_filter.mp hk).2
    exact Yard.classOf_opening hly (List.mem_filter.mp entry).1 not_closing
  rw [before, after, Yard.enqueue_between front back]
  simp

/-- R69: the take of one door keeps the law of such a take, where the doors from it on have not been taken. -/
theorem Yard.Closes.closesJoin (h : Yard.Closes d x z y y') (hls : s.yard.arbiterLawful) (hly : y.arbiterLawful)
    (hrest : ∀ k, d ≤ k → y.doors[k]? = s.yard.doors[k]?) (hx : y.doors[d]? = some x)
    (prev : ClosesJoin s (s.setYard y)) : ClosesJoin s (s.setYard y') := by
  have hsx : s.door? d = some x := (hrest d (Nat.le_refl d)).symm.trans hx
  refine closesJoin_iff.mpr fun g => ?_
  have before : y.groups.get g = closesJoined s (s.setYard y) g := closesJoin_iff.mp prev g
  by_cases hg : x.st.cls = .powered g
  · have shows := hly.shows hx hg
    have group := h.takes.group g hg shows
    have holders := h.holders hx before
    refine group.trans ?_
    refine Group.eq_of (by rw [before]; rfl) holders ?_
    unfold Yard.followed
    simp only
    split
    · next hzq =>
      split
      · next hsame =>
        rw [Bool.and_eq_true, beq_iff_eq] at hsame
        exact h.queue_stays hx hsame.1 hzq hsame.2 before
      · next hother =>
        have joins : z.drive.waitsToClose = true := (h.closes hzq).resolve_left fun hz => hother (by
          rw [hz] at hzq ⊢; simp [hzq])
        obtain ⟨-, one⟩ := Drive.waitsToClose_iff.mp joins
        have not_yet : x.drive.waitsToClose = false := by
          by_contra hxc
          obtain ⟨hxq, hx1⟩ := Drive.waitsToClose_iff.mp (by simpa using hxc)
          exact hother (by simp [hxq, hx1, one])
        rw [one]
        exact h.queue_joins hly hrest hx not_yet joins hg before
    · next hzq => exact h.queue_leaves (by simpa using hzq) before
  · exact h.other_group hls hx hsx hg before

end

end Sys2Proof.Machine
end

section
/-! SUPPORT. DOOR_CLEAR (R59, R69): the record that one door's clearing leaves, the doors taken one after another, and the
order. -/

namespace Sys2Proof.Machine

/-! ## Takes of many doors, one after another -/

/-- Operations at the doors below `n`, in door-number order: each door meets its own operation on its own record. -/
theorem Yard.foldl_range_get {f : Yard → Nat → Yard} {R : Door → Door → Prop} (hf : ∀ y d, Yard.Calm d y (f y d))
    (hR : ∀ y d x, y.doors[d]? = some x → ∃ z, (f y d).doors[d]? = some z ∧ R x z) (y : Yard) (n : Nat) :
    (∀ k, n ≤ k → ((List.range n).foldl f y).doors[k]? = y.doors[k]?) ∧
      ∀ k x, k < n → y.doors[k]? = some x → ∃ z, ((List.range n).foldl f y).doors[k]? = some z ∧ R x z := by
  induction n with
  | zero => exact ⟨fun _ _ => rfl, fun k x hk => absurd hk (Nat.not_lt_zero k)⟩
  | succ n ih =>
    obtain ⟨above, below⟩ := ih
    rw [List.range_succ, List.foldl_append]
    let y1 := (List.range n).foldl f y
    have others := (hf y1 n).others
    refine ⟨fun k hk => (others k (by omega)).trans (above k (by omega)), fun k x hk hx => ?_⟩
    rcases Nat.lt_succ_iff_lt_or_eq.mp hk with hlt | rfl
    · obtain ⟨z, hz, hr⟩ := below k x hlt hx
      exact ⟨z, (others k hlt.ne).trans hz, hr⟩
    · exact hR y1 k x ((above k (Nat.le_refl k)).trans hx)

/-- R69: such operations, of which each joins or leaves as `Yard.Closes` says, keep the law of `ClosesJoin`. -/
theorem ClosesJoin.foldl_range {s : State} {f : Yard → Nat → Yard} (hl : s.yard.arbiterLawful)
    (hf : ∀ y d, Yard.Calm d y (f y d)) (hlaw : ∀ y d, y.arbiterLawful → (f y d).arbiterLawful)
    (hc : ∀ y d x, y.doors[d]? = some x → ∃ z, Yard.Closes d x z y (f y d)) {n : Nat} (hn : n ≤ s.doorCount) :
    ClosesJoin s (s.setYard ((List.range n).foldl f s.yard)) := by
  induction n with
  | zero => exact closesJoin_refl hl
  | succ n ih =>
    rw [List.range_succ, List.foldl_append]
    let y1 := (List.range n).foldl f s.yard
    obtain ⟨above, -⟩ := Yard.foldl_range_get (R := fun _ _ => True) hf
      (fun y d x hx => let ⟨z, h⟩ := hc y d x hx; ⟨z, h.takes.door, trivial⟩) s.yard n
    obtain ⟨x, hx⟩ : ∃ x, s.yard.doors[n]? = some x := ⟨_, List.getElem?_eq_getElem hn⟩
    have here : y1.doors[n]? = some x := (above n (Nat.le_refl n)).trans hx
    obtain ⟨z, closes⟩ := hc y1 n x here
    exact closes.closesJoin hl (Yard.arbiterLawful_foldl hlaw _ hl) above here (ih (by omega))

/-- R104: the evaluation at the end of a take leaves the doors' part in the lists. -/
theorem State.endTake_lists (b : Yard) (t : State) (k : Nat) :
    (t.endTake b).slotted k = t.slotted k ∧ (t.endTake b).waiting k = t.waiting k ∧
      ∀ g, (t.endTake b).waitsToClose g k = t.waitsToClose g k := by
  cases hx : t.door? k with
  | none => exact State.lists_congr (by rw [hx, State.endTake_door_none hx])
  | some x =>
    obtain ⟨z, hz, same⟩ := State.endTake_door (b := b) hx
    simp only [State.slotted_eq hz, State.slotted_eq hx, State.waiting_eq hz, State.waiting_eq hx,
      State.waitsToClose_eq hz, State.waitsToClose_eq hx]
    rw [same]
    exact ⟨rfl, rfl, fun _ => rfl⟩

theorem ClosesJoin.endTake {s t : State} (b : Yard) (h : ClosesJoin s t) : ClosesJoin s (t.endTake b) := by
  refine closesJoin_iff.mpr fun g => (closesJoin_iff.mp h g).trans ?_
  obtain ⟨slotted, lists⟩ := forall_and.mp (State.endTake_lists b t)
  obtain ⟨waiting, closing⟩ := forall_and.mp lists
  unfold closesJoined
  simp only [funext slotted, waiting, closing]

/-- Every static part stands. -/
def Yard.StaticKept (y y' : Yard) : Prop := ∀ k : Nat, (y'.doors[k]?).map Door.static = (y.doors[k]?).map Door.static

theorem Yard.AtDoor.staticKept {d : Nat} {y z : Yard} (h : Yard.Calm d y z) : Yard.StaticKept y z := by
  intro k
  by_cases hk : k = d
  · subst hk
    cases hx : y.doors[k]? with
    | none =>
      have short : y.doors.length ≤ k := by simpa using hx
      simp [h.length, short]
    | some x =>
      obtain ⟨w, hw, static, -⟩ := h.door x hx
      simp [hw, static]
  · rw [h.others k hk]

theorem Yard.StaticKept.forSelected {y : Yard} {f : Yard → Nat → Yard} (hf : ∀ z d, Yard.StaticKept z (f z d))
    (sel : DoorSelect) : Yard.StaticKept y (y.forSelected sel f) := by
  cases sel with
  | one d => exact hf y d
  | all =>
    exact List.foldlRecOn (motive := Yard.StaticKept y) _ _ (fun _ => rfl) fun z hz d _ k => (hf z d k).trans (hz k)

/-- R104: a take of many doors that keeps their static parts. -/
theorem State.manyDoors_take {s : State} {y : Yard} (h : Yard.StaticKept s.yard y) :
    ManyDoors s ((s.setYard y).endTake s.yard) := by
  refine ⟨rfl, fun d => Eq.trans ?_ (h d)⟩
  cases hx : (s.setYard y).door? d with
  | none =>
    rw [State.endTake_door_none hx]
    exact (congrArg (Option.map Door.static) hx).symm
  | some x =>
    obtain ⟨z, hz, same⟩ := State.endTake_door (b := s.yard) hx
    rw [hz, same]
    exact (congrArg (Option.map Door.static) hx).symm

/-! ## Changes of drive state that no LO fall overtakes -/

theorem Yard.takes_plain {y : Yard} {e : Env} {d : Nat} {x z : Door} {new : Drive} {c : Bool}
    (hx : y.doors[d]? = some x) (h : x.plain e new) (hs : new.hasSlot = true → x.drive.hasSlot = true)
    (hz : (y.changeDrive e d new c).doors[d]? = some z) (hst : z.static = x.static) (hd : z.drive = new) :
    Yard.Takes d x z y (y.changeDrive e d new c) where
  door := hz
  others := (Yard.calm_changeDrive y e d new c).others
  static := hst
  slot hn := hs (hd ▸ hn)
  group g hg hr := by rw [hd, Yard.changeDrive_followed hx h hs hg hr]

/-- R41: the check of a RESTING door, stale or not; the whole record where nothing makes it stale. -/
theorem Yard.enforce_takes {y : Yard} {s : State} {d : Nat} {x : Door} (hx : y.doors[d]? = some x)
    (hd : x.drive = .resting) :
    ∃ z, Yard.Takes d x z y (y.enforce s.env d) ∧ z.drive = x.restDrive s ∧
      (InTouch s x ∨ ¬ Enforced s x x.hold → z = { x with drive := x.restDrive s }) := by
  by_cases he : Enforced s x x.hold
  · rw [Yard.enforce_enforced hx hd he, show x.restDrive s = .queued .toClose .mode from if_pos he]
    have quiet := Door.staleQuiet_queuedToClose s.env x .mode
    obtain ⟨⟨z, hz, driven⟩, -⟩ := Yard.changeDrive_quiet (c := false) hx quiet
    refine ⟨z, Yard.takes_plain hx (.inr (.inr quiet)) nofun hz driven.steady.static driven.drive, driven.drive,
      fun h => ?_⟩
    have whole := Yard.changeDrive_queued_door (e := s.env) (o := .mode) hx (by rw [hd]; rfl)
      (h.resolve_right fun hn => hn he)
    exact Option.some.inj (hz.symm.trans whole)
  · rw [Yard.enforce_not_enforced hx he, Door.restDrive_resting he, ← hd]
    exact ⟨x, Yard.takes_refl hx, rfl, fun _ => rfl⟩

/-! ## One door cleared (R59) -/

/-- R59: the record of a cleared door that goes to a drive state. -/
def Door.cleared (x : Door) (drive : Drive) : Door :=
  { x with drive := drive, inhibit := .none, prot := { x.prot with tripCount := 0 } }

/-- R59: the drive states that a clearing may change: RESTING and TRIPPED. -/
def Drive.Clearable (drive : Drive) : Prop := drive = .resting ∨ ∃ r, drive = .tripped r

theorem Drive.Clearable.unqueued {drive : Drive} (h : drive.Clearable) : drive.isQueued = false := by
  rcases h with rfl | ⟨r, rfl⟩ <;> rfl

/-- R41, R59: what the clearing of a door leaves of its record. -/
structure Door.Cleared (s : State) (x z : Door) : Prop where
  passed : ¬ x.drive.Clearable → z = x.cleared x.drive
  drive : x.drive.Clearable → z.drive = (x.cleared .resting).restDrive s
  record : x.drive.Clearable → InTouch s x ∨ ¬ Enforced s (x.cleared .resting) x.hold →
    z = x.cleared ((x.cleared .resting).restDrive s)

/-- R59: the inhibit and the count of one door. -/
def Yard.clearCount (y : Yard) (d : Nat) : Yard :=
  y.modify d fun z => { z with inhibit := .none, prot := { z.prot with tripCount := 0 } }

theorem Yard.clearCount_takes {y : Yard} {d : Nat} {x : Door} (hx : y.doors[d]? = some x) :
    Yard.Takes d x (x.cleared x.drive) y (y.clearCount d) := Yard.takes_modify hx rfl rfl rfl

/-- R59: a TRIPPED door is brought to rest; of any other the check alone is run. -/
theorem Yard.clearDoor_tripped {y : Yard} {e : Env} {d r : Nat} {x : Door} (hx : y.doors[d]? = some x)
    (hr : x.drive = .tripped r) :
    y.clearDoor e d = ((y.clearCount d).changeDrive e d .resting false).enforce e d := by
  simp only [Yard.clearDoor, hx, hr]
  rfl

theorem Yard.clearDoor_checks {y : Yard} {e : Env} {d : Nat} {x : Door} (hx : y.doors[d]? = some x)
    (hn : ¬ ∃ r, x.drive = .tripped r) : y.clearDoor e d = (y.clearCount d).enforce e d := by
  unfold Yard.clearDoor
  simp only [hx]
  split
  · next r hr => exact absurd ⟨r, hr⟩ hn
  · rfl

/-- R59: the TRIPPED door at rest, before the check. -/
theorem Yard.clearCount_rests {y : Yard} {e : Env} {d r : Nat} {x : Door} (hx : y.doors[d]? = some x)
    (hr : x.drive = .tripped r) :
    Yard.Takes d x (x.cleared .resting) y ((y.clearCount d).changeDrive e d .resting false) := by
  have counted := Yard.clearCount_takes hx
  have unbound : (x.cleared x.drive).drive.bound = Drive.resting.bound := by simp [Door.cleared, hr, Drive.bound]
  have rested := Yard.changeDrive_stopped (e := e) (new := .resting) counted.door rfl (.inl unbound)
  rw [show (x.cleared x.drive).prot.leaving (x.cleared x.drive).drive = (x.cleared x.drive).prot by
    simp [Door.cleared, Protection.leaving, hr, Drive.closingRun]] at rested
  exact counted.trans (Yard.takes_plain counted.door (.inl unbound) (by simp [Drive.hasSlot]) rested rfl rfl)
    (Drive.between_refl _ _)

theorem Yard.clearDoor_takes {y : Yard} {s : State} {d : Nat} {x : Door} (hx : y.doors[d]? = some x) :
    ∃ z, Yard.Takes d x z y (y.clearDoor s.env d) ∧ x.Cleared s z := by
  -- the door at rest with its count cleared, and the check after it
  have checked : ∀ {y1 : Yard}, x.drive.Clearable → Yard.Takes d x (x.cleared .resting) y y1 →
      ∃ z, Yard.Takes d x z y (y1.enforce s.env d) ∧ x.Cleared s z := fun {y1} hc rests => by
    obtain ⟨z, check, drive, whole⟩ := Yard.enforce_takes (s := s) rests.door rfl
    refine ⟨z, rests.trans check fun _ hq => ?_, fun h => absurd hc h, fun _ => drive, fun _ h => whole h⟩
    rw [hc.unqueued] at hq; cases hq
  by_cases ht : ∃ r, x.drive = .tripped r
  · obtain ⟨r, hr⟩ := ht
    rw [Yard.clearDoor_tripped hx hr]
    exact checked (.inr ⟨r, hr⟩) (Yard.clearCount_rests hx hr)
  · rw [Yard.clearDoor_checks hx ht]
    have counted := Yard.clearCount_takes hx
    by_cases hd : x.drive = .resting
    · exact checked (.inl hd) (hd ▸ counted)
    · have passed : ¬ x.drive.Clearable := not_or.mpr ⟨hd, ht⟩
      rw [Yard.enforce_passes counted.door (Door.enforceable_of_drive hd)]
      exact ⟨_, counted, fun _ => rfl, fun h => absurd h passed, fun h => absurd h passed⟩

/-- R69: a cleared door joins as a close, or keeps its place. -/
theorem Yard.clearDoor_closes {y : Yard} {s : State} {d : Nat} {x : Door} (hx : y.doors[d]? = some x) :
    ∃ z, Yard.Closes d x z y (y.clearDoor s.env d) := by
  obtain ⟨z, takes, cleared⟩ := Yard.clearDoor_takes (s := s) hx
  refine ⟨z, takes, Yard.calm_clearDoor _ _ _, fun hq => ?_⟩
  by_cases hc : x.drive.Clearable
  · right
    rw [cleared.drive hc] at hq ⊢
    unfold Door.restDrive at hq ⊢
    split at hq
    · next he => rw [if_pos he]; rfl
    · cases hq
  · exact .inl (by rw [cleared.passed hc]; rfl)

/-! ## DOOR_CLEAR -/

/-- The doors that a selection names. -/
def DoorSelect.Names : DoorSelect → Nat → Prop
  | .one d, k => d = k
  | .all, _ => True

theorem doorSelectOf_bad {w : Word} {n : Nat} (h : w &&& 0x7F80 ≠ 0 ∨ (w.getLsbD 15 = false ∧ n ≤ field w 0 7)) :
    doorSelectOf w n = none := by
  unfold doorSelectOf
  rcases h with h | ⟨h15, hn⟩
  · rw [if_pos h]
  · rw [h15, if_neg Bool.false_ne_true, if_neg (Nat.not_lt.mpr hn), ite_self]

/-- R59: a good word names one door of the part, or all of them. -/
theorem doorSelectOf_good {w : Word} {n : Nat}
    (h : ¬ (w &&& 0x7F80 ≠ 0 ∨ (w.getLsbD 15 = false ∧ n ≤ field w 0 7))) :
    ∃ sel, doorSelectOf w n = some sel ∧ (∀ k, sel.Names k ↔ w.getLsbD 15 = true ∨ field w 0 7 = k) ∧
      ∀ d, sel = .one d → d < n := by
  obtain ⟨hclear, hdoor⟩ := not_or.mp h
  unfold doorSelectOf
  rw [if_neg hclear]
  cases h15 : w.getLsbD 15 with
  | true => exact ⟨.all, rfl, fun k => by simp [DoorSelect.Names], nofun⟩
  | false =>
    have hlt : field w 0 7 < n := by
      by_contra hge
      exact hdoor ⟨h15, Nat.not_lt.mp hge⟩
    refine ⟨.one (field w 0 7), by simp [hlt], fun k => by simp [DoorSelect.Names], fun d hd => ?_⟩
    cases hd
    exact hlt

/-- R59: an unnamed door stands, and a named one is cleared. -/
theorem Yard.clear_get (s : State) (sel : DoorSelect) :
    let y := s.yard.forSelected sel fun y d => y.clearDoor s.env d
    (∀ k, ¬ sel.Names k → y.doors[k]? = s.yard.doors[k]?) ∧
      ∀ k x, sel.Names k → s.door? k = some x → ∃ z, y.doors[k]? = some z ∧ x.Cleared s z := by
  have each : ∀ (y : Yard) d x, y.doors[d]? = some x →
      ∃ z, (y.clearDoor s.env d).doors[d]? = some z ∧ x.Cleared s z := fun y d x hx =>
    let ⟨z, takes, cleared⟩ := Yard.clearDoor_takes (s := s) hx
    ⟨z, takes.door, cleared⟩
  cases sel with
  | one d =>
    refine ⟨fun k hk => (Yard.calm_clearDoor s.yard s.env d).others k (Ne.symm hk), fun k x hk hx => ?_⟩
    obtain rfl : d = k := hk
    exact each s.yard d x hx
  | all =>
    obtain ⟨-, below⟩ := Yard.foldl_range_get (fun y d => Yard.calm_clearDoor y s.env d) each s.yard s.doorCount
    exact ⟨fun k hk => absurd trivial hk, fun k x _ hx => below k x (List.getElem?_eq_some_iff.mp hx).1 hx⟩

/-- R69: the doors that a clearing queues join in door-number order. -/
theorem Yard.clear_closesJoin {s : State} (hl : s.yard.arbiterLawful) {sel : DoorSelect}
    (hsel : ∀ d, sel = .one d → d < s.doorCount) :
    ClosesJoin s (s.setYard (s.yard.forSelected sel fun y d => y.clearDoor s.env d)) := by
  cases sel with
  | one d =>
    have hx : s.yard.doors[d]? = some (s.yard.doors[d]'(hsel d rfl)) :=
      List.getElem?_eq_getElem (hsel d rfl)
    obtain ⟨z, closes⟩ := Yard.clearDoor_closes (s := s) hx
    exact closes.closesJoin hl hl (fun _ _ => rfl) hx (closesJoin_refl hl)
  | all =>
    exact ClosesJoin.foldl_range hl (fun y d => Yard.calm_clearDoor y s.env d)
      (fun y d h => Yard.arbiterLawful_clearDoor h s.env d) (fun y d x hx => Yard.clearDoor_closes hx) (Nat.le_refl _)

theorem State.takeDoorClear_writer {s : State} {m : Master} {w : Word} (h : s.command.holder ≠ some m) :
    s.takeDoorClear m w = .refused .writer := if_pos h

theorem State.takeDoorClear_value {s : State} {m : Master} {w : Word} (h : s.command.holder = some m)
    (hw : doorSelectOf w s.doorCount = none) : s.takeDoorClear m w = .refused .badValue := by
  simp [State.takeDoorClear, h, hw]

theorem State.takeDoorClear_taken {s : State} {m : Master} {w : Word} {sel : DoorSelect}
    (h : s.command.holder = some m) (hw : doorSelectOf w s.doorCount = some sel) : s.takeDoorClear m w =
      .taken ((s.setYard (s.yard.forSelected sel fun y d => y.clearDoor s.env d)).endTake s.yard) := by
  simp [State.takeDoorClear, h, hw]

/-- Settles O46: the named doors cleared one after another, each by `Yard.clearDoor_takes`, their groups by
`Yard.clear_closesJoin`. -/
theorem doorClearOrder : Obligations.DoorClearOrder := by
  unfold Obligations.DoorClearOrder
  intro s m addr w h named bad
  refine ⟨fun hm => exec_order_refused (r := .writer) rfl h (State.takeDoorClear_writer hm),
    fun hm hbad => exec_order_refused (r := .badValue) rfl h (State.takeDoorClear_value hm (doorSelectOf_bad hbad)),
    fun hm hgood => ?_⟩
  obtain ⟨sel, hsel, names, inside⟩ := doorSelectOf_good hgood
  obtain ⟨unnamed, clears⟩ := Yard.clear_get s sel
  refine ⟨_, exec_order_taken rfl h (State.takeDoorClear_taken hm hsel),
    State.manyDoors_take (Yard.StaticKept.forSelected (fun z d => (Yard.calm_clearDoor z s.env d).staticKept) sel),
    State.takeEnds_of rfl (Yard.alarmsKept_clear _ _ _), rfl,
    fun hl => (Yard.clear_closesJoin hl inside).endTake _, fun d x hx => ⟨fun hn => ?_, fun hn => ?_⟩⟩
  · exact (State.endTake_door_same (b := s.yard)
      (s := s.setYard (s.yard.forSelected sel fun y d => y.clearDoor s.env d))
      (unnamed d (mt (names d).mp hn))).trans hx
  · intro enforced cleared stands
    obtain ⟨z, hz, record⟩ := clears d x ((names d).mpr hn) hx
    have after : ∀ {v}, z = v → DoorAfter d _ (Door.sameButAlarms v) := fun hv =>
      hv ▸ State.endTake_door (b := s.yard)
        (s := s.setYard (s.yard.forSelected sel fun y d => y.clearDoor s.env d)) hz
    refine ⟨fun hs => after (record.passed hs), fun hs he => after ?_, fun hs he touch => after ?_⟩
    · have rests : (x.cleared .resting).restDrive s = .resting := if_neg he
      rw [record.record hs (.inr he), rests]; rfl
    · have queues : (x.cleared .resting).restDrive s = .queued .toClose .mode := if_pos he
      rw [record.record hs (.inl touch), queues]; rfl

end Sys2Proof.Machine
end

section
/-! SUPPORT. SLOT_GRANT (R28, R72, R73): the record and the group that one grant leaves, and the grants that one step of
the arbiter takes, one after another. -/

namespace Sys2Proof.Machine

/-- R72: a grant is due. -/
theorem Group.grantDue_iff {r : Group} :
    r.grantDue = true ↔ r.holders.length < r.slotCount.getD 0 ∧ r.queue ≠ [] := by
  simp [Group.grantDue]

/-- R28, R49: the record of a granted door, whose protection part begins a closing run where it goes to one. -/
def Door.granted (e : Env) (x : Door) (dir : Direction) (o : Origin) : Door :=
  { x with
    drive := startDrive e x dir o
    prot := if (startDrive e x dir o).closingRun then x.prot.noRun else x.prot }

/-- R28, R72: the doors `ds` at the head of a group's queue granted, in their order, and nothing else changed. -/
structure Yard.Granted (e : Env) (g : GroupNum) (ds : List Nat) (y y' : Yard) : Prop where
  group : y'.groups.get g = { y.groups.get g with
    holders := (y.groups.get g).holders ++ ds, queue := (y.groups.get g).queue.drop ds.length }
  groups : ∀ h, h ≠ g → y'.groups.get h = y.groups.get h
  others : ∀ d, d ∉ ds → y'.doors[d]? = y.doors[d]?
  doors : ∀ d x dir o, d ∈ ds → y.doors[d]? = some x → x.drive = .queued dir o →
    y'.doors[d]? = some (x.granted e dir o)

section

variable {e : Env} {g : GroupNum} {y y' y'' : Yard}

theorem Yard.Granted.nil (e : Env) (g : GroupNum) (y : Yard) : Yard.Granted e g [] y y where
  group := by simp
  groups _ _ := rfl
  others _ _ := rfl
  doors _ _ _ _ hd := absurd hd List.not_mem_nil

/-- The head granted, and then others. -/
theorem Yard.Granted.cons {d : Nat} {ds : List Nat} (h : Yard.Granted e g [d] y y') (k : Yard.Granted e g ds y' y'')
    (hd : d ∉ ds) : Yard.Granted e g (d :: ds) y y'' where
  group := by rw [k.group, h.group]; simp
  groups j hj := (k.groups j hj).trans (h.groups j hj)
  others j hj := by
    obtain ⟨not_head, not_rest⟩ := not_or.mp (mt List.mem_cons.mpr hj)
    exact (k.others j not_rest).trans (h.others j (by simpa using not_head))
  doors j x dir o hj hx hq := by
    rcases List.mem_cons.mp hj with rfl | hj
    · exact (k.others j hd).trans (h.doors j x dir o (by simp) hx hq)
    · have not_head : j ∉ [d] := fun hmem => hd (List.mem_singleton.mp hmem ▸ hj)
      exact k.doors j x dir o hj ((h.others j not_head).trans hx) hq

/-! ## One grant (R28) -/

theorem Drive.isQueued_iff {drive : Drive} : drive.isQueued = true ↔ ∃ dir o, drive = .queued dir o := by
  cases drive <;> simp [Drive.isQueued]

theorem startDrive_bound (e : Env) (x : Door) (dir : Direction) (o : Origin) :
    (startDrive e x dir o).bound = true := by
  unfold startDrive; split <;> rfl

theorem Yard.grantHead_queued {d : Nat} {x : Door} {dir : Direction} {o : Origin} (hx : y.doors[d]? = some x)
    (hq : x.drive = .queued dir o) : y.grantHead e d = y.changeDrive e d (startDrive e x dir o) false := by
  simp only [Yard.grantHead, hx, hq]

/-- R28, R66, R71: the head of the queue leaves it for the slot holder set. QUEUED and the states it goes to have one
freshness limit, so that no timer is judged. -/
theorem Yard.granted_grantHead (hl : y.arbiterLawful) (e : Env) {d : Nat} {rest : List Nat}
    (hq : (y.groups.get g).queue = d :: rest) : Yard.Granted e g [d] y (y.grantHead e d) := by
  obtain ⟨x, hx, hg, queued⟩ := (hl.queue g d).mp (by simp [hq])
  obtain ⟨dir, o, hd⟩ := Drive.isQueued_iff.mp queued
  rw [Yard.grantHead_queued hx hd]
  let new := startDrive e x dir o
  have limit : x.drive.bound = new.bound := by rw [hd, startDrive_bound]; rfl
  have calm := Yard.calm_changeDrive y e d new false
  refine ⟨?_, fun h hne => calm.groups h fun w hw hc => hne ?_, fun k hk => calm.others k (by simpa using hk),
    fun k w dir' o' hk hw hwq => ?_⟩
  · obtain ⟨slot, unqueued⟩ := startDrive_slot e x dir o
    have outside : d ∉ (y.groups.get g).holders := fun hmem => by
      obtain ⟨w, hw, -, hs⟩ := (hl.holders g d).mp hmem
      obtain rfl := Option.some.inj (hx.symm.trans hw)
      rw [hd] at hs; cases hs
    have once : d ∉ rest := (List.nodup_cons.mp (hq ▸ (hl.once g).2)).1
    rw [Yard.changeDrive_own hx (.inl limit) hg, updateHolders_enter slot outside,
      Yard.updateQueue_leave _ _ _ unqueued, hq]
    simp [filter_ne_of_not_mem once]
  · obtain rfl := Option.some.inj (hx.symm.trans hw)
    exact DoorClass.powered.inj (hc.symm.trans hg)
  · obtain rfl := List.mem_singleton.mp hk
    obtain rfl := Option.some.inj (hx.symm.trans hw)
    cases hd.symm.trans hwq
    rw [Yard.changeDrive_within_door hx (.inl limit), Protection.runTake_moved]
    have no_run : x.drive.closingRun = false := by rw [hd]; rfl
    cases hrun : new.closingRun <;> simp [Door.granted, Protection.moved, no_run, new, hrun]

/-! ## The grants of one step (R73) -/

theorem Yard.grants_due {d : Nat} {rest : List Nat} (hdue : (y.groups.get g).grantDue = true)
    (hq : (y.groups.get g).queue = d :: rest) (fuel : Nat) :
    y.grants e g (fuel + 1) = (y.grantHead e d).grants e g fuel := by
  simp only [Yard.grants, hdue, if_true, hq]

theorem Yard.grants_not_due (hdue : ¬ (y.groups.get g).grantDue = true) (fuel : Nat) : y.grants e g fuel = y := by
  cases fuel with
  | zero => rfl
  | succ n => simp only [Yard.grants, if_neg hdue]

/-- R73: heads are granted until every slot is held or no door waits: as many as there are free slots. -/
theorem Yard.granted_grants (hl : y.arbiterLawful) (e : Env) (g : GroupNum) {fuel : Nat}
    (hfuel : (y.groups.get g).queue.length = fuel) :
    Yard.Granted e g
      ((y.groups.get g).queue.take ((y.groups.get g).slotCount.getD 0 - (y.groups.get g).holders.length))
      y (y.grants e g fuel) := by
  induction fuel generalizing y with
  | zero =>
    rw [List.length_eq_zero_iff.mp hfuel, List.take_nil]
    exact Yard.Granted.nil e g y
  | succ n ih =>
    obtain ⟨d, rest, hq⟩ := List.exists_of_length_succ _ hfuel
    by_cases hdue : (y.groups.get g).grantDue = true
    · have head := Yard.granted_grantHead hl e hq
      have lawful : (y.grantHead e d).arbiterLawful := by
        have one := Yard.arbiterLawful_grants hl e g 1
        rwa [Yard.grants_due hdue hq] at one
      have others := ih lawful (by simp [head.group, hfuel])
      have free := (Group.grantDue_iff.mp hdue).1
      have slots : (y.groups.get g).slotCount.getD 0 - (y.groups.get g).holders.length =
          (y.groups.get g).slotCount.getD 0 - ((y.groups.get g).holders.length + 1) + 1 := by omega
      rw [head.group, hq] at others
      rw [Yard.grants_due hdue hq, hq, slots, List.take_succ_cons]
      refine head.cons (by simpa using others) fun hmem => ?_
      exact (List.nodup_cons.mp (hq ▸ (hl.once g).2)).1 (List.mem_of_mem_take hmem)
    · have held : (y.groups.get g).slotCount.getD 0 ≤ (y.groups.get g).holders.length := by
        by_contra hfree
        exact hdue (Group.grantDue_iff.mpr ⟨by omega, by rw [hq]; exact List.cons_ne_nil _ _⟩)
      rw [Yard.grants_not_due hdue, Nat.sub_eq_zero_of_le held, List.take_zero]
      exact Yard.Granted.nil e g y

/-! ## SLOT_GRANT -/

/-- Granted doors keep their static part. -/
theorem Yard.Granted.staticKept {ds : List Nat} (h : Yard.Granted e g ds y y') (hl : y.arbiterLawful)
    (hds : ∀ d ∈ ds, d ∈ (y.groups.get g).queue) : Yard.StaticKept y y' := by
  intro k
  by_cases hk : k ∈ ds
  · obtain ⟨x, hx, -, queued⟩ := (hl.queue g k).mp (hds k hk)
    obtain ⟨dir, o, hd⟩ := Drive.isQueued_iff.mp queued
    rw [h.doors k x dir o hk hx hd, hx]
    rfl
  · rw [h.others k hk]

end

/-- R28: the drive state of a grant, in the words of the statement. -/
theorem startDrive_eq (s : State) (x : Door) (dir : Direction) (o : Origin) :
    startDrive s.env x dir o =
      if dir = .toClose ∧ o ≠ .localReq ∧ 0 < s.times.prewarn then .warning o (s.clock + s.times.prewarn)
      else .moving dir o (s.clock + x.st.travelLimit) := by
  have remote : o.remote = true ↔ o ≠ .localReq := by cases o <;> simp [Origin.remote]
  simp only [startDrive, remote]
  rfl

/-- Settles O38: the grants of the step by `Yard.granted_grants`, by induction on the queue. -/
theorem slotGrantGrantsTheQueueHeads : Obligations.SlotGrantGrantsTheQueueHeads := by
  unfold Obligations.SlotGrantGrantsTheQueueHeads
  intro s g hl hdue r n
  have granted : Yard.Granted s.env g (r.queue.take n) s.yard (s.yard.grantGroup s.env g) :=
    Yard.granted_grants hl s.env g rfl
  refine ⟨s.doorTake (fun y e => y.grantGroup e g) [], ?_, ?_, ?_, ?_, ?_, ?_, ?_, ?_⟩
  · exact congrArg Host.Outcome.next (if_pos hdue)
  · exact State.manyDoors_take (granted.staticKept hl fun _ => List.mem_of_mem_take)
  · exact State.takeEnds_doorTake (Yard.alarmsKept_grants _ _ _ _)
  · exact State.doorTake_ring _ _ _
  · intro h hne
    rw [State.doorTake_yard]
    exact granted.groups h hne
  · rw [State.doorTake_yard, granted.group, List.length_take, ← List.drop_eq_drop_min]
  · intro d hd
    exact State.endTake_door_same (b := s.yard) (s := s.setYard (s.yard.grantGroup s.env g)) (granted.others d hd)
  · intro d x dir o hd hx hq new
    rw [show new = startDrive s.env x dir o from (startDrive_eq s x dir o).symm]
    exact State.doorTake_door (granted.doors d x dir o hd hx hq)

end Sys2Proof.Machine
end

section
/-! SUPPORT. The tick (log 2, log 3): the part's own steps and the expiries that are due, against the statements' own
words for them. -/

namespace Sys2Proof.Machine

/-! ## The part's own steps (R73, R169) -/

theorem mem_groupNumbers (g : GroupNum) : g ∈ groupNumbers := by
  fin_cases g <;> decide

theorem Yard.still_iff {y : Yard} :
    y.still = true ↔ ∀ (d : Nat) (x : Door), y.doors[d]? = some x → x.drive.bound = false := by
  simp only [Yard.still, List.all_eq_true, Bool.not_eq_true', List.mem_iff_getElem?]
  exact ⟨fun h d x hx => h x ⟨d, hx⟩, fun h x ⟨d, hx⟩ => h d x hx⟩

/-- R169: a held image is due where no door is bound somewhere. -/
theorem State.dueApply_isSome {s : State} :
    s.dueApply.isSome = true ↔ ∃ img, s.loader.reload = .applyPending img ∧ s.yard.still = true := by
  unfold State.dueApply
  cases s.loader.reload with
  | applyPending img => cases s.yard.still <;> simp
  | reloading => simp
  | idle => simp

theorem State.mem_dueSteps {s : State} {c : Instr} : c ∈ s.dueSteps ↔ OwnStep s c := by
  simp only [State.dueSteps, List.mem_append, List.mem_map, List.mem_filter]
  constructor
  · rintro (⟨g, ⟨-, hdue⟩, rfl⟩ | happly)
    · obtain ⟨free, waits⟩ := Group.grantDue_iff.mp hdue
      exact .grant g free waits
    · split at happly
      · next hheld =>
        obtain ⟨img, held, still⟩ := State.dueApply_isSome.mp hheld
        obtain rfl := List.mem_singleton.mp happly
        exact .apply img held (Yard.still_iff.mp still)
      · cases happly
  · rintro (⟨g, free, waits⟩ | ⟨img, held, still⟩)
    · exact .inl ⟨g, ⟨mem_groupNumbers g, Group.grantDue_iff.mpr ⟨free, waits⟩⟩, rfl⟩
    · right
      rw [if_pos (State.dueApply_isSome.mpr ⟨img, held, Yard.still_iff.mpr still⟩)]
      exact List.mem_singleton.mpr rfl

/-! ## The moments at which timers expire -/

section

variable {x : Door} {e : Nat}

theorem Door.prewarnAt_eq_some : x.prewarnAt = some e ↔ ∃ o, x.drive = .warning o e := by
  unfold Door.prewarnAt; cases x.drive <;> simp

theorem Door.travelAt_eq_some : x.travelAt = some e ↔ ∃ dir o, x.drive = .moving dir o e := by
  unfold Door.travelAt; cases x.drive <;> simp

theorem Door.recloseAt_eq_some : x.recloseAt = some e ↔ x.drive = .recloseWait e := by
  unfold Door.recloseAt; cases x.drive <;> simp

theorem Door.retryAt_eq_some : x.retryAt = some e ↔ x.drive = .tripped e := by
  unfold Door.retryAt; cases x.drive <;> simp

theorem Drive.closingRun_iff {drive : Drive} : drive.closingRun = true ↔ ∃ o tr, drive = .moving .toClose o tr := by
  cases drive with
  | moving dir o tr => cases dir <;> simp [Drive.closingRun]
  | _ => simp [Drive.closingRun]

theorem Door.tripAt_eq_some :
    x.tripAt = some e ↔ (∃ o tr, x.drive = .moving .toClose o tr) ∧ x.prot.tripTimer = some e := by
  rw [← Drive.closingRun_iff]
  unfold Door.tripAt
  cases x.drive.closingRun <;> simp

theorem Door.freshnessAt_eq_some {t : Timing} : x.freshnessAt t = some e ↔
    ∃ start, x.inp.freshness = some start ∧
      start + (if x.drive.bound then t.activeLimit else t.idleLimit) = e := by
  simp [Door.freshnessAt]

theorem State.heartbeatAt_eq_some {s : State} {m : Master} :
    s.heartbeatAt m = some e ↔ ∃ start, s.role m = .station (some start) ∧ start + s.times.heartbeat = e := by
  unfold State.heartbeatAt
  split
  · next start hr => simp [hr]
  · next hr => simpa using fun start h => absurd h (hr start)

theorem State.transferAt_eq_some {s : State} :
    s.transferAt = some e ↔ ∃ p, s.command.transfer = some p ∧ p.start + s.times.transfer = e := by
  simp [State.transferAt]

theorem GeneralAlarm.phaseAt_eq_some {a : GeneralAlarm} : a.phaseAt = some e ↔ ∃ on, a = .flashing on e := by
  cases a <;> simp [GeneralAlarm.phaseAt]

theorem Meter.refillAt_eq_some {m : Meter} :
    m.refillAt = some e ↔ 0 < m.rate ∧ m.start + 10 * (m.refills + 1) / m.rate = e := by
  unfold Meter.refillAt
  rw [Nat.pos_iff_ne_zero]
  split <;> simp [*]

end

/-! ## The expiries -/

/-- The timers of one door, in the order in which `Door.due` asks for them. -/
theorem Door.mem_due {clock d : Nat} {t : Timing} {x : Door} {c : Instr} : c ∈ x.due clock t d ↔
    (∃ i, c ∈ dueAt clock ((x.inp.timers.of i).map (·.expiry)) (.debounceExpiry d i)) ∨
      c ∈ dueAt clock (x.freshnessAt t) (.freshnessExpiry d) ∨ c ∈ dueAt clock x.prewarnAt (.prewarnExpiry d) ∨
      c ∈ dueAt clock x.travelAt (.travelExpiry d) ∨ c ∈ dueAt clock x.recloseAt (.recloseExpiry d) ∨
      c ∈ dueAt clock x.tripAt (.tripTimerExpiry d) ∨ c ∈ dueAt clock x.retryAt (.retryExpiry d) ∨
      c ∈ dueAt clock x.prot.settle (.settleExpiry d) := by
  have inputs : ∀ p : Input → Prop, (∃ i, p i) ↔ p .cl ∨ p .ol ∨ p .lo ∨ p .lc := fun p =>
    ⟨fun ⟨i, hi⟩ => by cases i <;> simp only [hi, true_or, or_true], by rintro (h | h | h | h) <;> exact ⟨_, h⟩⟩
  rw [inputs]
  simp only [Door.due, Door.debounceTimer, Door.settleAt, List.mem_append, or_assoc]

/-- Every expiry due at a door is of a timer that runs and is reached. -/
theorem Door.timerReached_of_due {s : State} {d : Nat} {x : Door} {c : Instr} (hx : s.door? d = some x)
    (h : c ∈ x.due s.clock s.times d) : TimerReached s c := by
  simp only [Door.mem_due, mem_dueAt] at h
  rcases h with ⟨i, rfl, e, ht, he⟩ | ⟨rfl, e, ht, he⟩ | ⟨rfl, e, ht, he⟩ | ⟨rfl, e, ht, he⟩ | ⟨rfl, e, ht, he⟩ |
    ⟨rfl, e, ht, he⟩ | ⟨rfl, e, ht, he⟩ | ⟨rfl, e, ht, he⟩
  · obtain ⟨tm, runs, rfl⟩ := Option.map_eq_some_iff.mp ht
    exact .debounce d x i tm hx runs he
  · obtain ⟨start, runs, rfl⟩ := Door.freshnessAt_eq_some.mp ht
    exact .freshness d x start hx runs he
  · obtain ⟨o, runs⟩ := Door.prewarnAt_eq_some.mp ht
    exact .prewarn d x o e hx runs he
  · obtain ⟨dir, o, runs⟩ := Door.travelAt_eq_some.mp ht
    exact .travel d x dir o e hx runs he
  · exact .reclose d x e hx (Door.recloseAt_eq_some.mp ht) he
  · obtain ⟨⟨o, tr, closes⟩, runs⟩ := Door.tripAt_eq_some.mp ht
    exact .trip d x o tr e hx closes runs he
  · exact .retry d x e hx (Door.retryAt_eq_some.mp ht) he
  · exact .settle d x e hx ht he

/-- Where the expiries stand: at a door, at a station, with the transfer, the flash phase or a meter. -/
theorem State.mem_dueExpiries_iff {s : State} {c : Instr} : c ∈ s.dueExpiries ↔
    (∃ d x, s.door? d = some x ∧ c ∈ x.due s.clock s.times d) ∨
      (∃ m, c ∈ dueAt s.clock (s.heartbeatAt m) (.heartbeatExpiry m)) ∨
      c ∈ dueAt s.clock s.transferAt .transferTimerExpiry ∨
      c ∈ dueAt s.clock s.lines.generalAlarm.phaseAt .flashPhaseExpiry ∨
      ∃ m, c ∈ dueAt s.clock (s.meters.get m).refillAt (.refillInstant m) := by
  simp only [State.dueExpiries, List.mem_append, mem_dueAtDoors, List.mem_flatMap, mem_masterNumbers, true_and,
    Nat.zero_add, or_assoc, State.door?]

/-- Every expiry due is of a timer that runs and is reached. -/
theorem State.timerReached_of_due {s : State} {c : Instr} (h : c ∈ s.dueExpiries) : TimerReached s c := by
  simp only [State.mem_dueExpiries_iff, mem_dueAt] at h
  rcases h with ⟨d, x, hx, h⟩ | ⟨m, rfl, e, ht, he⟩ | ⟨rfl, e, ht, he⟩ | ⟨rfl, e, ht, he⟩ | ⟨m, rfl, e, ht, he⟩
  · exact Door.timerReached_of_due hx h
  · obtain ⟨start, runs, rfl⟩ := State.heartbeatAt_eq_some.mp ht
    exact .heartbeat m start runs he
  · obtain ⟨p, runs, rfl⟩ := State.transferAt_eq_some.mp ht
    exact .transfer p runs he
  · obtain ⟨on, runs⟩ := GeneralAlarm.phaseAt_eq_some.mp ht
    exact .phase on e runs he
  · obtain ⟨runs, rfl⟩ := Meter.refillAt_eq_some.mp ht
    exact .refill m runs he

/-- Every timer that runs and is reached is asked for where it stands. -/
theorem TimerReached.due {s : State} {c : Instr} (h : TimerReached s c) : c ∈ s.dueExpiries := by
  have asked : ∀ {k : Instr} {timer : Option Nat} {e : Nat}, timer = some e → e ≤ s.clock → k ∈ dueAt s.clock timer k :=
    fun ht he => mem_dueAt.mpr ⟨rfl, _, ht, he⟩
  have atDoor : ∀ {k : Instr} {d : Nat} {x : Door}, s.door? d = some x → k ∈ x.due s.clock s.times d →
      k ∈ s.dueExpiries := fun hx hk => State.mem_dueExpiries_iff.mpr (.inl ⟨_, _, hx, hk⟩)
  cases h with
  | debounce d x i tm hx runs he =>
    exact atDoor hx (Door.mem_due.mpr (.inl ⟨i, asked (Option.map_eq_some_iff.mpr ⟨tm, runs, rfl⟩) he⟩))
  | freshness d x start hx runs he =>
    have at_limit := (Door.freshnessAt_eq_some (t := s.times)).mpr ⟨start, runs, rfl⟩
    exact atDoor hx (Door.mem_due.mpr (by simp only [asked at_limit he, true_or, or_true]))
  | prewarn d x o e hx runs he =>
    have at_end := Door.prewarnAt_eq_some.mpr ⟨o, runs⟩
    exact atDoor hx (Door.mem_due.mpr (by simp only [asked at_end he, true_or, or_true]))
  | travel d x dir o e hx runs he =>
    have at_end := Door.travelAt_eq_some.mpr ⟨dir, o, runs⟩
    exact atDoor hx (Door.mem_due.mpr (by simp only [asked at_end he, true_or, or_true]))
  | reclose d x e hx runs he =>
    have at_end := Door.recloseAt_eq_some.mpr runs
    exact atDoor hx (Door.mem_due.mpr (by simp only [asked at_end he, true_or, or_true]))
  | trip d x o tr e hx closes runs he =>
    have at_end := Door.tripAt_eq_some.mpr ⟨⟨o, tr, closes⟩, runs⟩
    exact atDoor hx (Door.mem_due.mpr (by simp only [asked at_end he, true_or, or_true]))
  | retry d x e hx runs he =>
    have at_end := Door.retryAt_eq_some.mpr runs
    exact atDoor hx (Door.mem_due.mpr (by simp only [asked at_end he, true_or, or_true]))
  | settle d x e hx runs he =>
    exact atDoor hx (Door.mem_due.mpr (by simp only [asked runs he, or_true]))
  | heartbeat m start runs he =>
    exact State.mem_dueExpiries_iff.mpr
      (.inr (.inl ⟨m, asked (State.heartbeatAt_eq_some.mpr ⟨start, runs, rfl⟩) he⟩))
  | transfer p runs he =>
    exact State.mem_dueExpiries_iff.mpr
      (.inr (.inr (.inl (asked (State.transferAt_eq_some.mpr ⟨p, runs, rfl⟩) he))))
  | phase on e runs he =>
    exact State.mem_dueExpiries_iff.mpr
      (.inr (.inr (.inr (.inl (asked (GeneralAlarm.phaseAt_eq_some.mpr ⟨on, runs⟩) he)))))
  | refill k runs he =>
    exact State.mem_dueExpiries_iff.mpr
      (.inr (.inr (.inr (.inr ⟨k, asked (Meter.refillAt_eq_some.mpr ⟨runs, rfl⟩) he⟩))))

theorem State.mem_dueExpiries {s : State} {c : Instr} : c ∈ s.dueExpiries ↔ TimerReached s c :=
  ⟨State.timerReached_of_due, TimerReached.due⟩

/-- Log 2: the part's own steps come before the expiries. -/
theorem State.mem_due {s : State} {c : Instr} :
    c ∈ s.due ↔ OwnStep s c ∨ ((∀ k, ¬ OwnStep s k) ∧ TimerReached s c) := by
  simp only [← State.mem_dueSteps, ← State.mem_dueExpiries]
  unfold State.due
  split
  · next hnone => simp [hnone]
  · next hsome =>
    obtain ⟨k, hk⟩ := List.exists_mem_of_ne_nil _ hsome
    exact ⟨.inl, fun h => h.resolve_right fun hno => hno.1 k hk⟩

/-! ## The tick -/

theorem step_of_empty {s : State} (h : s.pending = []) : step s = .next s.tick := by
  simp only [step, h]

theorem State.tick_idle {s : State} (h : s.part ≠ .running) : s.tick = s := if_neg h

theorem State.tick_clock {s : State} (h : s.part = .running) (hdue : s.due = []) :
    s.tick = { s with clock := s.clock + 1 } := by
  simp only [State.tick, if_pos h, hdue]

theorem State.tick_queues {s : State} {c : Instr} {cs : List Instr} (h : s.part = .running) (hdue : s.due = c :: cs) :
    s.tick = { s with pending := [c] } := by
  simp only [State.tick, if_pos h, hdue]

/-- Settles O2: the tick's three branches, and what is due by `State.mem_due`. -/
theorem emptyQueueTicks : Obligations.EmptyQueueTicks := by
  unfold Obligations.EmptyQueueTicks
  refine fun s => ⟨fun hempty => ⟨fun hpart => ?_, fun hpart hdue => ?_, fun c cs hpart hdue => ?_⟩,
    fun c => State.mem_due⟩ <;> rw [step_of_empty hempty]
  · rw [State.tick_idle hpart]
  · rw [State.tick_clock hpart hdue]
  · rw [State.tick_queues hpart hdue]

end Sys2Proof.Machine
end

section
/-! SUPPORT. The law of command and transfer (R85, R86): who holds command and who asks for it, under each take that
reaches the masters or the command record. -/

namespace Sys2Proof.Machine

/-! ## The law, with what it asks of a role left open -/

/-- R85, R86: the holder's role, and that of a requester other than the holder, meet a condition. -/
def State.Commanded (ok : Role → Prop) (s : State) : Prop :=
  (∀ h, s.command.holder = some h → ok (s.role h)) ∧
    ∀ t, s.command.transfer = some t →
      s.command.holder ≠ none ∧ s.command.holder ≠ some t.requester ∧ ok (s.role t.requester)

theorem State.commandLawful_iff {s : State} : s.commandLawful ↔ s.Commanded (·.live = true) := Iff.rfl

section

variable {ok : Role → Prop} {s t : State}

theorem State.Commanded.congr (h : s.Commanded ok) (hm : t.masters = s.masters) (hc : t.command = s.command) :
    t.Commanded ok := by
  have roles : ∀ k, t.role k = s.role k := fun k => by unfold State.role; rw [hm]
  unfold State.Commanded
  simp only [hc, roles]
  exact h

theorem State.Commanded.capture (h : s.Commanded ok) (c : Capture) : (s.capture c).Commanded ok := h.congr rfl rfl

theorem State.Commanded.setYard (h : s.Commanded ok) (y : Yard) : (s.setYard y).Commanded ok := h.congr rfl rfl

theorem State.Commanded.endTake (h : s.Commanded ok) (b : Yard) : (s.endTake b).Commanded ok := h.congr rfl rfl

theorem State.Commanded.setReload (h : s.Commanded ok) (r : ReloadState) : (s.setReload r).Commanded ok :=
  h.congr rfl rfl

theorem State.Commanded.markReload (h : s.Commanded ok) (failed : Bool) : (s.markReload failed).Commanded ok :=
  h.congr rfl rfl

theorem State.Commanded.captures (h : s.Commanded ok) (cs : List Capture) : (s.captures cs).Commanded ok :=
  h.congr (State.captures_masters _ _) (State.captures_command _ _)

theorem State.Commanded.doorTake (h : s.Commanded ok) (f : Yard → Env → Yard) (cs : List Capture) :
    (s.doorTake f cs).Commanded ok := ((h.setYard _).captures cs).endTake _

theorem State.Commanded.takeMirror (h : s.Commanded ok) (r : Mirror × List Capture) :
    (s.takeMirror r).Commanded ok :=
  h.congr ((State.captures_masters _ _).trans rfl) ((State.captures_command _ _).trans rfl)

/-- Where no transfer is pending, the law speaks of the holder alone. -/
theorem State.commanded_of_holder (ht : s.command.transfer = none)
    (h : ∀ k, s.command.holder = some k → ok (s.role k)) : s.Commanded ok :=
  ⟨h, fun t hs => by rw [ht] at hs; cases hs⟩

/-- R87: command handed to a master that may hold it, or left VACANT. -/
theorem State.commanded_changeHolder (src : CaptureSource) {new : Option Master} (detail : Nat)
    (h : ∀ k, new = some k → ok (s.role k)) : (s.changeHolder src new detail).Commanded ok :=
  (State.commanded_of_holder (s := { s with command := { s.command with holder := new, transfer := none } }) rfl
    h).capture _

/-- R87: a transfer ended, of which the holder knows nothing. -/
theorem State.commanded_endTransfer (src : CaptureSource) (requester : Master) (detail : Nat)
    (h : ∀ k, s.command.holder = some k → ok (s.role k)) : (s.endTransfer src requester detail).Commanded ok :=
  (State.commanded_of_holder (s := { s with command := { s.command with transfer := none } }) rfl h).capture _

/-- A role replaced by one that may hold command as the old one did. -/
theorem State.Commanded.setRole (h : s.Commanded ok) {m : Master} {r : Role} (hr : ok (s.role m) → ok r) :
    (s.setRole m r).Commanded ok := by
  have roles : ∀ k, ok (s.role k) → ok ((s.setRole m r).role k) := fun k hk => by
    rw [State.setRole_role]
    split
    · next hkm => exact hr (hkm ▸ hk)
    · exact hk
  exact ⟨fun k hk => roles k (h.1 k hk), fun t ht =>
    let ⟨held, other, asks⟩ := h.2 t ht
    ⟨held, other, roles _ asks⟩⟩

/-- R90: a station lapses, and whatever it holds or asks for passes on or ends. -/
theorem State.Commanded.lapse (h : s.Commanded ok) (m : Master) : (s.lapse m).Commanded ok := by
  obtain ⟨holds, asks⟩ := h
  have roles : ∀ k, k ≠ m → ok (s.role k) → ok ((s.lapseFirst m).role k) := fun k hk hok => by
    unfold State.lapseFirst
    rw [State.capture_role, State.setRole_role, if_neg hk]
    exact hok
  have holder : s.command.holder ≠ some m → ∀ k, s.command.holder = some k → ok ((s.lapseFirst m).role k) :=
    fun hm k hk => roles k (by rintro rfl; exact hm hk) (holds k hk)
  rw [State.lapse_eq]
  split
  · next t ht =>
    obtain ⟨held, other, requester⟩ := asks t ht
    split
    · next hreq => exact State.commanded_endTransfer _ _ _ (holder (hreq ▸ other))
    · next hreq =>
      have passes := roles t.requester hreq requester
      split
      · exact State.commanded_changeHolder _ _ fun k hk => Option.some.inj hk ▸ passes
      · next hm =>
        refine ⟨holder hm, fun u hu => ?_⟩
        obtain rfl := Option.some.inj (ht.symm.trans hu)
        exact ⟨held, other, passes⟩
  · next ht =>
    split
    · exact State.commanded_changeHolder _ _ nofun
    · next hm => exact State.commanded_of_holder ht (holder hm)

end

/-! ## The apply (R100) -/

/-- R84: a role that is LIVE if it is a STATION's. -/
def Role.liveStation (r : Role) : Prop := r.isStation = true → r.live = true

theorem RoleSetting.enter_liveStation (r : RoleSetting) (start : Nat) : (r.enter start).liveStation := by
  cases r <;> simp [RoleSetting.enter, Role.liveStation, Role.isStation, Role.live]

/-- R100: a role under its new setting is LIVE if it is a STATION's, where the old one was. -/
theorem Role.adjust_liveStation {old : Role} (h : old.live = true) (new : RoleSetting) (clock : Nat) :
    (old.adjust new clock).liveStation := by
  unfold Role.adjust
  split
  · exact fun _ => h
  · cases h
  · exact new.enter_liveStation clock

section

variable {s : State}

theorem State.commanded_replaceTables (h : s.Commanded (·.live = true)) (img : Settings) :
    (s.replaceTables img).Commanded Role.liveStation := by
  have roles : ∀ k, (s.role k).live = true → ((s.replaceTables img).role k).liveStation := fun k hk => by
    simp only [State.role, State.replaceTables, get_eight]
    exact Role.adjust_liveStation hk _ _
  exact ⟨fun k hk => roles k (h.1 k hk), fun t ht =>
    let ⟨held, other, live⟩ := h.2 t ht
    ⟨held, other, roles _ live⟩⟩

theorem State.discardSlot_command (s : State) (m : Master) :
    (s.discardSlot m).masters = s.masters ∧ (s.discardSlot m).command = s.command := by
  unfold State.discardSlot; split <;> exact ⟨rfl, rfl⟩

/-- R100 step 3: a requester that is left is a LIVE station. -/
theorem State.Commanded.dropRequester (h : s.Commanded Role.liveStation) :
    s.dropRequester.Commanded Role.liveStation ∧
      ∀ t, s.dropRequester.command.transfer = some t → (s.dropRequester.role t.requester).live = true := by
  unfold State.dropRequester
  split
  · next t ht =>
    split
    · next hs =>
      refine ⟨h, fun u hu => ?_⟩
      obtain rfl := Option.some.inj (ht.symm.trans hu)
      exact (h.2 t ht).2.2 hs
    · exact ⟨State.commanded_endTransfer _ _ _ h.1, nofun⟩
  · next ht => exact ⟨h, fun u hu => by rw [ht] at hu; cases hu⟩

/-- R100 step 4: a holder that is left is a LIVE station. -/
theorem State.Commanded.dropHolder (h : s.Commanded Role.liveStation)
    (ht : ∀ t, s.command.transfer = some t → (s.role t.requester).live = true) :
    s.dropHolder.Commanded (·.live = true) := by
  unfold State.dropHolder
  split
  · next k hk =>
    split
    · next hs =>
      refine ⟨fun j hj => ?_, fun t hp => ⟨(h.2 t hp).1, (h.2 t hp).2.1, ht t hp⟩⟩
      obtain rfl := Option.some.inj (hk.symm.trans hj)
      exact h.1 k hk hs
    · split
      · next t hp => exact State.commanded_changeHolder _ _ fun j hj => Option.some.inj hj ▸ ht t hp
      · exact State.commanded_changeHolder _ _ fun _ hj => nomatch hj
  · next hk => exact ⟨fun j hj => (nomatch hk.symm.trans hj), fun t hp => absurd hk (h.2 t hp).1⟩

theorem State.Commanded.judgeTransfer {ok : Role → Prop} (h : s.Commanded ok) : s.judgeTransfer.Commanded ok := by
  unfold State.judgeTransfer
  split
  · split
    · exact State.commanded_endTransfer _ _ _ h.1
    · exact h
  · exact h

/-- R100: after the masters are adjusted the law stands again. -/
theorem State.commanded_adjustMasters (h : s.Commanded Role.liveStation) (old : State) (img : Settings) :
    (s.adjustMasters old img).Commanded (·.live = true) := by
  have heartbeats : (masterNumbers.foldl State.judgeHeartbeat s).Commanded Role.liveStation :=
    List.foldlRecOn (motive := State.Commanded Role.liveStation) _ _ h fun t ht m _ => by
      unfold State.judgeHeartbeat
      split
      · split
        · exact ht.lapse m
        · exact ht
      · exact ht
  obtain ⟨dropped, requester⟩ := heartbeats.dropRequester
  exact (dropped.dropHolder requester).judgeTransfer.setYard _

theorem State.commanded_applyImage (h : s.Commanded (·.live = true)) (img : Settings) (detail : Nat) :
    (s.applyImage img detail).Commanded (·.live = true) := by
  have discarded : (s.replaceTables img).discardSlots.Commanded Role.liveStation :=
    List.foldlRecOn (motive := State.Commanded Role.liveStation) _ _ (State.commanded_replaceTables h img)
      fun t ht m _ => ht.congr (t.discardSlot_command m).1 (t.discardSlot_command m).2
  exact ((((State.commanded_adjustMasters discarded s img).setYard _).capture _).setYard _).endTake _

end

/-! ## Entry to RUNNING (R167) -/

/-- R165: a good attempt's settings are those of the body that it has read. -/
theorem settingsOf_of_loadAttempt {image : List Byte} {inForce : Option Nat} {img : Settings}
    (h : loadAttempt image inForce = .ok img) :
    settingsOf ((image.drop 8).take (wordAt image 4)) inForce = some img := by
  unfold loadAttempt at h
  simp only at h
  split at h
  · cases h
  split at h
  · cases h
  split at h
  · cases h
  split at h
  · cases h
  split at h
  · cases h
  split at h
  · next settings read => cases h; exact read
  · cases h

/-- R165: the checks over several records, and the doors' own reader, of the settings that an attempt gives. -/
theorem loadAttempt_checks {image : List Byte} {inForce : Option Nat} {img : Settings}
    (h : loadAttempt image inForce = .ok img) : holderOk img.masters img.defaultHolder = true ∧
      ∃ body, ∀ d st, img.doors[d]? = some st → doorOf body img.masters d = some st := by
  have read := settingsOf_of_loadAttempt h
  unfold settingsOf at read
  simp only [Option.bind_eq_bind, Option.bind_eq_some_iff, checked_eq_some, allSome_range] at read
  -- one binding for each line of the reader: the masters, the doors and the last check are kept
  obtain ⟨_, -, _, -, _, -, _, -, -, -, _, -, _, -, masters, -, _, -, _, -, _, -, _, -, doors, ⟨-, reads⟩, checks,
    rfl⟩ := read
  simp only [Bool.and_eq_true] at checks
  obtain ⟨⟨-, holder⟩, -⟩ := checks
  exact ⟨holder, _, reads⟩

/-- R165: the default holder of a good image is a STATION. -/
theorem defaultHolder_station {image : List Byte} {inForce : Option Nat} {img : Settings} {m : Master}
    (h : loadAttempt image inForce = .ok img) (hm : img.defaultHolder = some m) :
    (img.masters.get m).role = .station := by
  have ok := (loadAttempt_checks h).1
  rw [hm] at ok
  simpa [holderOk, MasterSetting.isStation] using ok

/-- R1, R165: every door of a good image is owned by a SCANNER of it. -/
theorem owned_of_loadAttempt {image : List Byte} {inForce : Option Nat} {img : Settings}
    (h : loadAttempt image inForce = .ok img) : img.owned := fun st hst => by
  obtain ⟨-, body, reads⟩ := loadAttempt_checks h
  obtain ⟨d, hd⟩ := List.mem_iff_getElem?.mp hst
  obtain ⟨first, count, role, -⟩ := (doorOf_eq_some.mp (reads d st hd)).owned
  exact ⟨first, count, role⟩

theorem State.commanded_enterRunning {s : State} {n : Nat} {image : List Byte} {img : Settings} (a b : Bool)
    (h : loadAttempt image none = .ok img) : (s.enterRunning img n a b).Commanded (·.live = true) := by
  have entered : (s.takeTables img).Commanded (·.live = true) := State.commanded_of_holder rfl fun k hk => by
    have station := defaultHolder_station h hk
    simp only [State.role, State.takeTables, get_eight, station]
    rfl
  exact ((entered.capture _).takeMirror _).endTake _

/-! ## Every step -/

theorem State.Commanded.order {s t : State} {m : Master} {addr : Addr} {w : Word} (h : s.Commanded (·.live = true))
    (take : s.OrderTake m addr w t) : t.Commanded (·.live = true) := by
  obtain ⟨holds, asks⟩ := id h
  cases take with
  | sameMode => exact h
  | mode v =>
    have moded : ({ s with command := { s.command with mode := some v } } : State).Commanded (·.live = true) :=
      ⟨holds, asks⟩
    exact ((moded.capture _).setYard _).endTake _
  | zoneClose => exact (h.setYard _).endTake _
  | doorClear sel => exact (h.setYard _).endTake _
  | alarmAck sel => exact (h.setYard _).endTake _
  | baseline => exact h.setYard _
  | release n => exact h.congr rfl rfl
  | reload => exact h.congr rfl rfl
  | resync b => exact h.congr rfl rfl
  | vacantRequest _ live => exact State.commanded_changeHolder _ _ fun k hk => Option.some.inj hk ▸ live
  | request k hk other _ live =>
    refine ⟨holds, fun u hu => ?_⟩
    obtain rfl := Option.some.inj hu
    exact ⟨fun hn => (nomatch hk.symm.trans hn), fun hm => other (Option.some.inj (hk.symm.trans hm)), live⟩
  | handOver p _ hp =>
    obtain ⟨-, -, live⟩ := asks p hp
    exact State.commanded_changeHolder _ _ fun k hk => Option.some.inj hk ▸ live
  | relinquish => exact State.commanded_changeHolder _ _ fun _ hk => (nomatch hk)
  | endTransfer p => exact State.commanded_endTransfer _ _ _ holds
  | heartbeat => exact h.setRole fun _ => rfl
  | attach first count was hr =>
    exact (((h.setRole fun hl => by rw [hr] at hl; cases hl).setYard _).capture _).endTake _
  | mismatch first count was hr =>
    exact (((h.setRole fun hl => by rw [hr] at hl; cases hl).setYard _).capture _).endTake _

theorem State.kept_commanded : Kept (State.Commanded (·.live = true)) where
  pending _ _ h := h
  clock _ h := h
  capture _ _ h := h
  answer _ _ h := h
  setUpstream _ _ h := h
  setSlot _ _ _ h := h
  setMeter _ _ _ h := h
  station _ _ _ _ h _ := (h.setYard _).endTake _
  order _ _ _ _ _ h _ take := State.Commanded.order h take
  sensor _ _ _ _ h := ((h.setYard _).captures _).endTake _
  store _ _ _ _ _ h := h
  forget _ _ _ h := h
  clean _ _ h := h
  countLeg _ _ _ _ _ h := h.takeMirror _
  countError _ _ _ _ _ h := h.takeMirror _
  copyStep _ _ h := h.takeMirror _
  beginReset _ _ _ := State.commanded_of_holder rfl fun _ hk => (nomatch hk)
  release _ _ h _ := h
  nextAttempt _ _ _ h _ := h
  enterTransparent _ _ h _ := h
  enterRunning _ _ _ _ a b _ _ hl := State.commanded_enterRunning a b hl
  ready _ h := h
  freePort _ h := h
  reloadFault _ _ h := h
  hold _ _ _ h _ := h
  applyNow _ _ _ h _ _ _ := State.commanded_applyImage ((h.setReload _).markReload _) _ _
  applyHeld _ _ h _ _ := State.commanded_applyImage (h.setReload _) _ _
  debounce _ _ _ h := h.doorTake _ _
  freshness _ _ h := h.doorTake _ _
  grant _ _ h := h.doorTake _ _
  prewarn _ _ h := h.doorTake _ _
  travel _ _ _ _ _ _ h _ _ := h.doorTake _ _
  reclose _ _ _ _ h _ _ := h.doorTake _ _
  trip _ _ _ h _ _ := h.doorTake _ _
  retry _ _ _ _ h _ _ := h.doorTake _ _
  settle _ _ h := h.doorTake _ _
  lapse _ _ _ h _ := h.lapse _
  transferExpiry s h := by
    unfold State.takeTransferExpiry
    split
    · exact State.commanded_endTransfer _ _ _ h.1
    · exact h
  phase _ h := h

end Sys2Proof.Machine
end

section
/-! SUPPORT. Laws of each door's record under its surroundings, as those of the trip count (R56) and of the position (R4)
are: what the changes of one record must keep, so that every operation of the door table keeps the law at every door. -/

namespace Sys2Proof.Machine

/-! ## The surroundings -/

/-- R125: a master's role replaced in the door table's surroundings. -/
def Env.setRole (e : Env) (m : Master) (r : Role) : Env :=
  { e with masters := setAt e.masters m { e.masters.get m with role := r } }

theorem State.setRole_env (s : State) (m : Master) (r : Role) : (s.setRole m r).env = s.env.setRole m r := rfl

theorem Env.setRole_role (e : Env) (m k : Master) (r : Role) :
    ((e.setRole m r).masters.get k).role = if k = m then r else (e.masters.get k).role := by
  simp only [Env.setRole, get_setAt]
  split <;> rfl

/-! ## What the changes of one record must keep -/

/-- R56: the trip count at one door, under a retry limit. -/
def Door.Counts (limit : Nat) (x : Door) : Prop :=
  x.prot.tripCount ≤ limit + 1 ∧ (x.prot.tripCount = limit + 1 ↔ x.inhibit = .latched)

/-- R1: a door's owner is a SCANNER. -/
def Door.Owned (e : Env) (x : Door) : Prop := ∀ m, x.owner = some m → (e.masters.get m).role.isScanner = true

/-- R4, R12: a record whose inputs have changed, with the position they give it. -/
def Door.observed (e : Env) (x : Door) (i : InputPart) (seen : Bool) : Door :=
  { x with inp := i, powerSeen := seen, position := e.positionOf (x.withInputs i seen) }

/-- A law of each door's record under its surroundings. Where `owners` holds, the law asks that a door's owner be a
SCANNER. -/
structure Door.Law (owners : Prop) (P : Env → Door → Prop) : Prop where
  -- the surroundings
  congr : ∀ {e e' : Env} {x}, e'.times = e.times → e'.masters = e.masters → P e x → P e' x
  setRole : ∀ {e : Env} {x m r}, r.isScanner = (e.masters.get m).role.isScanner →
    (x.owner = some m → r.isScanner = true → x.inp.stale = true ∨ x.inp.reported = false) →
    P e x → P (e.setRole m r) x
  -- new records, and those that an apply has settled
  settled : ∀ {e : Env} {x : Door}, x.Counts e.times.retryLimit → (owners → x.Owned e) →
    x.position = e.positionOf x → P e x
  -- the changes of a record
  steady : ∀ {e x z}, Door.Steady True x z → P e x → P e z
  alarms : ∀ {e x} a, P e x → P e { x with alarms := a }
  observed : ∀ {e x} i seen, P e x → P e (x.observed e i seen)
  stopFreshness : ∀ {e x}, P e x → P e { x with inp := { x.inp with freshness := none } }
  loseSight : ∀ {e x}, P e x → P e { x with inp := x.inp.loseSight }
  forgetReports : ∀ {e x}, P e x → P e x.forgetReports
  prot : ∀ {e x p}, p.tripCount = x.prot.tripCount → P e x → P e { x with prot := p }
  countTrip : ∀ {e x}, P e x → P e (x.countTrip e)
  stall : ∀ {e x}, P e x → P e { x with inhibit := x.inhibit.stall }
  settle : ∀ {e x}, P e x → P e { x with prot := { x.prot with
    settle := none, tripCount := if x.inhibit = .none then 0 else x.prot.tripCount } }
  clear : ∀ {e x}, P e x → P e { x with inhibit := .none, prot := { x.prot with tripCount := 0 } }

/-- A law at every door. -/
def Yard.All (P : Door → Prop) (y : Yard) : Prop := ∀ (d : Nat) (x : Door), y.doors[d]? = some x → P x

/-! ## Operations at one door -/

section

variable {P : Door → Prop} {R : Door → Door → Prop} {y y' : Yard} {d : Nat}

theorem Yard.AtDoor.all (h : Yard.AtDoor R d y y') (hR : ∀ x z, R x z → P x → P z) (hy : y.All P) : y'.All P := by
  intro k z hz
  by_cases hk : k = d
  · subst hk
    obtain ⟨x, hx, hr⟩ := h.found hz
    exact hR x z hr (hy k x hx)
  · exact hy k z (by rwa [h.others k hk] at hz)

theorem Yard.All.modify (hy : y.All P) (d : Nat) {f : Door → Door} (hf : ∀ x, P x → P (f x)) : (y.modify d f).All P :=
  (Yard.atDoor_modify (R := fun x z => z = f x) fun _ _ => rfl).all (fun x _ hz hx => hz ▸ hf x hx) hy

theorem Yard.All.foldl {α : Type} {f : Yard → α → Yard} (hy : y.All P) (hf : ∀ z a, z.All P → (f z a).All P)
    (l : List α) : (l.foldl f y).All P :=
  List.foldlRecOn (motive := Yard.All P) _ _ hy fun z hz a _ => hf z a hz

/-- The same law, asked under other surroundings. -/
theorem Yard.All.mono {Q : Door → Prop} (hy : y.All P) (h : ∀ x, P x → Q x) : y.All Q := fun d x hx => h x (hy d x hx)

end

/-- R32: a station request is steady. -/
theorem Yard.steady_stationRequest {y z : Yard} {e : Env} {d : Nat} {w : Word}
    (h : y.stationRequest e d w = .ok z) : Yard.Steady True d y z := by
  have fresh := Yard.fresh_true e d
  unfold Yard.stationRequest at h
  split at h
  · cases h
  · next x hx =>
    split at h
    · split at h
      · cases h; exact Yard.Steady.refl d _
      · unfold Yard.stationClose at h
        split at h <;> cases h
        exact Yard.steady_motionRequest (fresh y) _ _
      · unfold Yard.stationOpen at h
        split at h <;> cases h
        exact Yard.steady_motionRequest (fresh y) _ _
      · unfold Yard.stationStop at h
        split at h
        · cases h
        · split at h <;> cases h
          · exact Yard.Steady.refl d _
          · exact Yard.Steady.refl d _
          · exact Yard.steady_rest (fresh y) _
      · unfold Yard.stationIsolate at h
        split at h <;> cases h
        · exact Yard.Steady.refl d _
        · exact (Yard.steady_hold _ _ _).trans (Yard.steady_changeDrive (fresh _) _ _)
      · unfold Yard.stationRestore at h
        split at h <;> cases h
        · exact (Yard.steady_hold _ _ _).trans (Yard.steady_rest (fresh _) _)
        · exact Yard.Steady.refl d _
    · cases h

/-- R4: the position derived afresh, and what it hands on, keep the record steady but for the position. -/
theorem Yard.rederive_derives (y : Yard) (e : Env) (d : Nat) :
    Yard.AtDoor (fun x z => Door.Steady True { x with position := e.positionOf x } z) d y (y.rederive e d) := by
  have calm := Yard.atDoor_rederive y e d
  refine ⟨calm.others, calm.length, fun x hx => ?_, calm.groups⟩
  unfold Yard.rederive
  simp only [hx]
  split
  · next hp =>
    rw [hp]
    exact ⟨x, hx, Door.Steady.refl x⟩
  · have hx1 : (y.modify d fun z => { z with position := e.positionOf x }).doors[d]? =
        some { x with position := e.positionOf x } := by
      rw [Yard.modify_get_same, hx]; rfl
    exact (Yard.steady_positionChange (Yard.fresh_true e d _) x.position (e.positionOf x)).door _ hx1

/-- R12: a change of inputs leaves a record steady but for the inputs and the position they give. -/
theorem Yard.deliver_observes (y : Yard) (e : Env) (d : Nat) (before after : Four Bool) :
    Yard.AtDoor (fun x z => Door.Steady True { x with position := e.positionOf x } z) d y
      (y.deliver e d before after) := by
  have handedOn : ∀ z : Yard, Yard.Steady True d z ((z.deliverLo e d before.lo after.lo).deliverLc e d before.lc after.lc) :=
    fun z => (Yard.steady_deliverLo (Yard.fresh_true e d z) _ _).trans (Yard.steady_deliverLc (Yard.fresh_true e d _) _ _)
  exact (y.rederive_derives e d).trans (fun _ _ h => h.static) (fun _ _ _ h k => h.trans k) (handedOn _)

/-! ## The operations of the door table -/

section

variable {owners : Prop} {P : Env → Door → Prop} {y : Yard} {e : Env}

theorem Door.Law.steadily (law : Door.Law owners P) {d : Nat} {y' : Yard} (h : y.All (P e))
    (hs : y.Fresh True e d → Yard.Steady True d y y') : y'.All (P e) :=
  (hs (Yard.fresh_true e d y)).all (fun _ _ hxz hx => law.steady hxz hx) h

/-- R12: inputs changed and delivered. -/
theorem Door.Law.deliver (law : Door.Law owners P) (h : y.All (P e)) (d : Nat) (i : InputPart) {f : Door → Bool}
    (before after : Four Bool) :
    ((y.modify d fun z => { z with inp := i, powerSeen := f z }).deliver e d before after).All (P e) := by
  have observes : Yard.AtDoor (fun x z => Door.Steady True (x.observed e i (f x)) z) d y
      ((y.modify d fun z => { z with inp := i, powerSeen := f z }).deliver e d before after) :=
    (Yard.atDoor_modify (R := fun x z => z = { x with inp := i, powerSeen := f x }) fun _ _ => rfl).trans
      (fun _ _ hz => by rw [hz]) (fun _ _ _ hz hs => by rw [hz] at hs; exact hs) (Yard.deliver_observes _ e d before after)
  exact observes.all (fun x z hxz hx => law.steady hxz (law.observed i (f x) hx)) h

theorem Door.Law.debounceExpiry (law : Door.Law owners P) (h : y.All (P e)) (d report : Nat) :
    (y.debounceExpiry e d report).All (P e) := by
  unfold Yard.debounceExpiry
  split
  · exact h
  · exact law.deliver h d _ (f := Door.powerSeen) _ _

theorem Door.Law.trip (law : Door.Law owners P) (h : y.All (P e)) (d : Nat) : (y.trip e d).1.All (P e) := by
  unfold Yard.trip
  split
  · exact h
  · have tripped : ∀ new, ((y.modify d fun z => z.countTrip e).changeDrive e d new false).All (P e) := fun new =>
      law.steadily (h.modify d fun _ hx => law.countTrip hx) fun hf => Yard.steady_changeDrive hf _ _
    simp only
    split
    · exact law.steadily (tripped _) Yard.steady_enforce
    · exact tripped _

theorem Protection.evaluate_tripCount (p : Protection) (margin : Nat) (ob : Bool) (pressure tripAt : Nat) :
    (p.evaluate margin ob pressure tripAt).tripCount = p.tripCount := by
  unfold Protection.evaluate Protection.takeResult
  split <;> rfl

theorem Door.Law.evaluateAlert (law : Door.Law owners P) (h : y.All (P e)) (d : Nat) (r : Report) :
    (y.evaluateAlert e d r).1.All (P e) := by
  unfold Yard.evaluateAlert
  split
  · exact h
  · next x hx =>
    split
    · simp only
      generalize hp : x.prot.evaluate x.st.margin r.ob r.pressure (e.clock + e.times.tripDelay) = p
      have judged : (y.modify d fun z => { z with prot := p }).All (P e) := by
        refine (Yard.atDoor_modify (R := fun x z => P e x → P e z) fun z hz => ?_).all (fun _ _ hxz => hxz) h
        obtain rfl := Option.some.inj (hx.symm.trans hz)
        exact law.prot (hp ▸ Protection.evaluate_tripCount _ _ _ _ _)
      split
      · exact law.trip judged d
      · exact judged
    · exact h

theorem Door.Law.sensorTake (law : Door.Law owners P) (h : y.All (P e)) (d : Nat) (w : Word) (arrival : Nat) :
    (y.sensorTake e d w arrival).1.All (P e) := by
  unfold Yard.sensorTake
  split
  · exact h
  · simp only
    split
    · exact h
    · split
      · exact law.evaluateAlert (law.deliver h d _ (f := fun _ => true) _ _) d _
      · exact law.deliver h d _ (f := fun _ => true) _ _

theorem Door.Law.freshnessExpiry (law : Door.Law owners P) (h : y.All (P e)) (d : Nat) :
    (y.freshnessExpiry e d).All (P e) :=
  (law.steadily h fun _ => Yard.steady_goStale trivial y e d).modify d fun _ hx => law.stopFreshness hx

theorem Door.Law.prewarnExpiry (law : Door.Law owners P) (h : y.All (P e)) (d : Nat) :
    (y.prewarnExpiry e d).All (P e) := by
  unfold Yard.prewarnExpiry
  split
  · exact h
  · split
    · exact law.steadily h fun hf => Yard.steady_changeDrive hf _ _
    · exact h

theorem Door.Law.travelExpiry (law : Door.Law owners P) (h : y.All (P e)) (d : Nat) :
    (y.travelExpiry e d).All (P e) :=
  law.steadily (h.modify d fun _ hx => law.stall hx) fun hf => Yard.steady_rest hf _

theorem Door.Law.clearDoor (law : Door.Law owners P) (h : y.All (P e)) (d : Nat) : (y.clearDoor e d).All (P e) := by
  unfold Yard.clearDoor
  split
  · exact h
  · have cleared := h.modify d fun _ hx => law.clear hx
    simp only
    split
    · exact law.steadily cleared fun hf => Yard.steady_rest hf _
    · exact law.steadily cleared Yard.steady_enforce

theorem Door.Law.grantGroup (law : Door.Law owners P) (h : y.All (P e)) (g : GroupNum) : (y.grantGroup e g).All (P e) := by
  unfold Yard.grantGroup
  generalize (y.groups.get g).queue.length = fuel
  induction fuel generalizing y with
  | zero => exact h
  | succ n ih =>
    unfold Yard.grants
    split
    · split
      · exact ih (law.steadily h Yard.steady_grantHead)
      · exact h
    · exact h

theorem Door.Law.enforceAll (law : Door.Law owners P) (h : y.All (P e)) : (y.enforceAll e).All (P e) :=
  h.foldl (fun _ _ hz => law.steadily hz Yard.steady_enforce) _

theorem Door.Law.modeChange (law : Door.Law owners P) (h : y.All (P e)) : (y.modeChange e).All (P e) := by
  have grants : ∀ z : Yard, z.All (P e) → (z.grantAll e).All (P e) := fun z hz =>
    hz.foldl (fun _ g hz => law.grantGroup hz g) _
  unfold Yard.modeChange
  simp only
  split
  · exact grants _ (law.enforceAll (h.foldl (fun _ _ hz => law.steadily hz Yard.steady_toDoorsClosed) _))
  · exact grants _ (h.foldl (fun _ _ hz => law.steadily hz Yard.steady_toLocalControl) _)

theorem Door.Law.zoneClose (law : Door.Law owners P) (h : y.All (P e)) (mask : Word) : (y.zoneClose e mask).All (P e) :=
  h.foldl (fun _ _ hz => law.steadily hz fun hf => Yard.steady_zoneCloseDoor hf mask) _

theorem Door.Law.baseline (law : Door.Law owners P) (h : y.All (P e)) (mask : Word) : (y.baseline mask).All (P e) := by
  intro d z hz
  unfold Yard.baseline at hz
  rw [List.getElem?_map] at hz
  obtain ⟨x, hx, rfl⟩ := Option.map_eq_some_iff.mp hz
  split
  · exact law.prot rfl (h d x hx)
  · exact h d x hx

end

end Sys2Proof.Machine
end

section
/-! SUPPORT. Laws of each door's record across the takes that change the surroundings: ATTACH, a lapse, the apply and the
entry to RUNNING; and then across every step. -/

namespace Sys2Proof.Machine

/-! ## Takes of some doors, one after another -/

/-- Operations at the doors of a list, each of which is there once: each meets its own operation on its own record. -/
theorem Yard.foldl_get {f : Yard → Nat → Yard} {R : Door → Door → Prop} (hf : ∀ y d, Yard.Calm d y (f y d))
    (hR : ∀ y d x, y.doors[d]? = some x → ∃ z, (f y d).doors[d]? = some z ∧ R x z) {l : List Nat} (hl : l.Nodup)
    (y : Yard) : (∀ k, k ∉ l → (l.foldl f y).doors[k]? = y.doors[k]?) ∧
      ∀ k x, k ∈ l → y.doors[k]? = some x → ∃ z, (l.foldl f y).doors[k]? = some z ∧ R x z := by
  induction l generalizing y with
  | nil => exact ⟨fun _ _ => rfl, fun _ _ hk => absurd hk List.not_mem_nil⟩
  | cons d l ih =>
    obtain ⟨once, rest⟩ := List.nodup_cons.mp hl
    obtain ⟨outside, inside⟩ := ih rest (f y d)
    refine ⟨fun k hk => ?_, fun k x hk hx => ?_⟩
    · obtain ⟨not_head, not_rest⟩ := not_or.mp (mt List.mem_cons.mpr hk)
      exact (outside k not_rest).trans ((hf y d).others k not_head)
    · rcases List.mem_cons.mp hk with rfl | hk
      · obtain ⟨z, hz, hr⟩ := hR y k x hx
        exact ⟨z, (outside k once).trans hz, hr⟩
      · have not_head : k ≠ d := fun h => once (h ▸ hk)
        exact inside k x hk (((hf y d).others k not_head).trans hx)

theorem Yard.mem_ownedBy {y : Yard} {m : Master} {d : Nat} {x : Door} (hx : y.doors[d]? = some x) :
    d ∈ y.ownedBy m ↔ x.owner = some m := by
  obtain ⟨inside, rfl⟩ := List.getElem?_eq_some_iff.mp hx
  simp [Yard.ownedBy, inside]

theorem Yard.nodup_ownedBy (y : Yard) (m : Master) : (y.ownedBy m).Nodup := List.nodup_range.filter _

theorem Yard.foldl_length {f : Yard → Nat → Yard} (hf : ∀ y d, Yard.Calm d y (f y d)) (l : List Nat) (y : Yard) :
    (l.foldl f y).doors.length = y.doors.length :=
  List.foldlRecOn (motive := fun z => z.doors.length = y.doors.length) _ _ rfl fun z hz d _ => (hf z d).length.trans hz

/-! ## The owning scanner (R98) and a lapse (R90) -/

section

variable {owners : Prop} {P : Env → Door → Prop} {y : Yard} {e : Env} {m : Master} {r : Role}

/-- A door whose owner's role changes meets the law under the new one where it is out of sight. -/
theorem Door.Law.ownedBy (law : Door.Law owners P) (hr : r.isScanner = (e.masters.get m).role.isScanner)
    (h : y.All (P e)) {f : Yard → Nat → Yard} (hf : ∀ y d, Yard.Calm d y (f y d))
    (hR : ∀ y d x, y.doors[d]? = some x → ∃ z, (f y d).doors[d]? = some z ∧ (P e x → P (e.setRole m r) z)) :
    ((y.ownedBy m).foldl f y).All (P (e.setRole m r)) := by
  obtain ⟨outside, inside⟩ := Yard.foldl_get hf hR (y.nodup_ownedBy m) y
  intro k z hz
  have there : k < y.doors.length := by
    rw [← Yard.foldl_length hf (y.ownedBy m) y]
    exact (List.getElem?_eq_some_iff.mp hz).1
  have hx := List.getElem?_eq_getElem there
  by_cases hk : k ∈ y.ownedBy m
  · obtain ⟨w, hw, hP⟩ := inside k _ hk hx
    obtain rfl := Option.some.inj (hw.symm.trans hz)
    exact hP (h k _ hx)
  · rw [outside k hk] at hz
    exact law.setRole hr (fun ho => absurd ((Yard.mem_ownedBy hz).mpr ho) hk) (h k z hz)

theorem Door.Law.reattach (law : Door.Law owners P) (hr : r.isScanner = (e.masters.get m).role.isScanner)
    (h : y.All (P e)) : (y.reattach (e.setRole m r) m).All (P (e.setRole m r)) := by
  refine law.ownedBy hr h (fun y d => Yard.calm_reattachDoor y _ d) fun y d x hx => ?_
  have forgot : P e x → P (e.setRole m r) x.forgetReports := fun hP =>
    law.setRole hr (fun _ _ => .inr rfl) (law.forgetReports hP)
  let y1 := (y.modify d Door.forgetReports).modify d fun z => { z with inp := z.inp.loseSight }
  have blind : y1.doors[d]? = some { x.forgetReports with inp := x.forgetReports.inp.loseSight } := by simp [y1, hx]
  unfold Yard.reattachDoor
  simp only [hx]
  split
  · split
    · obtain ⟨z, hz, steady⟩ :=
        (Yard.steady_loFall (Yard.fresh_true (e.setRole m r) d y1)).door _ blind
      exact ⟨z, hz, fun hP => law.steady steady (law.loseSight (forgot hP))⟩
    · exact ⟨_, blind, fun hP => law.loseSight (forgot hP)⟩
  · exact ⟨x.forgetReports, by rw [Yard.modify_get_same, hx]; rfl, forgot⟩

/-- R14: a door that has become stale is stale. -/
theorem Yard.goStale_stale {y : Yard} (e : Env) {d : Nat} {x : Door} (hx : y.doors[d]? = some x) :
    ∃ z, (y.goStale e d).doors[d]? = some z ∧ z.inp.stale = true ∧ Door.Steady True x z := by
  obtain ⟨z, hz, steady⟩ := (Yard.steady_goStale trivial y e d).door x hx
  refine ⟨z, hz, ?_, steady⟩
  cases hs : x.inp.stale with
  | true =>
    rcases steady.sight with ⟨hi, -⟩ | ⟨-, hstale, -⟩
    · rw [hi, hs]
    · exact hstale
  | false =>
    by_cases hq : x.staleQuiet e
    · rw [Yard.goStale_quiet hx hs hq, Yard.modify_get_same, hx] at hz
      obtain rfl := Option.some.inj hz
      rfl
    · obtain ⟨hlo, hfall⟩ := not_or.mp hq
      obtain ⟨new, hn⟩ := Option.ne_none_iff_exists'.mp hfall
      rw [(Yard.goStale_falls hx hs (by simpa using hlo) hn).1] at hz
      obtain rfl := Option.some.inj hz
      rfl

theorem Door.Law.staleOwned (law : Door.Law owners P) (hr : r.isScanner = (e.masters.get m).role.isScanner)
    (h : y.All (P e)) :
    (y.staleDoors (e.setRole m r) (y.ownedBy m)).All (P (e.setRole m r)) := by
  refine law.ownedBy hr h (fun y d => Yard.calm_goStale y _ d) fun y d x hx => ?_
  obtain ⟨z, hz, stale, steady⟩ := Yard.goStale_stale (e.setRole m r) hx
  exact ⟨z, hz, fun hP => law.setRole hr (fun _ _ => .inl stale) (law.steady steady hP)⟩

end

/-! ## The apply (R170) -/

section

variable {s t : State}

/-- What the adjustment of the masters keeps: the settings in force, the loader, and which masters are SCANNERs. -/
structure State.KeepsScanners (s t : State) : Prop where
  timing : t.timing = s.timing
  loader : t.loader = s.loader
  scanners : ∀ k, (t.role k).isScanner = (s.role k).isScanner

theorem State.KeepsScanners.refl (s : State) : State.KeepsScanners s s := ⟨rfl, rfl, fun _ => rfl⟩

theorem State.KeepsScanners.trans {u : State} (h : State.KeepsScanners s t) (k : State.KeepsScanners t u) :
    State.KeepsScanners s u :=
  ⟨k.timing.trans h.timing, k.loader.trans h.loader, fun j => (k.scanners j).trans (h.scanners j)⟩

theorem State.KeepsScanners.setYard (h : State.KeepsScanners s t) (y : Yard) : State.KeepsScanners s (t.setYard y) :=
  ⟨h.timing, h.loader, h.scanners⟩

theorem State.KeepsScanners.capture (h : State.KeepsScanners s t) (c : Capture) : State.KeepsScanners s (t.capture c) :=
  ⟨(State.capture_timing t c).trans h.timing, (State.capture_loader t c).trans h.loader, fun k =>
    (congrArg Role.isScanner (State.capture_role t c k)).trans (h.scanners k)⟩

theorem State.keepsScanners_foldl {α : Type} {f : State → α → State} (hf : ∀ t a, State.KeepsScanners t (f t a))
    (l : List α) (s : State) : State.KeepsScanners s (l.foldl f s) :=
  List.foldlRecOn (motive := State.KeepsScanners s) _ _ (State.KeepsScanners.refl s) fun t ht a _ => ht.trans (hf t a)

theorem State.keepsScanners_changeHolder (s : State) (src : CaptureSource) (new : Option Master) (detail : Nat) :
    State.KeepsScanners s (s.changeHolder src new detail) := ⟨rfl, rfl, fun _ => rfl⟩

theorem State.keepsScanners_endTransfer (s : State) (src : CaptureSource) (requester : Master) (detail : Nat) :
    State.KeepsScanners s (s.endTransfer src requester detail) := ⟨rfl, rfl, fun _ => rfl⟩

/-- R90: a station that lapses stays STATION. -/
theorem State.keepsScanners_lapse {m : Master} (hm : (s.role m).isScanner = false) :
    State.KeepsScanners s (s.lapse m) := by
  have first : State.KeepsScanners s (s.lapseFirst m) := ⟨rfl, rfl, fun k => by
    unfold State.lapseFirst
    rw [State.capture_role, State.setRole_role]
    split
    · next hk => rw [hk, hm]; rfl
    · rfl⟩
  rw [State.lapse_eq]
  split
  · split
    · exact first.trans (State.keepsScanners_endTransfer _ _ _ _)
    · split
      · exact first.trans (State.keepsScanners_changeHolder _ _ _ _)
      · exact first
  · split
    · exact first.trans (State.keepsScanners_changeHolder _ _ _ _)
    · exact first

theorem State.keepsScanners_judgeHeartbeat (s : State) (m : Master) : State.KeepsScanners s (s.judgeHeartbeat m) := by
  unfold State.judgeHeartbeat
  split
  · next start hm =>
    split
    · exact State.keepsScanners_lapse (by rw [hm]; rfl)
    · exact State.KeepsScanners.refl s
  · exact State.KeepsScanners.refl s

theorem State.keepsScanners_dropRequester (s : State) : State.KeepsScanners s s.dropRequester := by
  unfold State.dropRequester
  split
  · split
    · exact State.KeepsScanners.refl s
    · exact State.keepsScanners_endTransfer _ _ _ _
  · exact State.KeepsScanners.refl s

theorem State.keepsScanners_dropHolder (s : State) : State.KeepsScanners s s.dropHolder := by
  unfold State.dropHolder
  split
  · split
    · exact State.KeepsScanners.refl s
    · split <;> exact State.keepsScanners_changeHolder _ _ _ _
  · exact State.KeepsScanners.refl s

theorem State.keepsScanners_judgeTransfer (s : State) : State.KeepsScanners s s.judgeTransfer := by
  unfold State.judgeTransfer
  split
  · split
    · exact State.keepsScanners_endTransfer _ _ _ _
    · exact State.KeepsScanners.refl s
  · exact State.KeepsScanners.refl s

/-- R100: the masters adjusted. -/
theorem State.keepsScanners_adjustMasters (s old : State) (img : Settings) :
    State.KeepsScanners s (s.adjustMasters old img) := by
  have heartbeats := State.keepsScanners_foldl State.keepsScanners_judgeHeartbeat masterNumbers s
  have passed := ((heartbeats.trans (State.keepsScanners_dropRequester _)).trans
    (State.keepsScanners_dropHolder _)).trans (State.keepsScanners_judgeTransfer _)
  exact passed.setYard _

theorem State.keepsScanners_discardSlots (s : State) : State.KeepsScanners s s.discardSlots :=
  State.keepsScanners_foldl (fun t m => by
    unfold State.discardSlot
    split <;> exact ⟨rfl, rfl, fun _ => rfl⟩) _ s

/-- R1: every door of an image is owned by a master that is a SCANNER in these surroundings. -/
def Settings.OwnedIn (img : Settings) (e : Env) : Prop :=
  ∀ st ∈ img.doors, (e.masters.get st.scanner).role.isScanner = true

theorem Role.adjust_scanner (old : Role) (first count clock : Nat) :
    (old.adjust (.scanner first count) clock).isScanner = true := by
  unfold Role.adjust
  split
  · next h => cases h
  · rfl
  · rfl

/-- R170 steps 4 to 6, and the end of the apply's take. -/
def State.finishApply (s : State) (before : List Door) (detail : Nat) : State :=
  let s1 := (s.setYard (s.yard.settleApply s.env before)).capture (Capture.ofPart 25 detail 0)
  (s1.setYard (s1.yard.enforceAll s1.env)).endTakeAll

/-- R170: the apply's yard, with the surroundings that its doors are settled in. -/
theorem State.applyImage_settles (s : State) (img : Settings) (detail : Nat) :
    ∃ u before lost e1, s.applyImage img detail = State.endTake before u ∧
      u.yard = s.yard.applied s.clock img lost e1 u.env u.env ∧ u.times = img.timing ∧ u.loader = s.loader ∧
      (img.owned → img.OwnedIn u.env) := by
  obtain ⟨e1, lost, adjusted⟩ := ((s.replaceTables img).discardSlots).adjustMasters_yard s img
  have scanners := (State.keepsScanners_discardSlots (s.replaceTables img)).trans
    (State.keepsScanners_adjustMasters _ s img)
  have applied : s.applyImage img detail = (((s.replaceTables img).discardSlots).adjustMasters s img).finishApply
    s.yard.doors detail := rfl
  rw [applied]
  rw [State.discardSlots_yard] at adjusted
  generalize ((s.replaceTables img).discardSlots).adjustMasters s img = s1 at adjusted scanners ⊢
  have keeps := ((scanners.setYard (s1.yard.settleApply s1.env s.yard.doors)).capture
    (Capture.ofPart 25 detail 0)).setYard (((s1.yard.settleApply s1.env s.yard.doors)).enforceAll s1.env)
  refine ⟨_, _, lost, e1, rfl, ?_, ?_, ?_, fun owned st hst => ?_⟩
  · rw [Yard.applied, show (s.yard.replaced s.clock img).staleDoors e1 lost = s1.yard from adjusted.symm]
    rfl
  · exact congrArg (Option.getD · Timing.blank) keeps.timing
  · exact keeps.loader
  · obtain ⟨first, count, role⟩ := owned st hst
    refine (keeps.scanners st.scanner).trans ?_
    have replaced : (s.replaceTables img).role st.scanner = (s.role st.scanner).adjust (.scanner first count) s.clock := by
      simp only [State.role, State.replaceTables, get_eight, role]
    rw [replaced]
    exact Role.adjust_scanner _ _ _ _

theorem replaceDoors_static {clock : Nat} : ∀ {doors : List Door} {new : List DoorStatic} {k : Nat} {z : Door},
    (replaceDoors clock doors new)[k]? = some z → ∃ st ∈ new, z.static = some st
  | _, [], _, _, h => by simp [replaceDoors] at h
  | [], st :: rest, 0, z, h => ⟨st, by simp, by rw [← (by simpa [replaceDoors] using h : Door.fresh st clock = z)]; rfl⟩
  | [], st :: rest, k + 1, z, h => by
    obtain ⟨st', hmem, hz⟩ := replaceDoors_static (doors := []) (new := rest) (k := k) (by simpa [replaceDoors] using h)
    exact ⟨st', by simp [hmem], hz⟩
  | x :: doors, st :: rest, 0, z, h =>
    ⟨st, by simp, by rw [← (by simpa [replaceDoors] using h : { x with static := some st } = z)]⟩
  | x :: doors, st :: rest, k + 1, z, h => by
    obtain ⟨st', hmem, hz⟩ := replaceDoors_static (doors := doors) (new := rest) (k := k) (by simpa [replaceDoors] using h)
    exact ⟨st', by simp [hmem], hz⟩

/-- R56, R170 step 4: a count under the new limit. -/
theorem Door.counts_clampTrips (limit : Nat) (x : Door) : (x.clampTrips limit).Counts limit := by
  unfold Door.clampTrips Door.Counts
  simp only
  split
  · next h => simp [h]
  · next h =>
    have := Nat.min_le_right x.prot.tripCount limit
    exact ⟨by omega, ⟨fun hc => by omega, fun hi => absurd hi h⟩⟩

/-- R1, R56: what steps 1 to 5 of an apply have made of a door. -/
def Door.Settling (img : Settings) (e : Env) (x : Door) : Prop :=
  x.Counts e.times.retryLimit ∧ ∃ st ∈ img.doors, x.static = some st

theorem Door.Settling.steady {img : Settings} {e : Env} {x z : Door} (hs : Door.Steady True x z)
    (h : x.Settling img e) : z.Settling img e := by
  unfold Door.Settling Door.Counts
  rw [hs.tripCount, hs.inhibit, hs.static]
  exact h

theorem Yard.settling_adjusted {y : Yard} {clock : Nat} {img : Settings} {lost : List Nat} {e1 e : Env} :
    ({ (y.replaced clock img).staleDoors e1 lost with
      doors := adjustDoors e.times.retryLimit y.doors ((y.replaced clock img).staleDoors e1 lost).doors } : Yard).All
      (Door.Settling img e) := by
  have replaced : (y.replaced clock img).All fun x => ∃ st ∈ img.doors, x.static = some st := fun d z hz =>
    replaceDoors_static hz
  have staled := replaced.foldl (f := fun z d => z.goStale e1 d)
    (fun z d hz => (Yard.steady_goStale trivial z e1 d).all (fun x w hs hx => by rw [hs.static]; exact hx) hz) lost
  intro d z hz
  rw [adjustDoors_get] at hz
  obtain ⟨x, hx, rfl⟩ := Option.map_eq_some_iff.mp hz
  obtain ⟨st, hst, static⟩ := staled d x hx
  refine ⟨Door.counts_clampTrips _ _, st, hst, ?_⟩
  rw [← static]
  unfold Door.adjust Door.clampTrips
  simp only
  split <;> rfl

theorem adjustDoors_length (limit : Nat) : ∀ before doors : List Door,
    (adjustDoors limit before doors).length = doors.length
  | _, [] => by simp [adjustDoors]
  | [], x :: doors => by simp [adjustDoors, adjustDoors_length limit [] doors]
  | b :: before, x :: doors => by simp [adjustDoors, adjustDoors_length limit before doors]

/-- R170: an apply brings every door under the law. -/
theorem Door.Law.applied {owners : Prop} {P : Env → Door → Prop} (law : Door.Law owners P) {y : Yard} {clock : Nat}
    {img : Settings} {lost : List Nat} {e1 e : Env} (ho : owners → img.OwnedIn e) :
    (y.applied clock img lost e1 e e).All (P e) := by
  let y0 := (y.replaced clock img).staleDoors e1 lost
  let y1 : Yard := { y0 with doors := adjustDoors e.times.retryLimit y.doors y0.doors }
  let n := y0.doors.length
  let y2 := (List.range n).foldl (fun z d => z.judgeFreshness e d) y1
  have settling : y2.All (Door.Settling img e) := (Yard.settling_adjusted (y := y)).foldl (fun z d hz =>
    (Yard.steady_judgeFreshness (Yard.fresh_true e d z)).all (fun _ _ hs hx => hx.steady hs) hz) _
  have rederived : ((List.range n).foldl (fun z d => z.rederive e d) y2).All (P e) := by
    have calm : ∀ z d, Yard.Calm d z (z.rederive e d) := fun z d =>
      have keeps := Yard.atDoor_rederive z e d
      ⟨keeps.others, keeps.length, fun x hx =>
        let ⟨w, hw, static, _, _, alarms⟩ := keeps.door x hx
        ⟨w, hw, static, alarms⟩, keeps.groups⟩
    obtain ⟨outside, inside⟩ := Yard.foldl_get calm (fun z d x hx => (z.rederive_derives e d).door x hx)
      (List.nodup_range (n := n)) y2
    have length : y2.doors.length = n := by
      exact (Yard.foldl_length (fun z d => (Yard.steady_judgeFreshness (Yard.fresh_true e d z)).calm) _ y1).trans
        (adjustDoors_length _ _ _)
    intro k z hz
    have there : k < n := by
      rw [← length, ← Yard.foldl_length calm (List.range n) y2]
      exact (List.getElem?_eq_some_iff.mp hz).1
    have hx := List.getElem?_eq_getElem (length.symm ▸ there : k < y2.doors.length)
    obtain ⟨w, hw, steady⟩ := inside k _ (List.mem_range.mpr there) hx
    obtain rfl := Option.some.inj (hw.symm.trans hz)
    obtain ⟨counts, st, hst, static⟩ := settling k _ hx
    refine law.steady steady (law.settled counts (fun h m hm => ?_) (Env.positionOf_congr e rfl rfl).symm)
    obtain rfl : st.scanner = m := by simpa [Door.owner, static] using hm
    exact ho h st hst
  exact law.enforceAll rederived

end

end Sys2Proof.Machine
end

section
/-! SUPPORT. A law of each door's record is a law of the part, kept by every step; and the two laws of O58 that are of
this kind: the trip count's (R56), and the owner's and the position's (R1, R4). -/

namespace Sys2Proof.Machine

/-! ## The law of the part -/

/-- R1: a held image's doors are owned by SCANNERs of it. -/
def State.HeldOwned (s : State) : Prop := ∀ img, s.loader.reload = .applyPending img → img.owned

/-- A law of each door's record as a law of the part. -/
def State.DoorLaw (owners : Prop) (P : Env → Door → Prop) (s : State) : Prop :=
  s.yard.All (P s.env) ∧ (owners → s.HeldOwned)

section

variable {owners : Prop} {P : Env → Door → Prop} {s t : State}

theorem State.HeldOwned.congr (h : s.HeldOwned) (hl : t.loader.reload = s.loader.reload) : t.HeldOwned := fun img hi =>
  h img (hl ▸ hi)

/-- The law speaks of the doors, the settings in force, the masters and the held image alone. -/
theorem State.DoorLaw.congr (law : Door.Law owners P) (h : s.DoorLaw owners P) (hy : t.yard = s.yard)
    (ht : t.times = s.times) (hm : t.masters = s.masters) (hl : t.loader.reload = s.loader.reload) :
    t.DoorLaw owners P :=
  ⟨fun d x hx => law.congr (e := s.env) (e' := t.env) ht hm (h.1 d x (by rwa [hy] at hx)), fun ho => (h.2 ho).congr hl⟩

theorem State.DoorLaw.setYard (h : s.DoorLaw owners P) {y : Yard} (hy : y.All (P s.env)) :
    (s.setYard y).DoorLaw owners P := ⟨hy, h.2⟩

theorem State.DoorLaw.capture (h : s.DoorLaw owners P) (c : Capture) : (s.capture c).DoorLaw owners P := h

theorem State.DoorLaw.captures (law : Door.Law owners P) (h : s.DoorLaw owners P) (cs : List Capture) :
    (s.captures cs).DoorLaw owners P :=
  h.congr law (State.captures_yard _ _) (State.captures_times _ _) (State.captures_masters _ _)
    (congrArg Loader.reload (State.captures_loader _ _))

/-- R104: the conditions judged at the end of a take. -/
theorem State.DoorLaw.endTake (law : Door.Law owners P) (h : s.DoorLaw owners P) (b : Yard) :
    (State.endTake b s).DoorLaw owners P := by
  refine ⟨fun d z hz => ?_, h.2⟩
  rw [State.endTake_yard_doors, evaluateChanged_get] at hz
  obtain ⟨x, hx, rfl⟩ := Option.map_eq_some_iff.mp hz
  split
  · exact h.1 d x hx
  · exact law.alarms _ (h.1 d x hx)

theorem State.DoorLaw.doorTake (law : Door.Law owners P) (h : s.DoorLaw owners P) {f : Yard → Env → Yard}
    {cs : List Capture} (hf : (f s.yard s.env).All (P s.env)) : (s.doorTake f cs).DoorLaw owners P :=
  ((h.setYard hf).captures law cs).endTake law _

theorem State.DoorLaw.takeMirror (law : Door.Law owners P) (h : s.DoorLaw owners P) (r : Mirror × List Capture) :
    (s.takeMirror r).DoorLaw owners P := by
  have stored : ({ s with mirror := r.1 } : State).DoorLaw owners P := h
  exact (stored.captures law r.2).congr law rfl rfl rfl rfl

/-- R83, R90: a master's role changes, and is neither before nor after a SCANNER's. -/
theorem State.DoorLaw.setRole (law : Door.Law owners P) (h : s.DoorLaw owners P) {m : Master} {r : Role}
    (hr : r.isScanner = false) (hs : (s.role m).isScanner = false) : (s.setRole m r).DoorLaw owners P :=
  ⟨h.1.mono fun _ hx => law.setRole (e := s.env) (hr.trans hs.symm) (fun _ hn => absurd (hn.symm.trans hr) nofun) hx, h.2⟩

/-- R90: a lapse changes the master's role alone, of what the law speaks of. -/
theorem State.DoorLaw.lapse (law : Door.Law owners P) (h : s.DoorLaw owners P) {m : Master}
    (hs : (s.role m).isScanner = false) : (s.lapse m).DoorLaw owners P := by
  have first : (s.lapseFirst m).DoorLaw owners P := (h.setRole law (m := m) (r := .station none) rfl hs).capture _
  rw [State.lapse_eq]
  split
  · split
    · exact first.congr law rfl rfl rfl rfl
    · split
      · exact first.congr law rfl rfl rfl rfl
      · exact first
  · split
    · exact first.congr law rfl rfl rfl rfl
    · exact first

/-- R3, R20: after a reset every door is blank. -/
theorem Door.Law.blank (law : Door.Law owners P) (e : Env) : Yard.blank.All (P e) := fun d x hx => by
  rw [List.eq_of_mem_replicate (List.mem_of_getElem? hx)]
  exact law.settled ⟨Nat.zero_le _, nofun, nofun⟩ (fun _ _ hm => nomatch hm) rfl

/-- R167: the doors of an image, in its own surroundings. -/
theorem Door.Law.entered (law : Door.Law owners P) {e : Env} {img : Settings} (ho : owners → img.OwnedIn e) :
    (Yard.entered img).All (P e) := fun d x hx => by
  obtain ⟨st, hst, rfl⟩ := List.mem_map.mp (List.mem_of_getElem? hx)
  refine law.settled ⟨Nat.zero_le _, nofun, nofun⟩ (fun h m hm => ?_) rfl
  obtain rfl : st.scanner = m := Option.some.inj hm
  exact ho h st hst

theorem State.DoorLaw.enterRunning (law : Door.Law owners P) (s : State) {n : Nat} {image : List Byte} {img : Settings}
    (a b : Bool) (hl : loadAttempt image none = .ok img) : (s.enterRunning img n a b).DoorLaw owners P := by
  have owned : img.OwnedIn (s.takeTables img).env := fun st hst => by
    obtain ⟨first, count, role⟩ := owned_of_loadAttempt hl st hst
    simp only [State.env, State.takeTables, get_eight, role]
    rfl
  have entered : (s.takeTables img).DoorLaw owners P := ⟨law.entered fun _ => owned, fun _ _ hi => nomatch hi⟩
  exact ((entered.capture _).takeMirror law _).endTake law _

/-- R170: the apply of an image whose doors' owners are SCANNERs. -/
theorem State.DoorLaw.applyImage (law : Door.Law owners P) {img : Settings} (detail : Nat) (hi : owners → img.owned)
    (hs : s.HeldOwned) : (s.applyImage img detail).DoorLaw owners P := by
  obtain ⟨u, before, lost, e1, applied, yard, -, loader, owned⟩ := s.applyImage_settles img detail
  rw [applied]
  have settled : u.DoorLaw owners P :=
    ⟨yard ▸ law.applied fun ho => owned (hi ho), fun _ => hs.congr (congrArg Loader.reload loader)⟩
  exact settled.endTake law _

theorem Door.Law.forSelected (h : s.yard.All (P s.env)) (sel : DoorSelect) {f : Yard → Nat → Yard}
    (hf : ∀ y d, y.All (P s.env) → (f y d).All (P s.env)) : (s.yard.forSelected sel f).All (P s.env) := by
  cases sel with
  | one d => exact hf _ _ h
  | all => exact h.foldl hf _

/-- R78: what an order's take leaves. -/
theorem State.DoorLaw.order (law : Door.Law owners P) {m : Master} {addr : Addr} {w : Word} (h : s.DoorLaw owners P)
    (take : s.OrderTake m addr w t) : t.DoorLaw owners P := by
  cases take with
  | mode v =>
    have moded : ({ s with command := { s.command with mode := some v } } : State).DoorLaw owners P :=
      h.congr law rfl rfl rfl rfl
    exact (moded.setYard (law.modeChange moded.1) |>.congr law rfl rfl rfl rfl).endTake law _
  | zoneClose => exact (h.setYard (law.zoneClose h.1 w)).endTake law _
  | doorClear sel => exact (h.setYard (Door.Law.forSelected h.1 sel fun y d hy => law.clearDoor hy d)).endTake law _
  | alarmAck sel =>
    exact (h.setYard (Door.Law.forSelected h.1 sel fun y d hy => hy.modify d fun _ hx => law.alarms _ hx)).endTake law _
  | baseline => exact h.setYard (law.baseline h.1 w)
  | reload => exact ⟨h.1, fun _ _ hi => nomatch hi⟩
  | heartbeat hs => exact h.setRole law rfl (by
      cases hr : s.role m <;> simp_all [Role.isStation, Role.isScanner])
  | attach first count was hr =>
    have attached : (s.yard.reattach (s.env.setRole m (.scanner first count true)) m).All
        (P (s.env.setRole m (.scanner first count true))) := law.reattach (congrArg Role.isScanner hr).symm h.1
    have taken : ((s.setRole m (.scanner first count true)).setYard
        (s.yard.reattach (s.setRole m (.scanner first count true)).env m)).DoorLaw owners P := ⟨attached, h.2⟩
    exact (taken.capture _).endTake law _
  | mismatch first count was hr =>
    have parted : (s.yard.staleDoors (s.env.setRole m (.scanner first count false)) (s.yard.ownedBy m)).All
        (P (s.env.setRole m (.scanner first count false))) := law.staleOwned (congrArg Role.isScanner hr).symm h.1
    have taken : ((s.setRole m (.scanner first count false)).setYard
        (s.yard.staleDoors (s.setRole m (.scanner first count false)).env (s.yard.ownedBy m))).DoorLaw owners P :=
      ⟨parted, h.2⟩
    exact (taken.capture _).endTake law _
  | sameMode => exact h
  | release n => exact h.congr law rfl rfl rfl rfl
  | resync b => exact h.congr law rfl rfl rfl rfl
  | vacantRequest => exact h.congr law rfl rfl rfl rfl
  | request => exact h.congr law rfl rfl rfl rfl
  | handOver => exact h.congr law rfl rfl rfl rfl
  | relinquish => exact h.congr law rfl rfl rfl rfl
  | endTransfer => exact h.congr law rfl rfl rfl rfl

/-- A law of each door's record is kept by every step. -/
theorem Door.Law.kept (law : Door.Law owners P) : Kept (State.DoorLaw owners P) where
  pending _ _ h := h
  clock _ h := h.congr law rfl rfl rfl rfl
  capture _ _ h := h
  answer _ _ h := h
  setUpstream _ _ h := h
  setSlot _ _ _ h := h
  setMeter _ _ _ h := h
  station _ _ _ _ h hy :=
    (h.setYard (law.steadily h.1 fun _ => Yard.steady_stationRequest hy)).endTake law _
  order _ _ _ _ _ h _ take := h.order law take
  sensor _ d w a h := ((h.setYard (law.sensorTake h.1 d w a)).captures law _).endTake law _
  store _ _ _ _ _ h := h
  forget _ _ _ h := h
  clean _ _ h := h
  countLeg _ _ _ _ _ h := h.takeMirror law _
  countError _ _ _ _ _ h := h.takeMirror law _
  copyStep _ _ h := h.takeMirror law _
  beginReset _ _ _ := ⟨law.blank _, fun _ _ hi => nomatch hi⟩
  release _ _ h _ := h
  nextAttempt _ _ _ h _ := h
  enterTransparent _ _ h _ := h
  enterRunning s _ _ _ a b _ _ hl := State.DoorLaw.enterRunning law s a b hl
  ready _ h := h
  freePort _ h := h
  reloadFault _ _ h := ⟨h.1, fun _ _ hi => nomatch hi⟩
  hold _ _ _ h hl := ⟨h.1, fun _ _ hi => by cases hi; exact owned_of_loadAttempt hl⟩
  applyNow _ _ _ _ _ hl _ := State.DoorLaw.applyImage law 1 (fun _ => owned_of_loadAttempt hl) fun _ hi => nomatch hi
  applyHeld _ _ h hp _ := State.DoorLaw.applyImage law 2 (fun ho => h.2 ho _ hp) fun _ hi => nomatch hi
  debounce _ d n h := h.doorTake law (law.debounceExpiry h.1 d n)
  freshness _ d h := h.doorTake law (law.freshnessExpiry h.1 d)
  grant _ g h := h.doorTake law (law.grantGroup h.1 g)
  prewarn _ d h := h.doorTake law (law.prewarnExpiry h.1 d)
  travel _ d _ _ _ _ h _ _ := h.doorTake law (law.travelExpiry h.1 d)
  reclose _ _ _ _ h _ _ := h.doorTake law (law.steadily h.1 fun hf => Yard.steady_rest hf _)
  trip _ d _ h _ _ := h.doorTake law (law.trip h.1 d)
  retry _ _ _ _ h _ _ := h.doorTake law (law.steadily h.1 fun hf => Yard.steady_motionRequest hf _ _)
  settle _ d h := h.doorTake law (h.1.modify d fun _ hx => law.settle hx)
  lapse _ _ _ h hr := h.lapse law (by rw [hr]; rfl)
  transferExpiry _ h := by
    unfold State.takeTransferExpiry
    split
    · exact h.congr law rfl rfl rfl rfl
    · exact h
  phase _ h := h

end

/-! ## The trip count (R56) -/

theorem Door.counts_of_eq {limit : Nat} {x z : Door} (ht : z.prot.tripCount = x.prot.tripCount)
    (hi : z.inhibit = x.inhibit) (h : x.Counts limit) : z.Counts limit := by
  unfold Door.Counts
  rw [ht, hi]
  exact h

theorem Door.counts_countTrip {e : Env} {x : Door} (h : x.Counts e.times.retryLimit) :
    (x.countTrip e).Counts e.times.retryLimit := by
  obtain ⟨below, latched⟩ := h
  by_cases hl : x.inhibit = .latched
  · have count := latched.mpr hl
    simp [Door.Counts, Door.countTrip, Door.tripLatches, Door.trippedCount, hl, count]
  · have less : x.prot.tripCount < e.times.retryLimit + 1 := Nat.lt_of_le_of_ne below (mt latched.mp hl)
    simp only [Door.Counts, Door.countTrip, Door.tripLatches, Door.trippedCount, hl, if_false, decide_eq_true_eq]
    refine ⟨less, fun hc => by rw [if_pos (by omega)], fun hi => ?_⟩
    split at hi
    · omega
    · exact absurd hi hl

theorem Inhibit.stall_eq_latched {i : Inhibit} : i.stall = .latched ↔ i = .latched := by
  cases i <;> simp [Inhibit.stall]

/-- R56: the trip count's law. -/
theorem Door.law_counts : Door.Law False fun e x => x.Counts e.times.retryLimit where
  congr ht _ h := by rw [ht]; exact h
  setRole _ _ h := h
  settled h _ _ := h
  steady hs h := Door.counts_of_eq hs.tripCount hs.inhibit h
  alarms _ h := h
  observed _ _ h := h
  stopFreshness h := h
  loseSight h := h
  forgetReports {_ x} h := Door.counts_of_eq (x := x) (by
    unfold Door.forgetReports Door.positionLost
    split <;> rfl) rfl h
  prot hp h := Door.counts_of_eq hp rfl h
  countTrip h := Door.counts_countTrip h
  stall h := ⟨h.1, h.2.trans Inhibit.stall_eq_latched.symm⟩
  settle {_ x} h := by
    obtain ⟨below, latched⟩ := h
    by_cases hi : x.inhibit = .none
    · simp [Door.Counts, hi]
    · simp only [Door.Counts, hi, if_false]
      exact ⟨below, latched⟩
  clear _ := ⟨Nat.zero_le _, nofun, nofun⟩

/-! ## The owner and the position (R1, R4) -/

theorem Env.positionOf_unseen (e : Env) {x : Door} (h : x.inp.stale = true ∨ x.inp.reported = false) :
    e.positionOf x = .unknown := by
  rcases h with h | h <;> simp [Env.positionOf, derivePosition, h]

theorem Env.setRole_authorized {e : Env} {m : Master} {r : Role} {x : Door} (hx : x.owner ≠ some m) :
    (e.setRole m r).authorized x = e.authorized x := by
  unfold Env.authorized
  split
  · next k hk => rw [Env.setRole_role, if_neg fun h : k = m => hx (h ▸ hk)]
  · rfl

/-- R4: a master's role changes no position but of the doors that it owns, and can see. -/
theorem Env.setRole_positionOf {e : Env} {m : Master} {r : Role} {x : Door}
    (hx : x.owner = some m → x.inp.stale = true ∨ x.inp.reported = false) :
    (e.setRole m r).positionOf x = e.positionOf x := by
  by_cases ho : x.owner = some m
  · rw [Env.positionOf_unseen _ (hx ho), Env.positionOf_unseen _ (hx ho)]
  · simp only [Env.positionOf, Env.setRole_authorized ho]

/-- R1, R4: the owner's and the position's law. -/
theorem Door.law_position : Door.Law True fun e x => x.Owned e ∧ x.position = e.positionOf x where
  congr {e e' x} _ hm h := by
    have position : e'.positionOf x = e.positionOf x := by simp only [Env.positionOf, Env.authorized, hm]
    exact ⟨fun m ho => by rw [hm]; exact h.1 m ho, h.2.trans position.symm⟩
  setRole {e x m r} hr hx h := by
    refine ⟨fun k hk => ?_, h.2.trans (Env.setRole_positionOf fun ho => hx ho (hr.trans (h.1 m ho))).symm⟩
    rw [Env.setRole_role]
    split
    · next hkm => rw [hr, ← hkm]; exact h.1 k hk
    · exact h.1 k hk
  settled _ ho hp := ⟨ho trivial, hp⟩
  steady {e x z} hs h := by
    refine ⟨fun m ho => h.1 m (by rwa [Door.owner, hs.static] at ho), ?_⟩
    rcases hs.sight with ⟨inputs, position⟩ | ⟨-, stale, unknown⟩
    · rw [position, h.2, Env.positionOf_congr e hs.static inputs]
    · rw [unknown, Env.positionOf_unseen e (.inl stale)]
  alarms _ h := h
  observed _ _ h := ⟨h.1, rfl⟩
  stopFreshness h := h
  loseSight h := h
  forgetReports h := ⟨h.1, (Env.positionOf_unseen _ (.inr rfl)).symm⟩
  prot _ h := h
  countTrip h := h
  stall h := h
  settle h := h
  clear h := h

/-! ## The obligation -/

theorem State.tripLawful_iff {s : State} :
    s.tripLawful ↔ s.DoorLaw False fun e x => x.Counts e.times.retryLimit :=
  ⟨fun h => ⟨h, False.elim⟩, fun h => h.1⟩

theorem State.positionLawful_iff {s : State} :
    s.positionLawful ↔ s.DoorLaw True fun e x => x.Owned e ∧ x.position = e.positionOf x :=
  ⟨fun h => ⟨h.1, fun _ => h.2⟩, fun h => ⟨h.1, h.2 trivial⟩⟩

/-- Settles O58: each of the three laws is one that every take of the part keeps; the trip count's and the position's are
laws of each door's record under its surroundings. -/
theorem commandTripAndPositionLaws : Obligations.CommandTripAndPositionLaws :=
  ⟨fun s t h hs => State.commandLawful_iff.mpr (State.kept_commanded.step s t (State.commandLawful_iff.mp h) hs),
    fun s t h hs => State.tripLawful_iff.mpr (Door.law_counts.kept.step s t (State.tripLawful_iff.mp h) hs),
    fun s t h hs => State.positionLawful_iff.mpr (Door.law_position.kept.step s t (State.positionLawful_iff.mp h) hs)⟩

end Sys2Proof.Machine
end

section
/-! SUPPORT. Changes of the holder and ends of transfers (R87), with what they record; the timers of stations, of the lines
and of the meters. -/

namespace Sys2Proof.Machine

/-! ## What a change of command records (R87) -/

theorem fieldAt_zero (v : Nat) : fieldAt v 0 = BitVec.ofNat 16 v := BitVec.shiftLeft_zero _

/-- Two bytes of a word. -/
theorem fieldAt_bytes {low : Nat} (hl : low < 256) (high : Nat) :
    fieldAt low 0 ||| fieldAt high 8 = BitVec.ofNat 16 (low + 256 * high) := by
  have halves : low + 256 * high = 2 ^ 8 * high ||| low := by
    rw [← Nat.two_pow_add_eq_or_of_lt (i := 8) hl high]
    omega
  have high_half : fieldAt high 8 = BitVec.ofNat 16 (2 ^ 8 * high) := by
    refine BitVec.eq_of_toNat_eq ?_
    simp only [fieldAt, BitVec.toNat_shiftLeft, BitVec.toNat_ofNat, Nat.shiftLeft_eq]
    omega
  rw [fieldAt_zero, high_half, halves, BitVec.ofNat_or, BitVec.or_comm]

theorem holderCode_lt (h : Option Master) : holderCode h < 256 := by
  cases h with
  | none => decide
  | some m => exact Nat.lt_trans m.isLt (by decide)

theorem State.entryOf_ofMaster (s : State) (kind : Nat) (m : Master) (addr : Addr) (detail data : Nat) :
    s.entryOf (Capture.ofMaster kind m addr detail (BitVec.ofNat 16 data)) =
      s.entryNow kind m.val addr detail data := rfl

section

variable (s : State)

theorem State.changeHolder_part (new : Option Master) (detail : Nat) :
    s.changeHolder .part new detail = { s with
      command := { s.command with holder := new, transfer := none }
      ring := s.ring.push (s.entryNow 17 15 0 detail (holderCode new + 256 * holderCode s.command.holder)) } := by
  unfold State.changeHolder
  rw [fieldAt_bytes (holderCode_lt new)]
  rfl

theorem State.changeHolder_order (m : Master) (addr : Addr) (new : Option Master) (detail : Nat) :
    s.changeHolder (.order m addr) new detail = { s with
      command := { s.command with holder := new, transfer := none }
      ring := s.ring.push
        (s.entryNow 17 m.val addr detail (holderCode new + 256 * holderCode s.command.holder)) } := by
  unfold State.changeHolder
  rw [fieldAt_bytes (holderCode_lt new)]
  rfl

theorem State.endTransfer_part (requester : Master) (detail : Nat) :
    s.endTransfer .part requester detail = { s with
      command := { s.command with transfer := none }
      ring := s.ring.push (s.entryNow 18 15 0 detail requester.val) } := by
  unfold State.endTransfer
  rw [fieldAt_zero]
  rfl

theorem State.endTransfer_order (m : Master) (addr : Addr) (requester : Master) (detail : Nat) :
    s.endTransfer (.order m addr) requester detail = { s with
      command := { s.command with transfer := none }
      ring := s.ring.push (s.entryNow 18 m.val addr detail requester.val) } := by
  unfold State.endTransfer
  rw [fieldAt_zero]
  rfl

/-! ## A lapse (R90) -/

theorem State.lapseFirst_eq (m : Master) :
    s.lapseFirst m = { s with
      masters := setAt s.masters m { role := .station none, behaviour := (s.masters.get m).behaviour }
      ring := s.ring.push (s.entryNow 16 15 0 (s.lapseDetail m) m.val) } := by
  unfold State.lapseFirst
  rw [fieldAt_zero]
  rfl

end

section

variable {s : State} {m : Master}

theorem State.lapseDetail_holder (h : s.command.holder = some m) : s.lapseDetail m = 1 := if_pos h

theorem State.lapseDetail_requester {p : Transfer} (h : s.command.holder ≠ some m) (ht : s.command.transfer = some p)
    (hp : p.requester = m) : s.lapseDetail m = 2 := by
  simp [State.lapseDetail, h, ht, hp]

theorem State.lapseDetail_neither (h : s.command.holder ≠ some m)
    (ht : ∀ p, s.command.transfer = some p → p.requester ≠ m) : s.lapseDetail m = 0 := by
  unfold State.lapseDetail
  rw [if_neg h, if_neg fun hm => ?_]
  obtain ⟨p, hp, hr⟩ := Option.map_eq_some_iff.mp hm
  exact ht p hp hr

/-- A station that neither holds command nor asks for it. -/
theorem State.lapse_neither (h : s.command.holder ≠ some m)
    (ht : ∀ p, s.command.transfer = some p → p.requester ≠ m) : s.lapse m = s.lapseFirst m := by
  rw [State.lapse_eq]
  split
  · next p hp => rw [if_neg (ht p hp), if_neg h]
  · rw [if_neg h]

theorem State.lapse_requester {p : Transfer} (ht : s.command.transfer = some p) (hp : p.requester = m) :
    s.lapse m = (s.lapseFirst m).endTransfer .part m 4 := by
  rw [State.lapse_eq, ht]
  exact if_pos hp

theorem State.lapse_holder (h : s.command.holder = some m) (ht : s.command.transfer = none) :
    s.lapse m = (s.lapseFirst m).changeHolder .part none 5 := by
  rw [State.lapse_eq, ht]
  exact if_pos h

theorem State.lapse_handsOn {p : Transfer} (h : s.command.holder = some m) (ht : s.command.transfer = some p)
    (hp : p.requester ≠ m) : s.lapse m = (s.lapseFirst m).changeHolder .part (some p.requester) 6 := by
  rw [State.lapse_eq, ht]
  exact (if_neg hp).trans (if_pos h)

/-! ## The expiries -/

theorem exec_heartbeatExpiry {start : Nat} (hr : s.role m = .station (some start))
    (hd : start + s.times.heartbeat ≤ s.clock) : exec (.heartbeatExpiry m) s = .next (s.lapse m) := by
  have timer := State.heartbeatAt_eq_some.mpr ⟨start, hr, rfl⟩
  calc exec (.heartbeatExpiry m) s
      = .next (s.atExpiry (s.heartbeatAt m) (·.lapse m)) := rfl
    _ = .next (s.lapse m) := by rw [timer, State.atExpiry_due hd]

theorem exec_transferTimerExpiry {p : Transfer} (ht : s.command.transfer = some p)
    (hd : p.start + s.times.transfer ≤ s.clock) :
    exec .transferTimerExpiry s = .next (s.endTransfer .part p.requester 3) := by
  have timer := State.transferAt_eq_some.mpr ⟨p, ht, rfl⟩
  have take : s.takeTransferExpiry = s.endTransfer .part p.requester 3 := by
    unfold State.takeTransferExpiry
    rw [ht]
  calc exec .transferTimerExpiry s
      = .next (s.atExpiry s.transferAt State.takeTransferExpiry) := rfl
    _ = .next (s.endTransfer .part p.requester 3) := by rw [timer, State.atExpiry_due hd, take]

/-- R111: the other phase, where the pattern has an off phase. -/
theorem GeneralAlarm.nextPhase_flashing (p : Bool) (e clock : Nat) (t : Timing) :
    (GeneralAlarm.flashing p e).nextPhase clock t =
      if p = true ∧ 0 < t.flashPeriod - t.flashOn then .flashing false (clock + (t.flashPeriod - t.flashOn))
      else .flashing true (clock + t.flashOn) := by
  cases p with
  | false => rfl
  | true =>
    simp only [GeneralAlarm.nextPhase, true_and, Nat.sub_pos_iff_lt]
    split
    · next h => rw [if_neg (Nat.not_lt.mpr h)]
    · next h => rw [if_pos (Nat.not_le.mp h)]

theorem exec_flashPhaseExpiry {p : Bool} {e : Nat} (ha : s.lines.generalAlarm = .flashing p e) (hd : e ≤ s.clock) :
    exec .flashPhaseExpiry s = .next s.takePhase := by
  have timer := GeneralAlarm.phaseAt_eq_some.mpr ⟨p, ha⟩
  calc exec .flashPhaseExpiry s
      = .next (s.atExpiry s.lines.generalAlarm.phaseAt State.takePhase) := rfl
    _ = .next s.takePhase := by rw [timer, State.atExpiry_due hd]

theorem exec_refillInstant {k : Fin 8} (hr : 0 < (s.meters.get k).rate)
    (hd : (s.meters.get k).start + 10 * ((s.meters.get k).refills + 1) / (s.meters.get k).rate ≤ s.clock) :
    exec (.refillInstant k) s = .next (s.setMeter k (s.meters.get k).refill) := by
  have timer := Meter.refillAt_eq_some.mpr ⟨hr, rfl⟩
  calc exec (.refillInstant k) s
      = .next (s.atExpiry (s.meters.get k).refillAt fun t => t.setMeter k (t.meters.get k).refill) := rfl
    _ = .next (s.setMeter k (s.meters.get k).refill) := by rw [timer, State.atExpiry_due hd]

end

/-- Settles O55. -/
theorem stationLineAndMeterTimersExpire : Obligations.StationLineAndMeterTimersExpire := by
  refine ⟨fun s m start hr hd => ?_, fun s p ht hd => ?_, fun s p e ha hd => ?_, fun s k hr hd => ?_⟩
  · have first := s.lapseFirst_eq m
    rw [exec_heartbeatExpiry hr hd]
    refine ⟨fun h ht => ?_, fun p h ht hp => ?_, fun h ht => ?_, fun p h ht hp => ?_⟩
    · rw [State.lapse_neither h ht, first, State.lapseDetail_neither h ht]
    · rw [State.lapse_requester ht hp, State.endTransfer_part, first, State.lapseDetail_requester h ht hp]
      rfl
    · rw [State.lapse_holder h ht, State.changeHolder_part, first, State.lapseDetail_holder h]
      simp only [h, ht, holderCode]
      rfl
    · rw [State.lapse_handsOn h ht hp, State.changeHolder_part, first, State.lapseDetail_holder h]
      simp only [h, holderCode]
      rfl
  · rw [exec_transferTimerExpiry ht hd, State.endTransfer_part]
  · rw [exec_flashPhaseExpiry ha hd]
    unfold State.takePhase
    rw [ha, GeneralAlarm.nextPhase_flashing]
  · rw [exec_refillInstant hr hd]
    rfl

end Sys2Proof.Machine
end

section
/-! SUPPORT. TRANSFER (R91 to R93): the word of an order, and each kind against the holder and the pending record. -/

namespace Sys2Proof.Machine

/-! ## The word -/

theorem transferKindOf_eq_none {w : Word} (h : w = 0 ∨ 5 < w.toNat) : transferKindOf w = none := by
  have other : ∀ k : Word, 0 < k.toNat → k.toNat ≤ 5 → w ≠ k := fun k low high hw => by
    rcases h with h | h
    · rw [← hw, h] at low
      exact absurd low (by decide)
    · rw [hw] at h
      omega
  simp [transferKindOf, other]

/-- Bits 15 to 3 must be clear. -/
theorem five_lt_of_rest {rest : BitVec 13} {n : BitVec 3} (h : rest ≠ 0) : 5 < (rest ++ n : Word).toNat := by
  have pos : 0 < rest.toNat := Nat.pos_of_ne_zero fun hz => h (BitVec.eq_of_toNat_eq (by simpa using hz))
  have shifted : rest.toNat <<< 3 ≤ (rest ++ n : Word).toNat := by
    rw [BitVec.toNat_append]
    exact Nat.left_le_or
  rw [Nat.shiftLeft_eq] at shifted
  omega

/-! ## Each kind -/

section

variable {s : State} {m : Master} {addr : Addr} {w : Word}

theorem State.takeTransfer_writer (h : (s.role m).isStation = false) : s.takeTransfer m addr w = .refused .writer := by
  simp [State.takeTransfer, h]

theorem State.takeTransfer_value (h : (s.role m).isStation = true) (hw : transferKindOf w = none) :
    s.takeTransfer m addr w = .refused .badValue := by
  simp [State.takeTransfer, h, hw]

/-- R91: the take of each kind. -/
def State.takeKind (s : State) (m : Master) (addr : Addr) : TransferKind → OrderResult
  | .request => s.takeRequest m addr
  | .accept => s.takeAccept m addr
  | .decline => s.takeDecline m addr
  | .cancel => s.takeCancel m addr
  | .relinquish => s.takeRelinquish m addr

theorem State.takeTransfer_kind {k : TransferKind} (h : (s.role m).isStation = true) (hw : transferKindOf w = some k) :
    s.takeTransfer m addr w = s.takeKind m addr k := by
  cases k <;> simp [State.takeTransfer, State.takeKind, h, hw]

theorem State.takeRequest_vacant (h : s.command.holder = none) :
    s.takeRequest m addr = .taken (s.changeHolder (.order m addr) (some m) 1) := by
  simp [State.takeRequest, h]

theorem State.takeRequest_holder (h : s.command.holder = some m) : s.takeRequest m addr = .refused .state := by
  unfold State.takeRequest
  rw [h]
  split
  · contradiction
  · next k hk _ => exact if_pos (Option.some.inj hk).symm
  · rfl

theorem State.takeRequest_pending (h : s.command.holder ≠ none) (ht : s.command.transfer ≠ none) :
    s.takeRequest m addr = .refused .state := by
  unfold State.takeRequest
  split
  · contradiction
  · contradiction
  · rfl

theorem State.takeRequest_asks (h : s.command.holder ≠ none) (hm : s.command.holder ≠ some m)
    (ht : s.command.transfer = none) : s.takeRequest m addr = .taken { s with
      command := { s.command with transfer := some { requester := m, start := s.clock } } } := by
  unfold State.takeRequest
  split
  · contradiction
  · next k hk _ => exact if_neg fun hkm : k = m => hm (hkm ▸ hk)
  · next hp => exact absurd (hp.symm.trans ht) nofun

theorem State.takeAccept_hands {p : Transfer} (h : s.command.holder = some m) (ht : s.command.transfer = some p) :
    s.takeAccept m addr = .taken (s.changeHolder (.order m addr) (some p.requester) 2) := by
  simp [State.takeAccept, h, ht]

theorem State.takeAccept_refused (h : s.command.holder ≠ some m ∨ s.command.transfer = none) :
    s.takeAccept m addr = .refused .state := by
  unfold State.takeAccept
  split
  · next hp => exact if_neg (h.resolve_right fun hn => nomatch hn.symm.trans hp)
  · rfl

theorem State.takeDecline_ends {p : Transfer} (h : s.command.holder = some m) (ht : s.command.transfer = some p) :
    s.takeDecline m addr = .taken (s.endTransfer (.order m addr) p.requester 1) := by
  simp [State.takeDecline, h, ht]

theorem State.takeDecline_refused (h : s.command.holder ≠ some m ∨ s.command.transfer = none) :
    s.takeDecline m addr = .refused .state := by
  unfold State.takeDecline
  split
  · next hp => exact if_neg (h.resolve_right fun hn => nomatch hn.symm.trans hp)
  · rfl

theorem State.takeCancel_ends {p : Transfer} (ht : s.command.transfer = some p) (hp : p.requester = m) :
    s.takeCancel m addr = .taken (s.endTransfer (.order m addr) m 2) := by
  simp [State.takeCancel, ht, hp]

theorem State.takeCancel_refused (h : ∀ p, s.command.transfer = some p → p.requester ≠ m) :
    s.takeCancel m addr = .refused .state := by
  unfold State.takeCancel
  split
  · next p hp => exact if_neg (h p hp)
  · rfl

theorem State.takeRelinquish_vacates (h : s.command.holder = some m) (ht : s.command.transfer = none) :
    s.takeRelinquish m addr = .taken (s.changeHolder (.order m addr) none 3) := by
  simp [State.takeRelinquish, h, ht]

theorem State.takeRelinquish_hands {p : Transfer} (h : s.command.holder = some m) (ht : s.command.transfer = some p) :
    s.takeRelinquish m addr = .taken (s.changeHolder (.order m addr) (some p.requester) 4) := by
  simp [State.takeRelinquish, h, ht]

theorem State.takeRelinquish_refused (h : s.command.holder ≠ some m) : s.takeRelinquish m addr = .refused .state :=
  if_neg h

/-- R91: what the part answers, by the take of the order's kind. -/
theorem exec_transfer_taken {t : State} {k : TransferKind} {c : Instr}
    (hc : exec c s = .next (s.arrive (wordWrite m addr w)))
    (h : ReachesOrder s m addr w 8 ∧ (s.role m).isStation = true) (hw : transferKindOf w = some k)
    (ht : s.takeKind m addr k = .taken t) : exec c s = .next (t.forwardOrder m addr w) :=
  exec_order_taken hc h.1 ((State.takeTransfer_kind h.2 hw).trans ht)

theorem exec_transfer_refused {k : TransferKind} {c : Instr}
    (hc : exec c s = .next (s.arrive (wordWrite m addr w)))
    (h : ReachesOrder s m addr w 8 ∧ (s.role m).isStation = true) (hw : transferKindOf w = some k)
    (hr : s.takeKind m addr k = .refused .state) : exec c s = .next (s.refuseOrder m addr w 3) :=
  exec_order_refused hc h.1 ((State.takeTransfer_kind h.2 hw).trans hr)

end

/-- Settles O51. -/
theorem transferOrders : Obligations.TransferOrders := by
  intro s m addr
  refine ⟨fun rest c n hc h => ?_, fun w h hs hw => exec_order_refused rfl h
    (State.takeTransfer_value hs (transferKindOf_eq_none hw)), fun h => ?_, fun h => ?_, fun h => ?_, fun h => ?_,
    fun h => ?_⟩
  · have arrives : exec c s = .next (s.arrive (wordWrite m addr (rest ++ n))) := by
      simp only [List.mem_cons, Prod.mk.injEq, List.not_mem_nil, or_false] at hc
      rcases hc with ⟨rfl, rfl⟩ | ⟨rfl, rfl⟩ | ⟨rfl, rfl⟩ | ⟨rfl, rfl⟩ | ⟨rfl, rfl⟩ <;> rfl
    exact ⟨fun hs => exec_order_refused arrives h (State.takeTransfer_writer hs), fun hs hr =>
      exec_order_refused arrives h (State.takeTransfer_value hs (transferKindOf_eq_none (.inr (five_lt_of_rest hr))))⟩
  · refine ⟨fun hn => ?_, fun hm => ?_, fun hn hm => ⟨fun hp => ?_, fun hp => ?_⟩⟩
    · have taken := State.takeRequest_vacant (m := m) (addr := addr) hn
      rw [State.changeHolder_order, hn] at taken
      rw [hn]
      exact exec_transfer_taken (k := .request) rfl h rfl taken
    · exact exec_transfer_refused (k := .request) rfl h rfl (State.takeRequest_holder hm)
    · exact exec_transfer_refused (k := .request) rfl h rfl (State.takeRequest_pending hn hp)
    · exact exec_transfer_taken (k := .request) rfl h rfl (State.takeRequest_asks hn hm hp)
  · refine ⟨fun p hm hp => ?_, fun hr => exec_transfer_refused (k := .accept) rfl h rfl (State.takeAccept_refused hr)⟩
    have taken := State.takeAccept_hands (addr := addr) hm hp
    rw [State.changeHolder_order, hm] at taken
    rw [hm]
    exact exec_transfer_taken (k := .accept) rfl h rfl taken
  · refine ⟨fun p hm hp => ?_, fun hr => exec_transfer_refused (k := .decline) rfl h rfl (State.takeDecline_refused hr)⟩
    have taken := State.takeDecline_ends (addr := addr) hm hp
    rw [State.endTransfer_order] at taken
    exact exec_transfer_taken (k := .decline) rfl h rfl taken
  · refine ⟨fun p hp hm => ?_, fun hr => exec_transfer_refused (k := .cancel) rfl h rfl (State.takeCancel_refused hr)⟩
    have taken := State.takeCancel_ends (addr := addr) hp hm
    rw [State.endTransfer_order] at taken
    exact exec_transfer_taken (k := .cancel) rfl h rfl taken
  · refine ⟨fun hm hp => ?_, fun p hm hp => ?_, fun hm =>
      exec_transfer_refused (k := .relinquish) rfl h rfl (State.takeRelinquish_refused hm)⟩
    · have taken := State.takeRelinquish_vacates (addr := addr) hm hp
      rw [State.changeHolder_order, hm] at taken
      rw [hm]
      exact exec_transfer_taken (k := .relinquish) rfl h rfl taken
    · have taken := State.takeRelinquish_hands (addr := addr) hm hp
      rw [State.changeHolder_order, hm] at taken
      rw [hm]
      exact exec_transfer_taken (k := .relinquish) rfl h rfl taken

end Sys2Proof.Machine
end

section
/-! SUPPORT. The takes in which doors leave their groups and none joins (R71, R75): one door after another. -/

namespace Sys2Proof.Machine

/-- The take of one door, of record `x`, in which it waits in a queue only where it waited so before. -/
structure Yard.Leaves (d : Nat) (x z : Door) (y y' : Yard) : Prop where
  takes : Yard.Takes d x z y y'
  calm : Yard.Calm d y y'
  waits : z.drive.isQueued = true → z.drive = x.drive

/-- The group's record that `DoorsLeave` gives. -/
def doorsLeft (s t : State) (g : GroupNum) : Group :=
  let r := s.yard.groups.get g
  { slotCount := r.slotCount, holders := r.holders.filter t.slotted, queue := r.queue.filter t.waiting }

theorem doorsLeave_iff {s t : State} : DoorsLeave s t ↔ ∀ g, t.yard.groups.get g = doorsLeft s t g := Iff.rfl

theorem doorsLeave_refl {s : State} (hl : s.yard.arbiterLawful) : DoorsLeave s s := fun g => by
  have holders : (s.yard.groups.get g).holders.filter s.slotted = (s.yard.groups.get g).holders :=
    List.filter_eq_self.mpr fun k hk => by
      obtain ⟨x, hx, -, hs⟩ := (hl.holders g k).mp hk
      rw [State.slotted_eq hx, hs]
  have queue : (s.yard.groups.get g).queue.filter s.waiting = (s.yard.groups.get g).queue :=
    List.filter_eq_self.mpr fun k hk => by
      obtain ⟨x, hx, -, hq⟩ := (hl.queue g k).mp hk
      rw [State.waiting_eq hx, hq]
  simp only [holders, queue]

section

variable {s : State} {y y' : Yard} {d : Nat} {x z : Door}

/-- Where a door's part in a list stands or ends, the list is filtered afresh. -/
theorem filter_ends {l : List Nat} {p q : Nat → Bool} (hother : ∀ k, k ≠ d → q k = p k) (hd : q d = true → p d = true) :
    l.filter q = if q d then l.filter p else (l.filter p).filter (· != d) := by
  split
  · next here =>
    refine List.filter_congr fun k _ => ?_
    by_cases hk : k = d
    · rw [hk, here, hd here]
    · exact hother k hk
  · next here =>
    rw [List.filter_filter]
    refine List.filter_congr fun k _ => ?_
    by_cases hk : k = d
    · simp [hk, here]
    · simp [hk, hother k hk]

/-- R71, R75: the take of one door keeps the law of such a take. -/
theorem Yard.Leaves.doorsLeave (h : Yard.Leaves d x z y y') (hls : s.yard.arbiterLawful) (hly : y.arbiterLawful)
    (static : Yard.StaticKept s.yard y) (hx : y.doors[d]? = some x) (prev : DoorsLeave s (s.setYard y)) :
    DoorsLeave s (s.setYard y') := by
  refine doorsLeave_iff.mpr fun g => ?_
  have before : y.groups.get g = doorsLeft s (s.setYard y) g := doorsLeave_iff.mp prev g
  have other : ∀ k, k ≠ d → (s.setYard y').slotted k = (s.setYard y).slotted k ∧
      (s.setYard y').waiting k = (s.setYard y).waiting k := fun k hk =>
    have lists := State.lists_congr (s := s.setYard y) (t := s.setYard y') (h.takes.others k hk)
    ⟨lists.1, lists.2.1⟩
  have slotted : (s.setYard y').slotted d = z.drive.hasSlot := State.slotted_eq h.takes.door
  have waiting : (s.setYard y').waiting d = z.drive.isQueued := State.waiting_eq h.takes.door
  have was_slotted : (s.setYard y).slotted d = x.drive.hasSlot := State.slotted_eq hx
  have was_waiting : (s.setYard y).waiting d = x.drive.isQueued := State.waiting_eq hx
  by_cases hg : x.st.cls = .powered g
  · have group := h.takes.group g hg (hly.shows hx hg)
    refine group.trans (Group.eq_of (by rw [before]; rfl) ?_ ?_)
    · simp only [Yard.followed, before, doorsLeft]
      rw [filter_ends (q := (s.setYard y').slotted) (fun k hk => (other k hk).1)
        (by rw [slotted, was_slotted]; exact h.takes.slot), slotted]
    · simp only [Yard.followed, before, doorsLeft]
      rw [filter_ends (q := (s.setYard y').waiting) (fun k hk => (other k hk).2)
        (by rw [waiting, was_waiting]; exact fun hq => h.waits hq ▸ hq), waiting]
      split
      · next hq => simp [h.waits hq ▸ hq, h.waits hq]
      · rfl
  · have outside : ∀ k w, s.door? k = some w → w.st.cls = .powered g → k ≠ d := fun k w hw hc hk => by
      have same := static d
      rw [← hk, show s.yard.doors[k]? = some w from hw, hk, hx] at same
      exact hg (by rw [Door.st_congr (Option.some.inj same)]; exact hc)
    refine (h.calm.groups g fun w hw => (Option.some.inj (hx.symm.trans hw)) ▸ hg).trans (before.trans ?_)
    refine Group.eq_of rfl (List.filter_congr fun k hk => ?_) (List.filter_congr fun k hk => ?_)
    · obtain ⟨w, hw, hc, -⟩ := (hls.holders g k).mp hk
      exact (other k (outside k w hw hc)).1.symm
    · obtain ⟨w, hw, hc, -⟩ := (hls.queue g k).mp hk
      exact (other k (outside k w hw hc)).2.symm

end

/-- R71, R75: such takes of the doors of a list. -/
theorem DoorsLeave.foldl {s : State} {f : Yard → Nat → Yard} (hl : s.yard.arbiterLawful)
    (hlaw : ∀ y d, y.arbiterLawful → (f y d).arbiterLawful)
    (hc : ∀ y d x, y.doors[d]? = some x → ∃ z, Yard.Leaves d x z y (f y d)) {l : List Nat}
    (hin : ∀ d ∈ l, d < s.doorCount) : DoorsLeave s (s.setYard (l.foldl f s.yard)) := by
  have kept : (l.foldl f s.yard).arbiterLawful ∧ Yard.StaticKept s.yard (l.foldl f s.yard) ∧
      DoorsLeave s (s.setYard (l.foldl f s.yard)) := by
    refine List.foldlRecOn (motive := fun y => y.arbiterLawful ∧ Yard.StaticKept s.yard y ∧ DoorsLeave s (s.setYard y))
      _ _ ⟨hl, fun _ => rfl, doorsLeave_refl hl⟩ fun y ⟨lawful, static, leave⟩ d hd => ?_
    obtain ⟨x, hx⟩ : ∃ x, y.doors[d]? = some x := by
      have there : s.yard.doors[d]? = some _ := List.getElem?_eq_getElem (hin d hd)
      have same := static d
      rw [there] at same
      obtain ⟨x, hx, -⟩ := Option.map_eq_some_iff.mp same
      exact ⟨x, hx⟩
    obtain ⟨z, leaves⟩ := hc y d x hx
    exact ⟨hlaw y d lawful, fun k => (leaves.calm.staticKept k).trans (static k),
      leaves.doorsLeave hl lawful static hx leave⟩
  exact kept.2.2

theorem DoorsLeave.endTake {s t : State} (b : Yard) (h : DoorsLeave s t) : DoorsLeave s (t.endTake b) := by
  refine doorsLeave_iff.mpr fun g => (doorsLeave_iff.mp h g).trans ?_
  obtain ⟨slotted, lists⟩ := forall_and.mp (State.endTake_lists b t)
  obtain ⟨waiting, -⟩ := forall_and.mp lists
  unfold doorsLeft
  rw [funext slotted, funext waiting]

/-! ## A door that loses sight (R14, R18) -/

section

variable {y : Yard} {e : Env} {d : Nat} {x : Door}

/-- R14: the input part of a door that becomes stale. -/
def InputPart.goneStale (i : InputPart) : InputPart := { i.loseSight with stale := true, freshness := none }

/-- A change of drive state of a door whose LO is clear and whose position is UNKNOWN: it becomes stale, or does not. -/
theorem Yard.changeDrive_unseen {new : Drive} {c : Bool} (hx : y.doors[d]? = some x)
    (hlo : x.inp.debounced.lo = false) (hp : x.position = .unknown) :
    ∃ i, (y.changeDrive e d new c).doors[d]? =
        some { x with drive := new, inp := i, prot := x.prot.runTake e x.drive new c } ∧
      (i = x.inp ∨ i = x.inp.goneStale) ∧ (x.inp.within e.clock (e.freshnessLimit new) → i = x.inp) := by
  by_cases hw : x.drive.bound = new.bound ∨ x.inp.within e.clock (e.freshnessLimit new)
  · exact ⟨x.inp, Yard.changeDrive_within_door hx hw, .inl rfl, fun _ => rfl⟩
  · obtain ⟨bound, within⟩ := not_or.mp hw
    have driven : ((y.modify d fun z => { z with drive := new }).arbiterTake d x x.drive new).doors[d]? =
        some { x with drive := new } := by
      rw [Yard.arbiterTake_doors, Yard.modify_get_same, hx]; rfl
    unfold Yard.changeDrive
    simp only [hx]
    rw [if_neg bound, Yard.runTake_eq, Yard.modify_get_same]
    rcases Yard.judgeFreshness_quiet (e := e) driven (.inl hlo) with hj | ⟨-, hj⟩
    · exact ⟨x.inp, by rw [hj, driven]; rfl, .inl rfl, fun h => absurd h within⟩
    · refine ⟨x.inp.goneStale, ?_, .inr rfl, fun h => absurd h within⟩
      rw [hj, Yard.modify_get_same, driven]
      simp [Door.gonestale, Door.positionLost, InputPart.goneStale, hlo, hp]

end

/-- What an LO fall leaves of a door that has lost sight. -/
structure Door.Blinded (s : State) (x z : Door) : Prop where
  record : ∃ i, z = { x with drive := sightlessFalls s x, hold := false, inp := i } ∧
    (i = x.inp ∨ i = x.inp.goneStale) ∧ (InTouch s x → i = x.inp)

/-- R39: the LO fall of a door whose LO is clear by then and whose position is UNKNOWN. -/
theorem Yard.loFall_unseen {y : Yard} (s : State) {d : Nat} {x : Door} (hx : y.doors[d]? = some x)
    (hlo : x.inp.debounced.lo = false) (hp : x.position = .unknown) :
    ∃ z, Yard.Leaves d x z y (y.loFall s.env d) ∧ Door.Blinded s x z := by
  have goes := loFallDrive_sightless s x
  have released : Yard.Takes d x { x with hold := false } y (y.modify d fun z => { z with hold := false }) :=
    Yard.takes_modify hx rfl rfl rfl
  have calm := Yard.calm_loFall y s.env d
  cases hn : loFallDrive s.env x with
  | none =>
    have stands : y.loFall s.env d = y.modify d fun z => { z with hold := false } := by
      simp [Yard.loFall, hx, hn]
    rw [hn, Option.getD_none] at goes
    rw [stands] at calm ⊢
    exact ⟨_, ⟨released, calm, fun _ => rfl⟩, ⟨x.inp, by rw [← goes], .inl rfl, fun _ => rfl⟩⟩
  | some new =>
    have changes : y.loFall s.env d =
        (y.modify d fun z => { z with hold := false }).changeDrive s.env d new false := by
      unfold Yard.loFall
      simp only [hx, hn]
      split
      · next h =>
        obtain rfl := Option.some.inj h
        exact Yard.rest_unenforced released.door (.inr (.inr (congrArg Position.standsOpen hp)))
      · next h =>
        obtain rfl := Option.some.inj h
        rfl
      · next h => cases h
    obtain ⟨idle_slot, idle_queue, -⟩ := loFallDrive_idle hn
    obtain ⟨was, is, -⟩ := loFallDrive_moves hn
    rw [hn, Option.getD_some] at goes
    obtain ⟨i, hz, input, within⟩ := Yard.changeDrive_unseen (e := s.env) (new := new) (c := false) released.door hlo hp
    have unrun : x.prot.runTake s.env x.drive new false = x.prot := by
      rw [Protection.runTake_moved, Protection.moved_same (was.trans is.symm)]
    rw [changes] at calm ⊢
    have falls := Yard.takes_plain (e := s.env) (c := false) released.door (.inr (.inr (.inl hlo)))
      (by rw [idle_slot]; exact nofun) hz rfl rfl
    refine ⟨_, ⟨released.trans falls (Drive.between_refl _ _), calm, fun hq => absurd (idle_queue.symm.trans hq) nofun⟩,
      ⟨i, ?_, input, fun touch => within ?_⟩⟩
    · simp only [unrun, ← goes]
    · unfold Env.freshnessLimit
      split
      · exact touch.1
      · exact touch.2

/-! ## The doors of a scanner that attaches (R98) -/

theorem Door.gonestale_prot (x : Door) :
    x.gonestale.prot = { x.prot with settle := if x.position = .closed then none else x.prot.settle } := by
  simp only [Door.gonestale, Door.positionLost, Protection.cancelSettle]
  split <;> rfl

/-- R14: what a door that becomes stale leaves, of its record and of its group. -/
theorem Yard.goStale_leaves {y : Yard} (s : State) {d : Nat} {x : Door} (hx : y.doors[d]? = some x) :
    ∃ z, Yard.Leaves d x z y (y.goStale s.env d) ∧ (x.inp.stale = true → z = x) ∧
      (x.inp.stale = false → z = { x.gonestale with drive := x.staleDrive s }) := by
  have calm := Yard.calm_goStale y s.env d
  cases hs : x.inp.stale with
  | true =>
    have stands : y.goStale s.env d = y := by simp [Yard.goStale, hx, hs]
    rw [stands] at calm ⊢
    exact ⟨x, ⟨Yard.takes_refl hx, calm, fun _ => rfl⟩, fun _ => rfl, nofun⟩
  | false =>
    obtain ⟨door, stands, leaves⟩ := Yard.goStale_result (s := s.setYard y) hx hs
    have drive : x.staleDrive (s.setYard y) = x.staleDrive s := rfl
    have idle : x.staleDrive s = x.drive ∨ ((x.staleDrive s).hasSlot = false ∧ (x.staleDrive s).isQueued = false) := by
      unfold Door.staleDrive
      rw [← loFallDrive_sightless]
      split
      · cases hn : loFallDrive s.env x with
        | none => exact .inl rfl
        | some new =>
          obtain ⟨slot, queued, -⟩ := loFallDrive_idle hn
          exact .inr ⟨slot, queued⟩
      · exact .inl rfl
    refine ⟨_, ⟨⟨door, calm.others, rfl, fun hn => ?_, fun g hg hr => ?_⟩, calm, fun hq =>
      idle.resolve_right fun h => absurd (h.2.symm.trans hq) nofun⟩, nofun, fun _ => rfl⟩
    · rcases idle with same | ⟨slot, -⟩
      · exact same ▸ hn
      · exact absurd (slot.symm.trans hn) nofun
    · by_cases same : x.staleDrive s = x.drive
      · rw [drive, same, Yard.followed_same hr]
        exact congrArg (·.get g) (stands same)
      · obtain ⟨slot, queued⟩ := idle.resolve_left same
        rw [drive, Yard.followed, slot, queued]
        exact leaves same g hg

/-- R18: what a matching ATTACH leaves of a door that its scanner owns. -/
structure Door.Reattached (s : State) (x z : Door) : Prop where
  lastSeq : z.inp.lastSeq = none
  reported : z.inp.reported = false
  position : z.position = .unknown
  inhibit : z.inhibit = x.inhibit
  tripCount : z.prot.tripCount = x.prot.tripCount
  touch : InTouch s x → z.inp.stale = x.inp.stale ∧ z.inp.freshness = x.inp.freshness
  blind : x.inp.reported = true → x.inp.stale = false →
    z.inp.raw.lo = false ∧ z.inp.debounced.lo = false ∧ ∀ k, z.inp.timers.of k = none
  falls : x.inp.reported = true ∧ x.inp.stale = false ∧ x.inp.debounced.lo = true →
    z.drive = sightlessFalls s x ∧ z.hold = false
  stands : x.inp.reported = false ∨ x.inp.stale = true ∨ x.inp.debounced.lo = false →
    z.drive = x.drive ∧ z.hold = x.hold
  prot : z.prot = { x.prot with settle := if x.position = .closed then none else x.prot.settle }

theorem Door.forgetReports_prot (x : Door) : x.forgetReports.prot =
    { x.prot with settle := if x.position = .closed then none else x.prot.settle } := by
  unfold Door.forgetReports Door.positionLost Protection.cancelSettle
  simp only
  split <;> rfl

theorem Yard.reattachDoor_leaves {y : Yard} (s : State) {d : Nat} {x : Door} (hx : y.doors[d]? = some x) :
    ∃ z, Yard.Leaves d x z y (y.reattachDoor s.env d) ∧ Door.Reattached s x z := by
  have calm := Yard.calm_reattachDoor y s.env d
  have prot := x.forgetReports_prot
  have tripCount : x.forgetReports.prot.tripCount = x.prot.tripCount := by rw [prot]
  have forgot : Yard.Takes d x x.forgetReports y (y.modify d Door.forgetReports) := Yard.takes_modify hx rfl rfl rfl
  let w : Door := { x.forgetReports with inp := x.forgetReports.inp.loseSight }
  let y2 := (y.modify d Door.forgetReports).modify d fun z => { z with inp := z.inp.loseSight }
  have blinded : Yard.Takes d x w y y2 := forgot.trans
    (Yard.takes_modify (f := fun z => { z with inp := z.inp.loseSight }) forgot.door rfl rfl rfl) (Drive.between_refl _ _)
  have sightless : ∀ k, w.inp.timers.of k = none := fun k => by cases k <;> rfl
  have unfolded : y.reattachDoor s.env d = if x.inp.reported && !x.inp.stale then
      (if x.inp.debounced.lo then y2.loFall s.env d else y2) else y.modify d Door.forgetReports := by
    simp only [Yard.reattachDoor, hx]
    rfl
  by_cases hf : x.inp.reported = true ∧ x.inp.stale = false
  · obtain ⟨reported, fresh⟩ := hf
    by_cases hlo : x.inp.debounced.lo = true
    · obtain ⟨z, leaves, ⟨i, record, input, within⟩⟩ := Yard.loFall_unseen s blinded.door rfl rfl
      have taken : y.reattachDoor s.env d = y2.loFall s.env d := by simp [unfolded, reported, fresh, hlo]
      have drive : sightlessFalls s w = sightlessFalls s x := rfl
      have seen : i.lastSeq = none ∧ i.reported = false ∧ i.raw.lo = false ∧ i.debounced.lo = false ∧
          ∀ k, i.timers.of k = none := by
        rcases input with rfl | rfl
        · exact ⟨rfl, rfl, rfl, rfl, sightless⟩
        · exact ⟨rfl, rfl, rfl, rfl, sightless⟩
      obtain ⟨lastSeq, unreported, raw, debounced, timers⟩ := seen
      rw [taken] at calm ⊢
      subst record
      refine ⟨_, ⟨blinded.trans leaves.takes (Drive.between_refl _ _), calm, leaves.waits⟩,
        ⟨lastSeq, unreported, rfl, rfl, tripCount, fun touch => ?_, fun _ _ => ⟨raw, debounced, timers⟩,
          fun _ => ⟨drive, rfl⟩, fun h => ?_, prot⟩⟩
      · obtain rfl := within touch
        exact ⟨rfl, rfl⟩
      · simp [reported, fresh, hlo] at h
    · have taken : y.reattachDoor s.env d = y2 := by simp [unfolded, reported, fresh, hlo]
      rw [taken] at calm ⊢
      exact ⟨w, ⟨blinded, calm, fun _ => rfl⟩, ⟨rfl, rfl, rfl, rfl, tripCount, fun _ => ⟨rfl, rfl⟩,
        fun _ _ => ⟨rfl, rfl, sightless⟩, fun h => absurd h.2.2 hlo, fun _ => ⟨rfl, rfl⟩, prot⟩⟩
  · have taken : y.reattachDoor s.env d = y.modify d Door.forgetReports := by
      rw [unfolded, if_neg (by simpa using hf)]
    rw [taken] at calm ⊢
    exact ⟨_, ⟨forgot, calm, fun _ => rfl⟩, ⟨rfl, rfl, rfl, rfl, tripCount, fun _ => ⟨rfl, rfl⟩,
      fun hr hs => absurd ⟨hr, hs⟩ hf, fun h => absurd ⟨h.1, h.2.1⟩ hf, fun _ => ⟨rfl, rfl⟩, prot⟩⟩

theorem Yard.arbiterLawful_reattachDoor {y : Yard} (hl : y.arbiterLawful) (e : Env) (d : Nat) :
    (y.reattachDoor e d).arbiterLawful := by
  have forgot := Yard.arbiterLawful_modify hl d Door.forgetReports fun _ _ => ⟨rfl, rfl⟩
  have blinded := Yard.arbiterLawful_modify forgot d (fun z => { z with inp := z.inp.loseSight }) fun _ _ => ⟨rfl, rfl⟩
  unfold Yard.reattachDoor
  simp only
  repeat' split
  · exact hl
  · exact Yard.arbiterLawful_loFall blinded e d
  · exact blinded
  · exact forgot

/-- R1: the doors of a scanner. -/
theorem Yard.ownedBy_lt {y : Yard} {m : Master} {d : Nat} (h : d ∈ y.ownedBy m) : d < y.doors.length :=
  List.mem_range.mp (List.mem_filter.mp h).1

theorem Yard.staticKept_foldl {f : Yard → Nat → Yard} (hf : ∀ z d, Yard.Calm d z (f z d)) (l : List Nat) (y : Yard) :
    Yard.StaticKept y (l.foldl f y) :=
  List.foldlRecOn (motive := Yard.StaticKept y) _ _ (fun _ => rfl) fun z hz d _ k => ((hf z d).staticKept k).trans (hz k)

/-- R104: a take of many doors, with a capture, that keeps their static parts. -/
theorem State.manyDoors_captured {s : State} {y : Yard} (c : Capture) (h : Yard.StaticKept s.yard y) :
    ManyDoors s (((s.setYard y).capture c).endTake s.yard) := ⟨rfl, (State.manyDoors_take h).static⟩

/-! ## ATTACH -/

section

variable {s : State} {m : Master} {addr : Addr} {w : Word}

theorem State.takeAttach_writer (h : (s.role m).isScanner = false) : s.takeAttach m addr w = .refused .writer := by
  unfold State.takeAttach
  split
  · next hr => rw [hr] at h; cases h
  · rfl

theorem State.takeAttach_value {first count : Nat} {was : Bool} (hr : s.role m = .scanner first count was)
    (hw : w &&& 0xC000 ≠ 0) : s.takeAttach m addr w = .refused .badValue := by
  have bad : attachOf w = none := if_pos hw
  simp [State.takeAttach, hr, bad]

theorem State.takeAttach_given {first count : Nat} {was : Bool} (hr : s.role m = .scanner first count was)
    (hw : w &&& 0xC000 = 0) :
    s.takeAttach m addr w = s.attachScanner m addr w first count was (field w 0 7, field w 7 7) := by
  have good : attachOf w = some (field w 0 7, field w 7 7) := if_neg (not_not.mpr hw)
  simp [State.takeAttach, hr, good]

theorem State.entryOf_word (s : State) (kind : Nat) (m : Master) (addr : Addr) (detail : Nat) (w : Word) :
    s.entryOf (Capture.ofMaster kind m addr detail w) = s.entryNow kind m.val addr detail w.toNat := by
  rw [← State.entryOf_ofMaster, BitVec.ofNat_toNat, BitVec.setWidth_eq]

/-- R98: the part after a matching ATTACH. -/
def State.attached (s : State) (m : Master) (addr : Addr) (w : Word) (first count : Nat) : State :=
  let t := s.setRole m (.scanner first count true)
  ((t.setYard (t.yard.reattach t.env m)).capture (Capture.ofMaster 14 m addr 0 w)).endTake s.yard

/-- R98: the part after a mismatched ATTACH. -/
def State.mismatched (s : State) (m : Master) (addr : Addr) (w : Word) (first count : Nat) (was : Bool) : State :=
  let t := s.setRole m (.scanner first count false)
  ((t.setYard (t.yard.staleDoors t.env (t.yard.ownedBy m))).capture
    (Capture.ofMaster 15 m addr (if was then 1 else 0) w)).endTake s.yard

theorem exec_attach_matches {first count : Nat} {was : Bool} (h : ReachesOrder s m addr w 10)
    (hr : s.role m = .scanner first count was) (hw : w &&& 0xC000 = 0) (hf : field w 0 7 = first)
    (hc : field w 7 7 = count) :
    exec (.attach m addr w) s = .next ((s.attached m addr w first count).forwardOrder m addr w) :=
  exec_order_taken rfl h ((State.takeAttach_given hr hw).trans (if_pos (by rw [hf, hc])))

theorem exec_attach_mismatch {first count : Nat} {was : Bool} (h : ReachesOrder s m addr w 10)
    (hr : s.role m = .scanner first count was) (hw : w &&& 0xC000 = 0)
    (hn : ¬ (field w 0 7 = first ∧ field w 7 7 = count)) :
    exec (.attach m addr w) s = .next ((s.mismatched m addr w first count was).answer .error) := by
  have taken : s.takeOrder 10 m addr w = .mismatch (s.mismatched m addr w first count was) :=
    (State.takeAttach_given hr hw).trans (if_neg fun he => hn (Prod.mk.inj he))
  calc exec (.attach m addr w) s
      = .next (s.arrive (wordWrite m addr w)) := rfl
    _ = _ := by rw [State.arrive_order h, State.orderWrite_mismatch taken]

end

/-- Settles O52. -/
theorem attachOrder : Obligations.AttachOrder := by
  intro s m addr w h
  refine ⟨fun hs => exec_order_refused (r := .writer) rfl h (State.takeAttach_writer hs), fun first count was hr =>
    ⟨fun hw => exec_order_refused (r := .badValue) rfl h (State.takeAttach_value hr hw), fun hw hf hc => ?_,
      fun hw hn => ?_⟩⟩
  · let t := s.setRole m (.scanner first count true)
    obtain ⟨outside, inside⟩ := Yard.foldl_get (R := Door.Reattached t) (fun y d => Yard.calm_reattachDoor y t.env d)
      (fun y d x hx => let ⟨z, leaves, record⟩ := Yard.reattachDoor_leaves t hx; ⟨z, leaves.takes.door, record⟩)
      (s.yard.nodup_ownedBy m) s.yard
    refine ⟨_, exec_attach_matches h hr hw hf hc,
      State.manyDoors_captured (s := t) _ (Yard.staticKept_foldl (fun z d => Yard.calm_reattachDoor z t.env d) _ _),
      State.takeEnds_of rfl (Yard.alarmsKept_reattach _ _ _),
      congrArg s.ring.push (s.entryOf_word 14 m addr 0 w), fun hl => ?_, fun d x hx => ⟨fun ho => ?_, fun ho => ?_⟩⟩
    · exact DoorsLeave.endTake _ (DoorsLeave.foldl hl (fun y d hy => Yard.arbiterLawful_reattachDoor hy t.env d)
        (fun y d x hx => let ⟨z, leaves, _⟩ := Yard.reattachDoor_leaves t hx; ⟨z, leaves⟩) fun d => Yard.ownedBy_lt)
    · exact (State.endTake_door_same (s := t.setYard (t.yard.reattach t.env m))
        (outside d (mt (Yard.mem_ownedBy hx).mp ho))).trans hx
    · obtain ⟨z, hz, r⟩ := inside d x ((Yard.mem_ownedBy hx).mpr ho) hx
      exact DoorAfter.mono (P := z.sameButAlarms)
        (State.endTake_door (b := s.yard) (s := t.setYard (t.yard.reattach t.env m)) hz) fun v hv => by
        rw [hv]
        exact ⟨r.lastSeq, r.reported, r.position, r.inhibit, r.tripCount, r.touch, r.blind, r.falls, r.stands, r.prot⟩
  · let t := s.setRole m (.scanner first count false)
    obtain ⟨outside, inside⟩ := Yard.foldl_get (fun y d => Yard.calm_goStale y t.env d)
      (fun y d x hx => let ⟨z, leaves, record⟩ := Yard.goStale_leaves t hx; ⟨z, leaves.takes.door, record⟩)
      (s.yard.nodup_ownedBy m) s.yard
    refine ⟨_, exec_attach_mismatch h hr hw hn,
      State.manyDoors_captured (s := t) _ (Yard.staticKept_foldl (fun z d => Yard.calm_goStale z t.env d) _ _),
      State.takeEnds_of rfl (Yard.alarmsKept_staleDoors _ _ _),
      congrArg s.ring.push (s.entryOf_word 15 m addr _ w), fun hl => ?_, fun d x hx => ⟨fun ho => ?_, fun ho hs => ?_⟩⟩
    · exact DoorsLeave.endTake _ (DoorsLeave.foldl hl (fun y d hy => Yard.arbiterLawful_goStale hy t.env d)
        (fun y d x hx => let ⟨z, leaves, _⟩ := Yard.goStale_leaves t hx; ⟨z, leaves⟩) fun d => Yard.ownedBy_lt)
    · refine (State.endTake_door_same (s := t.setYard (t.yard.staleDoors t.env (t.yard.ownedBy m))) ?_).trans hx
      by_cases hm : x.owner = some m
      · obtain ⟨z, hz, same, -⟩ := inside d x ((Yard.mem_ownedBy hx).mpr hm) hx
        exact hz.trans ((congrArg some (same (ho.resolve_left fun hne => hne hm))).trans hx.symm)
      · exact outside d (mt (Yard.mem_ownedBy hx).mp hm)
    · obtain ⟨z, hz, -, record⟩ := inside d x ((Yard.mem_ownedBy hx).mpr ho) hx
      have goes := record hs
      refine DoorAfter.mono (P := z.sameButAlarms) (State.endTake_door (b := s.yard)
        (s := t.setYard (t.yard.staleDoors t.env (t.yard.ownedBy m))) hz) fun v hv => ?_
      have prot := x.gonestale_prot
      have tripCount : x.gonestale.prot.tripCount = x.prot.tripCount := by rw [prot]
      rw [hv, goes]
      exact ⟨rfl, rfl, rfl, rfl, rfl, rfl, tripCount, rfl, rfl, prot⟩

end Sys2Proof.Machine
end

section
/-! SUPPORT. ZONE_CLOSE (R44, R83): the request that each selected door has, and the doors taken one after another. -/

namespace Sys2Proof.Machine

/-! ## A close of origin ZONE -/

/-- R25: the origin that a zone's close leaves. -/
def zoneOrigin (o : Origin) : Origin := if o = .localReq then .localReq else .zone

theorem updatedOrigin_zone (o : Origin) : updatedOrigin o .zone = zoneOrigin o := by cases o <;> rfl

/-- R24 to R26: where a close of origin ZONE takes a door that is not ISOLATED. -/
def Door.zoneDrive (e : Env) (x : Door) : Drive :=
  if x.position = .closed then .resting else (requestedDrive e x .toClose .zone).getD x.drive

section

variable {s : State} {x : Door}

theorem Door.zoneDrive_closed {e : Env} (h : x.position = .closed) : x.zoneDrive e = .resting := if_pos h

theorem Door.zoneDrive_requested {e : Env} {new : Drive} (h : x.position ≠ .closed)
    (hn : requestedDrive e x .toClose .zone = some new) : x.zoneDrive e = new := by
  rw [Door.zoneDrive, if_neg h, hn, Option.getD_some]

/-- R23, R27: a door that is not bound somewhere, or waits to open, is QUEUED. -/
theorem requestedDrive_zone_queues {e : Env} (h : x.drive = .resting ∨ (∃ r, x.drive = .recloseWait r) ∨
    (∃ r, x.drive = .tripped r) ∨ ∃ o, x.drive = .queued .toOpen o) :
    requestedDrive e x .toClose .zone = some (.queued .toClose .zone) := by
  rcases h with h | ⟨r, h⟩ | ⟨r, h⟩ | ⟨o, h⟩ <;> simp [requestedDrive, h]

theorem requestedDrive_zone_queued {e : Env} {o : Origin} (h : x.drive = .queued .toClose o) :
    requestedDrive e x .toClose .zone = some (.queued .toClose (zoneOrigin o)) := by
  simp [requestedDrive, h, updatedOrigin_zone]

theorem requestedDrive_zone_warning {e : Env} {o : Origin} {p : Nat} (h : x.drive = .warning o p) :
    requestedDrive e x .toClose .zone = some (.warning (zoneOrigin o) p) := by
  simp [requestedDrive, h, updatedOrigin_zone]

theorem requestedDrive_zone_closing {e : Env} {o : Origin} {tr : Nat} (h : x.drive = .moving .toClose o tr) :
    requestedDrive e x .toClose .zone = some (.moving .toClose (zoneOrigin o) tr) := by
  simp [requestedDrive, h, updatedOrigin_zone]

/-- R26: an opening door turns. -/
theorem requestedDrive_zone_opening {o : Origin} {tr : Nat} (h : x.drive = .moving .toOpen o tr) :
    requestedDrive s.env x .toClose .zone = some (if 0 < s.times.prewarn then .warning .zone (s.clock + s.times.prewarn)
      else .moving .toClose .zone (s.clock + x.st.travelLimit)) := by
  simp [requestedDrive, h, startDrive, Origin.remote, State.env]

/-- R23, R25: whatever a door that is not ISOLATED does, the request binds it to close. -/
theorem requestedDrive_zone_closes (h : x.drive ≠ .isolated) :
    ∃ new, requestedDrive s.env x .toClose .zone = some new ∧ new.direction = some .toClose := by
  cases hd : x.drive with
  | resting => exact ⟨_, requestedDrive_zone_queues (.inl hd), rfl⟩
  | queued dir o =>
    cases dir with
    | toClose => exact ⟨_, requestedDrive_zone_queued hd, rfl⟩
    | toOpen => exact ⟨_, requestedDrive_zone_queues (.inr (.inr (.inr ⟨o, hd⟩))), rfl⟩
  | warning o p => exact ⟨_, requestedDrive_zone_warning hd, rfl⟩
  | moving dir o tr =>
    cases dir with
    | toClose => exact ⟨_, requestedDrive_zone_closing hd, rfl⟩
    | toOpen => exact ⟨_, requestedDrive_zone_opening hd, by split <;> rfl⟩
  | recloseWait r => exact ⟨_, requestedDrive_zone_queues (.inr (.inl ⟨r, hd⟩)), rfl⟩
  | tripped r => exact ⟨_, requestedDrive_zone_queues (.inr (.inr (.inl ⟨r, hd⟩))), rfl⟩
  | isolated => exact absurd hd h

end

section

variable {y : Yard} {s : State} {d : Nat} {x : Door}

/-- R75: a door that is brought to rest, stale or not, leaves its group. -/
theorem Yard.changeDrive_resting_takes {e : Env} (hx : y.doors[d]? = some x) :
    ∃ z, Yard.Takes d x z y (y.changeDrive e d .resting false) ∧ z.drive.bound = false := by
  have calm := Yard.calm_changeDrive y e d .resting false
  obtain ⟨z, hz, unbound, -⟩ := Yard.changeDrive_rests e hx
  obtain ⟨w, hw, steady⟩ := (Yard.steady_changeDrive (Yard.fresh_true e d y) .resting false).door x hx
  obtain rfl := Option.some.inj (hz.symm.trans hw)
  have idle : z.drive.hasSlot = false ∧ z.drive.isQueued = false := by
    cases hd : z.drive <;> simp_all [Drive.bound, Drive.hasSlot, Drive.isQueued]
  refine ⟨z, ⟨hz, calm.others, steady.static, fun hs => absurd (idle.1.symm.trans hs) nofun, fun g hg _ => ?_⟩, unbound⟩
  rw [Yard.changeDrive_resting_leaves hx hg rfl, Yard.followed, idle.1, idle.2]
  rfl

theorem Yard.zoneRequest_closes (hx : y.doors[d]? = some x) (hi : x.drive ≠ .isolated) :
    ∃ z, Yard.Closes d x z y (y.motionRequest s.env d .toClose .zone) ∧ (InTouch s x →
      z = { x with drive := x.zoneDrive s.env, prot := x.prot.moved x.drive (x.zoneDrive s.env) }) := by
  have calm := Yard.calm_motionRequest y s.env d .toClose .zone
  by_cases hp : x.position = .closed
  · rw [Door.zoneDrive_closed hp]
    by_cases hr : x.drive = .resting
    · rw [Yard.motionRequest_resting (dir := .toClose) hx hp hr] at calm ⊢
      refine ⟨x, ⟨Yard.takes_refl hx, calm, fun _ => .inl rfl⟩, fun _ => ?_⟩
      rw [Protection.moved_same (by rw [hr]), ← hr]
    · have rests := Yard.rest_unenforced (e := s.env) (c := false) hx (.inr (.inr (congrArg Position.standsOpen hp)))
      rw [Yard.motionRequest_satisfied (dir := .toClose) hx hp hr hi, rests] at calm ⊢
      obtain ⟨z, takes, unbound⟩ := Yard.changeDrive_resting_takes (e := s.env) hx
      refine ⟨z, ⟨takes, calm, fun hq => ?_⟩, fun touch => ?_⟩
      · cases hd : z.drive <;> simp_all [Drive.bound, Drive.isQueued]
      · exact Option.some.inj (takes.door.symm.trans (Yard.takes_move (e := s.env) (new := .resting) hx touch nofun).door)
  · obtain ⟨new, hn, closing⟩ := requestedDrive_zone_closes (s := s) hi
    have quiet : ({ x with drive := new } : Door).staleQuiet s.env :=
      .inr (loFallDrive_unmoved (Drive.unmoved_of_closing closing))
    rw [Door.zoneDrive_requested hp hn]
    rw [Yard.motionRequest_away (dir := .toClose) hx hp hn] at calm ⊢
    obtain ⟨⟨z, hz, driven⟩, -⟩ := Yard.changeDrive_quiet (c := false) hx quiet
    have slot := requestedDrive_slot hn
    refine ⟨z, ⟨Yard.takes_plain hx (.inr (.inr quiet)) slot hz driven.steady.static driven.drive, calm, fun hq => ?_⟩,
      fun touch => Option.some.inj (hz.symm.trans (Yard.takes_move (e := s.env) hx touch slot).door)⟩
    right
    rw [driven.drive] at hq ⊢
    simp [Drive.waitsToClose, hq, closing]

/-! ## One door of a zone close -/

/-- R44: a door that a zone close does not pass over. -/
def Door.zoneTaken (mask : Word) (x : Door) : Prop :=
  mask.getLsbD x.st.zone.val = true ∧ x.powered = true ∧ x.drive ≠ .isolated ∧ x.inhibit = .none

theorem Door.zoneTaken_iff {mask : Word} :
    (zoneSelected mask x.st.zone && x.closeRefusal.isNone) = true ↔ x.zoneTaken mask := by
  rw [Bool.and_eq_true, Option.isNone_iff_eq_none, Door.closeRefusal_none]
  rfl

theorem Yard.zoneCloseDoor_taken {e : Env} {mask : Word} (hx : y.doors[d]? = some x) (h : x.zoneTaken mask) :
    y.zoneCloseDoor e mask d = y.motionRequest e d .toClose .zone := by
  simp only [Yard.zoneCloseDoor, hx, Door.zoneTaken_iff.mpr h, if_true]

theorem Yard.zoneCloseDoor_passed {e : Env} {mask : Word} (hx : y.doors[d]? = some x) (h : ¬ x.zoneTaken mask) :
    y.zoneCloseDoor e mask d = y := by
  simp only [Yard.zoneCloseDoor, hx]
  exact if_neg (mt Door.zoneTaken_iff.mp h)

theorem Yard.calm_zoneCloseDoor (y : Yard) (e : Env) (mask : Word) (d : Nat) :
    Yard.Calm d y (y.zoneCloseDoor e mask d) :=
  Yard.calm_of_steady (e := e) fun h => Yard.steady_zoneCloseDoor h mask

/-- What a zone close leaves of one door. -/
structure Door.ZoneClosed (s : State) (mask : Word) (x z : Door) : Prop where
  passed : ¬ x.zoneTaken mask → z = x
  taken : x.zoneTaken mask → InTouch s x →
    z = { x with drive := x.zoneDrive s.env, prot := x.prot.moved x.drive (x.zoneDrive s.env) }

theorem Yard.zoneCloseDoor_closes (mask : Word) (hx : y.doors[d]? = some x) :
    ∃ z, Yard.Closes d x z y (y.zoneCloseDoor s.env mask d) ∧ x.ZoneClosed s mask z := by
  have calm := Yard.calm_zoneCloseDoor y s.env mask d
  by_cases ht : x.zoneTaken mask
  · obtain ⟨-, -, hi, -⟩ := id ht
    obtain ⟨z, closes, record⟩ := Yard.zoneRequest_closes (s := s) hx hi
    rw [Yard.zoneCloseDoor_taken hx ht]
    exact ⟨z, closes, fun h => absurd ht h, fun _ => record⟩
  · rw [Yard.zoneCloseDoor_passed hx ht] at calm ⊢
    exact ⟨x, ⟨Yard.takes_refl hx, calm, fun _ => .inl rfl⟩, fun _ => rfl, fun h => absurd h ht⟩

theorem Yard.arbiterLawful_zoneCloseDoor (hl : y.arbiterLawful) (e : Env) (mask : Word) (d : Nat) :
    (y.zoneCloseDoor e mask d).arbiterLawful := by
  cases hx : y.doors[d]? with
  | none => simpa [Yard.zoneCloseDoor, hx] using hl
  | some x =>
    by_cases ht : x.zoneTaken mask
    · rw [Yard.zoneCloseDoor_taken hx ht]
      refine Yard.arbiterLawful_motionRequest hl e d _ _ fun z hz hc _ => ?_
      obtain rfl := Option.some.inj (hx.symm.trans hz)
      exact absurd hc (Door.powered_cls ht.2.1)
    · rw [Yard.zoneCloseDoor_passed hx ht]
      exact hl

end

theorem Protection.moved_tripCount (p : Protection) (old new : Drive) : (p.moved old new).tripCount = p.tripCount := by
  unfold Protection.moved
  split <;> rfl

/-! ## ZONE_CLOSE -/

section

variable {s : State} {m : Master} {w : Word}

theorem State.takeZoneClose_writer (h : s.command.holder ≠ some m) : s.takeZoneClose m w = .refused .writer := if_pos h

theorem State.takeZoneClose_taken (h : s.command.holder = some m) :
    s.takeZoneClose m w = .taken ((s.setYard (s.yard.zoneClose s.env w)).endTake s.yard) := if_neg (not_not.mpr h)

end

/-- Settles O45: the doors taken in door-number order, each by `Yard.zoneCloseDoor_closes`. -/
theorem zoneCloseOrder : Obligations.ZoneCloseOrder := by
  intro s m addr w h origin
  refine ⟨fun hm => exec_order_refused (r := .writer) rfl h (State.takeZoneClose_writer hm), fun hm => ?_⟩
  have calm := fun (y : Yard) d => Yard.calm_zoneCloseDoor y s.env w d
  obtain ⟨-, inside⟩ := Yard.foldl_range_get (R := Door.ZoneClosed s w) calm
    (fun y d x hx => let ⟨z, closes, record⟩ := Yard.zoneCloseDoor_closes (s := s) w hx; ⟨z, closes.takes.door, record⟩)
    s.yard s.doorCount
  refine ⟨_, exec_order_taken rfl h (State.takeZoneClose_taken hm), State.manyDoors_take (Yard.staticKept_foldl calm _ _),
    State.takeEnds_of rfl (Yard.alarmsKept_zoneClose _ _ _), rfl, fun hl => ?_, fun d x hx => ?_⟩
  · exact (ClosesJoin.foldl_range hl calm (fun y d hy => Yard.arbiterLawful_zoneCloseDoor hy s.env w d)
      (fun y d x hx => let ⟨z, closes, _⟩ := Yard.zoneCloseDoor_closes (s := s) w hx; ⟨z, closes⟩) (Nat.le_refl _)).endTake _
  · obtain ⟨z, hz, record⟩ := inside d x (List.getElem?_eq_some_iff.mp hx).1 hx
    refine ⟨fun hn => ?_, fun ht touch => ?_⟩
    · refine (State.endTake_door_same (b := s.yard) (s := s.setYard (s.yard.zoneClose s.env w)) ?_).trans hx
      exact hz.trans ((congrArg some (record.passed hn)).trans hx.symm)
    · have goes := record.taken ht touch
      refine DoorAfter.mono (P := z.sameButAlarms)
        (State.endTake_door (b := s.yard) (s := s.setYard (s.yard.zoneClose s.env w)) hz) fun v hv => ?_
      rw [hv, goes]
      refine ⟨rfl, rfl, rfl, rfl, Protection.moved_tripCount _ _ _, fun hp => Door.zoneDrive_closed hp, fun hp => ?_⟩
      have asked : ∀ {new}, requestedDrive s.env x .toClose .zone = some new → x.zoneDrive s.env = new :=
        Door.zoneDrive_requested hp
      exact ⟨fun hd => asked (requestedDrive_zone_queues hd), fun o hd => asked (requestedDrive_zone_queued hd),
        fun o p hd => asked (requestedDrive_zone_warning hd), fun o tr hd => asked (requestedDrive_zone_closing hd),
        fun o tr hd => asked (requestedDrive_zone_opening hd)⟩

end Sys2Proof.Machine
end

section
/-! SUPPORT. A change of vessel mode (R42, R43, R82), step by step: the record that each step leaves of one door, and the
grants of every group. -/

namespace Sys2Proof.Machine

/-! ## Every door, one relation -/

/-- What an operation leaves of every door. -/
def Yard.Each (R : Door → Door → Prop) (y y' : Yard) : Prop :=
  ∀ (k : Nat) (x : Door), y.doors[k]? = some x → ∃ z, y'.doors[k]? = some z ∧ R x z

theorem Yard.Each.foldl {α : Type} {R : Door → Door → Prop} {f : Yard → α → Yard} (hr : ∀ x, R x x)
    (ht : ∀ x z w, R x z → R z w → R x w) (hf : ∀ y a, Yard.Each R y (f y a)) (l : List α) (y : Yard) :
    Yard.Each R y (l.foldl f y) :=
  List.foldlRecOn (motive := Yard.Each R y) _ _ (fun _ x hx => ⟨x, hx, hr x⟩) fun z hz a _ k x hx => by
    obtain ⟨w, hw, hxw⟩ := hz k x hx
    obtain ⟨v, hv, hwv⟩ := hf z a k w hw
    exact ⟨v, hv, ht x w v hxw hwv⟩

/-! ## The step of one door for the new mode (R42, R43) -/

/-- R82 step 3: one door taken for the mode. -/
def Yard.toMode (y : Yard) (e : Env) (d : Nat) : Yard :=
  if e.doorsClosed then y.toDoorsClosed e d else y.toLocalControl e d

theorem Yard.calm_toMode (y : Yard) (e : Env) (d : Nat) : Yard.Calm d y (y.toMode e d) := by
  unfold Yard.toMode
  split
  · exact Yard.calm_of_steady (e := e) Yard.steady_toDoorsClosed
  · exact Yard.calm_of_steady (e := e) Yard.steady_toLocalControl

theorem Yard.arbiterLawful_toMode {y : Yard} (hl : y.arbiterLawful) (e : Env) (d : Nat) :
    (y.toMode e d).arbiterLawful := by
  unfold Yard.toMode
  split
  · exact Yard.arbiterLawful_toDoorsClosed hl e d
  · exact Yard.arbiterLawful_toLocalControl hl e d

/-- R41: outside DOORS_CLOSED the enforcement check passes over every door. -/
theorem Yard.enforceAll_open {e : Env} (h : e.doorsClosed = false) (y : Yard) : y.enforceAll e = y := by
  have passes : ∀ (z : Yard) d, z.enforce e d = z := fun z d => by
    unfold Yard.enforce
    split
    · rfl
    · next x hx => exact if_neg (by simp [Door.enforceable, h])
  exact List.foldlRecOn (motive := fun z => z = y) _ _ rfl fun z hz d _ => (passes z d).trans hz

/-- R82 steps 3 to 5, the same of both modes: no check of step 4 takes effect in LOCAL_CONTROL. -/
theorem Yard.modeChange_eq (y : Yard) (e : Env) :
    y.modeChange e = (((List.range y.doors.length).foldl (fun z d => z.toMode e d) y).enforceAll e).grantAll e := by
  unfold Yard.modeChange Yard.toMode
  cases h : e.doorsClosed with
  | true => rfl
  | false => simp only [Bool.false_eq_true, if_false, Yard.enforceAll_open h]

/-- R42: the record of a door taken for DOORS_CLOSED, where nothing makes it stale. -/
def Door.toClosed (t : State) (x : Door) : Door :=
  let new := (toDoorsClosedDrive t.env x).getD x.drive
  if x.takesLocal then
    { x with drive := new, prot := x.prot.moved x.drive new, hold := x.hold || x.inp.debounced.lo }
  else x

/-- What the step leaves of one door. -/
structure Door.Moded (t : State) (x w : Door) : Prop where
  static : w.static = x.static
  inhibit : w.inhibit = x.inhibit
  tripCount : w.prot.tripCount = x.prot.tripCount
  opened : t.env.doorsClosed = false → w.hold = false ∧ w.drive = (toLocalControlDrive x).getD x.drive
  closed : t.env.doorsClosed = true → InTouch t x → w = x.toClosed t

section

variable {y : Yard} {t : State} {d : Nat} {x w : Door}

theorem toLocalControlDrive_resting {new : Drive} (h : toLocalControlDrive x = some new) : new = .resting := by
  unfold toLocalControlDrive at h
  split at h <;> cases h <;> rfl

/-- R43: in LOCAL_CONTROL no LO fall takes a RESTING door anywhere. -/
theorem Door.staleQuiet_open {e : Env} (h : e.doorsClosed = false) (x : Door) :
    ({ x with drive := .resting } : Door).staleQuiet e := by
  refine .inr ?_
  unfold loFallDrive
  simp [h]

/-- R43: the change of drive state, if any. -/
theorem Yard.toLocalControl_drives (hx : y.doors[d]? = some x) (hm : t.env.doorsClosed = false) :
    ∃ y1 w, y.toLocalControl t.env d = y1.modify d (fun z => { z with hold := false }) ∧ Yard.Takes d x w y y1 ∧
      Door.Steady True x w ∧ w.drive = (toLocalControlDrive x).getD x.drive := by
  cases hn : toLocalControlDrive x with
  | none =>
    exact ⟨y, x, by simp [Yard.toLocalControl, hx, hn], Yard.takes_refl hx, Door.Steady.refl x, rfl⟩
  | some new =>
    obtain rfl := toLocalControlDrive_resting hn
    have quiet := Door.staleQuiet_open hm x
    obtain ⟨⟨w, hw, driven⟩, -⟩ := Yard.changeDrive_quiet (c := false) hx quiet
    exact ⟨y.changeDrive t.env d .resting false, w, by simp [Yard.toLocalControl, hx, hn],
      Yard.takes_plain hx (.inr (.inr quiet)) nofun hw driven.steady.static driven.drive, driven.steady, driven.drive⟩

theorem toLocalControlDrive_waits (h : ((toLocalControlDrive x).getD x.drive).isQueued = true) :
    (toLocalControlDrive x).getD x.drive = x.drive := by
  cases hn : toLocalControlDrive x with
  | none => rfl
  | some new =>
    obtain rfl := toLocalControlDrive_resting hn
    rw [hn] at h
    cases h

theorem Yard.toLocalControl_leaves (hx : y.doors[d]? = some x) (hm : t.env.doorsClosed = false) :
    ∃ w, Yard.Leaves d x w y (y.toLocalControl t.env d) ∧ Door.Moded t x w := by
  obtain ⟨y1, w, taken, takes, steady, drive⟩ := Yard.toLocalControl_drives (t := t) hx hm
  have calm : Yard.Calm d y (y.toLocalControl t.env d) := Yard.calm_of_steady (e := t.env) Yard.steady_toLocalControl
  rw [taken] at calm ⊢
  have released : Yard.Takes d w { w with hold := false } y1 (y1.modify d fun z => { z with hold := false }) :=
    Yard.takes_modify takes.door rfl rfl rfl
  refine ⟨_, ⟨takes.trans released (Drive.between_last _ _), calm, fun hq => ?_⟩,
    ⟨steady.static, steady.inhibit, steady.tripCount, fun _ => ⟨rfl, drive⟩, fun h => absurd (hm.symm.trans h) nofun⟩⟩
  exact drive.trans (toLocalControlDrive_waits (drive ▸ hq))

/-- R42: the drive states that a change to DOORS_CLOSED acts on, and what it does. -/
theorem toDoorsClosedDrive_cases {e : Env} {new : Drive} (h : toDoorsClosedDrive e x = some new) :
    (x.drive = .queued .toOpen .station ∧ new = .resting) ∨
      ((∃ tr, x.drive = .moving .toOpen .station tr) ∧ new = startDrive e x .toClose .mode) := by
  unfold toDoorsClosedDrive at h
  split at h <;> cases h
  · next hd => exact .inl ⟨hd, rfl⟩
  · next hd => exact .inr ⟨⟨_, hd⟩, rfl⟩

/-- R42: the change of drive state, if any. -/
theorem Yard.toDoorsClosed_drives {new : Drive} (hx : y.doors[d]? = some x) (hn : toDoorsClosedDrive t.env x = some new) :
    ∃ w, Yard.Takes d x w y (y.changeDrive t.env d new false) ∧ w.drive.isQueued = false ∧
      (InTouch t x → w = { x with drive := new, prot := x.prot.moved x.drive new }) := by
  rcases toDoorsClosedDrive_cases hn with ⟨-, rfl⟩ | ⟨⟨tr, hd⟩, rfl⟩
  · obtain ⟨w, takes, unbound⟩ := Yard.changeDrive_resting_takes (e := t.env) hx
    refine ⟨w, takes, ?_, fun touch =>
      Option.some.inj (takes.door.symm.trans (Yard.takes_move (e := t.env) (new := .resting) hx touch nofun).door)⟩
    cases hd : w.drive <;> simp_all [Drive.bound, Drive.isQueued]
  · obtain ⟨-, unqueued⟩ := startDrive_slot t.env x .toClose .mode
    have limit : x.drive.bound = (startDrive t.env x .toClose .mode).bound := by rw [hd, startDrive_bound]; rfl
    have door := Yard.changeDrive_within_door (e := t.env) (c := false) hx (.inl limit)
    rw [Protection.runTake_moved] at door
    exact ⟨_, Yard.takes_plain hx (.inl limit) (fun _ => by rw [hd]; rfl) door rfl rfl, unqueued, fun _ => rfl⟩

theorem Yard.toDoorsClosed_leaves (hx : y.doors[d]? = some x) (hm : t.env.doorsClosed = true) :
    ∃ w, Yard.Leaves d x w y (y.toDoorsClosed t.env d) ∧ Door.Moded t x w := by
  have calm : Yard.Calm d y (y.toDoorsClosed t.env d) := Yard.calm_of_steady (e := t.env) Yard.steady_toDoorsClosed
  obtain ⟨v, hv, steady⟩ := (Yard.steady_toDoorsClosed (Yard.fresh_true t.env d y)).door x hx
  have moded : ∀ {w}, (y.toDoorsClosed t.env d).doors[d]? = some w → (InTouch t x → w = x.toClosed t) →
      Door.Moded t x w := fun hw record => by
    obtain rfl := Option.some.inj (hv.symm.trans hw)
    exact ⟨steady.static, steady.inhibit, steady.tripCount, fun h => absurd (hm.symm.trans h) nofun, fun _ => record⟩
  by_cases ht : x.takesLocal = true
  · have held : ∀ {y1 w}, Yard.Takes d x w y y1 → Yard.Takes d x { w with hold := w.hold || w.inp.debounced.lo } y
        (y1.modify d fun z => { z with hold := z.hold || z.inp.debounced.lo }) := fun {y1 w} takes =>
      takes.trans (Yard.takes_modify (f := fun z => { z with hold := z.hold || z.inp.debounced.lo }) takes.door rfl rfl
        rfl) (Drive.between_last _ _)
    cases hn : toDoorsClosedDrive t.env x with
    | none =>
      have taken : y.toDoorsClosed t.env d = y.modify d fun z => { z with hold := z.hold || z.inp.debounced.lo } := by
        simp [Yard.toDoorsClosed, hx, ht, hn]
      have takes := held (Yard.takes_refl hx)
      rw [taken] at calm moded ⊢
      refine ⟨_, ⟨takes, calm, fun _ => rfl⟩, moded takes.door fun _ => ?_⟩
      simp [Door.toClosed, ht, hn, Protection.moved_same]
    | some new =>
      have taken : y.toDoorsClosed t.env d =
          (y.changeDrive t.env d new false).modify d fun z => { z with hold := z.hold || z.inp.debounced.lo } := by
        simp [Yard.toDoorsClosed, hx, ht, hn]
      obtain ⟨w, drives, unqueued, record⟩ := Yard.toDoorsClosed_drives hx hn
      have takes := held drives
      rw [taken] at calm moded ⊢
      refine ⟨_, ⟨takes, calm, fun hq => absurd (unqueued.symm.trans hq) nofun⟩, moded takes.door fun touch => ?_⟩
      simp [Door.toClosed, ht, hn, record touch]
  · have taken : y.toDoorsClosed t.env d = y := by simp [Yard.toDoorsClosed, hx, ht]
    rw [taken] at calm moded ⊢
    exact ⟨x, ⟨Yard.takes_refl hx, calm, fun _ => rfl⟩, moded hx fun _ => by simp [Door.toClosed, ht]⟩

theorem Yard.toMode_leaves (hx : y.doors[d]? = some x) :
    ∃ w, Yard.Leaves d x w y (y.toMode t.env d) ∧ Door.Moded t x w := by
  unfold Yard.toMode
  cases hm : t.env.doorsClosed with
  | true => exact Yard.toDoorsClosed_leaves hx hm
  | false => exact Yard.toLocalControl_leaves hx hm

/-! ## The enforcement check of one door (R41) -/

/-- R41: where the enforcement check takes a door. -/
def Door.checkedDrive (t : State) (x : Door) : Drive := if x.drive = .resting then x.restDrive t else x.drive

/-- What the check leaves of one door. -/
structure Door.Checked (t : State) (x z : Door) : Prop where
  drive : z.drive = x.checkedDrive t
  static : z.static = x.static
  record : InTouch t x ∨ ¬ Enforced t x x.hold → z = { x with drive := x.checkedDrive t }

theorem Yard.enforce_closes (hx : y.doors[d]? = some x) :
    ∃ z, Yard.Closes d x z y (y.enforce t.env d) ∧ Door.Checked t x z := by
  have calm := Yard.calm_enforce y t.env d
  by_cases hd : x.drive = .resting
  · obtain ⟨z, takes, drive, record⟩ := Yard.enforce_takes (s := t) hx hd
    have goes : x.checkedDrive t = x.restDrive t := if_pos hd
    refine ⟨z, ⟨takes, calm, fun hq => .inr ?_⟩, ⟨drive.trans goes.symm, takes.static, fun h => goes ▸ record h⟩⟩
    rw [drive] at hq ⊢
    unfold Door.restDrive at hq ⊢
    split at hq
    · next he => rw [if_pos he]; rfl
    · cases hq
  · have stands : x.checkedDrive t = x.drive := if_neg hd
    rw [Yard.enforce_passes hx (Door.enforceable_of_drive hd)] at calm ⊢
    exact ⟨x, ⟨Yard.takes_refl hx, calm, fun _ => .inl rfl⟩, ⟨stands.symm, rfl, fun _ => by rw [stands]⟩⟩

end

/-! ## The grants of every group (R72, R73) -/

/-- R28: what grants leave of one door: it stands, or is granted from where it waits. -/
def Door.MaybeGranted (e : Env) (x z : Door) : Prop := z = x ∨ ∃ dir o, x.drive = .queued dir o ∧ z = x.granted e dir o

/-- A granted door waits no more. -/
theorem Door.MaybeGranted.trans {e : Env} (x z w : Door) (h : x.MaybeGranted e z) (k : z.MaybeGranted e w) :
    x.MaybeGranted e w := by
  rcases h with rfl | ⟨dir, o, hd, rfl⟩
  · exact k
  · rcases k with rfl | ⟨dir', o', hd', -⟩
    · exact .inr ⟨dir, o, hd, rfl⟩
    · obtain ⟨-, unqueued⟩ := startDrive_slot e x dir o
      rw [show startDrive e x dir o = .queued dir' o' from hd'] at unqueued
      cases unqueued

theorem Door.MaybeGranted.unqueued {e : Env} {x z : Door} (h : x.MaybeGranted e z) (hq : x.drive.isQueued = false) :
    z = x := by
  refine h.resolve_right ?_
  rintro ⟨dir, o, hd, -⟩
  rw [hd] at hq
  cases hq

theorem Door.granted_tripCount (e : Env) (x : Door) (dir : Direction) (o : Origin) :
    (x.granted e dir o).prot.tripCount = x.prot.tripCount := by
  unfold Door.granted
  simp only
  split <;> rfl

/-- What a grant leaves unchanged. -/
theorem Door.MaybeGranted.frame {e : Env} {x z : Door} (h : x.MaybeGranted e z) : z.inp = x.inp ∧
    z.position = x.position ∧ z.hold = x.hold ∧ z.inhibit = x.inhibit ∧ z.prot.tripCount = x.prot.tripCount := by
  rcases h with rfl | ⟨dir, o, -, rfl⟩
  · exact ⟨rfl, rfl, rfl, rfl, rfl⟩
  · exact ⟨rfl, rfl, rfl, rfl, Door.granted_tripCount _ _ _ _⟩

theorem Yard.grantHead_each (y : Yard) (e : Env) (d : Nat) : Yard.Each (Door.MaybeGranted e) y (y.grantHead e d) := by
  intro k x hx
  cases hd : y.doors[d]? with
  | none => exact ⟨x, by simpa [Yard.grantHead, hd] using hx, .inl rfl⟩
  | some w =>
    by_cases hq : w.drive.isQueued = true
    · obtain ⟨dir, o, hw⟩ := Drive.isQueued_iff.mp hq
      rw [Yard.grantHead_queued hd hw]
      by_cases hk : k = d
      · subst hk
        obtain rfl := Option.some.inj (hd.symm.trans hx)
        have limit : w.drive.bound = (startDrive e w dir o).bound := by rw [hw, startDrive_bound]; rfl
        refine ⟨_, Yard.changeDrive_within_door hx (.inl limit), .inr ⟨dir, o, hw, ?_⟩⟩
        have no_run : w.drive.closingRun = false := by rw [hw]; rfl
        rw [Protection.runTake_moved]
        cases hrun : (startDrive e w dir o).closingRun <;> simp [Door.granted, Protection.moved, no_run, hrun]
      · exact ⟨x, ((Yard.calm_changeDrive y e d _ false).others k hk).trans hx, .inl rfl⟩
    · refine ⟨x, ?_, .inl rfl⟩
      unfold Yard.grantHead
      simp only [hd]
      split
      · next hw => rw [hw] at hq; exact absurd rfl hq
      · exact hx

theorem Yard.Each.grants (y : Yard) (e : Env) (g : GroupNum) (fuel : Nat) :
    Yard.Each (Door.MaybeGranted e) y (y.grants e g fuel) := by
  induction fuel generalizing y with
  | zero => exact fun _ x hx => ⟨x, hx, .inl rfl⟩
  | succ n ih =>
    unfold Yard.grants
    split
    · split
      · intro k x hx
        obtain ⟨z, hz, first⟩ := Yard.grantHead_each y e _ k x hx
        obtain ⟨w, hw, rest⟩ := ih (y.grantHead e _) k z hz
        exact ⟨w, hw, first.trans _ _ _ rest⟩
      · exact fun _ x hx => ⟨x, hx, .inl rfl⟩
    · exact fun _ x hx => ⟨x, hx, .inl rfl⟩

theorem Yard.grantAll_each (y : Yard) (e : Env) : Yard.Each (Door.MaybeGranted e) y (y.grantAll e) :=
  Yard.Each.foldl (fun _ => .inl rfl) Door.MaybeGranted.trans (fun y g => Yard.Each.grants y e g _) _ y

theorem Yard.StaticKept.trans {y z w : Yard} (h : Yard.StaticKept y z) (k : Yard.StaticKept z w) :
    Yard.StaticKept y w := fun j => (k j).trans (h j)

theorem Yard.staticKept_grants (y : Yard) (e : Env) (g : GroupNum) (fuel : Nat) :
    Yard.StaticKept y (y.grants e g fuel) := by
  induction fuel generalizing y with
  | zero => exact fun _ => rfl
  | succ n ih =>
    unfold Yard.grants
    split
    · split
      · exact (Yard.calm_of_steady (e := e) Yard.steady_grantHead).staticKept.trans (ih _)
      · exact fun _ => rfl
    · exact fun _ => rfl

theorem Yard.staticKept_modeChange (y : Yard) (e : Env) : Yard.StaticKept y (y.modeChange e) := by
  have grants : ∀ z : Yard, Yard.StaticKept z (z.grantAll e) := fun z =>
    List.foldlRecOn (motive := Yard.StaticKept z) _ _ (fun _ => rfl) fun w hw g _ =>
      hw.trans (w.staticKept_grants e g _)
  rw [Yard.modeChange_eq]
  exact ((Yard.staticKept_foldl (fun z d => Yard.calm_toMode z e d) _ y).trans
    (Yard.staticKept_foldl (fun z d => Yard.calm_enforce z e d) _ _)).trans (grants _)

/-- R72: a group whose due grants have been taken. -/
def Group.allGranted (r : Group) : Group :=
  let free := r.slotCount.getD 0 - r.holders.length
  { slotCount := r.slotCount, holders := r.holders ++ r.queue.take free, queue := r.queue.drop free }

theorem Group.allGranted_not_due (r : Group) : r.allGranted.grantDue = false := by
  rw [← Bool.not_eq_true, Group.grantDue_iff]
  rintro ⟨free, waits⟩
  simp only [Group.allGranted, List.length_append, List.length_take] at free
  have more : r.slotCount.getD 0 - r.holders.length < r.queue.length := by
    by_contra hle
    exact waits (List.drop_eq_nil_of_le (by omega))
  omega

theorem Yard.grantGroup_own {y : Yard} (hl : y.arbiterLawful) (e : Env) (g : GroupNum) :
    (y.grantGroup e g).groups.get g = (y.groups.get g).allGranted := by
  have granted := Yard.granted_grants hl e g rfl
  refine granted.group.trans ?_
  rw [List.length_take, ← List.drop_eq_drop_min]
  rfl

/-- R73: the grants at several groups, each of them once. -/
theorem Yard.grantGroups_get (e : Env) {l : List GroupNum} (hn : l.Nodup) {y : Yard} (hl : y.arbiterLawful)
    (g : GroupNum) : (l.foldl (fun z g => z.grantGroup e g) y).groups.get g =
      if g ∈ l then (y.groups.get g).allGranted else y.groups.get g := by
  induction l generalizing y with
  | nil => simp
  | cons a l ih =>
    obtain ⟨once, rest⟩ := List.nodup_cons.mp hn
    rw [List.foldl_cons, ih rest (Yard.arbiterLawful_grantGroup hl e a)]
    by_cases ha : g = a
    · subst ha
      simp [once, Yard.grantGroup_own hl]
    · have other : (y.grantGroup e a).groups.get g = y.groups.get g :=
        (Yard.granted_grants hl e a rfl).groups g ha
      simp [ha, other]

theorem Yard.grantAll_group {y : Yard} (hl : y.arbiterLawful) (e : Env) (g : GroupNum) :
    (y.grantAll e).groups.get g = (y.groups.get g).allGranted := by
  unfold Yard.grantAll
  rw [Yard.grantGroups_get e (by decide) hl, if_pos (mem_groupNumbers g)]

end Sys2Proof.Machine
end

section
/-! SUPPORT. MODE (R81, R82): the doors and the groups that a change of vessel mode leaves, and the order. -/

namespace Sys2Proof.Machine

/-! ## The doors of a mode change -/

/-- R82 step 3: every door taken for the mode. -/
def Yard.moded (y : Yard) (e : Env) : Yard := (List.range y.doors.length).foldl (fun z d => z.toMode e d) y

theorem Yard.modeChange_moded (y : Yard) (e : Env) : y.modeChange e = ((y.moded e).enforceAll e).grantAll e :=
  y.modeChange_eq e

theorem Yard.moded_length (y : Yard) (e : Env) : (y.moded e).doors.length = y.doors.length :=
  Yard.foldl_length (fun y d => y.calm_toMode e d) _ y

section

variable {t : State} {d : Nat} {x w z : Door}

theorem Yard.moded_each (y : Yard) (t : State) : Yard.Each (Door.Moded t) y (y.moded t.env) := fun k x hx =>
  (Yard.foldl_range_get (fun y d => y.calm_toMode t.env d) (fun _ _ _ hx =>
    let ⟨w, leaves, moded⟩ := Yard.toMode_leaves (t := t) hx
    ⟨w, leaves.takes.door, moded⟩) y y.doors.length).2 k x (List.getElem?_eq_some_iff.mp hx).1 hx

theorem Yard.enforceAll_each (y : Yard) (t : State) : Yard.Each (Door.Checked t) y (y.enforceAll t.env) := fun k x hx =>
  (Yard.foldl_range_get (fun y d => y.calm_enforce t.env d) (fun _ _ _ hx =>
    let ⟨z, closes, checked⟩ := Yard.enforce_closes (t := t) hx
    ⟨z, closes.takes.door, checked⟩) y y.doors.length).2 k x (List.getElem?_eq_some_iff.mp hx).1 hx

/-- R82 steps 3 and 4: what the mode and the checks leave of one door. -/
structure Door.Changed (t : State) (x w z : Door) : Prop where
  moded : x.Moded t w
  checked : w.Checked t z

theorem Yard.changed_each (y : Yard) (t : State) {k : Nat} {x : Door} (hx : y.doors[k]? = some x) :
    ∃ w z, (y.moded t.env).doors[k]? = some w ∧ ((y.moded t.env).enforceAll t.env).doors[k]? = some z ∧
      x.Changed t w z := by
  obtain ⟨w, hw, moded⟩ := y.moded_each t k x hx
  obtain ⟨z, hz, checked⟩ := (y.moded t.env).enforceAll_each t k w hw
  exact ⟨w, z, hw, hz, ⟨moded, checked⟩⟩

/-- R82 steps 3 to 5: the record of one door. -/
theorem Yard.modeChange_each (y : Yard) (t : State) {k : Nat} {x : Door} (hx : y.doors[k]? = some x) :
    ∃ w z v, (y.modeChange t.env).doors[k]? = some v ∧ x.Changed t w z ∧ z.MaybeGranted t.env v := by
  obtain ⟨w, z, -, hz, changed⟩ := y.changed_each t hx
  obtain ⟨v, hv, granted⟩ := ((y.moded t.env).enforceAll t.env).grantAll_each t.env k z hz
  rw [Yard.modeChange_moded]
  exact ⟨w, z, v, hv, changed, granted⟩

/-! ## The drive states (R42, R43) -/

theorem Env.doorsClosed_mode {v : VesselMode} (hv : t.command.mode = some v) :
    t.env.doorsClosed = (v == .doorsClosed) := by
  simp only [Env.doorsClosed, State.env, hv]
  cases v <;> rfl

theorem Door.toClosed_taken (h : x.takesLocal = true) : x.toClosed t =
    { x with
      drive := (toDoorsClosedDrive t.env x).getD x.drive
      prot := x.prot.moved x.drive ((toDoorsClosedDrive t.env x).getD x.drive)
      hold := x.hold || x.inp.debounced.lo } := if_pos h

theorem Door.toClosed_passed (h : ¬ x.takesLocal = true) : x.toClosed t = x := if_neg h

/-- R42: a door that is none of those that a change to DOORS_CLOSED acts on. -/
theorem toDoorsClosedDrive_none {e : Env} (hq : x.drive ≠ .queued .toOpen .station)
    (hm : ∀ tr, x.drive ≠ .moving .toOpen .station tr) : toDoorsClosedDrive e x = none := by
  cases hn : toDoorsClosedDrive e x with
  | none => rfl
  | some new =>
    rcases toDoorsClosedDrive_cases hn with ⟨hd, -⟩ | ⟨⟨tr, hd⟩, -⟩
    · exact absurd hd hq
    · exact absurd hd (hm tr)

/-- R66, R71: what the change of mode leaves of a door's part in its group: it goes as `Drive.leavesAt` says, or stands,
or goes from one slot or no part to another. -/
structure Drive.Follows (v : VesselMode) (old new : Drive) : Prop where
  leaves : old.leavesAt v = true → new = .resting
  waits : old.leavesAt v = false → old.isQueued = true → new = old
  holds : old.leavesAt v = false → old.hasSlot = true → new.hasSlot = true
  joins : new.isQueued = true → new = old

theorem Drive.follows_refl {v : VesselMode} {old : Drive} (h : old.leavesAt v = false) : Drive.Follows v old old :=
  ⟨fun hl => absurd (h.symm.trans hl) nofun, fun _ _ => rfl, fun _ hs => hs, fun _ => rfl⟩

theorem Drive.leavesAt_localControl {drive : Drive} :
    drive.leavesAt .localControl = true ↔ drive = .queued .toClose .mode ∨ ∃ p, drive = .warning .mode p := by
  unfold Drive.leavesAt
  split <;> simp_all

theorem Drive.leavesAt_doorsClosed {drive : Drive} :
    drive.leavesAt .doorsClosed = true ↔ drive = .queued .toOpen .station := by
  unfold Drive.leavesAt
  split <;> simp_all

/-- R43: the doors that a change to LOCAL_CONTROL brings to rest. -/
theorem toLocalControlDrive_rests (h : x.drive = .queued .toClose .mode ∨ (∃ p, x.drive = .warning .mode p) ∨
    ∃ r, x.drive = .recloseWait r) : toLocalControlDrive x = some .resting := by
  unfold toLocalControlDrive
  rcases h with h | ⟨p, h⟩ | ⟨r, h⟩ <;> rw [h]

theorem toLocalControlDrive_none (h : x.drive.leavesAt .localControl = false) (hr : ∀ r, x.drive ≠ .recloseWait r) :
    toLocalControlDrive x = none := by
  unfold toLocalControlDrive
  split
  · next hd => rw [hd] at h; cases h
  · next hd => rw [hd] at h; cases h
  · next r hd => exact absurd hd (hr r)
  · rfl

theorem Drive.follows_opened (x : Door) :
    Drive.Follows .localControl x.drive ((toLocalControlDrive x).getD x.drive) := by
  by_cases hl : x.drive.leavesAt .localControl = true
  · have rests : toLocalControlDrive x = some .resting :=
      toLocalControlDrive_rests ((Drive.leavesAt_localControl.mp hl).imp_right .inl)
    rw [rests]
    exact ⟨fun _ => rfl, fun h => absurd (h.symm.trans hl) nofun, fun h => absurd (h.symm.trans hl) nofun, nofun⟩
  · by_cases hr : ∃ r, x.drive = .recloseWait r
    · rw [toLocalControlDrive_rests (.inr (.inr hr))]
      obtain ⟨r, hd⟩ := hr
      exact ⟨fun _ => rfl, fun _ h => by (rw [hd] at h; cases h), fun _ h => by (rw [hd] at h; cases h), nofun⟩
    · rw [toLocalControlDrive_none (by simpa using hl) (not_exists.mp hr)]
      exact Drive.follows_refl (by simpa using hl)

/-- R42: a POWERED door at rest after the step rested before, or waited to open for a station. -/
theorem Door.toClosed_drive (h : x.takesLocal = true) :
    (x.drive = .queued .toOpen .station → (x.toClosed t).drive = .resting) ∧
      (∀ tr, x.drive = .moving .toOpen .station tr → (x.toClosed t).drive = startDrive t.env x .toClose .mode) ∧
      (x.drive ≠ .queued .toOpen .station → (∀ tr, x.drive ≠ .moving .toOpen .station tr) →
        (x.toClosed t).drive = x.drive) := by
  rw [Door.toClosed_taken h]
  refine ⟨fun hd => ?_, fun tr hd => ?_, fun hq hm => ?_⟩
  · simp [toDoorsClosedDrive, hd]
  · simp [toDoorsClosedDrive, hd]
  · simp [toDoorsClosedDrive_none hq hm]

theorem Drive.follows_closed (hp : x.powered = true) : Drive.Follows .doorsClosed x.drive (x.toClosed t).drive := by
  by_cases hi : x.drive = .isolated
  · rw [Door.toClosed_passed fun h => (Door.takesLocal_iff.mp h).2 hi]
    exact Drive.follows_refl (by rw [hi]; rfl)
  · obtain ⟨rests, turns, stands⟩ := Door.toClosed_drive (t := t) (Door.takesLocal_iff.mpr ⟨hp, hi⟩)
    by_cases hq : x.drive = .queued .toOpen .station
    · have hl := Drive.leavesAt_doorsClosed.mpr hq
      rw [rests hq]
      exact ⟨fun _ => rfl, fun h => absurd (h.symm.trans hl) nofun, fun h => absurd (h.symm.trans hl) nofun, nofun⟩
    · have hl : x.drive.leavesAt .doorsClosed = false := by
        rw [← Bool.not_eq_true, Drive.leavesAt_doorsClosed]
        exact hq
      by_cases hm : ∃ tr, x.drive = .moving .toOpen .station tr
      · obtain ⟨tr, hd⟩ := hm
        obtain ⟨slot, unqueued⟩ := startDrive_slot t.env x .toClose .mode
        rw [turns tr hd]
        exact ⟨fun h => absurd (hl.symm.trans h) nofun, fun _ h => by (rw [hd] at h; cases h), fun _ _ => slot,
          fun h => absurd (unqueued.symm.trans h) nofun⟩
      · rw [stands hq (not_exists.mp hm)]
        exact Drive.follows_refl hl

theorem Door.Moded.follows {v : VesselMode} (h : x.Moded t w) (hv : t.command.mode = some v)
    (touch : v = .doorsClosed → InTouch t x) (hp : x.powered = true) : Drive.Follows v x.drive w.drive := by
  have mode := Env.doorsClosed_mode hv
  cases v with
  | localControl =>
    rw [(h.opened mode).2]
    exact Drive.follows_opened x
  | doorsClosed =>
    rw [h.closed mode (touch rfl)]
    exact Drive.follows_closed hp

/-- R42: the doors that the checks of a change to DOORS_CLOSED queue. -/
def Door.JoinsAt (t : State) (x : Door) : Prop :=
  (x.drive = .resting ∨ x.drive = .queued .toOpen .station) ∧ Enforced t x (x.hold || x.inp.debounced.lo)

theorem Door.toClosed_resting (h : x.takesLocal = true) :
    (x.toClosed t).drive = .resting ↔ x.drive = .resting ∨ x.drive = .queued .toOpen .station := by
  obtain ⟨rests, turns, stands⟩ := Door.toClosed_drive (t := t) h
  by_cases hq : x.drive = .queued .toOpen .station
  · simp [rests hq, hq]
  · by_cases hm : ∃ tr, x.drive = .moving .toOpen .station tr
    · obtain ⟨tr, hd⟩ := hm
      have bound := startDrive_bound t.env x .toClose .mode
      refine ⟨fun hr => ?_, fun hr => ?_⟩
      · rw [← turns tr hd, hr] at bound
        cases bound
      · rw [hd] at hr
        rcases hr with hr | hr <;> cases hr
    · rw [stands hq (not_exists.mp hm)]
      exact ⟨.inl, fun hr => hr.resolve_right hq⟩

theorem Door.Moded.rests_enforced {v : VesselMode} (h : x.Moded t w) (hv : t.command.mode = some v)
    (touch : v = .doorsClosed → InTouch t x) :
    (w.drive = .resting ∧ Enforced t w w.hold) ↔ x.JoinsAt t := by
  cases v with
  | localControl =>
    have opened : ∀ z hold, ¬ Enforced t z hold := fun z hold he => by
      rw [he.1] at hv
      cases hv
    exact ⟨fun he => absurd he.2 (opened _ _), fun he => absurd he.2 (opened _ _)⟩
  | doorsClosed =>
    rw [h.closed (Env.doorsClosed_mode hv) (touch rfl)]
    by_cases ht : x.takesLocal = true
    · unfold Door.JoinsAt
      rw [Door.toClosed_resting ht, Door.toClosed_taken ht]
      exact Iff.rfl
    · rw [Door.toClosed_passed ht]
      have passes : ∀ hold, Enforced t x hold → x.drive = .isolated := fun hold he => by
        by_contra hi
        exact ht (Door.takesLocal_iff.mpr ⟨he.2.1, hi⟩)
      refine ⟨fun ⟨hd, he⟩ => ?_, fun ⟨hd, he⟩ => ?_⟩
      · rw [passes _ he] at hd
        cases hd
      · rw [passes _ he] at hd
        rcases hd with hd | hd <;> cases hd

theorem Door.checkedDrive_stands (h : x.drive ≠ .resting) : x.checkedDrive t = x.drive := if_neg h

theorem Door.checkedDrive_resting (h : x.drive = .resting) :
    x.checkedDrive t = if Enforced t x x.hold then .queued .toClose .mode else .resting := if_pos h

/-! ## The groups (R66 to R71, R75) -/

/-- R67, R69: a door joins as a close where the checks queue it, and nowhere else. -/
theorem Door.Changed.waitsToClose {v : VesselMode} (h : x.Changed t w z) (hv : t.command.mode = some v)
    (touch : v = .doorsClosed → InTouch t x) :
    (z.drive.waitsToClose && !w.drive.waitsToClose) = true ↔ x.JoinsAt t := by
  rw [← h.moded.rests_enforced hv touch, h.checked.drive]
  by_cases hd : w.drive = .resting
  · rw [Door.checkedDrive_resting hd, hd]
    by_cases he : Enforced t w w.hold
    · rw [if_pos he]
      exact ⟨fun _ => ⟨rfl, he⟩, fun _ => rfl⟩
    · rw [if_neg he]
      exact ⟨nofun, fun h => absurd h.2 he⟩
  · rw [Door.checkedDrive_stands hd]
    simp [hd]

/-- R66, R67: a door's part in the lists, from its drive state before to that after the checks. -/
structure Door.ListsAt (v : VesselMode) (x w z : Door) : Prop where
  slot : x.drive.hasSlot = true → (w.drive.hasSlot && z.drive.hasSlot) = !x.drive.leavesAt v
  leaves : x.drive.isQueued = true → x.drive.leavesAt v = true → w.drive.isQueued = false
  waits : x.drive.isQueued = true → x.drive.leavesAt v = false → w.drive = x.drive ∧ z.drive = x.drive

theorem Door.Changed.listsAt {v : VesselMode} (h : x.Changed t w z) (hv : t.command.mode = some v)
    (touch : v = .doorsClosed → InTouch t x) (hp : x.powered = true) : Door.ListsAt v x w z := by
  have follows := h.moded.follows hv touch hp
  have stands : w.drive ≠ .resting → z.drive = w.drive := fun hd => by
    rw [h.checked.drive, Door.checkedDrive_stands hd]
  refine ⟨fun hs => ?_, fun _ hl => ?_, fun hq hl => ?_⟩
  · cases hl : x.drive.leavesAt v with
    | true => rw [follows.leaves hl]; rfl
    | false =>
      have slot := follows.holds hl hs
      have bound : w.drive ≠ .resting := fun hr => by
        rw [hr] at slot
        cases slot
      rw [stands bound, slot]
      rfl
  · rw [follows.leaves hl]; rfl
  · have same := follows.waits hl hq
    have bound : w.drive ≠ .resting := fun hr => by
      rw [← same, hr] at hq
      cases hq
    exact ⟨same, (stands bound).trans same⟩

theorem Door.powered_of_cls {g : GroupNum} (h : x.st.cls = .powered g) : x.powered = true := by
  simp [Door.powered, h]

end

/-- R42, R43, R69: the group that the new mode and the checks leave. -/
theorem Yard.moded_group {t : State} (hl : t.yard.arbiterLawful) {v : VesselMode} (hv : t.command.mode = some v)
    (touch : v = .doorsClosed → ∀ d x, t.door? d = some x → InTouch t x) {g : GroupNum} {stays joins : Nat → Bool}
    (hstays : ∀ k x, t.door? k = some x → stays k = !x.drive.leavesAt v)
    (hjoins : ∀ k x, t.door? k = some x → (joins k = true ↔ x.st.cls = .powered g ∧ x.JoinsAt t)) :
    let r := t.yard.groups.get g
    ((t.yard.moded t.env).enforceAll t.env).groups.get g =
      { slotCount := r.slotCount
        holders := r.holders.filter stays
        queue := r.queue.filter (fun k => stays k && t.waitsToClose g k) ++ (List.range t.doorCount).filter joins ++
          r.queue.filter fun k => stays k && !t.waitsToClose g k } := by
  intro r
  let t1 := t.setYard (t.yard.moded t.env)
  let t2 := t.setYard ((t.yard.moded t.env).enforceAll t.env)
  have lawful : t1.yard.arbiterLawful := Yard.arbiterLawful_foldl (fun y d hy => Yard.arbiterLawful_toMode hy t.env d) _ hl
  have leave : t1.yard.groups.get g = doorsLeft t t1 g := doorsLeave_iff.mp (DoorsLeave.foldl hl
    (fun y d hy => Yard.arbiterLawful_toMode hy t.env d)
    (fun y d x hx => let ⟨w, leaves, _⟩ := Yard.toMode_leaves (t := t) hx; ⟨w, leaves⟩)
    fun d hd => List.mem_range.mp hd) g
  have join : t2.yard.groups.get g = closesJoined t1 t2 g := closesJoin_iff.mp (ClosesJoin.foldl_range lawful
    (fun y d => y.calm_enforce t.env d) (fun y d hy => Yard.arbiterLawful_enforce hy t.env d)
    (fun y d x hx => let ⟨z, closes, _⟩ := Yard.enforce_closes (t := t) hx; ⟨z, closes⟩) (Nat.le_refl _)) g
  -- the lists of the two steps, at each door
  have each : ∀ k x, t.door? k = some x → ∃ w z, t1.door? k = some w ∧ t2.door? k = some z ∧ x.Changed t w z :=
    fun k x hx => t.yard.changed_each t hx
  have entries : ∀ k ∈ r.queue, t1.waiting k = stays k ∧ (stays k = true →
      t1.waitsToClose g k = t.waitsToClose g k ∧ t2.waitsToClose g k = t.waitsToClose g k ∧ t2.waiting k = true) :=
    fun k hk => by
      obtain ⟨x, hx, hg, hq⟩ := (hl.queue g k).mp hk
      obtain ⟨w, z, hw, hz, changed⟩ := each k x hx
      have lists := changed.listsAt hv (fun h => touch h k x hx) (Door.powered_of_cls hg)
      rw [State.waiting_eq hw, hstays k x hx]
      cases hs : x.drive.leavesAt v with
      | true => exact ⟨lists.leaves hq hs, nofun⟩
      | false =>
        obtain ⟨first, last⟩ := lists.waits hq hs
        rw [State.waitsToClose_eq hw, State.waitsToClose_eq hz, State.waitsToClose_eq hx, State.waiting_eq hz, first, last,
          Door.st_congr (changed.checked.static.trans changed.moded.static), Door.st_congr changed.moded.static]
        exact ⟨hq, fun _ => ⟨rfl, rfl, hq⟩⟩
  have joined : ∀ k ∈ List.range t.doorCount, (t2.waitsToClose g k && !t1.waitsToClose g k) = joins k := fun k hk => by
    obtain ⟨x, hx⟩ : ∃ x, t.door? k = some x := ⟨_, List.getElem?_eq_getElem (List.mem_range.mp hk)⟩
    obtain ⟨w, z, hw, hz, changed⟩ := each k x hx
    rw [Bool.eq_iff_iff, hjoins k x hx, ← changed.waitsToClose hv fun h => touch h k x hx, State.waitsToClose_eq hw,
      State.waitsToClose_eq hz, Door.st_congr (changed.checked.static.trans changed.moded.static),
      Door.st_congr changed.moded.static]
    cases hc : x.st.cls == .powered g with
    | true => simp [beq_iff_eq.mp hc]
    | false => simp [beq_eq_false_iff_ne.mp hc]
  refine join.trans (Group.eq_of ?_ ?_ ?_)
  · have counts : (t1.yard.groups.get g).slotCount = r.slotCount := by rw [leave]; rfl
    exact counts
  · simp only [closesJoined, leave, doorsLeft, List.filter_filter]
    refine List.filter_congr fun k hk => ?_
    obtain ⟨x, hx, hg, hs⟩ := (hl.holders g k).mp hk
    obtain ⟨w, z, hw, hz, changed⟩ := each k x hx
    rw [State.slotted_eq hw, State.slotted_eq hz, hstays k x hx, Bool.and_comm]
    exact (changed.listsAt hv (fun h => touch h k x hx) (Door.powered_of_cls hg)).slot hs
  · have count : t1.doorCount = t.doorCount := t.yard.moded_length t.env
    simp only [closesJoined, leave, doorsLeft, List.filter_filter, count]
    refine congrArg₂ (· ++ ·) (congrArg₂ (· ++ ·) (List.filter_congr fun k hk => ?_) (List.filter_congr joined))
      (List.filter_congr fun k hk => ?_)
    · obtain ⟨waits, lists⟩ := entries k hk
      cases hs : stays k with
      | false => simp [waits, hs]
      | true => simp [waits, hs, lists hs]
    · obtain ⟨waits, lists⟩ := entries k hk
      cases hs : stays k with
      | false => simp [waits, hs]
      | true => simp [waits, hs, lists hs]

end Sys2Proof.Machine
end

section
/-! SUPPORT. MODE (R81, R82): the drive state that a change of mode gives each door, and the order. -/

namespace Sys2Proof.Machine

section

variable {t : State} {x w z v : Door}

/-! ## The record after the checks -/

/-- R43: a change to LOCAL_CONTROL, after which no check takes effect. -/
theorem Door.Changed.opened (h : x.Changed t w z) (hm : t.env.doorsClosed = false) :
    z.hold = false ∧ z.drive = (toLocalControlDrive x).getD x.drive := by
  have open_mode : t.command.mode ≠ some .doorsClosed := by simpa [Env.doorsClosed, State.env] using hm
  have passes : ¬ Enforced t w w.hold := fun he => open_mode he.1
  have stands : w.checkedDrive t = w.drive := by
    unfold Door.checkedDrive
    split
    · next hd => rw [Door.restDrive_resting passes, hd]
    · rfl
  obtain ⟨hold, drive⟩ := h.moded.opened hm
  rw [h.checked.record (.inr passes), stands]
  exact ⟨hold, drive⟩

/-- R42: a change to DOORS_CLOSED, where nothing makes the door stale. -/
theorem Door.Changed.closed (h : x.Changed t w z) (hm : t.env.doorsClosed = true) (touch : InTouch t x) :
    z = { x.toClosed t with drive := (x.toClosed t).checkedDrive t } := by
  have record := h.moded.closed hm touch
  have kept : (x.toClosed t).inp = x.inp := by
    unfold Door.toClosed
    simp only
    split <;> rfl
  have still : InTouch t w := by
    unfold InTouch
    rw [record, kept]
    exact touch
  rw [h.checked.record (.inl still), record]

/-- R42: a door that the change passes over. -/
theorem Door.toClosed_checked (h : ¬ x.takesLocal = true) :
    { x.toClosed t with drive := (x.toClosed t).checkedDrive t } = x := by
  have stands : x.checkedDrive t = x.drive := by
    by_cases hd : x.drive = .resting
    · have passes : ¬ Enforced t x x.hold := fun he =>
        h (Door.takesLocal_iff.mpr ⟨he.2.1, by rw [hd]; exact nofun⟩)
      rw [Door.checkedDrive_resting hd, if_neg passes, hd]
    · exact Door.checkedDrive_stands hd
  rw [Door.toClosed_passed h, stands]

/-- R41, R42: where a POWERED door that is not ISOLATED goes. -/
theorem Door.toClosed_goes (h : x.takesLocal = true) : let goes := (x.toClosed t).checkedDrive t
    (x.drive = .resting ∨ x.drive = .queued .toOpen .station →
      goes = if Enforced t x (x.hold || x.inp.debounced.lo) then .queued .toClose .mode else .resting) ∧
    (∀ tr, x.drive = .moving .toOpen .station tr → goes = startDrive t.env x .toClose .mode) ∧
    (x.drive ≠ .resting → x.drive ≠ .queued .toOpen .station → (∀ tr, x.drive ≠ .moving .toOpen .station tr) →
      goes = x.drive) := by
  intro goes
  obtain ⟨-, turns, stands⟩ := Door.toClosed_drive (t := t) h
  refine ⟨fun hd => ?_, fun tr hd => ?_, fun hr hq hm => ?_⟩
  · have held : Enforced t (x.toClosed t) (x.toClosed t).hold = Enforced t x (x.hold || x.inp.debounced.lo) := by
      rw [Door.toClosed_taken h]
      rfl
    refine (Door.checkedDrive_resting ((Door.toClosed_resting h).mpr hd)).trans ?_
    simp only [held]
  · refine (Door.checkedDrive_stands fun hr => ?_).trans (turns tr hd)
    have bound := startDrive_bound t.env x .toClose .mode
    rw [← turns tr hd, hr] at bound
    cases bound
  · have same := stands hq hm
    exact (Door.checkedDrive_stands (by rw [same]; exact hr)).trans same

/-- R28: a QUEUED door stands, or is granted. -/
theorem Door.MaybeGranted.queuedOrGranted {dir : Direction} {o : Origin} (h : z.MaybeGranted t.env v)
    (hst : z.static = x.static) (hq : z.drive = .queued dir o) : QueuedOrGranted t x dir o v.drive := by
  rcases h with rfl | ⟨dir', o', hd, rfl⟩
  · exact .inl hq
  · cases hq.symm.trans hd
    refine .inr ((startDrive_eq t z dir o).trans ?_)
    rw [Door.st_congr hst]

theorem Door.MaybeGranted.drive (h : z.MaybeGranted t.env v) (hq : z.drive.isQueued = false) : v.drive = z.drive :=
  congrArg Door.drive (h.unqueued hq)

/-! ## The doors in LOCAL_CONTROL (R43) and in DOORS_CLOSED (R42) -/

/-- R43: what a change to LOCAL_CONTROL leaves of a door. -/
structure Door.Opened (t : State) (x z : Door) : Prop where
  hold : z.hold = false
  inhibit : z.inhibit = x.inhibit
  tripCount : z.prot.tripCount = x.prot.tripCount
  rests : x.drive = .queued .toClose .mode ∨ (∃ p, x.drive = .warning .mode p) ∨ (∃ r, x.drive = .recloseWait r) →
    z.drive = .resting
  warns : ∀ o p, x.drive = .warning o p → o ≠ .mode → z.drive = x.drive
  stands : x.drive = .resting ∨ x.drive = .isolated ∨ (∃ r, x.drive = .tripped r) ∨
    (∃ dir o tr, x.drive = .moving dir o tr) → z.drive = x.drive
  waits : ∀ dir o, x.drive = .queued dir o → ¬ (dir = .toClose ∧ o = .mode) → QueuedOrGranted t x dir o z.drive

theorem Door.Changed.opened_after (h : x.Changed t w z) (hm : t.env.doorsClosed = false) (hg : z.MaybeGranted t.env v) :
    Door.Opened t x v := by
  obtain ⟨hold, drive⟩ := h.opened hm
  obtain ⟨-, -, same_hold, same_inhibit, same_count⟩ := hg.frame
  have stays : toLocalControlDrive x = none → x.drive.isQueued = false → v.drive = x.drive := fun hn hq => by
    rw [hn] at drive
    exact (hg.drive (drive ▸ hq)).trans drive
  have passed : ¬ (x.drive = .queued .toClose .mode ∨ (∃ p, x.drive = .warning .mode p)) →
      (∀ r, x.drive ≠ .recloseWait r) → toLocalControlDrive x = none := fun hl =>
    toLocalControlDrive_none (by rw [← Bool.not_eq_true, Drive.leavesAt_localControl]; exact hl)
  have same : z.inhibit = x.inhibit ∧ z.prot.tripCount = x.prot.tripCount ∧ z.static = x.static := by
    have open_mode : t.command.mode ≠ some .doorsClosed := by simpa [Env.doorsClosed, State.env] using hm
    rw [h.checked.record (.inr fun he => open_mode he.1)]
    exact ⟨h.moded.inhibit, h.moded.tripCount, h.moded.static⟩
  obtain ⟨inhibit, tripCount, static⟩ := same
  refine ⟨same_hold.trans hold, same_inhibit.trans inhibit, same_count.trans tripCount, fun hd => ?_, fun o p hd ho => ?_,
    fun hd => ?_, fun dir o hd ho => ?_⟩
  · rw [toLocalControlDrive_rests hd] at drive
    exact (hg.drive (by rw [drive]; rfl)).trans drive
  · refine stays (passed ?_ (by simp [hd])) (by rw [hd]; rfl)
    rw [hd]
    simpa using ho
  · rcases hd with hd | hd | ⟨r, hd⟩ | ⟨dir, o, tr, hd⟩ <;>
      exact stays (passed (by simp [hd]) (by simp [hd])) (by rw [hd]; rfl)
  · have none_taken : toLocalControlDrive x = none := by
      refine passed ?_ (by simp [hd])
      rw [hd]
      simpa using ho
    rw [none_taken] at drive
    exact hg.queuedOrGranted static (drive.trans hd)

/-- R42: what a change to DOORS_CLOSED leaves of a POWERED door. -/
structure Door.Closed (t : State) (x z : Door) : Prop where
  inp : z.inp = x.inp
  position : z.position = x.position
  inhibit : z.inhibit = x.inhibit
  tripCount : z.prot.tripCount = x.prot.tripCount
  isolated : x.drive = .isolated → z.drive = .isolated ∧ z.hold = x.hold
  hold : x.drive ≠ .isolated → z.hold = (x.hold || x.inp.debounced.lo)
  stands : (∃ r, x.drive = .tripped r) ∨ (∃ r, x.drive = .recloseWait r) ∨ (∃ o p, x.drive = .warning o p) ∨
    (∃ o tr, x.drive = .moving .toClose o tr) ∨ (∃ tr, x.drive = .moving .toOpen .localReq tr) → z.drive = x.drive
  waits : ∀ dir o, x.drive = .queued dir o → ¬ (dir = .toOpen ∧ o = .station) → QueuedOrGranted t x dir o z.drive
  turns : ∀ tr, x.drive = .moving .toOpen .station tr → z.drive =
    if 0 < t.times.prewarn then .warning .mode (t.clock + t.times.prewarn)
    else .moving .toClose .mode (t.clock + x.st.travelLimit)
  checked : x.drive = .resting ∨ x.drive = .queued .toOpen .station →
    (Enforced t x (x.hold || x.inp.debounced.lo) → QueuedOrGranted t x .toClose .mode z.drive) ∧
    (¬ Enforced t x (x.hold || x.inp.debounced.lo) → z.drive = .resting)

/-- R26: an opening of origin STATION turns. -/
theorem startDrive_mode (t : State) (x : Door) : startDrive t.env x .toClose .mode =
    if 0 < t.times.prewarn then .warning .mode (t.clock + t.times.prewarn)
    else .moving .toClose .mode (t.clock + x.st.travelLimit) := by
  rw [startDrive_eq]
  simp

theorem Door.Changed.closed_after (h : x.Changed t w z) (hm : t.env.doorsClosed = true) (touch : InTouch t x)
    (hp : x.powered = true) (hg : z.MaybeGranted t.env v) : Door.Closed t x v := by
  have record := h.closed hm touch
  obtain ⟨same_inp, same_position, same_hold, same_inhibit, same_count⟩ := hg.frame
  by_cases hi : x.drive = .isolated
  · rw [Door.toClosed_checked fun ht => (Door.takesLocal_iff.mp ht).2 hi] at record
    subst record
    have stands := hg.unqueued (by rw [hi]; rfl)
    subst stands
    refine ⟨rfl, rfl, rfl, rfl, fun _ => ⟨hi, rfl⟩, fun hn => absurd hi hn, fun _ => rfl, fun dir o hd => ?_,
      fun tr hd => ?_, fun hd => ?_⟩
    · rw [hi] at hd; cases hd
    · rw [hi] at hd; cases hd
    · rw [hi] at hd; rcases hd with hd | hd <;> cases hd
  · have ht := Door.takesLocal_iff.mpr ⟨hp, hi⟩
    obtain ⟨checks, turns, stands⟩ := Door.toClosed_goes (t := t) ht
    have drive : z.drive = (x.toClosed t).checkedDrive t := by rw [record]
    have taken := Door.toClosed_taken (t := t) ht
    have static : z.static = x.static := by rw [record, taken]
    refine ⟨same_inp.trans (by rw [record, taken]), same_position.trans (by rw [record, taken]),
      same_inhibit.trans (by rw [record, taken]), same_count.trans ?_, fun hd => absurd hd hi,
      fun _ => same_hold.trans (by rw [record, taken]), fun hd => ?_, fun dir o hd ho => ?_, fun tr hd => ?_,
      fun hd => ⟨fun he => ?_, fun he => ?_⟩⟩
    · rw [record, taken]
      exact Protection.moved_tripCount _ _ _
    · have goes : z.drive = x.drive ∧ x.drive.isQueued = false := by
        rcases hd with ⟨r, hd⟩ | ⟨r, hd⟩ | ⟨o, p, hd⟩ | ⟨o, tr, hd⟩ | ⟨tr, hd⟩ <;>
          exact ⟨drive.trans (stands (by simp [hd]) (by simp [hd]) (by simp [hd])), by rw [hd]; rfl⟩
      obtain ⟨same, unqueued⟩ := goes
      exact (hg.drive (by rw [same]; exact unqueued)).trans same
    · have same : z.drive = x.drive := drive.trans (stands (by simp [hd]) (by rw [hd]; simpa using ho) (by simp [hd]))
      exact hg.queuedOrGranted static (same.trans hd)
    · have goes := drive.trans ((turns tr hd).trans (startDrive_mode t x))
      refine (hg.drive ?_).trans goes
      rw [goes]
      split <;> rfl
    · have goes := drive.trans (checks hd)
      rw [if_pos he] at goes
      exact hg.queuedOrGranted static goes
    · have goes := drive.trans (checks hd)
      rw [if_neg he] at goes
      exact (hg.drive (by rw [goes]; rfl)).trans goes

/-- R42: an INDICATED door that is not bound stands. -/
theorem Door.Changed.closed_indicated (h : x.Changed t w z) (hm : t.env.doorsClosed = true) (touch : InTouch t x)
    (hp : x.powered = false) (hb : x.drive.bound = false) (hg : z.MaybeGranted t.env v) : v = x := by
  have record := h.closed hm touch
  rw [Door.toClosed_checked fun ht => absurd (hp.symm.trans (Door.takesLocal_iff.mp ht).1) nofun] at record
  subst record
  refine hg.unqueued ?_
  cases hd : z.drive <;> simp_all [Drive.bound, Drive.isQueued]

end

/-! ## The order (R81, R82) -/

section

variable {s : State} {m : Master} {addr : Addr} {w : Word}

/-- R82 step 1: the new mode. -/
def State.withMode (s : State) (v : VesselMode) : State := { s with command := { s.command with mode := some v } }

theorem State.takeMode_writer (h : s.command.holder ≠ some m) : s.takeMode m addr w = .refused .writer := if_pos h

theorem State.takeMode_value (h : s.command.holder = some m) (hw : modeOf w = none) :
    s.takeMode m addr w = .refused .badValue := by
  simp [State.takeMode, h, hw]

theorem State.takeMode_same {v : VesselMode} (h : s.command.holder = some m) (hw : modeOf w = some v)
    (hv : s.command.mode = some v) : s.takeMode m addr w = .taken s := by
  simp [State.takeMode, h, hw, hv]

theorem State.takeMode_taken {v : VesselMode} (h : s.command.holder = some m) (hw : modeOf w = some v)
    (hv : s.command.mode ≠ some v) : s.takeMode m addr w = .taken (s.changeMode m addr v) := by
  simp [State.takeMode, h, hw, hv]

/-- The word of a mode. -/
def modeWord (v : VesselMode) : Word :=
  match v with
  | .localControl => 1
  | .doorsClosed => 2

theorem modeOf_modeWord (v : VesselMode) : modeOf (modeWord v) = some v := by cases v <;> rfl

theorem State.changeMode_ring (v : VesselMode) : (s.changeMode m addr v).ring =
    s.ring.push (s.entryNow 19 m.val addr ((s.command.mode.map modeCode).getD 0) (modeWord v).toNat) := by
  cases v <;> rfl

/-- R82 steps 3 to 6: the record of one door, with every condition evaluated. -/
theorem State.changeMode_door (m : Master) (addr : Addr) (v : VesselMode) {d : Nat} {x : Door} (hx : s.door? d = some x) :
    ∃ w z y, x.Changed (s.withMode v) w z ∧ z.MaybeGranted (s.withMode v).env y ∧ y.alarms = x.alarms ∧
      (s.changeMode m addr v).door? d = some (y.evaluate (s.withMode v).env.doorsClosed) := by
  obtain ⟨w, z, y, hy, changed, granted⟩ := s.yard.modeChange_each (s.withMode v) hx
  have alarms := Yard.alarmsKept_modeChange s.yard (s.withMode v).env d
  rw [hy, show s.yard.doors[d]? = some x from hx] at alarms
  exact ⟨w, z, y, changed, granted, Option.some.inj alarms,
    State.endTakeAll_door (s := ((s.withMode v).capture _).setYard (s.yard.modeChange (s.withMode v).env)) hy⟩

/-- R42, R43, R72: the groups. -/
theorem State.changeMode_group (m : Master) (addr : Addr) (v : VesselMode) (hl : s.yard.arbiterLawful) (g : GroupNum) :
    (s.changeMode m addr v).yard.groups.get g =
      (((s.yard.moded (s.withMode v).env).enforceAll (s.withMode v).env).groups.get g).allGranted := by
  have lawful := Yard.arbiterLawful_enforceAll (Yard.arbiterLawful_foldl
    (fun y d hy => Yard.arbiterLawful_toMode hy (s.withMode v).env d) (List.range s.yard.doors.length) hl)
    (s.withMode v).env
  have groups : (s.changeMode m addr v).yard.groups = (s.yard.modeChange (s.withMode v).env).groups := rfl
  rw [groups, Yard.modeChange_moded]
  exact Yard.grantAll_group lawful _ g

/-- R104: the end of a take keeps every static part. -/
theorem State.endTake_static (b : Yard) (t : State) (d : Nat) :
    ((State.endTake b t).door? d).map (·.static) = (t.door? d).map (·.static) := by
  cases hx : t.door? d with
  | none => rw [State.endTake_door_none hx]
  | some x =>
    obtain ⟨z, hz, same⟩ := State.endTake_door (b := b) hx
    rw [hz, same]
    rfl

theorem State.changeMode_manyDoors (m : Master) (addr : Addr) (v : VesselMode) :
    ManyDoors (s.withMode v) (s.changeMode m addr v) :=
  ⟨rfl, fun d => (State.endTake_static _ _ d).trans (Yard.staticKept_modeChange s.yard (s.withMode v).env d)⟩

end

/-- Settles O44: the doors by `Yard.modeChange_each`, their groups by `Yard.moded_group` and `Yard.grantAll_group`. -/
theorem modeOrder : Obligations.ModeOrder := by
  intro s m addr w h
  refine ⟨fun hm => exec_order_refused (r := .writer) rfl h (State.takeMode_writer hm), fun hm h1 h2 =>
    exec_order_refused (r := .badValue) rfl h (State.takeMode_value hm (by simp only [modeOf, if_neg h1, if_neg h2])),
    fun v hm hw => ?_⟩
  obtain rfl : w = modeWord v := hw
  refine ⟨fun hv => exec_order_taken rfl h (State.takeMode_same hm (modeOf_modeWord v) hv), fun hv =>
    ⟨s.changeMode m addr v, exec_order_taken rfl h (State.takeMode_taken hm (modeOf_modeWord v) hv),
      State.changeMode_manyDoors m addr v, ?_, fun hl g => ?_, State.linesJudged _, fun d x hx => ?_,
      fun hl touch g => ?_, ?_, ?_⟩⟩
  · rw [State.changeMode_ring]
    cases s.command.mode with
    | none => rfl
    | some old => cases old <;> rfl
  · rw [State.changeMode_group m addr v hl]
    exact Group.allGranted_not_due _
  · obtain ⟨w, z, y, -, -, alarms, hy⟩ := State.changeMode_door m addr v hx
    exact ⟨_, hy, by unfold Evaluated; rw [← alarms]; rfl⟩
  · intro r stays joins holders queue free
    have stays_eq : ∀ k x, s.door? k = some x → stays k = !x.drive.leavesAt v := fun k x hx => by
      simp only [stays, hx]
    have joins_iff : ∀ k x, s.door? k = some x →
        (joins k = true ↔ x.st.cls = .powered g ∧ x.JoinsAt (s.withMode v)) := fun k x hx => by
      simp only [joins, hx, Bool.and_eq_true, beq_iff_eq, decide_eq_true_eq]
      exact Iff.rfl
    have settled := Yard.moded_group (t := s.withMode v) hl rfl touch stays_eq joins_iff
    exact (State.changeMode_group m addr v hl g).trans (congrArg Group.allGranted settled)
  · rintro rfl d x hx
    obtain ⟨w, z, y, changed, granted, -, hy⟩ := State.changeMode_door m addr .localControl hx
    have r := changed.opened_after rfl granted
    exact ⟨_, hy, r.hold, r.inhibit, r.tripCount, r.rests, r.warns, r.stands, r.waits⟩
  · rintro rfl touch
    refine ⟨fun d x hx hb hp => ?_, fun d x hx hp => ?_⟩
    · obtain ⟨w, z, y, changed, granted, -, hy⟩ := State.changeMode_door m addr .doorsClosed hx
      obtain rfl := changed.closed_indicated rfl (touch d x hx) hp hb granted
      exact ⟨_, hy, rfl⟩
    · obtain ⟨w, z, y, changed, granted, -, hy⟩ := State.changeMode_door m addr .doorsClosed hx
      have r := changed.closed_after rfl (touch d x hx) hp granted
      exact ⟨_, hy, r.inp, r.position, r.inhibit, r.tripCount, r.isolated, r.hold, r.stands, r.waits, r.turns, r.checked⟩

end Sys2Proof.Machine
end

section
/-! SUPPORT. Alarm states, alarm conditions and lines (R4, R103 to R113): what the end of a take leaves of each door, the
conditions in the words of R103, and the lines. -/

namespace Sys2Proof.Machine

/-! ## The end of a take, door by door (R104) -/

/-- R104: a door whose alarm inputs stand is not evaluated. -/
theorem State.endTake_door_unevaluated {before : Yard} {s : State} {d : Nat} {b x : Door}
    (hb : before.doors[d]? = some b) (hx : s.door? d = some x) (same : b.alarmInputs = x.alarmInputs) :
    (State.endTake before s).door? d = some x := by
  refine (evaluateChanged_get s.env.doorsClosed before.doors s.yard.doors d).trans ?_
  rw [hb, show s.yard.doors[d]? = some x from hx, Option.map_some, Option.map_some, if_pos (congrArg some same)]

/-- R104: a door whose alarm inputs have changed is evaluated. -/
theorem State.endTake_door_evaluated {before : Yard} {s : State} {d : Nat} {b x : Door}
    (hb : before.doors[d]? = some b) (hx : s.door? d = some x) (changed : b.alarmInputs ≠ x.alarmInputs) :
    (State.endTake before s).door? d = some (x.evaluate s.env.doorsClosed) := by
  refine (evaluateChanged_get s.env.doorsClosed before.doors s.yard.doors d).trans ?_
  rw [hb, show s.yard.doors[d]? = some x from hx, Option.map_some, Option.map_some,
    if_neg fun h => changed (Option.some.inj h)]

/-! ## The rows that are events of the doors or of the arbiter -/

/-- An expiry that is not due changes nothing (log 4); one that is due ends as its take does. -/
theorem State.atExpiry_takeEnds {s : State} {timer : Option Nat} {take : State → State} (h : TakeEnds s (take s)) :
    s.atExpiry timer take = s ∨ TakeEnds s (s.atExpiry timer take) := by
  unfold State.atExpiry
  split
  · exact .inr h
  · exact .inl rfl

/-- R104: a door timer's expiry, whose operation at the door keeps every alarm state. -/
theorem State.atExpiry_doorTake {s : State} {timer : Option Nat} {f : Yard → Env → Yard} {cs : List Capture} {d : Nat}
    (h : Yard.Calm d s.yard (f s.yard s.env)) :
    s.atExpiry timer (·.doorTake f cs) = s ∨ TakeEnds s (s.atExpiry timer (·.doorTake f cs)) :=
  State.atExpiry_takeEnds (State.takeEnds_doorTake h.alarms)

theorem exec_debounceExpiry_ends (s : State) (d : Nat) (i : Input) :
    ∃ t, exec (.debounceExpiry d i) s = .next t ∧ (t = s ∨ TakeEnds s t) := by
  show ∃ t, execDebounceExpiry d i s = .next t ∧ _
  unfold execDebounceExpiry
  split
  · exact ⟨_, rfl, State.atExpiry_doorTake (Yard.calm_debounceExpiry _ _ _ _)⟩
  · exact ⟨s, rfl, .inl rfl⟩

theorem exec_slotGrant_ends (s : State) (g : GroupNum) :
    ∃ t, exec (.slotGrant g) s = .next t ∧ (t = s ∨ TakeEnds s t) := by
  refine ⟨_, rfl, ?_⟩
  split
  · exact .inr (State.takeEnds_doorTake (Yard.alarmsKept_grants _ _ _ _))
  · exact .inl rfl

/-- Settles O42: each door's record by `evaluateChanged_get`, the rows by what their operations keep of the alarms. -/
theorem alarmStatesFollowTheirTables : Obligations.AlarmStatesFollowTheirTables := by
  unfold Obligations.AlarmStatesFollowTheirTables
  refine ⟨fun before s d b x hb hx => ⟨State.endTake_door_unevaluated hb hx, State.endTake_door_evaluated hb hx⟩,
    by decide, fun before s => State.endTake_ring s before, fun s d i g c hc => ?_,
    fun s d w arrival => (s.sensorTake_oneDoor d w arrival).ends⟩
  simp only [List.mem_cons, List.not_mem_nil, or_false] at hc
  rcases hc with rfl | rfl | rfl | rfl | rfl | rfl | rfl | rfl | rfl
  · exact exec_debounceExpiry_ends s d i
  · exact ⟨_, rfl, State.atExpiry_doorTake (Yard.calm_freshnessExpiry _ _ _)⟩
  · exact ⟨_, rfl, State.atExpiry_doorTake (Yard.calm_prewarnExpiry _ _ _)⟩
  · exact ⟨_, rfl, State.atExpiry_doorTake (Yard.calm_travelExpiry _ _ _)⟩
  · exact ⟨_, rfl, State.atExpiry_doorTake (Yard.calm_rest _ _ _ _)⟩
  · exact ⟨_, rfl, State.atExpiry_takeEnds (State.takeEnds_doorTake (Yard.calm_trip _ _ _).alarms)⟩
  · exact ⟨_, rfl, State.atExpiry_doorTake (Yard.calm_motionRequest _ _ _ _ _)⟩
  · exact ⟨_, rfl, State.atExpiry_doorTake (Yard.calm_settleExpiry _ _)⟩
  · exact exec_slotGrant_ends s g

/-! ## Positions (R4) -/

theorem derivePosition_unknown {authorized : Bool} {i : InputPart}
    (h : i.stale = true ∨ i.reported = false ∨ authorized = false) : derivePosition authorized i = .unknown :=
  if_pos (by rcases h with h | h | h <;> simp [h])

/-- R4: a door in sight. -/
theorem derivePosition_inSight {i : InputPart} (hs : i.stale = false) (hr : i.reported = true) :
    (i.debounced.cl = true → i.debounced.ol = false → derivePosition true i = .closed) ∧
    (i.debounced.cl = false → i.debounced.ol = true → derivePosition true i = .opened) ∧
    (i.debounced.cl = false → i.debounced.ol = false → derivePosition true i = .between) ∧
    (i.debounced.cl = true → i.debounced.ol = true → derivePosition true i = .conflict) := by
  unfold derivePosition
  rw [if_neg (by simp [hs, hr])]
  exact ⟨fun hcl hol => by rw [hcl, hol], fun hcl hol => by rw [hcl, hol], fun hcl hol => by rw [hcl, hol],
    fun hcl hol => by rw [hcl, hol]⟩

/-! ## Alarm conditions (R103) -/

section

variable {dc : Bool} {x : Door}

theorem Position.standsOpen_iff {p : Position} : p.standsOpen = true ↔ p = .opened ∨ p = .between := by
  cases p <;> simp [Position.standsOpen]

theorem Door.powered_iff : x.powered = true ↔ x.st.cls ≠ .indicated := by
  rw [← not_iff_not, Bool.not_eq_true, Door.powered_eq_false, not_not]

theorem Drive.isIsolated_eq_false {drive : Drive} : drive.isIsolated = false ↔ drive ≠ .isolated := by
  rw [← Bool.not_eq_true, Drive.isIsolated_iff]

/-- R103: what excuses a POWERED door that stands open. -/
theorem Door.openExcused_eq_false : x.openExcused = false ↔
    x.hold = false ∧ (∀ r, x.drive ≠ .recloseWait r) ∧ x.drive.direction ≠ some .toClose := by
  unfold Door.openExcused
  cases x.drive <;> simp [Drive.direction]

theorem conditions_doorOpen : (conditions dc x).doorOpen = true ↔
    dc = true ∧ x.drive ≠ .isolated ∧ (x.position = .opened ∨ x.position = .between) ∧
      (x.st.cls ≠ .indicated →
        x.hold = false ∧ (∀ r, x.drive ≠ .recloseWait r) ∧ x.drive.direction ≠ some .toClose) := by
  simp only [conditions, Bool.and_eq_true, Bool.not_eq_true', Bool.and_eq_false_imp, Door.powered_iff,
    Door.openExcused_eq_false, Position.standsOpen_iff, Drive.isIsolated_eq_false, and_assoc]

theorem conditions_tripped : (conditions dc x).tripped = true ↔ ∃ r, x.drive = .tripped r := by
  cases hd : x.drive <;> simp [conditions, hd]

theorem conditions_drivePower : (conditions dc x).drivePower = true ↔
    x.st.cls ≠ .indicated ∧ x.drive ≠ .isolated ∧ x.powerSeen = true ∧ x.inp.pw = false := by
  simp only [conditions, Bool.and_eq_true, Bool.not_eq_true', Door.powered_iff, Drive.isIsolated_eq_false, and_assoc]

end

/-! ## The PART_FAULT line (R113) -/

theorem judgePartFault_iff {part : PartState} {m : Mirror} : judgePartFault part m = true ↔
    part = .transparent ∨ m.bankA.state = .failed ∨ m.bankB.state = .failed ∨ m.imageLost = true := by
  simp [judgePartFault, or_assoc]

/-- Settles O43: positions and conditions kind by kind, the door lines by `State.linesJudged`. -/
theorem positionsConditionsAndLines : Obligations.PositionsConditionsAndLines := by
  exact ⟨fun authorized i => ⟨derivePosition_unknown, fun hs hr ha => ha ▸ derivePosition_inSight hs hr⟩,
    fun dc x => ⟨conditions_doorOpen, conditions_tripped, beq_iff_eq, beq_iff_eq, Iff.rfl, beq_iff_eq,
      conditions_drivePower⟩,
    fun before s => ⟨State.linesJudged _, judgePartFault_iff⟩⟩

end Sys2Proof.Machine
end

section
/-! SUPPORT. ALARM_ACK (R106, R107): the doors it names acknowledged, and not evaluated again. -/

namespace Sys2Proof.Machine

/-! ## One change of record at the doors an order names -/

/-- The records of the doors below `n` changed one after another. -/
theorem Yard.foldl_range_modify_get (f : Door → Door) (y : Yard) (n k : Nat) :
    ((List.range n).foldl (fun y d => y.modify d f) y).doors[k]? =
      if k < n then (y.doors[k]?).map f else y.doors[k]? := by
  induction n with
  | zero => rfl
  | succ n ih =>
    rw [List.range_succ, List.foldl_append]
    refine (Yard.modify_get _ _ _ _).trans ?_
    rw [ih]
    rcases lt_trichotomy k n with hlt | rfl | hgt
    · rw [if_neg hlt.ne, if_pos hlt, if_pos (by omega)]
    · rw [if_pos rfl, if_neg (lt_irrefl k), if_pos (Nat.lt_succ_self k)]
    · rw [if_neg hgt.ne', if_neg (by omega), if_neg (by omega)]

theorem Yard.forSelected_modify_named (f : Door → Door) (y : Yard) {sel : DoorSelect} {k : Nat} {x : Door}
    (hk : sel.Names k) (hx : y.doors[k]? = some x) :
    (y.forSelected sel fun y d => y.modify d f).doors[k]? = some (f x) := by
  cases sel with
  | one d =>
    obtain rfl : d = k := hk
    exact (Yard.modify_get_same y d f).trans (congrArg _ hx)
  | all =>
    refine (Yard.foldl_range_modify_get f y y.doors.length k).trans ?_
    rw [if_pos (List.getElem?_eq_some_iff.mp hx).1, hx, Option.map_some]

theorem Yard.forSelected_modify_unnamed (f : Door → Door) (y : Yard) {sel : DoorSelect} {k : Nat}
    (hk : ¬ sel.Names k) : (y.forSelected sel fun y d => y.modify d f).doors[k]? = y.doors[k]? := by
  cases sel with
  | one d => exact Yard.modify_get_ne y f (Ne.symm hk)
  | all => exact absurd trivial hk

theorem Yard.forSelected_modify_groups (f : Door → Door) (y : Yard) (sel : DoorSelect) :
    (y.forSelected sel fun y d => y.modify d f).groups = y.groups := by
  cases sel with
  | one d => rfl
  | all => exact List.foldlRecOn (motive := fun z : Yard => z.groups = y.groups) _ _ rfl fun _ hz _ _ => hz

theorem Yard.staticKept_modify {f : Door → Door} (hf : ∀ x, (f x).static = x.static) (y : Yard) (d : Nat) :
    Yard.StaticKept y (y.modify d f) := by
  intro k
  rw [Yard.modify_get]
  split
  · rw [Option.map_map]
    exact congrArg (Option.map · _) (funext hf)
  · rfl

/-! ## ALARM_ACK -/

/-- R106: a door's alarm states acknowledged. -/
def Door.acknowledged (x : Door) : Door := { x with alarms := x.alarms.map AlarmState.acknowledge }

/-- R107: the yard with the named doors acknowledged. -/
def Yard.acknowledged (y : Yard) (sel : DoorSelect) : Yard := y.forSelected sel Yard.acknowledgeDoor

section

variable {s : State} {m : Master} {w : Word} {sel : DoorSelect}

theorem State.takeAlarmAck_writer (h : (s.role m).isStation = false) : s.takeAlarmAck m w = .refused .writer := by
  simp [State.takeAlarmAck, h]

theorem State.takeAlarmAck_value (h : (s.role m).isStation = true) (hw : doorSelectOf w s.doorCount = none) :
    s.takeAlarmAck m w = .refused .badValue := by
  simp [State.takeAlarmAck, h, hw]

theorem State.takeAlarmAck_taken (h : (s.role m).isStation = true) (hw : doorSelectOf w s.doorCount = some sel) :
    s.takeAlarmAck m w = .taken ((s.setYard (s.yard.acknowledged sel)).endTake s.yard) := by
  simp [State.takeAlarmAck, h, hw, Yard.acknowledged]

/-- R104, R106: no alarm input of a named door changes, so the end of the take leaves what it acknowledged. -/
theorem State.acknowledged_named {d : Nat} {x : Door} (hd : sel.Names d) (hx : s.door? d = some x) :
    ((s.setYard (s.yard.acknowledged sel)).endTake s.yard).door? d = some x.acknowledged :=
  State.endTake_door_unevaluated (s := s.setYard (s.yard.acknowledged sel)) hx
    (Yard.forSelected_modify_named Door.acknowledged s.yard hd hx) rfl

theorem State.acknowledged_unnamed {d : Nat} (hd : ¬ sel.Names d) :
    ((s.setYard (s.yard.acknowledged sel)).endTake s.yard).door? d = s.door? d :=
  State.endTake_door_same (s := s.setYard (s.yard.acknowledged sel))
    (Yard.forSelected_modify_unnamed Door.acknowledged s.yard hd)

end

/-- Settles O47: the named doors acknowledged by `Yard.forSelected_modify_named`, none of them evaluated. -/
theorem alarmAckOrder : Obligations.AlarmAckOrder := by
  refine ⟨by decide, fun s m addr w h => ?_⟩
  intro named bad
  refine ⟨fun hm => exec_order_refused (r := .writer) rfl h (State.takeAlarmAck_writer hm),
    fun hm hbad => exec_order_refused (r := .badValue) rfl h (State.takeAlarmAck_value hm (doorSelectOf_bad hbad)),
    fun hm hgood => ?_⟩
  obtain ⟨sel, hsel, names, -⟩ := doorSelectOf_good hgood
  have statics : Yard.StaticKept s.yard (s.yard.acknowledged sel) :=
    Yard.StaticKept.forSelected (Yard.staticKept_modify (f := Door.acknowledged) fun _ => rfl) sel
  exact ⟨_, exec_order_taken rfl h (State.takeAlarmAck_taken hm hsel), State.manyDoors_take statics, rfl,
    Yard.forSelected_modify_groups Door.acknowledged s.yard sel, State.linesJudged _, fun d x hx =>
      ⟨fun hn => (State.acknowledged_unnamed (mt (names d).mp hn)).trans hx,
        fun hn => State.acknowledged_named ((names d).mpr hn) hx⟩⟩

end Sys2Proof.Machine
end

section
/-! SUPPORT. Window lookup (R120), the permission matrix (R127) and the master check (R126), each by its cases. -/

namespace Sys2Proof.Machine

/-! ## Window lookup (R120) -/

theorem Window.contains_iff {w : Window} {a : Addr} :
    w.contains a = true ↔ w.base.toNat ≤ a.toNat ∧ a.toNat < w.base.toNat + w.length := by
  simp [Window.contains]

/-- R120: the search, with the first entry numbered `i`, stops at the lowest window that contains the address. -/
theorem findWindow_lowest {a : Addr} {w : Window} (hw : w.contains a = true) :
    ∀ (ws : List (Option Window)) (k i : Nat), ws[k]? = some (some w) →
      (∀ (j : Nat) (v : Window), j < k → ws[j]? = some (some v) → v.contains a = false) →
      findWindow a ws i = { window := some (i + k), kind := w.kind, offset := a.toNat - w.base.toNat }
  | [], _, _, hk, _ => by simp at hk
  | x :: rest, 0, i, hk, _ => by
    obtain rfl : x = some w := by simpa using hk
    simp [findWindow, hw]
  | x :: rest, k + 1, i, hk, below => by
    have passes : findWindow a (x :: rest) i = findWindow a rest (i + 1) := by
      cases x with
      | none => rfl
      | some v => simp [findWindow, below 0 v (Nat.zero_lt_succ k) rfl]
    rw [passes, findWindow_lowest hw rest k (i + 1) (by simpa using hk)
      fun j v hj hv => below (j + 1) v (Nat.succ_lt_succ hj) (by simpa using hv)]
    simp [Nat.add_assoc, Nat.add_comm 1 k]

/-- R120: an address that no window contains is PLAIN, with no index. -/
theorem findWindow_none {a : Addr} :
    ∀ (ws : List (Option Window)) (i : Nat),
      (∀ (k : Nat) (w : Window), ws[k]? = some (some w) → w.contains a = false) →
      findWindow a ws i = { window := none, kind := .plain, offset := a.toNat }
  | [], _, _ => rfl
  | x :: rest, i, outside => by
    have passes : findWindow a (x :: rest) i = findWindow a rest (i + 1) := by
      cases x with
      | none => rfl
      | some v => simp [findWindow, outside 0 v rfl]
    rw [passes, findWindow_none rest (i + 1) fun k w hk => outside (k + 1) w (by simpa using hk)]

/-- Settles O11, by the search's recursion on the window table. -/
theorem lookupFindsTheLowestWindow : Obligations.LookupFindsTheLowestWindow := by
  intro s a contains
  have outside {w : Window} (h : ¬ contains w) : w.contains a = false :=
    Bool.eq_false_iff.mpr fun hw => h (Window.contains_iff.mp hw)
  refine ⟨fun k w hk hw below => ?_, fun h => ?_⟩
  · have found := findWindow_lowest (Window.contains_iff.mpr hw) s.path.windows k 0 hk
      fun j v hj hv => outside (below j v hj hv)
    rwa [Nat.zero_add] at found
  · have found : s.lookup a = _ := findWindow_none s.path.windows 0 fun k w hk => outside (h k w hk)
    simp [found]

/-! ## The permission matrix (R127) -/

theorem Access.isWrite_iff {a : Access} : a.isWrite = true ↔ ∃ w, a.op = .write w := by
  unfold Access.isWrite
  cases a.op <;> simp

theorem inRange_iff {first count door : Nat} :
    inRange first count door = true ↔ first ≤ door ∧ door < first + count := by
  simp [inRange]

theorem State.matrix_read {s : State} {a : Access} (f : Found) (h : a.isWrite = false) :
    s.matrix a f = .goesOn s a :=
  State.matrix_passes fun hw => absurd hw (by simp [h])

theorem State.matrix_refuses {s : State} {a : Access} {f : Found} {r : WriteRefusal} (hw : a.isWrite = true)
    (hr : s.matrixRefusal a.master f = some r) : s.matrix a f = .ended (s.refuseWrite a r) := by
  simp [State.matrix, hw, hr]

theorem State.matrix_allows {s : State} {a : Access} {f : Found}
    (hr : s.matrixRefusal a.master f = none) : s.matrix a f = .goesOn s a :=
  State.matrix_passes fun _ => hr

/-- R127: the kinds whose words no master writes. -/
def WindowKind.readOnly (k : WindowKind) : Prop := (∃ b, k = .indication b) ∨ k = .capture ∨ k = .status

theorem State.matrixRefusal_readOnly {s : State} {m : Master} {f : Found} (h : f.kind.readOnly) :
    s.matrixRefusal m f = some .readOnly := by
  rcases h with ⟨b, h⟩ | h | h <;> simp [State.matrixRefusal, h]

/-- R127: a SENSOR word is written by the scanner in whose range its door lies. -/
theorem State.matrixRefusal_scanner {s : State} {m : Master} {f : Found} {b first count : Nat} {auth : Bool}
    (hf : f.kind = .sensor b) (hr : s.role m = .scanner first count auth) :
    s.matrixRefusal m f = if first ≤ b + f.offset ∧ b + f.offset < first + count then none else some .notOwner := by
  simp only [State.matrixRefusal, hf, hr, inRange_iff]

theorem State.matrixRefusal_notScanner {s : State} {m : Master} {f : Found} {b : Nat} (hf : f.kind = .sensor b)
    (hr : (s.role m).isScanner = false) : s.matrixRefusal m f = some .notOwner := by
  unfold State.matrixRefusal
  simp only [hf]
  split
  · next h => simp [h, Role.isScanner] at hr
  · rfl

/-- Settles O15, kind by kind, by what `State.matrixRefusal` answers. -/
theorem permissionMatrix : Obligations.PermissionMatrix := by
  intro s a f refused
  refine ⟨State.matrix_read f, fun hw => ⟨fun hf => ?plain, fun b hf => ?command,
    fun b hf => ⟨fun first count auth hr => ?scanner, fun hr => ?notScanner⟩, fun hf => ?readOnly, fun hf => ?order⟩⟩
  case plain =>
    have refusal : s.matrixRefusal a.master f = if s.role a.master = .observer then some .role else none := by
      simp only [State.matrixRefusal, hf]
    split
    · next h => exact State.matrix_refuses hw (refusal.trans (if_pos h))
    · next h => exact State.matrix_allows (refusal.trans (if_neg h))
  case command =>
    have refusal : s.matrixRefusal a.master f =
        if s.command.holder = some a.master then none else some .notHolder := by
      simp only [State.matrixRefusal, hf]
    split
    · next h => exact State.matrix_allows (refusal.trans (if_pos h))
    · next h => exact State.matrix_refuses hw (refusal.trans (if_neg h))
  case scanner =>
    split
    · next h => exact State.matrix_allows ((State.matrixRefusal_scanner hf hr).trans (if_pos h))
    · next h => exact State.matrix_refuses hw ((State.matrixRefusal_scanner hf hr).trans (if_neg h))
  case notScanner => exact State.matrix_refuses hw (State.matrixRefusal_notScanner hf hr)
  case readOnly => exact State.matrix_refuses hw (State.matrixRefusal_readOnly hf)
  case order => exact State.matrix_allows (by simp only [State.matrixRefusal, hf])

/-! ## The master check (R126) -/

theorem State.masterStage_absent {s : State} {a : Access} (f : Found) (h : s.role a.master = .absent) :
    s.masterStage a f = .ended (s.answer .error) := by
  simp only [State.masterStage, h, if_true, State.refuse]

/-- R126: an ATTACH of a SCANNER, a HEARTBEAT of a STATION, and nothing else, is excepted. -/
theorem excepted_iff {r : Role} {a : Access} {f : Found} :
    excepted r a f = true ↔ a.isWrite = true ∧ f.kind = .order ∧
      ((r.isScanner = true ∧ f.offset = 10) ∨ (r.isStation = true ∧ f.offset = 9)) := by
  simp [excepted, and_assoc]

/-- R126: a master that is neither ABSENT nor authorized, with an access that is not excepted, meets its unauthorized
behaviour. -/
theorem State.masterStage_unauthorized {s : State} {a : Access} {f : Found} (hr : s.role a.master ≠ .absent)
    (hu : (s.role a.master).authorized = false) (hx : excepted (s.role a.master) a f = false) :
    s.masterStage a f = s.unauthorized a f := by
  simp [State.masterStage, hr, hu, hx]

theorem State.unauthorized_trap {s : State} {a : Access} (f : Found) (hw : a.isWrite = true)
    (hb : (s.masters.get a.master).behaviour = .trap) :
    s.unauthorized a f = .ended (s.refuseWrite a .unauthorized) := by
  simp only [State.unauthorized, hw, if_true, hb]

theorem State.unauthorized_quiet {s : State} {a : Access} (f : Found) (hw : a.isWrite = true)
    (hb : (s.masters.get a.master).behaviour ≠ .trap) : s.unauthorized a f = .ended s.refuse := by
  unfold State.unauthorized
  rw [if_pos hw]
  split
  · next h => exact absurd h hb
  · rfl
  · rfl

theorem State.unauthorized_read {s : State} {a : Access} {f : Found} (hw : a.isWrite = false)
    (hb : (s.masters.get a.master).behaviour ≠ .restrict) : s.unauthorized a f = s.matrix a f := by
  unfold State.unauthorized
  rw [if_neg (by simp [hw])]
  split
  · next h => exact absurd h hb
  · rfl
  · rfl

theorem State.unauthorized_restricted {s : State} {a : Access} {f : Found} (hw : a.isWrite = false)
    (hb : (s.masters.get a.master).behaviour = .restrict) :
    s.unauthorized a f = if f.kind.restrictKeeps then s.matrix a f else .ended s.refuse := by
  simp [State.unauthorized, hw, hb]

theorem WindowKind.restrictKeeps_iff {k : WindowKind} :
    k.restrictKeeps = true ↔ (∃ b, k = .indication b) ∨ k = .status := by
  cases k <;> simp [WindowKind.restrictKeeps]

/-- Settles O14: the roles that pass by `State.masterStage_matrix`, the others by their behaviour. -/
theorem masterCheck : Obligations.MasterCheck := by
  intro s a f
  refine ⟨State.masterStage_absent f, fun hr => State.masterStage_matrix (by simp [hr]),
    fun first count hr hw hk ho => State.masterStage_matrix ?attach,
    fun hr hw hk ho => State.masterStage_matrix ?heartbeat, fun h => ?unauthorized⟩
  case attach => simp [excepted_iff, hr, hw, hk, ho, Role.isScanner]
  case heartbeat => simp [excepted_iff, hr, hw, hk, ho, Role.isStation]
  case unauthorized =>
    have judged : s.masterStage a f = s.unauthorized a f := by
      rcases h with ⟨hr, hx⟩ | ⟨first, count, hr, hx⟩
      · refine State.masterStage_unauthorized (by simp [hr]) (by simp [hr, Role.authorized]) ?_
        simpa [← Bool.not_eq_true, excepted_iff, hr, Role.isScanner, Role.isStation] using hx
      · refine State.masterStage_unauthorized (by simp [hr]) (by simp [hr, Role.authorized]) ?_
        simpa [← Bool.not_eq_true, excepted_iff, hr, Role.isScanner, Role.isStation] using hx
    rw [judged]
    refine ⟨fun hw hb => ?_, fun hw hb => ?_, fun hw hb => ?_, State.unauthorized_read, fun hw hb => ⟨fun hk => ?_,
      fun hi hs => ?_⟩⟩
    · exact State.unauthorized_quiet f hw (by simp [hb])
    · exact State.unauthorized_quiet f hw (by simp [hb])
    · exact State.unauthorized_trap f hw hb
    · rw [State.unauthorized_restricted hw hb, if_pos (WindowKind.restrictKeeps_iff.mpr hk)]
    · rw [State.unauthorized_restricted hw hb, if_neg]
      · rfl
      · rw [WindowKind.restrictKeeps_iff]
        rintro (⟨b, hk⟩ | hk)
        · exact hi b hk
        · exact hs hk

end Sys2Proof.Machine
end

section
/-! SUPPORT. An arrival in RUNNING (R117) from its lane stage on, and the lane stage by the mode and the master's slot
(R122 to R124). -/

namespace Sys2Proof.Machine

/-! ## From the arrival to its last stage (R117) -/

/-- R117: what becomes of an access once the stages before its kind's processing are done. -/
def Stage.processed (orig : Access) (f : Found) : Stage → State
  | .ended t => t
  | .goesOn t b => t.process orig b f

/-- R117: the stages behind the lane assembly. -/
def State.checked (s : State) (a : Access) (f : Found) : Stage :=
  (s.masterStage a f).andThen fun t b => t.ruleStage b f

theorem State.arrive_running {s : State} {a : Access} {f : Found} (hp : s.part = .running)
    (hu : s.path.upstream = .idle) (hf : s.lookup a.addr = f) :
    s.arrive a = ((s.laneStage a f).andThen fun t b => t.checked b f).processed a f := by
  subst hf
  unfold State.arrive State.present
  rw [if_pos hu]
  simp only [hp]
  rfl

/-- An arrival that the lane stage ends. -/
theorem State.arrive_lane_ended {s t : State} {a : Access} {f : Found} (hp : s.part = .running)
    (hu : s.path.upstream = .idle) (hf : s.lookup a.addr = f) (h : s.laneStage a f = .ended t) : s.arrive a = t := by
  rw [State.arrive_running hp hu hf, h]
  rfl

/-- An arrival that the lane stage lets go on. -/
theorem State.arrive_lane_goesOn {s t : State} {a b : Access} {f : Found} (hp : s.part = .running)
    (hu : s.path.upstream = .idle) (hf : s.lookup a.addr = f) (h : s.laneStage a f = .goesOn t b) :
    s.arrive a = (t.checked b f).processed a f := by
  rw [State.arrive_running hp hu hf, h]
  rfl

/-! ## Lane assembly (R122 to R124) -/

theorem laneByte_inLane (l : Lane) (b : Byte) : laneByte l (inLane l b) = b := by
  cases l with
  | low => exact BitVec.setWidth_setWidth_of_le b (by decide)
  | high =>
    ext i hi
    have h16 : 8 + i < 16 := by omega
    simp [laneByte, inLane, h16, Nat.lt_of_add_left_lt h16, BitVec.getLsbD_eq_getElem hi]

theorem onLanes_inLane (l : Lane) (b : Byte) : onLanes l.lanes (inLane l b) = inLane l b := by
  cases l with
  | low => ext i hi; interval_cases i <;> simp [onLanes, inLane, Lane.lanes, laneMask]
  | high => ext i hi; interval_cases i <;> simp [onLanes, inLane, Lane.lanes, laneMask]

theorem setAt_setAt {α : Type} {n : Nat} (v : Vector α n) (i : Fin n) (x y : α) :
    setAt (setAt v i x) i y = setAt v i y := Vector.set_set ..

/-- The access that SINGLE_LANE_WRITE presents (log 1). -/
def laneWrite (m : Master) (addr : Addr) (l : Lane) (b : Byte) : Access :=
  { master := m, addr := addr, lanes := l.lanes, op := .write (inLane l b) }

section

variable {s : State} {m : Master} {addr : Addr} {l : Lane} {b : Byte} {f : Found}

theorem laneWrite_written : (laneWrite m addr l b).written = inLane l b := onLanes_inLane l b

theorem assembledLane_laneWrite (h : f.kind.assembled = true) : assembledLane (laneWrite m addr l b) f = some l := by
  cases l <;> simp [assembledLane, laneWrite, Access.isWrite, h, Lane.lanes, Lanes.single?]

theorem State.laneStage_absent {a : Access} (h : assembledLane a f = some l) (hr : s.role a.master = .absent) :
    s.laneStage a f = .ended s.refuse := by
  simp only [State.laneStage, h, hr, if_true]

theorem State.laneStage_wordMode {a : Access} (h : assembledLane a f = some l) (hr : s.role a.master ≠ .absent)
    (hl : s.path.laneMode = false) :
    s.laneStage a f = .ended (s.refuseWith (Capture.ofMaster 7 a.master a.addr (laneCode l) a.written)) := by
  simp [State.laneStage, h, hr, hl]

theorem State.laneStage_laneMode {a : Access} (h : assembledLane a f = some l) (hr : s.role a.master ≠ .absent)
    (hl : s.path.laneMode = true) : s.laneStage a f = s.assemble a l (laneByte l a.written) := by
  simp [State.laneStage, h, hr, hl]

/-- R123: any other access abandons its master's slot. -/
theorem State.laneStage_other {a : Access} (h : assembledLane a f = none) :
    s.laneStage a f = .goesOn (s.abandonSlot a.master) a := by
  simp only [State.laneStage, h]

theorem State.assemble_absent {a : Access} (h : s.path.slots.get a.master = none) :
    s.assemble a l b = s.holdByte a l b := by
  simp only [State.assemble, h]

theorem State.assemble_sameLane {a : Access} {old : Byte}
    (h : s.path.slots.get a.master = some { addr := a.addr, lane := l, byte := old }) :
    s.assemble a l b = s.holdByte a l b := by
  simp only [State.assemble, h, if_true]

theorem State.assemble_otherWord {a : Access} {slot : Slot} (h : s.path.slots.get a.master = some slot)
    (ha : slot.addr ≠ a.addr) : s.assemble a l b = (s.abandonSlot a.master).holdByte a l b := by
  simp only [State.assemble, h, if_neg ha]

theorem State.assemble_otherLane {a : Access} {slot : Slot} (h : s.path.slots.get a.master = some slot)
    (ha : slot.addr = a.addr) (hl : slot.lane ≠ l) :
    s.assemble a l b = .goesOn (s.setSlot a.master none)
      { a with lanes := .both, op := .write (joinHalves l b slot.byte) } := by
  simp only [State.assemble, h, if_pos ha, if_neg hl]

theorem State.abandonSlot_present {slot : Slot} (h : s.path.slots.get m = some slot) :
    s.abandonSlot m = (s.setSlot m none).capture (abandonCapture m.val 1 slot) := by
  simp only [State.abandonSlot, h]

theorem State.setSlot_capture (x : Option Slot) (c : Capture) :
    (s.setSlot m x).capture c = (s.capture c).setSlot m x := rfl

theorem State.setSlot_setSlot (x y : Option Slot) : (s.setSlot m x).setSlot m y = s.setSlot m y := by
  simp only [State.setSlot, setAt_setAt]

/-- R123: the byte held takes the place of the abandoned one. -/
theorem State.holdByte_abandoned {a : Access} {slot : Slot} (h : s.path.slots.get a.master = some slot) :
    (s.abandonSlot a.master).holdByte a l b =
      (s.capture (abandonCapture a.master.val 1 slot)).holdByte a l b := by
  rw [State.abandonSlot_present h, State.setSlot_capture, State.holdByte, State.setSlot_setSlot]
  rfl

end

/-- R122: the halves of a word, given the written one first. -/
theorem joinHalves_eq (l : Lane) (b other : Byte) :
    joinHalves l b other =
      match l with
      | .low => inLane l b ||| (other.setWidth 16 <<< 8)
      | .high => inLane l b ||| other.setWidth 16 := by
  cases l
  · rfl
  · exact BitVec.or_comm _ _

/-- Settles O12: the lane stage of a single-lane write, by the mode and the master's slot. -/
theorem singleLaneWrites : Obligations.SingleLaneWrites := by
  intro s m addr lane byte f hp hu hf hk c data held
  have arrives : exec c s = .next (s.arrive (laneWrite m addr lane byte)) := rfl
  have assembled : assembledLane (laneWrite m addr lane byte) f = some lane := assembledLane_laneWrite hk
  have ended {t : State} (h : s.laneStage (laneWrite m addr lane byte) f = .ended t) : exec c s = .next t :=
    congrArg _ (State.arrive_lane_ended hp hu hf h)
  refine ⟨fun hr => ended (State.laneStage_absent assembled hr), fun hr hl => ended ?_, fun hr hl => ?_⟩
  · rw [State.laneStage_wordMode assembled hr hl, laneWrite_written]
    cases lane <;> rfl
  have stage := State.laneStage_laneMode assembled hr hl
  rw [laneWrite_written, laneByte_inLane] at stage
  refine ⟨fun h => ended (stage.trans (State.assemble_absent h)),
    fun b h => ended (stage.trans (State.assemble_sameLane h)),
    fun sl h ha => ended (stage.trans ((State.assemble_otherWord h ha).trans ?_)), fun sl h ha hne => ?_⟩
  · exact State.holdByte_abandoned h
  · rw [arrives, State.arrive_lane_goesOn hp hu hf (stage.trans (State.assemble_otherLane h ha hne)), joinHalves_eq]
    rfl

/-- Settles O13: the lane stage abandons the slot and then finds what it finds where the slot is absent. -/
theorem otherAccessesAbandonTheSlot : Obligations.OtherAccessesAbandonTheSlot := by
  intro s a sl hp hu hs hl
  let t := (s.setSlot a.master none).capture (abandonCapture a.master.val 1 sl)
  have gone : t.path.slots.get a.master = none := State.setSlot_slot_same s a.master none
  have before := State.arrive_lane_goesOn hp hu rfl (State.laneStage_other hl)
  have after := State.arrive_lane_goesOn (s := t) hp hu rfl (State.laneStage_passes hl gone)
  rw [before, State.abandonSlot_present hs]
  exact after.symm

end Sys2Proof.Machine
end

section
/-! SUPPORT. Accesses that are forwarded or served (R127 to R132, R149, R150, R152), and those of TRANSPARENT (R119). -/

namespace Sys2Proof.Machine

/-! ## Forwarded writes (R129, R149, R152) -/

/-- R149: what a write forwarded now asks of a bank in a state. -/
def BankState.leg : BankState → Leg
  | .inService => .outstanding true
  | .resync => .outstanding false
  | .notFitted => .unused
  | .failed => .unused

theorem Mirror.legOf_eq (m : Mirror) (b : BankId) : m.legOf b = (m.bank b).state.leg := by
  unfold Mirror.legOf
  cases (m.bank b).state <;> rfl

theorem BankState.settled_leg {b : BankState} : b.leg.settled = true ↔ b.leg = .unused := by
  cases b <;> simp [BankState.leg, Leg.settled]

section

variable {s : State} {a : Access} {addr : Addr} {l : Lanes} {w : Word} {after : AfterWrite} {r : Response}

theorem State.forwardWrite_lost (h : s.mirror.imageLost = true) :
    s.forwardWrite a addr l w after r = (s.afterWrite after).answer r := if_pos h

/-- R149: a write forwarded while a bank is in use waits for every bank in use. -/
theorem State.forwardWrite_waits (h : s.mirror.imageLost = false)
    (used : s.mirror.bankA.state.leg ≠ .unused ∨ s.mirror.bankB.state.leg ≠ .unused) :
    s.forwardWrite a addr l w after r = s.setUpstream
      (.waiting a (.write addr l w s.mirror.bankA.state.leg s.mirror.bankB.state.leg after)) := by
  have unsettled : (s.mirror.bankA.state.leg.settled && s.mirror.bankB.state.leg.settled) = false := by
    rw [← Bool.not_eq_true, Bool.and_eq_true, BankState.settled_leg, BankState.settled_leg]
    exact not_and_or.mpr used
  simp [State.forwardWrite, h, State.settleWrite, Mirror.legOf_eq, Mirror.bank, unsettled]

theorem State.plainWrite_outside {orig : Access} (h : s.mirror.imageSize ≤ a.addr.toNat) :
    s.plainWrite orig a w = s.refuseWrite a .outsideImage := by
  simp [State.plainWrite, Mirror.insideImage, Nat.not_lt.mpr h]

theorem State.plainWrite_inside {orig : Access} (h : a.addr.toNat < s.mirror.imageSize) :
    s.plainWrite orig a w = s.forwardWrite orig a.addr a.lanes w .answerOnly .error := by
  simp [State.plainWrite, Mirror.insideImage, h]

end

/-- R117, R127: an authorized master's write that the permission matrix refuses. -/
theorem State.arrive_matrix_refuses {s : State} {a : Access} {f : Found} {r : WriteRefusal} (hp : s.part = .running)
    (hu : s.path.upstream = .idle) (hf : s.lookup a.addr = f) (hs : s.path.slots.get a.master = none)
    (hl : assembledLane a f = none) (ha : (s.role a.master).authorized = true) (hw : a.isWrite = true)
    (hr : s.matrixRefusal a.master f = some r) : s.arrive a = s.refuseWrite a r := by
  rw [State.arrive_lane_goesOn hp hu hf (State.laneStage_passes hl hs), State.checked,
    State.masterStage_matrix (by simp [ha]), State.matrix_refuses hw hr]
  rfl

theorem WindowKind.readOnly_not_assembled {k : WindowKind} (h : k.readOnly) : k.assembled = false := by
  rcases h with ⟨b, rfl⟩ | rfl | rfl <;> rfl

/-- Settles O18: a PLAIN write by where its address lies and what is left of the image; a read-only kind ends at the
permission matrix. -/
theorem forwardedWrites : Obligations.ForwardedWrites := by
  intro s m addr lanes data f a leg refused
  have arrives : exec (.forwardedWrite m addr lanes data) s = .next (s.arrive a) := rfl
  have legs : leg = BankState.leg := by funext b; cases b <;> rfl
  rw [arrives, legs]
  refine ⟨fun h hk => ?plain, fun hp hu hf hs ha hk => congrArg _ ?readOnly⟩
  case plain =>
    have written : s.arrive a = s.plainWrite a a data := by
      rw [State.arrive_reaches h]
      simp only [State.process, a, hk]
    rw [written]
    exact ⟨fun out => congrArg _ (State.plainWrite_outside out),
      fun inside lost => congrArg _ ((State.plainWrite_inside inside).trans (State.forwardWrite_lost lost)),
      fun inside kept used => congrArg _ ((State.plainWrite_inside inside).trans (State.forwardWrite_waits kept used))⟩
  case readOnly =>
    have whole : assembledLane a f = none := by simp [assembledLane, WindowKind.readOnly_not_assembled hk]
    exact State.arrive_matrix_refuses hp hu hf hs whole ha rfl (State.matrixRefusal_readOnly hk)

/-! ## Forwarded reads (R129, R150, R152) -/

theorem Mirror.serves_iff {m : Mirror} {b : BankId} : m.serves b = true ↔ (m.bank b).state = .inService := by
  simp [Mirror.serves]

section

variable {m : Mirror} {s : State} {a : Access} {addr : Addr} {l : Lanes}

theorem Mirror.readBank_mapped (h : (m.bank (mappedBank m.readMap addr)).state = .inService) :
    m.readBank addr = some (mappedBank m.readMap addr) := by
  simp [Mirror.readBank, Mirror.serves_iff, h]

theorem Mirror.readBank_other (h : (m.bank (mappedBank m.readMap addr)).state ≠ .inService)
    (ho : (m.bank (otherBank (mappedBank m.readMap addr))).state = .inService) :
    m.readBank addr = some (otherBank (mappedBank m.readMap addr)) := by
  simp [Mirror.readBank, Mirror.serves_iff, h, ho]

theorem State.forwardRead_lost (h : s.mirror.imageLost = true) : s.forwardRead a addr l = s.answer .error := if_pos h

theorem State.forwardRead_waits {b : BankId} (h : s.mirror.imageLost = false) (hb : s.mirror.readBank addr = some b) :
    s.forwardRead a addr l = s.setUpstream (.waiting a (.read addr l b false)) := by
  simp [State.forwardRead, h, hb]

theorem State.plainRead_outside {orig : Access} (h : s.mirror.imageSize ≤ a.addr.toNat) :
    s.plainRead orig a = s.refuseWith (Capture.ofMaster 3 a.master a.addr 6 0) := by
  simp [State.plainRead, Mirror.insideImage, Nat.not_lt.mpr h]

theorem State.plainRead_inside {orig : Access} (h : a.addr.toNat < s.mirror.imageSize) :
    s.plainRead orig a = s.forwardRead orig a.addr a.lanes := by
  simp [State.plainRead, Mirror.insideImage, h]

/-- R129: the kinds whose reads go to the image. -/
theorem State.process_plainRead {orig : Access} {f : Found} (ha : a.op = .read)
    (hk : f.kind = .plain ∨ (∃ b, f.kind = .sensor b) ∨ f.kind = .order) :
    s.process orig a f = s.plainRead orig a := by
  rcases hk with h | ⟨b, h⟩ | h <;> simp only [State.process, ha, h]

end

/-- Settles O19: a forwarded read by where its address lies, what is left of the image and which banks serve. -/
theorem forwardedReads : Obligations.ForwardedReads := by
  intro s m addr lanes f h hk index mapped reads
  have arrives : exec (.forwardedRead m addr lanes) s =
      .next (s.plainRead (readOf m addr lanes) (readOf m addr lanes)) :=
    congrArg _ ((State.arrive_reaches h).trans (State.process_plainRead rfl hk))
  rw [arrives]
  exact ⟨fun out => congrArg _ (State.plainRead_outside out),
    fun inside lost => congrArg _ ((State.plainRead_inside inside).trans (State.forwardRead_lost lost)),
    fun inside kept => ⟨
      fun serves => congrArg _ ((State.plainRead_inside inside).trans
        (State.forwardRead_waits kept (Mirror.readBank_mapped serves))),
      fun fails serves => congrArg _ ((State.plainRead_inside inside).trans
        (State.forwardRead_waits kept (Mirror.readBank_other fails serves)))⟩⟩

/-! ## Served reads (R128) -/

theorem State.doorWord_present {s : State} {d : Nat} {x : Door} (g : Door → Word) (hx : s.door? d = some x) :
    s.doorWord d g = g x := by
  simp [State.doorWord, hx]

/-- R128: the kinds whose words the part composes. -/
def WindowKind.served (k : WindowKind) : Prop := (∃ b, k = .command b) ∨ k.readOnly

theorem State.process_served {s : State} {orig a : Access} {f : Found} (ha : a.op = .read) (hk : f.kind.served) :
    s.process orig a f = s.serve a f := by
  rcases hk with ⟨b, h⟩ | ⟨b, h⟩ | h | h <;> simp only [State.process, ha, h]

/-- Settles O20: each served kind answers with the word that `State.servedWord` composes. -/
theorem servedReads : Obligations.ServedReads := by
  intro s m addr lanes f h served
  have serves {w : Word} (hk : f.kind.served) (hw : s.servedWord f.kind f.offset = w) :
      exec (.servedRead m addr lanes) s = .next (served w) := by
    subst hw
    exact congrArg _ ((State.arrive_reaches h).trans (State.process_served rfl hk))
  refine ⟨fun b x hk hx => serves (.inl ⟨b, hk⟩) ?_, fun b k x hk ho hx => serves (.inr (.inl ⟨b, hk⟩)) ?_,
    fun b k x hk ho hx => serves (.inr (.inl ⟨b, hk⟩)) ?_, fun hk => serves (.inr (.inr (.inl hk))) ?_,
    fun hk => serves (.inr (.inr (.inr hk))) ?_⟩
  · rw [hk]
    exact State.doorWord_present _ hx
  · have even : f.offset % 2 = 0 := by omega
    have half : f.offset / 2 = k := by omega
    simp only [State.servedWord, hk, even, half, if_true, State.doorWord_present _ hx]
  · have odd : f.offset % 2 ≠ 0 := by omega
    have half : f.offset / 2 = k := by omega
    simp only [State.servedWord, hk, odd, half, if_false, State.doorWord_present _ hx]
  · rw [hk]; rfl
  · rw [hk]; rfl

/-! ## Sensor reports (R131) -/

/-- Settles O39: a report is forwarded with its take to follow, by `State.forwardWrite_lost` and
`State.forwardWrite_waits`. -/
theorem sensorReportIsForwardedThenTaken : Obligations.SensorReportIsForwardedThenTaken := by
  intro s m addr w b offset h leg
  have arrives : exec (.sensorReport m addr w) s =
      .next (s.sensorWrite (wordWrite m addr w) (wordWrite m addr w) (b + offset) w) :=
    congrArg _ (State.arrive_reaches h)
  have legs : leg = BankState.leg := by funext k; cases k <;> rfl
  rw [arrives, legs]
  exact ⟨fun lost => congrArg _ (State.forwardWrite_lost lost),
    fun kept used => congrArg _ (State.forwardWrite_waits kept used), fun _ _ _ => rfl, fun _ => rfl⟩

/-! ## TRANSPARENT (R119, R147) -/

theorem State.arrive_transparent {s : State} {a : Access} (hp : s.part = .transparent) (hu : s.path.upstream = .idle) :
    s.arrive a = s.setUpstream (.waiting a .transparent) := by
  simp only [State.arrive, hu, if_true, State.present, hp]

section

variable {s : State} {a : Access}

theorem State.bankEnd_transparent (h : s.path.upstream = .waiting a .transparent) (flipped : BankWord) :
    s.bankEnd .bankA flipped = s.transparentEnd a flipped := by
  simp only [State.bankEnd, h, if_true]

theorem State.bankTimeout_transparent (h : s.path.upstream = .waiting a .transparent) :
    s.bankTimeout .bankA = s.transparentTimeout a := by
  simp only [State.bankTimeout, h, if_true]

theorem State.transparentEnd_write {w : Word} (h : a.op = .write w) (flipped : BankWord) :
    s.transparentEnd a flipped =
      State.answer { s with mirror := s.mirror.store .bankA a.addr a.lanes w } (.done none) := by
  simp only [State.transparentEnd, h]

theorem State.transparentEnd_read (h : a.op = .read) (flipped : BankWord) :
    s.transparentEnd a flipped = if (s.mirror.fetch .bankA a.addr flipped).good a.lanes
      then s.answer (.done (some (onLanes a.lanes (s.mirror.fetch .bankA a.addr flipped).data)))
      else s.answer .error := by
  simp only [State.transparentEnd, h]

theorem State.transparentTimeout_write {w : Word} (h : a.op = .write w) :
    s.transparentTimeout a = State.answer { s with mirror := s.mirror.forget .bankA a.addr } .error := by
  simp only [State.transparentTimeout, h]

theorem State.transparentTimeout_read (h : a.op = .read) : s.transparentTimeout a = s.answer .error := by
  simp only [State.transparentTimeout, h]

end

/-- Settles O9: the access waits for bank A alone, whose ending answers it, by what the access is. -/
theorem transparentAccessIsBankAs : Obligations.TransparentAccessIsBankAs := by
  refine ⟨fun s a hp hu => congrArg _ (State.arrive_transparent hp hu), fun s a hu => ?_⟩
  have ends (flipped : BankWord) : exec (.bankAccessEnd .bankA flipped) s = .next (s.transparentEnd a flipped) :=
    congrArg _ (State.bankEnd_transparent hu flipped)
  have expires : exec (.bankCompletionTimeout .bankA) s = .next (s.transparentTimeout a) :=
    congrArg _ (State.bankTimeout_transparent hu)
  refine ⟨fun w flipped ha => ?_, fun flipped ha => ⟨fun good => ?_, fun bad => ?_⟩, fun ha => ?_, fun w ha => ?_⟩
  · rw [ends, State.transparentEnd_write ha]
    rfl
  · rw [ends, State.transparentEnd_read ha, if_pos good]
    rfl
  · rw [ends, State.transparentEnd_read ha, if_neg (by simp [bad])]
    rfl
  · rw [expires, State.transparentTimeout_read ha]
    rfl
  · exact ⟨_, expires.trans (congrArg _ (State.transparentTimeout_write ha)), rfl,
      fun k hl hh => Contents.read_forget_ne _ _ _ hl hh⟩

end Sys2Proof.Machine
end

section
/-! SUPPORT. How an arrival ends in RUNNING (R116, R117): the stages answer the access or let it on, and its kind's
processing answers it or waits for the banks. No stage and no station request touches the mirror unit (R130). -/

namespace Sys2Proof.Machine

/-! ## What the stages leave -/

/-- R116: an access is answered, and the mirror unit is this one. -/
def State.AnsweredWith (m : Mirror) (t : State) : Prop :=
  t.mirror = m ∧ t.path.upstream = .idle ∧ t.path.response ≠ none

theorem State.answer_answeredWith {t : State} {m : Mirror} (h : t.mirror = m) (r : Response) :
    (t.answer r).AnsweredWith m := ⟨h, rfl, Option.some_ne_none r⟩

/-- What a stage leaves: the mirror unit as it was, and the access answered, or going on as the read or write it was. -/
def Stage.Judges (s : State) (a : Access) : Stage → Prop
  | .ended t => t.AnsweredWith s.mirror
  | .goesOn t b => t.mirror = s.mirror ∧ b.isWrite = a.isWrite

/-- What a stage leaves, said of where the stage before it began. -/
theorem Stage.Judges.of_goesOn {s t : State} {a b : Access} {st : Stage} (h : st.Judges t b)
    (mirror : t.mirror = s.mirror) (direction : b.isWrite = a.isWrite) : st.Judges s a := by
  cases st with
  | ended v =>
    obtain ⟨hv, answered⟩ := h
    exact ⟨hv.trans mirror, answered⟩
  | goesOn v c =>
    obtain ⟨hv, hc⟩ := h
    exact ⟨hv.trans mirror, hc.trans direction⟩

theorem Stage.Judges.andThen {s : State} {a : Access} {st : Stage} {next : State → Access → Stage}
    (h : st.Judges s a) (hn : ∀ t b, (next t b).Judges t b) : (st.andThen next).Judges s a := by
  cases st with
  | ended t => exact h
  | goesOn t b =>
    obtain ⟨mirror, direction⟩ := h
    exact (hn t b).of_goesOn mirror direction

section

variable (s : State) (a : Access) (f : Found)

theorem State.judges_refuse : (Stage.ended s.refuse).Judges s a := State.answer_answeredWith rfl _

theorem State.judges_refuseWith {t : State} (ht : t.mirror = s.mirror) (c : Capture) :
    (Stage.ended (t.refuseWith c)).Judges s a := State.answer_answeredWith ht _

@[simp] theorem State.abandonSlot_mirror (m : Master) : (s.abandonSlot m).mirror = s.mirror := by
  unfold State.abandonSlot
  split <;> rfl

theorem State.judges_holdByte {t : State} (ht : t.mirror = s.mirror) (l : Lane) (b : Byte) :
    (t.holdByte a l b).Judges s a := State.answer_answeredWith ht _

theorem State.judges_assemble (hw : a.isWrite = true) (l : Lane) (b : Byte) : (s.assemble a l b).Judges s a := by
  cases h : s.path.slots.get a.master with
  | none =>
    rw [State.assemble_absent h]
    exact s.judges_holdByte a rfl l b
  | some slot =>
    by_cases ha : slot.addr = a.addr
    · by_cases hl : slot.lane = l
      · subst hl
        rw [State.assemble_sameLane (old := slot.byte) (by rw [h, ← ha])]
        exact s.judges_holdByte a rfl slot.lane b
      · rw [State.assemble_otherLane h ha hl]
        exact ⟨rfl, hw.symm⟩
    · rw [State.assemble_otherWord h ha]
      exact s.judges_holdByte a (s.abandonSlot_mirror _) l b

theorem State.judges_laneStage : (s.laneStage a f).Judges s a := by
  cases hl : assembledLane a f with
  | none =>
    rw [State.laneStage_other hl]
    exact ⟨s.abandonSlot_mirror _, rfl⟩
  | some l =>
    have hw : a.isWrite = true := by
      by_contra h
      simp [assembledLane, h] at hl
    by_cases hr : s.role a.master = .absent
    · rw [State.laneStage_absent hl hr]
      exact s.judges_refuse a
    · cases mode : s.path.laneMode with
      | false =>
        rw [State.laneStage_wordMode hl hr mode]
        exact s.judges_refuseWith a rfl _
      | true =>
        rw [State.laneStage_laneMode hl hr mode]
        exact s.judges_assemble a hw l _

theorem State.judges_matrix : (s.matrix a f).Judges s a := by
  cases hw : a.isWrite with
  | false => rw [State.matrix_read f hw]; exact ⟨rfl, rfl⟩
  | true =>
    cases hr : s.matrixRefusal a.master f with
    | none => rw [State.matrix_allows hr]; exact ⟨rfl, rfl⟩
    | some r => rw [State.matrix_refuses hw hr]; exact s.judges_refuseWith a rfl _

theorem State.judges_unauthorized : (s.unauthorized a f).Judges s a := by
  cases hw : a.isWrite with
  | true =>
    by_cases hb : (s.masters.get a.master).behaviour = .trap
    · rw [State.unauthorized_trap f hw hb]
      exact s.judges_refuseWith a rfl _
    · rw [State.unauthorized_quiet f hw hb]
      exact s.judges_refuse a
  | false =>
    by_cases hb : (s.masters.get a.master).behaviour = .restrict
    · rw [State.unauthorized_restricted hw hb]
      split
      · exact s.judges_matrix a f
      · exact s.judges_refuse a
    · rw [State.unauthorized_read hw hb]
      exact s.judges_matrix a f

theorem State.judges_masterStage : (s.masterStage a f).Judges s a := by
  by_cases hr : s.role a.master = .absent
  · rw [State.masterStage_absent f hr]
    exact s.judges_refuse a
  · by_cases hp : ((s.role a.master).authorized || excepted (s.role a.master) a f) = true
    · rw [State.masterStage_matrix hp]
      exact s.judges_matrix a f
    · obtain ⟨hu, hx⟩ := Bool.or_eq_false_iff.mp (Bool.not_eq_true _ ▸ hp)
      rw [State.masterStage_unauthorized hr hu hx]
      exact s.judges_unauthorized a f

theorem Access.force_isWrite (value mask : Word) : (Access.force a value mask).isWrite = a.isWrite := by
  unfold Access.force
  split
  · rfl
  · next h => simp [Access.isWrite, h]

theorem State.judges_payToken (rule : Nat) (m : Fin 8) : (s.payToken a rule m).Judges s a := by
  unfold State.payToken
  dsimp only
  split
  · exact ⟨rfl, rfl⟩
  · split
    · exact s.judges_refuse a
    · exact s.judges_refuseWith a (t := s.setMeter m _) rfl _

theorem State.judges_act (rule : Nat) (action : Action) : (s.act a rule action).Judges s a := by
  cases action with
  | permit => exact ⟨rfl, rfl⟩
  | refuse => exact s.judges_refuseWith a rfl _
  | refuseQuiet => exact s.judges_refuse a
  | force value mask => exact ⟨rfl, Access.force_isWrite a value mask⟩
  | trap => exact ⟨rfl, rfl⟩
  | meter m => exact s.judges_payToken a rule m

theorem State.judges_ruleStage : (s.ruleStage a f).Judges s a := by
  unfold State.ruleStage
  split
  · exact ⟨rfl, rfl⟩
  · exact s.judges_act a _ _

/-- R117: the stages before an access's kind is processed, one after the other. -/
theorem State.judges_stages : ((s.laneStage a f).andThen fun t b => t.checked b f).Judges s a :=
  (s.judges_laneStage a f).andThen fun t b => (t.judges_masterStage b f).andThen fun u c => u.judges_ruleStage c f

end

/-! ## What the processing of a kind leaves (R128 to R132) -/

/-- R116: an access is answered, or waits for the banks with no response yet. -/
def State.Ends (a : Access) (t : State) : Prop :=
  (t.path.upstream = .idle ∧ t.path.response ≠ none) ∨
    ((∃ w, t.path.upstream = .waiting a w) ∧ t.path.response = none)

theorem State.AnsweredWith.ends {m : Mirror} {t : State} (h : t.AnsweredWith m) (a : Access) : t.Ends a := .inl h.2

section

variable (s : State) (orig a : Access)

theorem State.ends_answer (r : Response) : (s.answer r).Ends orig :=
  (State.answer_answeredWith rfl r).ends orig

theorem State.ends_waits (w : Waiting) : (s.setUpstream (.waiting orig w)).Ends orig :=
  .inr ⟨⟨w, rfl⟩, rfl⟩

theorem State.ends_forwardWrite (addr : Addr) (l : Lanes) (w : Word) (after : AfterWrite) (r : Response) :
    (s.forwardWrite orig addr l w after r).Ends orig := by
  unfold State.forwardWrite State.settleWrite
  split
  · exact State.ends_answer _ orig _
  · split
    · exact State.ends_answer _ orig _
    · exact s.ends_waits orig _

theorem State.ends_forwardRead (addr : Addr) (l : Lanes) : (s.forwardRead orig addr l).Ends orig := by
  unfold State.forwardRead
  split
  · exact s.ends_answer orig _
  · split
    · exact s.ends_waits orig _
    · exact s.ends_answer orig _

theorem State.ends_plainRead : (s.plainRead orig a).Ends orig := by
  unfold State.plainRead
  split
  · exact s.ends_forwardRead orig _ _
  · exact (s.capture _).ends_answer orig _

theorem State.ends_plainWrite (w : Word) : (s.plainWrite orig a w).Ends orig := by
  unfold State.plainWrite
  split
  · exact s.ends_forwardWrite orig _ _ _ _ _
  · exact (s.capture _).ends_answer orig _

/-- R130: a station request is answered, and the mirror unit is as it was. -/
theorem State.stationWrite_answers (d : Nat) (w : Word) : (s.stationWrite a d w).AnsweredWith s.mirror := by
  unfold State.stationWrite
  split
  · exact State.answer_answeredWith rfl _
  · exact State.answer_answeredWith rfl _

theorem State.ends_orderWrite (offset : Nat) (w : Word) : (s.orderWrite orig a offset w).Ends orig := by
  unfold State.orderWrite
  split
  · exact State.ends_forwardWrite _ orig _ _ _ _ _
  · exact (s.capture _).ends_answer orig _
  · exact State.ends_answer _ orig _

theorem State.ends_process (f : Found) : (s.process orig a f).Ends orig := by
  unfold State.process
  split
  · split
    · exact s.ends_plainRead orig a
    · exact s.ends_plainRead orig a
    · exact s.ends_plainRead orig a
    · exact s.ends_answer orig _
    · exact s.ends_answer orig _
    · exact s.ends_answer orig _
    · exact s.ends_answer orig _
  · next w _ =>
    split
    · exact s.ends_plainWrite orig a w
    · exact s.ends_forwardWrite orig _ _ _ _ _
    · exact s.ends_orderWrite orig a _ w
    · exact (s.stationWrite_answers a _ w).ends orig
    · exact (s.capture _).ends_answer orig _
    · exact (s.capture _).ends_answer orig _
    · exact (s.capture _).ends_answer orig _

/-- R116, R117: an arrival at the idle port of the RUNNING part is answered or waits. -/
theorem State.ends_arrive (hp : s.part = .running) (hu : s.path.upstream = .idle) : (s.arrive a).Ends a := by
  rw [State.arrive_running hp hu rfl]
  have judged := s.judges_stages a (s.lookup a.addr)
  cases h : (s.laneStage a (s.lookup a.addr)).andThen fun t b => t.checked b (s.lookup a.addr) with
  | ended t =>
    rw [h] at judged
    exact State.AnsweredWith.ends judged a
  | goesOn t b => exact t.ends_process a b _

end

/-- Log 1: the meaning of an access row is its access's arrival. -/
theorem exec_accessOf {c : Instr} {a : Access} (h : accessOf c = some a) (s : State) :
    exec c s = .next (s.arrive a) := by
  cases c <;> cases h <;> rfl

/-- Settles O10: the rows by `exec_accessOf`, the two ends by `State.ends_arrive`. -/
theorem accessRowsArrive : Obligations.AccessRowsArrive :=
  ⟨fun _ s _ h => exec_accessOf h s, fun s a hp hu => s.ends_arrive a hp hu⟩

/-! ## Writes to COMMAND words (R130) -/

/-- R130: a write to a COMMAND word is answered, by a stage or as a station request, with the mirror unit as it was. -/
theorem State.arrive_command_answers {s : State} {a : Access} {b : Nat} (hp : s.part = .running)
    (hu : s.path.upstream = .idle) (hk : (s.lookup a.addr).kind = .command b) (hw : a.isWrite = true) :
    (s.arrive a).AnsweredWith s.mirror := by
  rw [State.arrive_running hp hu rfl]
  have judged := s.judges_stages a (s.lookup a.addr)
  cases h : (s.laneStage a (s.lookup a.addr)).andThen fun t b => t.checked b (s.lookup a.addr) with
  | ended t => rw [h] at judged; exact judged
  | goesOn t c =>
    rw [h] at judged
    obtain ⟨mirror, direction⟩ := judged
    obtain ⟨w, hc⟩ := Access.isWrite_iff.mp (direction.trans hw)
    have requests : t.process a c (s.lookup a.addr) = t.stationWrite c (b + (s.lookup a.addr).offset) w := by
      simp only [State.process, hc, hk]
    rw [Stage.processed, requests, ← mirror]
    exact t.stationWrite_answers c _ w

/-- Settles O22, by `State.arrive_command_answers`. -/
theorem commandWritesReachNoBank : Obligations.CommandWritesReachNoBank := by
  intro s a b hp hu hk hw
  obtain ⟨mirror, idle, -⟩ := State.arrive_command_answers hp hu hk hw
  exact ⟨mirror, idle⟩

end Sys2Proof.Machine
end

section
/-! SUPPORT. The access at the start-up hold (R118): a load attempt does not look at the upstream port before READY. -/

namespace Sys2Proof.Machine

/-! ## The upstream port set aside -/

/-- The upstream port at another state of it, whatever response stands. -/
def State.withUpstream (s : State) (u : Upstream) : State := { s with path := { s.path with upstream := u } }

section

variable (s : State) (u : Upstream)

theorem State.withUpstream_self (h : s.path.upstream = u) : s.withUpstream u = s := by
  subst h
  rfl

theorem State.captures_withUpstream (cs : List Capture) :
    (s.withUpstream u).captures cs = (s.captures cs).withUpstream u := by
  induction cs generalizing s with
  | nil => rfl
  | cons c cs ih => exact ih (s.capture c)

theorem State.takeMirror_withUpstream (r : Mirror × List Capture) :
    (s.withUpstream u).takeMirror r = (s.takeMirror r).withUpstream u :=
  congrArg State.judgeFault (State.captures_withUpstream { s with mirror := r.1 } u r.2)

theorem State.enterRunning_withUpstream (img : Settings) (attempts : Nat) (presentA presentB : Bool) :
    (s.withUpstream u).enterRunning img attempts presentA presentB =
      (s.enterRunning img attempts presentA presentB).withUpstream u :=
  congrArg State.endTakeAll (State.takeMirror_withUpstream
    ((s.takeTables img).capture (s.startedCapture attempts)) u (s.mirror.enter img presentA presentB))

theorem State.enterRunning_part (img : Settings) (attempts : Nat) (presentA presentB : Bool) :
    (s.enterRunning img attempts presentA presentB).part = .running :=
  State.captures_part _ _

/-- R118: READY takes the access at the start-up hold, as the idle port would take it. -/
theorem State.openPort_held (a : Access) :
    (s.withUpstream (.held a)).openPort = (s.withUpstream .idle).openPort.arrive a := (if_pos rfl).symm

theorem State.openPort_idle_part : (s.withUpstream .idle).openPort.part = s.part := rfl

end

/-! ## The load attempt (R167) -/

section

variable {s : State} {attempt : Nat} {image : List Byte} {presentA presentB : Bool}

theorem exec_loadAttemptEnd (h : s.part = .loading attempt) :
    exec (.loadAttemptEnd image presentA presentB) s = .next (s.loadEnd attempt image presentA presentB) := by
  show execLoadAttemptEnd image presentA presentB s = _
  simp only [execLoadAttemptEnd, h]

theorem State.loadEnd_good {img : Settings} (h : loadAttempt image none = .ok img) :
    s.loadEnd attempt image presentA presentB = (s.enterRunning img attempt presentA presentB).openPort := by
  simp only [State.loadEnd, h]

theorem State.loadEnd_again {fault : LoadFault} (h : loadAttempt image none = .error fault)
    (hn : attempt < Config.loadAttempts) :
    s.loadEnd attempt image presentA presentB = { s with part := .loading (attempt + 1) } := by
  simp only [State.loadEnd, h, State.loadFault, hn, if_true]

theorem State.loadEnd_last {fault : LoadFault} (h : loadAttempt image none = .error fault)
    (hn : ¬ attempt < Config.loadAttempts) :
    s.loadEnd attempt image presentA presentB = s.enterTransparent.openPort := by
  simp only [State.loadEnd, h, State.loadFault, hn, if_false]

end

/-- R118: with an access held, the end of a load attempt leaves what it would leave at the idle port, the access held
still where the load goes on, and arriving where it has ended. -/
theorem State.loadEnd_held (s : State) (a : Access) (attempt : Nat) (image : List Byte) (presentA presentB : Bool) :
    ((∃ k, ((s.withUpstream .idle).loadEnd attempt image presentA presentB).part = .loading k) ∧
      (s.withUpstream (.held a)).loadEnd attempt image presentA presentB =
        ((s.withUpstream .idle).loadEnd attempt image presentA presentB).withUpstream (.held a)) ∨
    (¬ (∃ k, ((s.withUpstream .idle).loadEnd attempt image presentA presentB).part = .loading k)) ∧
      (s.withUpstream (.held a)).loadEnd attempt image presentA presentB =
        ((s.withUpstream .idle).loadEnd attempt image presentA presentB).arrive a := by
  cases h : loadAttempt image none with
  | ok img =>
    rw [State.loadEnd_good h, State.loadEnd_good h, State.enterRunning_withUpstream, State.enterRunning_withUpstream]
    refine .inr ⟨?_, State.openPort_held _ a⟩
    rw [State.openPort_idle_part, State.enterRunning_part]
    rintro ⟨k, hk⟩
    cases hk
  | error fault =>
    by_cases hn : attempt < Config.loadAttempts
    · rw [State.loadEnd_again h hn, State.loadEnd_again h hn]
      exact .inl ⟨⟨_, rfl⟩, rfl⟩
    · rw [State.loadEnd_last h hn, State.loadEnd_last h hn]
      refine .inr ⟨?_, State.openPort_held s.enterTransparent a⟩
      rintro ⟨k, hk⟩
      cases hk

/-- Settles O7: the part that the load would have left at the idle port, by `State.loadEnd_held`. -/
theorem heldAccessProceeds : Obligations.HeldAccessProceeds := by
  intro s a n image presentA presentB hp hu
  let left := (s.withUpstream .idle).loadEnd n image presentA presentB
  have idle : exec (.loadAttemptEnd image presentA presentB) (s.withUpstream .idle) = .next left :=
    exec_loadAttemptEnd hp
  have held : exec (.loadAttemptEnd image presentA presentB) s =
      .next ((s.withUpstream (.held a)).loadEnd n image presentA presentB) := by
    rw [State.withUpstream_self s _ hu, exec_loadAttemptEnd hp]
  refine ⟨left, idle, fun loading => ?_, fun ended => ?_⟩
  · rcases s.loadEnd_held a n image presentA presentB with ⟨-, h⟩ | ⟨done, -⟩
    · exact held.trans (congrArg _ h)
    · exact absurd loading done
  · rcases s.loadEnd_held a n image presentA presentB with ⟨⟨k, hk⟩, -⟩ | ⟨-, h⟩
    · rcases ended with hr | hr <;> cases hk.symm.trans hr
    · exact held.trans (congrArg _ h)

end Sys2Proof.Machine
end

section
/-! SUPPORT. The rule list (R134 to R142): a rule's four tests and its match, the search for the deciding rule, and what
each action does with the access. -/

namespace Sys2Proof.Machine

/-! ## The four tests (R134) -/

theorem windowTest_iff {window : Option (Fin 16)} {found : Option Nat} :
    windowTest window found = true ↔ window = none ∨ ∃ k, window = some k ∧ found = some k.val := by
  cases window <;> simp [windowTest]

theorem RuleDirection.holds_write {d : RuleDirection} : d.holds true = true ↔ d ≠ .read := by
  cases d <;> simp [RuleDirection.holds]

theorem RuleDirection.holds_read {d : RuleDirection} : d.holds false = true ↔ d ≠ .write := by
  cases d <;> simp [RuleDirection.holds]

theorem and_mask_eq_iff {w v mask : Word} :
    w &&& mask = v &&& mask ↔ ∀ i, i < 16 → mask.getLsbD i = true → w.getLsbD i = v.getLsbD i := by
  refine ⟨fun h i _ hm => ?_, fun h => BitVec.eq_of_getLsbD_eq fun i hi => ?_⟩
  · simpa [hm] using congrArg (·.getLsbD i) h
  · cases hm : mask.getLsbD i with
    | false => simp [hm]
    | true => simp [hm, h i hi hm]

section

variable {r : Rule} {a : Access} {w : Word}

theorem Access.isWrite_write (h : a.op = .write w) : a.isWrite = true := Access.isWrite_iff.mpr ⟨w, h⟩

theorem Access.isWrite_read (h : a.op = .read) : a.isWrite = false := by
  simp [Access.isWrite, h]

/-- R134: the data compared is the word on the written lanes. -/
theorem Rule.dataTest_write (h : a.op = .write w) :
    r.dataTest a = true ↔
      ∀ i, i < 16 → r.mask.getLsbD i = true → (onLanes a.lanes w).getLsbD i = r.value.getLsbD i := by
  have written : a.written = onLanes a.lanes w := by simp [Access.written, h]
  simp [Rule.dataTest, Access.isWrite_write h, written, and_mask_eq_iff]

theorem Rule.dataTest_read (h : a.op = .read) : r.dataTest a = true ↔ r.mask = 0 := by
  simp [Rule.dataTest, Access.isWrite_read h]

theorem Rule.basic_iff {f : Found} :
    r.basic a f = true ↔ r.masters.getLsbD a.master.val = true ∧
      (r.window = none ∨ ∃ k, r.window = some k ∧ f.window = some k.val) ∧
      r.direction.holds a.isWrite = true ∧ r.dataTest a = true := by
  simp [Rule.basic, windowTest_iff, and_assoc]

/-! ## The match (R135) -/

/-- R135: the invert field turns the basic result over. -/
theorem basic_bne_invert {basic invert : Bool} : (basic != invert) = true ↔ (basic = true ↔ invert = false) := by
  cases basic <;> cases invert <;> decide

theorem Rule.matchesAccess_write {f : Found} (h : a.op = .write w) :
    r.matchesAccess a f = true ↔ (r.basic a f = true ↔ r.invert = false) := by
  rw [← basic_bne_invert]
  simp [Rule.matchesAccess, Access.isWrite_write h]

/-- R135: a rule that looks at data is excluded after the invert. -/
theorem Rule.matchesAccess_read {f : Found} (h : a.op = .read) :
    r.matchesAccess a f = true ↔ r.mask = 0 ∧ (r.basic a f = true ↔ r.invert = false) := by
  rw [← basic_bne_invert, and_comm]
  simp [Rule.matchesAccess, Access.isWrite_read h]

end

/-! ## The search for the deciding rule (R136) -/

/-- R136: rule `i` of the list is `r`, it is enabled and matches, and no enabled rule before it does. -/
def DecidedAt (a : Access) (f : Found) (rules : List (Option Rule)) (i : Nat) (r : Rule) : Prop :=
  rules[i]? = some (some r) ∧ r.matchesAccess a f = true ∧
    ∀ (j : Nat) (q : Rule), j < i → rules[j]? = some (some q) → q.matchesAccess a f = false

/-- R136: an entry of the list that leaves the access to the rules behind it. -/
def Passes (a : Access) (f : Found) (x : Option Rule) : Prop := ∀ q, x = some q → q.matchesAccess a f = false

section

variable {a : Access} {f : Found} {x : Option Rule} {rest : List (Option Rule)} {r : Rule}

theorem passes_or_matches (a : Access) (f : Found) (x : Option Rule) :
    Passes a f x ∨ ∃ q, x = some q ∧ q.matchesAccess a f = true := by
  cases x with
  | none => exact .inl fun q hq => nomatch hq
  | some q => cases hm : q.matchesAccess a f <;> simp [Passes, hm]

theorem firstMatch_passes (h : Passes a f x) (n : Nat) :
    firstMatch a f (x :: rest) n = firstMatch a f rest (n + 1) := by
  cases x with
  | none => rfl
  | some q => simp [firstMatch, h q rfl]

theorem firstMatch_matches (h : r.matchesAccess a f = true) (n : Nat) :
    firstMatch a f (some r :: rest) n = some (n, r) := by
  simp [firstMatch, h]

theorem decidedAt_zero : DecidedAt a f (x :: rest) 0 r ↔ x = some r ∧ r.matchesAccess a f = true := by
  simp [DecidedAt]

theorem decidedAt_succ {i : Nat} :
    DecidedAt a f (x :: rest) (i + 1) r ↔ Passes a f x ∧ DecidedAt a f rest i r := by
  constructor
  · rintro ⟨here, hm, before⟩
    exact ⟨fun q hq => before 0 q i.succ_pos (congrArg some hq), by simpa using here, hm,
      fun j q hj hq => before (j + 1) q (Nat.succ_lt_succ hj) (by simpa using hq)⟩
  · rintro ⟨pass, here, hm, before⟩
    refine ⟨by simpa using here, hm, fun j q hj hq => ?_⟩
    cases j with
    | zero => exact pass q (by simpa using hq)
    | succ j => exact before j q (Nat.lt_of_succ_lt_succ hj) (by simpa using hq)

/-- R136: the search, with the first entry numbered `n`, stops at the first enabled rule that matches. -/
theorem firstMatch_eq_some_iff {rules : List (Option Rule)} {n k : Nat} :
    firstMatch a f rules n = some (k, r) ↔ ∃ i, k = n + i ∧ DecidedAt a f rules i r := by
  induction rules generalizing n with
  | nil => simp [firstMatch, DecidedAt]
  | cons x rest ih =>
    rcases passes_or_matches a f x with pass | ⟨q, rfl, hm⟩
    · rw [firstMatch_passes pass, ih]
      constructor
      · rintro ⟨i, hk, decided⟩
        exact ⟨i + 1, by omega, decidedAt_succ.mpr ⟨pass, decided⟩⟩
      · rintro ⟨i, hk, decided⟩
        cases i with
        | zero =>
          obtain ⟨hx, hr⟩ := decidedAt_zero.mp decided
          simp [pass r hx] at hr
        | succ i => exact ⟨i, by omega, (decidedAt_succ.mp decided).2⟩
    · rw [firstMatch_matches hm]
      constructor
      · intro h
        obtain ⟨rfl, rfl⟩ : n = k ∧ q = r := by simpa using h
        exact ⟨0, rfl, decidedAt_zero.mpr ⟨rfl, hm⟩⟩
      · rintro ⟨i, rfl, decided⟩
        cases i with
        | zero =>
          obtain ⟨hx, -⟩ := decidedAt_zero.mp decided
          simpa using hx
        | succ i => simp [(decidedAt_succ.mp decided).1 q rfl] at hm

theorem firstMatch_eq_none_iff {rules : List (Option Rule)} {n : Nat} :
    firstMatch a f rules n = none ↔
      ∀ (j : Nat) (q : Rule), rules[j]? = some (some q) → q.matchesAccess a f = false := by
  induction rules generalizing n with
  | nil => simp [firstMatch]
  | cons x rest ih =>
    rcases passes_or_matches a f x with pass | ⟨q, rfl, hm⟩
    · rw [firstMatch_passes pass, ih]
      refine ⟨fun h j q hq => ?_, fun h j q hq => h (j + 1) q (by simpa using hq)⟩
      cases j with
      | zero => exact pass q (by simpa using hq)
      | succ j => exact h j q (by simpa using hq)
    · rw [firstMatch_matches hm]
      refine ⟨(nomatch ·), fun h => ?_⟩
      simp [h 0 q rfl] at hm

end

section

variable {s : State} {a : Access} {f : Found}

theorem State.ruleStage_unmatched (h : firstMatch a f s.rules 0 = none) : s.ruleStage a f = .goesOn s a := by
  simp [State.ruleStage, h]

theorem State.ruleStage_decided {i : Nat} {r : Rule} (h : firstMatch a f s.rules 0 = some (i, r)) :
    s.ruleStage a f = s.act a i r.action := by
  simp [State.ruleStage, h]

end

/-- Settles O16: the match by `Rule.basic_iff`, the deciding rule by the search's recursion on the rule list. -/
theorem firstMatchingRuleDecides : Obligations.FirstMatchingRuleDecides := by
  refine ⟨fun r a f => ⟨fun w hw => ?write, fun hr => ?read⟩,
    fun s a f => ⟨State.ruleStage_unmatched, fun i r => State.ruleStage_decided⟩,
    fun a f rules => ⟨fun i r => ?decided, firstMatch_eq_none_iff⟩⟩
  case write =>
    rw [Rule.matchesAccess_write hw, Rule.basic_iff, Access.isWrite_write hw, RuleDirection.holds_write,
      Rule.dataTest_write hw]
  case read =>
    rw [Rule.matchesAccess_read hr, Rule.basic_iff, Access.isWrite_read hr, RuleDirection.holds_read,
      Rule.dataTest_read hr]
    exact and_congr_right fun hmask => by simp only [hmask, and_true]
  case decided =>
    rw [firstMatch_eq_some_iff]
    simp only [Nat.zero_add, exists_eq_left']
    rfl

/-! ## The actions (R137 to R140, R142) -/

section

variable {s : State} {a : Access}

/-- R138: only the mask's bits on the written lanes take the value's. -/
theorem forced_getLsbD {w v mask : Word} {j : Nat} (hj : j < 16) :
    (forced a w v mask).getLsbD j =
      if (mask &&& laneMask a.lanes).getLsbD j then v.getLsbD j else w.getLsbD j := by
  simp only [forced, onLanes, BitVec.getLsbD_or, BitVec.getLsbD_and (x := w), BitVec.getLsbD_and (x := v),
    BitVec.getLsbD_not, hj]
  cases (mask &&& laneMask a.lanes).getLsbD j <;> simp

theorem Access.force_read {v mask : Word} (h : a.op = .read) : Access.force a v mask = a := by
  simp [Access.force, h]

theorem Access.force_write {w v mask : Word} (h : a.op = .write w) :
    Access.force a v mask = { a with op := .write (forced a w v mask) } := by
  simp [Access.force, h]

variable {k : Fin 8} (rule : Nat)

theorem State.payToken_pays (h : 0 < (s.meters.get k).tokens) :
    s.payToken a rule k =
      .goesOn (s.setMeter k { s.meters.get k with tokens := (s.meters.get k).tokens - 1 }) a :=
  if_pos h

/-- R142: the refusals behind the first, until the meter gains a token. -/
theorem State.payToken_quiet (h : (s.meters.get k).tokens = 0) (he : (s.meters.get k).exceeded = true) :
    s.payToken a rule k = .ended s.refuse := by
  simp [State.payToken, h, he]

/-- R142: the refusal that marks the meter. -/
theorem State.payToken_captured (h : (s.meters.get k).tokens = 0) (he : (s.meters.get k).exceeded = false) :
    s.payToken a rule k =
      .ended ((s.setMeter k { s.meters.get k with exceeded := true }).refuseWith
        (Capture.ofMaster 6 a.master a.addr k.val (BitVec.ofNat 16 rule))) := by
  simp [State.payToken, h, he]

end

/-- R117: an admitted access is decided by the rule list, and then processed if it goes on. -/
theorem State.arrive_admitted {s : State} {a : Access} {f : Found} (h : Admitted s a f) :
    s.arrive a = (s.ruleStage a f).processed a f := by
  obtain ⟨hp, hu, hf, hs, hl, hm, hr⟩ := h
  rw [State.arrive_lane_goesOn hp hu hf (State.laneStage_passes hl hs), State.checked, State.masterStage_matrix hm,
    State.matrix_passes hr]
  rfl

/-- Settles O17, action by action from `State.ruleStage_decided`. -/
theorem ruleActions : Obligations.RuleActions := by
  intro s a f i r hfirst dir
  rw [State.ruleStage_decided hfirst]
  refine ⟨fun h => ?permit, fun h => ?refuse, fun h => ?refuseQuiet, fun h => ?trap, fun v k h hop => ?forceRead,
    fun v k w h hop => ?forceWrite, fun k h => ?meter, fun h => ?arrival⟩
  case arrival => rw [State.arrive_admitted h, State.ruleStage_decided hfirst]; rfl
  all_goals rw [h]
  case permit => rfl
  case refuse => rfl
  case refuseQuiet => rfl
  case trap => rfl
  case forceRead => exact congrArg (Stage.goesOn s) (Access.force_read hop)
  case forceWrite =>
    exact ⟨forced a w v k, congrArg (Stage.goesOn s) (Access.force_write hop), fun j hj => forced_getLsbD hj⟩
  case meter => exact ⟨State.payToken_pays i, State.payToken_quiet i, State.payToken_captured i⟩

end Sys2Proof.Machine
end

section
/-! SUPPORT. The mirror unit's operations (R145 to R157): what each leaves of a bank, what an error's count comes to,
and a take of the mirror unit as one change of the part. -/

namespace Sys2Proof.Machine

/-! ## One bank of the two -/

@[simp] theorem otherBank_otherBank (b : BankId) : otherBank (otherBank b) = b := by cases b <;> rfl

@[simp] theorem otherBank_ne (b : BankId) : otherBank b ≠ b := by cases b <;> decide

@[simp] theorem ne_otherBank (b : BankId) : b ≠ otherBank b := (otherBank_ne b).symm

theorem BankId.eq_or_other (b c : BankId) : c = b ∨ c = otherBank b := by cases b <;> cases c <;> decide

/-- What holds of a bank and of the other holds of both. -/
theorem BankId.forall_iff {p : BankId → Prop} (b : BankId) : (∀ c, p c) ↔ p b ∧ p (otherBank b) :=
  ⟨fun h => ⟨h _, h _⟩, fun ⟨hb, ho⟩ c => (BankId.eq_or_other b c).elim (· ▸ hb) (· ▸ ho)⟩

section

variable (m : Mirror) (b : BankId) (f g : Bank → Bank)

@[simp] theorem Mirror.modifyBank_same : (m.modifyBank b f).bank b = f (m.bank b) := by cases b <;> rfl

@[simp] theorem Mirror.modifyBank_other : (m.modifyBank b f).bank (otherBank b) = m.bank (otherBank b) := by
  cases b <;> rfl

@[simp] theorem Mirror.modifyOther_bank : (m.modifyBank (otherBank b) f).bank b = m.bank b := by cases b <;> rfl

@[simp] theorem Mirror.modifyBank_source : (m.modifyBank b f).source = m.source := by cases b <;> rfl
@[simp] theorem Mirror.modifyBank_cursor : (m.modifyBank b f).cursor = m.cursor := by cases b <;> rfl
@[simp] theorem Mirror.modifyBank_imageLost : (m.modifyBank b f).imageLost = m.imageLost := by cases b <;> rfl
@[simp] theorem Mirror.modifyBank_imageSize : (m.modifyBank b f).imageSize = m.imageSize := by cases b <;> rfl
@[simp] theorem Mirror.modifyBank_readMap : (m.modifyBank b f).readMap = m.readMap := by cases b <;> rfl
@[simp] theorem Mirror.modifyBank_free : (m.modifyBank b f).free = m.free := by cases b <;> rfl

/-- The bank records do not depend on what else the mirror unit holds. -/
@[simp] theorem Mirror.bank_mk (readMap : Word) (imageSize : Nat) (source : Option BankId) (cursor : Nat)
    (imageLost : Bool) (free : Nat) :
    Mirror.bank ⟨m.bankA, m.bankB, readMap, imageSize, source, cursor, imageLost, free⟩ b = m.bank b := by
  cases b <;> rfl

end

/-! ## An error's count (R148), and what a failure has follow (R152, R156) -/

section

variable (m : Mirror) (b : BankId) (owner : AccessOwner) (addr : Addr) (fault : BankFault)

/-- A bank's count at a number. -/
def Mirror.counting (m : Mirror) (b : BankId) (n : Nat) : Mirror := m.modifyBank b fun r => { r with count := n }

/-- A bank that its third error in a row has failed. -/
def Mirror.failing (m : Mirror) (b : BankId) : Mirror :=
  m.modifyBank b fun r => { r with count := 3, state := .failed }

/-- No copy under way, at cursor 0. -/
def Mirror.copyless (m : Mirror) : Mirror := { m with source := none, cursor := 0 }

/-- R156: what a failing source of a copy leaves: neither bank in service. -/
def Mirror.sourceless (m : Mirror) (b : BankId) : Mirror :=
  { (m.failing b).modifyBank (otherBank b) fun r => { r with state := .failed } with
    source := none, cursor := 0, imageLost := true }

/-- BANK_ERROR (R148). -/
def erredCapture (b : BankId) (owner : AccessOwner) (addr : Addr) (fault : BankFault) (n : Nat) : Capture :=
  { kind := 20, master := owner.code, addr := addr, detail := fault.code
    data := BitVec.ofNat 16 (bankCode b + 256 * n) }

/-- BANK_FAILED (R148). -/
def failedCapture (b : BankId) (owner : AccessOwner) (addr : Addr) : Capture :=
  { kind := 21, master := owner.code, addr := addr, detail := 0, data := BitVec.ofNat 16 (bankCode b) }

/-- RESYNC_ABORTED (R156). -/
def abortedCapture (target : BankId) (cursor : Addr) (detail : Nat) : Capture :=
  { kind := 23, master := Config.partMaster, addr := cursor, detail := detail
    data := BitVec.ofNat 16 (bankCode target) }

/-- IMAGE_LOST (R152) by a bank access. -/
def lostCapture (m : Mirror) (owner : AccessOwner) (addr : Addr) : Capture :=
  { kind := 24, master := Config.partMaster, addr := (lossCause owner addr m.cursorAddr).2
    detail := (lossCause owner addr m.cursorAddr).1, data := 0 }

variable {m b}

/-- R148: an error that makes no bank FAILED. -/
theorem Mirror.countError_counted (h : (m.bank b).count < 2 ∨ (m.bank b).state = .failed) :
    m.countError b owner addr fault = (m.counting b (min ((m.bank b).count + 1) 3),
      [erredCapture b owner addr fault (min ((m.bank b).count + 1) 3)]) := by
  refine if_neg fun ⟨third, alive⟩ => ?_
  simp only [Config.failCount] at third
  exact h.elim (fun _ => by omega) alive

/-- R148: the third error in a row at a bank that is not FAILED. -/
theorem Mirror.countError_third (hc : 2 ≤ (m.bank b).count) (hs : (m.bank b).state ≠ .failed) :
    m.countError b owner addr fault = (((m.counting b 3).failBank b owner addr).1,
      erredCapture b owner addr fault 3 :: ((m.counting b 3).failBank b owner addr).2) := by
  have third : min ((m.bank b).count + 1) Config.failCount = 3 :=
    Nat.min_eq_right (by simp only [Config.failCount]; omega)
  unfold Mirror.countError
  simp only [third]
  exact if_pos ⟨rfl, hs⟩

theorem Mirror.failing_eq : (m.counting b 3).modifyBank b (fun r => { r with state := .failed }) = m.failing b := by
  cases b <;> rfl

theorem Mirror.serves_failing {v : Bool} (h : m.serves (otherBank b) = v) :
    ((m.failing b).serves .bankA || (m.failing b).serves .bankB) = v := by
  subst h
  cases b
  · exact Bool.false_or _
  · exact Bool.or_false _

/-- Without a copy, and with the other bank in service, the image stays. -/
theorem Mirror.countError_leaves (hc : 2 ≤ (m.bank b).count) (hs : (m.bank b).state ≠ .failed)
    (hn : m.source = none) (ho : (m.bank (otherBank b)).state = .inService) :
    m.countError b owner addr fault =
      (m.failing b, [erredCapture b owner addr fault 3, failedCapture b owner addr]) := by
  have serves := Mirror.serves_failing (b := b) (Mirror.serves_iff.mpr ho)
  rw [Mirror.countError_third owner addr fault hc hs]
  simp only [Mirror.failBank, Mirror.failing_eq, serves]
  simp [Mirror.counting, hn, failedCapture]

/-- R152: without a copy, and with the other bank out of service, the image is lost. -/
theorem Mirror.countError_loses (hc : 2 ≤ (m.bank b).count) (hs : (m.bank b).state ≠ .failed)
    (hn : m.source = none) (ho : (m.bank (otherBank b)).state ≠ .inService) :
    m.countError b owner addr fault = ({ m.failing b with imageLost := true },
      [erredCapture b owner addr fault 3, failedCapture b owner addr, lostCapture m owner addr]) := by
  have serves := Mirror.serves_failing (b := b) (v := false) (by simpa [Mirror.serves] using ho)
  rw [Mirror.countError_third owner addr fault hc hs]
  simp only [Mirror.failBank, Mirror.failing_eq, serves]
  simp [Mirror.counting, hn, failedCapture, Mirror.loseImage, lostCapture, Mirror.cursorAddr]

/-- R156: the source of a copy fails. -/
theorem Mirror.countError_source (hc : 2 ≤ (m.bank b).count) (hs : (m.bank b).state ≠ .failed)
    (hn : m.source = some b) :
    m.countError b owner addr fault = (m.sourceless b,
      [erredCapture b owner addr fault 3, failedCapture b owner addr,
        abortedCapture (otherBank b) m.cursorAddr 1, lostCapture m owner addr]) := by
  rw [Mirror.countError_third owner addr fault hc hs]
  simp only [Mirror.failBank, Mirror.failing_eq]
  simp [Mirror.counting, hn, failedCapture, Mirror.loseImage, lostCapture, Mirror.cursorAddr, Mirror.abort,
    abortedCapture, Mirror.sourceless, Mirror.failing]

/-- R156: the target of a copy fails. -/
theorem Mirror.countError_target (hc : 2 ≤ (m.bank b).count) (hs : (m.bank b).state ≠ .failed)
    (hn : m.source = some (otherBank b)) :
    m.countError b owner addr fault = ((m.failing b).copyless,
      [erredCapture b owner addr fault 3, failedCapture b owner addr, abortedCapture b m.cursorAddr 2]) := by
  rw [Mirror.countError_third owner addr fault hc hs]
  simp only [Mirror.failBank, Mirror.failing_eq]
  simp [Mirror.counting, hn, failedCapture, Mirror.cursorAddr, Mirror.abort, abortedCapture, Mirror.copyless,
    Mirror.failing]


/-- R148, R152, R156: what the count of an error leaves, with the captures it makes. -/
inductive Mirror.ErrorEnds (m : Mirror) (b : BankId) (owner : AccessOwner) (addr : Addr) (fault : BankFault) :
    Mirror × List Capture → Prop
  | counted : (m.bank b).count < 2 ∨ (m.bank b).state = .failed →
    Mirror.ErrorEnds m b owner addr fault (m.counting b (min ((m.bank b).count + 1) 3),
      [erredCapture b owner addr fault (min ((m.bank b).count + 1) 3)])
  | leaves : 2 ≤ (m.bank b).count → (m.bank b).state ≠ .failed → m.source = none →
    (m.bank (otherBank b)).state = .inService → Mirror.ErrorEnds m b owner addr fault
      (m.failing b, [erredCapture b owner addr fault 3, failedCapture b owner addr])
  | loses : 2 ≤ (m.bank b).count → (m.bank b).state ≠ .failed → m.source = none →
    (m.bank (otherBank b)).state ≠ .inService → Mirror.ErrorEnds m b owner addr fault
      ({ m.failing b with imageLost := true },
        [erredCapture b owner addr fault 3, failedCapture b owner addr, lostCapture m owner addr])
  | source : 2 ≤ (m.bank b).count → (m.bank b).state ≠ .failed → m.source = some b →
    Mirror.ErrorEnds m b owner addr fault (m.sourceless b,
      [erredCapture b owner addr fault 3, failedCapture b owner addr,
        abortedCapture (otherBank b) m.cursorAddr 1, lostCapture m owner addr])
  | target : 2 ≤ (m.bank b).count → (m.bank b).state ≠ .failed → m.source = some (otherBank b) →
    Mirror.ErrorEnds m b owner addr fault ((m.failing b).copyless,
      [erredCapture b owner addr fault 3, failedCapture b owner addr, abortedCapture b m.cursorAddr 2])

variable (m b)

theorem Mirror.countError_ends : m.ErrorEnds b owner addr fault (m.countError b owner addr fault) := by
  by_cases counted : (m.bank b).count < 2 ∨ (m.bank b).state = .failed
  · rw [Mirror.countError_counted owner addr fault counted]
    exact .counted counted
  obtain ⟨hc, hs⟩ := not_or.mp counted
  have hc : 2 ≤ (m.bank b).count := Nat.le_of_not_lt hc
  cases hn : m.source with
  | none =>
    by_cases ho : (m.bank (otherBank b)).state = .inService
    · rw [Mirror.countError_leaves owner addr fault hc hs hn ho]
      exact .leaves hc hs hn ho
    · rw [Mirror.countError_loses owner addr fault hc hs hn ho]
      exact .loses hc hs hn ho
  | some src =>
    rcases BankId.eq_or_other b src with rfl | rfl
    · rw [Mirror.countError_source owner addr fault hc hs hn]
      exact .source hc hs hn
    · rw [Mirror.countError_target owner addr fault hc hs hn]
      exact .target hc hs hn

end

/-! ## What an error's count leaves of the banks -/

section

variable (m : Mirror) (b : BankId) (owner : AccessOwner) (addr : Addr) (fault : BankFault)

theorem Mirror.countError_count :
    ((m.countError b owner addr fault).1.bank b).count = min ((m.bank b).count + 1) 3 := by
  have ends := m.countError_ends b owner addr fault
  generalize m.countError b owner addr fault = r at ends ⊢
  cases ends with
  | counted => simp [Mirror.counting]
  | leaves hc => simp [Mirror.failing]; omega
  | loses hc => simp [Mirror.failing]; omega
  | source hc => simp [Mirror.sourceless, Mirror.failing]; omega
  | target hc => simp [Mirror.copyless, Mirror.failing]; omega

theorem Mirror.countError_otherCount :
    ((m.countError b owner addr fault).1.bank (otherBank b)).count = (m.bank (otherBank b)).count := by
  have ends := m.countError_ends b owner addr fault
  generalize m.countError b owner addr fault = r at ends ⊢
  cases ends <;> simp [Mirror.counting, Mirror.failing, Mirror.sourceless, Mirror.copyless]

theorem Mirror.countError_mem (c : BankId) :
    ((m.countError b owner addr fault).1.bank c).mem = (m.bank c).mem := by
  have ends := m.countError_ends b owner addr fault
  generalize m.countError b owner addr fault = r at ends ⊢
  rcases BankId.eq_or_other b c with rfl | rfl
  all_goals cases ends <;> simp [Mirror.counting, Mirror.failing, Mirror.sourceless, Mirror.copyless]

end

/-! ## A take of the mirror unit -/

section

variable (s : State)

theorem State.captures_ring (cs : List Capture) : (s.captures cs).ring = s.ring.pushAll (cs.map s.entryOf) := by
  induction cs generalizing s with
  | nil => rfl
  | cons c cs ih => exact ih (s.capture c)

/-- The mirror unit, the captures made, and PART_FAULT. -/
theorem State.takeMirror_eq (r : Mirror × List Capture) : s.takeMirror r = { s with
    mirror := r.1
    ring := s.ring.pushAll (r.2.map s.entryOf)
    lines := { s.lines with partFault := judgePartFault s.part r.1 } } := by
  unfold State.takeMirror
  rw [State.captures_eq, State.captures_ring]
  rfl

end

end Sys2Proof.Machine
end

section
/-! SUPPORT. A word with its parity bits, byte by byte (R147), and R148's count. -/

namespace Sys2Proof.Machine

/-! ## The parity bit (log 25) -/

theorem foldl_xor_eq_countP (bit : Nat → Bool) (l : List Nat) (p : Bool) :
    l.foldl (fun q i => q ^^ bit i) p = (p ^^ (l.countP bit % 2 == 1)) := by
  induction l generalizing p with
  | nil => simp
  | cons i l ih =>
    rw [List.foldl_cons, ih, List.countP_cons, Bool.xor_assoc]
    cases bit i with
    | false => simp
    | true => rcases Nat.mod_two_eq_zero_or_one (l.countP bit) with h | h <;> simp [h, Nat.add_mod]

/-- R147: the exclusive or of a byte's bits is one where an odd number of them is set. -/
theorem parityBit_eq (b : Byte) : parityBit b = (((List.range 8).countP fun i => b.getLsbD i) % 2 == 1) := by
  rw [parityBit, foldl_xor_eq_countP, Bool.false_xor]

/-! ## The two bytes of a word -/

theorem laneByte_low (w : Word) : laneByte .low w = w.extractLsb' 0 8 := by
  ext i hi
  simp [laneByte]

theorem laneByte_high (w : Word) : laneByte .high w = w.extractLsb' 8 8 := by
  ext i hi
  simp [laneByte]

theorem laneByte_joinHalves_low (b c : Byte) : laneByte .low (joinHalves .low b c) = b := by
  ext i hi
  simp [laneByte, joinHalves, inLane]

theorem laneByte_joinHalves_high (b c : Byte) : laneByte .high (joinHalves .low b c) = c := by
  ext i hi
  simp [laneByte, joinHalves, inLane, hi, show 8 + i < 16 by omega]

/-- R147: a returned byte is good where its parity bit is the one generated for it. -/
theorem BankWord.good_iff (r : BankWord) (l : Lanes) : r.good l = true ↔
    (l ≠ .high → r.lowParity = parityBit (laneByte .low r.data)) ∧
      (l ≠ .low → r.highParity = parityBit (laneByte .high r.data)) := by
  cases l <;> simp [BankWord.good, BankWord.laneGood, eq_comm (a := parityBit _)]

section

variable {mem : Contents} (addr : Addr) (w : Word)

/-- R147: what stands in the LOW lane after a write. -/
theorem Contents.read_writeLanes_low (l : Lanes) (h : mem.wf) :
    (mem.writeLanes addr l w).read (laneAddr addr .low) =
      if l = .high then mem.read (laneAddr addr .low) else (laneByte .low w, parityBit (laneByte .low w)) := by
  cases l with
  | low => exact Contents.read_put_same _ _ _ h
  | high => exact Contents.read_put_ne _ _ _ (laneAddr_ne addr)
  | both => exact (Contents.read_put_ne _ _ _ (laneAddr_ne addr)).trans (Contents.read_put_same _ _ _ h)

/-- R147: what stands in the HIGH lane after a write. -/
theorem Contents.read_writeLanes_high (l : Lanes) (h : mem.wf) :
    (mem.writeLanes addr l w).read (laneAddr addr .high) =
      if l = .low then mem.read (laneAddr addr .high) else (laneByte .high w, parityBit (laneByte .high w)) := by
  cases l with
  | low => exact Contents.read_put_ne _ _ _ (laneAddr_ne addr).symm
  | high => exact Contents.read_put_same _ _ _ h
  | both => exact Contents.read_put_same _ _ _ (Contents.wf_put _ _ _ h)

variable (mem)

theorem Contents.readWord_low : laneByte .low (mem.readWord addr).data = (mem.read (laneAddr addr .low)).1 :=
  laneByte_joinHalves_low _ _

theorem Contents.readWord_high : laneByte .high (mem.readWord addr).data = (mem.read (laneAddr addr .high)).1 :=
  laneByte_joinHalves_high _ _

theorem Contents.readWord_lowParity : (mem.readWord addr).lowParity = (mem.read (laneAddr addr .low)).2 := rfl

theorem Contents.readWord_highParity : (mem.readWord addr).highParity = (mem.read (laneAddr addr .high)).2 := rfl

end

/-! ## The count (R148) -/

section

variable (m : Mirror) (b : BankId) (owner : AccessOwner) (addr : Addr) (fault : BankFault)

/-- R148: an error that leaves the bank's state as it was makes BANK_ERROR alone. -/
theorem Mirror.countError_keepsState (h : min ((m.bank b).count + 1) 3 < 3 ∨ (m.bank b).state = .failed) :
    (m.countError b owner addr fault).2 = [erredCapture b owner addr fault (min ((m.bank b).count + 1) 3)] ∧
      ((m.countError b owner addr fault).1.bank b).state = (m.bank b).state := by
  rw [Mirror.countError_counted owner addr fault (h.imp_left fun _ => by omega)]
  exact ⟨rfl, by simp [Mirror.counting]⟩

/-- R148: the third error in a row makes a bank FAILED, with BANK_FAILED behind BANK_ERROR. -/
theorem Mirror.countError_fails (hc : 2 ≤ (m.bank b).count) (hs : (m.bank b).state ≠ .failed) :
    ((m.countError b owner addr fault).1.bank b).state = .failed ∧
      ∃ more, (m.countError b owner addr fault).2 =
        erredCapture b owner addr fault 3 :: failedCapture b owner addr :: more := by
  have ends := m.countError_ends b owner addr fault
  generalize m.countError b owner addr fault = r at ends ⊢
  cases ends with
  | counted h => exact absurd h (not_or.mpr ⟨Nat.not_lt.mpr hc, hs⟩)
  | leaves => exact ⟨by simp [Mirror.failing], _, rfl⟩
  | loses => exact ⟨by simp [Mirror.failing], _, rfl⟩
  | source => exact ⟨by simp [Mirror.sourceless, Mirror.failing], _, rfl⟩
  | target => exact ⟨by simp [Mirror.copyless, Mirror.failing], _, rfl⟩

end

/-- Settles O25: the bytes by what a write puts in each lane, the count by the outcomes of an error. -/
theorem bankErrorsAreCounted : Obligations.BankErrorsAreCounted := by
  refine ⟨fun mem addr l w h => ⟨?low, ?high, fun k hl hh => Contents.read_writeLanes_ne mem addr l w hl hh⟩,
    fun r l => ?good, fun m b owner addr fault => ⟨Mirror.countError_count m b owner addr fault,
      Mirror.countError_otherCount m b owner addr fault, Mirror.countError_mem m b owner addr fault,
      Mirror.countError_keepsState m b owner addr fault, fun hn hs => ?fails, ?clean, ?other⟩⟩
  case low =>
    simp only [← laneByte_low, ← parityBit_eq, Contents.readWord_low, Contents.readWord_lowParity,
      Contents.read_writeLanes_low addr w l h]
    split <;> exact ⟨rfl, rfl⟩
  case high =>
    simp only [← laneByte_high, ← parityBit_eq, Contents.readWord_high, Contents.readWord_highParity,
      Contents.read_writeLanes_high addr w l h]
    split <;> exact ⟨rfl, rfl⟩
  case good => simpa only [← laneByte_low, ← laneByte_high, ← parityBit_eq] using BankWord.good_iff r l
  case fails =>
    rw [hn]
    exact Mirror.countError_fails m b owner addr fault (by omega) hs
  case clean => simp [Mirror.countClean]
  case other => simp [Mirror.countClean]

end Sys2Proof.Machine
end

section
/-! SUPPORT. The laws of the mirror unit (R145, R146, R152, R156) and the canonical form of the bank contents (log 7):
one condition for each operation on the mirror unit, and both laws under each. -/

namespace Sys2Proof.Machine

/-! ## What leaves the mirror unit alone -/

/-- The part state and the mirror unit stand. -/
structure State.KeepsMirror (s t : State) : Prop where
  part : t.part = s.part
  mirror : t.mirror = s.mirror

section

variable {s t u : State}

theorem State.KeepsMirror.refl (s : State) : s.KeepsMirror s := ⟨rfl, rfl⟩

theorem State.KeepsMirror.law {law : PartState → Mirror → Prop} (same : s.KeepsMirror t) (h : law s.part s.mirror) :
    law t.part t.mirror := by
  rw [same.part, same.mirror]
  exact h

theorem State.KeepsMirror.trans (h : s.KeepsMirror t) (h' : t.KeepsMirror u) : s.KeepsMirror u :=
  ⟨h'.part.trans h.part, h'.mirror.trans h.mirror⟩

theorem State.KeepsMirror.foldl {α : Type} {f : State → α → State} (h : ∀ (t : State) (x : α), t.KeepsMirror (f t x))
    (l : List α) (s : State) : s.KeepsMirror (l.foldl f s) :=
  List.foldlRecOn (motive := s.KeepsMirror) _ _ (.refl s) fun t ht x _ => ht.trans (h t x)

variable (s)

theorem State.keepsMirror_lapse (m : Master) : s.KeepsMirror (s.lapse m) := by
  rw [State.lapse_eq]
  split
  · split
    · exact ⟨rfl, rfl⟩
    · split <;> exact ⟨rfl, rfl⟩
  · split <;> exact ⟨rfl, rfl⟩

theorem State.keepsMirror_judgeHeartbeat (m : Master) : s.KeepsMirror (s.judgeHeartbeat m) := by
  unfold State.judgeHeartbeat
  split
  · split
    · exact s.keepsMirror_lapse m
    · exact .refl s
  · exact .refl s

theorem State.keepsMirror_discardSlot (m : Master) : s.KeepsMirror (s.discardSlot m) := by
  unfold State.discardSlot
  split <;> exact ⟨rfl, rfl⟩

theorem State.keepsMirror_dropRequester : s.KeepsMirror s.dropRequester := by
  unfold State.dropRequester
  split
  · split <;> exact ⟨rfl, rfl⟩
  · exact .refl s

theorem State.keepsMirror_dropHolder : s.KeepsMirror s.dropHolder := by
  unfold State.dropHolder
  split
  · split
    · exact .refl s
    · split <;> exact ⟨rfl, rfl⟩
  · exact .refl s

theorem State.keepsMirror_judgeTransfer : s.KeepsMirror s.judgeTransfer := by
  unfold State.judgeTransfer
  split
  · split <;> exact ⟨rfl, rfl⟩
  · exact .refl s

theorem State.keepsMirror_takeTransferExpiry : s.KeepsMirror s.takeTransferExpiry := by
  unfold State.takeTransferExpiry
  split <;> exact ⟨rfl, rfl⟩

theorem State.keepsMirror_setYard (y : Yard) : s.KeepsMirror (s.setYard y) := ⟨rfl, rfl⟩

theorem State.keepsMirror_replaceTables (img : Settings) : s.KeepsMirror (s.replaceTables img) := ⟨rfl, rfl⟩

theorem State.keepsMirror_adjustMasters (old : State) (img : Settings) : s.KeepsMirror (s.adjustMasters old img) := by
  have heartbeats := State.KeepsMirror.foldl State.keepsMirror_judgeHeartbeat masterNumbers s
  have requester := heartbeats.trans (State.keepsMirror_dropRequester _)
  have holder := requester.trans (State.keepsMirror_dropHolder _)
  exact (holder.trans (State.keepsMirror_judgeTransfer _)).trans (State.keepsMirror_setYard _ _)

theorem State.keepsMirror_finishApply (before : List Door) (detail : Nat) :
    s.KeepsMirror (s.finishApply before detail) :=
  ⟨by simp [State.finishApply, State.endTakeAll], by simp [State.finishApply, State.endTakeAll]⟩

/-- R145: an apply keeps the mirror unit. -/
theorem State.keepsMirror_applyImage (img : Settings) (detail : Nat) : s.KeepsMirror (s.applyImage img detail) := by
  have slots := (s.keepsMirror_replaceTables img).trans (.foldl State.keepsMirror_discardSlot masterNumbers _)
  have masters := slots.trans (State.keepsMirror_adjustMasters _ s img)
  exact masters.trans (State.keepsMirror_finishApply _ s.yard.doors detail)

theorem State.keepsMirror_doorTake (f : Yard → Env → Yard) (cs : List Capture) : s.KeepsMirror (s.doorTake f cs) :=
  ⟨State.captures_part _ _, State.captures_mirror _ _⟩

theorem State.keepsMirror_sensorTake (d : Nat) (w : Word) (arrival : Nat) : s.KeepsMirror (s.sensorTake d w arrival) :=
  ⟨State.captures_part _ _, State.captures_mirror _ _⟩

/-- R153: of the orders' takes RESYNC's alone changes the mirror unit. -/
theorem State.OrderTake.keepsMirror {m : Master} {addr : Addr} {w : Word} (take : s.OrderTake m addr w t) :
    s.KeepsMirror t ∨ ∃ b, s.mirror.resyncTarget = .ok b ∧ t.part = s.part ∧ t.mirror = s.mirror.startResync b := by
  cases take with
  | resync b target => exact .inr ⟨b, target, rfl, rfl⟩
  | _ => exact .inl ⟨rfl, rfl⟩

@[simp] theorem State.takeMirror_mirror (r : Mirror × List Capture) : (s.takeMirror r).mirror = r.1 := by
  rw [State.takeMirror_eq]

@[simp] theorem State.takeMirror_part (r : Mirror × List Capture) : (s.takeMirror r).part = s.part := by
  rw [State.takeMirror_eq]

end

/-! ## Laws of the mirror unit -/

/-- One condition for each operation on the mirror unit: a law of it that meets them all is kept by every step. -/
structure Mirror.Kept (law : PartState → Mirror → Prop) : Prop where
  outside : ∀ p q m, law p m → q ≠ .running → law q m
  store : ∀ p m b a l w, law p m → law p (m.store b a l w)
  forget : ∀ p m b a, law p m → law p (m.forget b a)
  clean : ∀ p m b, law p m → law p (m.countClean b)
  error : ∀ p m b owner a fault, law p m → law p (m.countError b owner a fault).1
  setBack : ∀ p m b a, law p m → law p (m.setBack b a)
  copyClean : ∀ p m src w, law p m → m.source = some src → law p (m.copyClean src w).1
  startResync : ∀ m b, law .running m → m.resyncTarget = .ok b → law .running (m.startResync b)
  blank : ∀ p m, law p m → law .inReset (Mirror.blank m.bankA.mem m.bankB.mem m.free)
  enterTransparent : ∀ p m, law p m → law .transparent m.enterTransparent
  enter : ∀ p m image img a b, law p m → loadAttempt image none = .ok img → law .running (m.enter img a b).1

namespace Mirror.Kept

variable {law : PartState → Mirror → Prop}

theorem countLeg (k : Mirror.Kept law) {p : PartState} {m : Mirror} (b : BankId) (owner : AccessOwner) (addr : Addr)
    (clean : Bool) (h : law p m) : law p (m.countLeg b owner addr clean).1 := by
  cases clean with
  | true => exact k.clean _ _ _ h
  | false => exact k.setBack _ _ _ _ (k.error _ _ _ _ _ _ h)

theorem copyStep (k : Mirror.Kept law) {p : PartState} {m : Mirror} (outcome : CopyOutcome) (h : law p m) :
    law p (m.copyStep outcome).1 := by
  unfold Mirror.copyStep
  split
  · exact h
  · next src hs =>
    split
    · exact k.error _ _ _ _ _ _ h
    · simp only
      split
      · split
        · exact k.copyClean _ _ _ _ h hs
        · exact k.error _ _ _ _ _ _ (k.forget _ _ _ _ (k.clean _ _ _ h))
      · exact k.error _ _ _ _ _ _ h

/-- R118: the words that a reset leaves unknown. -/
theorem abandoned (k : Mirror.Kept law) {s : State} (h : law s.part s.mirror) : law s.part s.abandoned := by
  unfold State.abandoned
  split
  · next a w _ =>
    cases w with
    | write addr _ _ legA legB _ =>
      have first : law s.part (if legA.isOutstanding then s.mirror.forget .bankA addr else s.mirror) := by
        split
        · exact k.forget _ _ _ _ h
        · exact h
      unfold Mirror.abandonWrites
      dsimp only
      split
      · exact k.forget _ _ _ _ first
      · exact first
    | read => exact h
    | transparent =>
      unfold Mirror.abandonWrites
      dsimp only
      split
      · exact k.forget _ _ _ _ h
      · exact h
  · exact h
  · exact h

theorem takeMirror (_ : Mirror.Kept law) {s : State} {r : Mirror × List Capture} (h : law s.part r.1) :
    law (s.takeMirror r).part (s.takeMirror r).mirror := by
  rw [State.takeMirror_part, State.takeMirror_mirror]
  exact h

theorem order (k : Mirror.Kept law) {s t : State} {m : Master} {addr : Addr} {w : Word} (h : law s.part s.mirror)
    (running : s.part = .running) (take : s.OrderTake m addr w t) : law t.part t.mirror := by
  rcases take.keepsMirror with same | ⟨b, target, part, mirror⟩
  · exact same.law h
  · rw [running] at h part
    rw [part, mirror]
    exact k.startResync _ _ h target

/-- Every take of the part keeps the law. -/
theorem kept (k : Mirror.Kept law) : Machine.Kept fun s => law s.part s.mirror where
  pending _ _ h := h
  clock _ h := h
  capture _ _ h := h
  answer _ _ h := h
  setUpstream _ _ h := h
  setSlot _ _ _ h := h
  setMeter _ _ _ h := h
  station _ _ _ _ h _ := h
  order _ _ _ _ _ h running take := k.order h running take
  sensor _ _ _ _ h := (State.keepsMirror_sensorTake _ _ _ _).law h
  store _ _ _ _ _ h := k.store _ _ _ _ _ _ h
  forget _ _ _ h := k.forget _ _ _ _ h
  clean _ _ h := k.clean _ _ _ h
  countLeg _ _ _ _ _ h := k.takeMirror (k.countLeg _ _ _ _ h)
  countError _ _ _ _ _ h := k.takeMirror (k.error _ _ _ _ _ _ h)
  copyStep _ _ h := k.takeMirror (k.copyStep _ h)
  beginReset _ _ h := k.blank _ _ (k.abandoned h)
  release _ _ h _ := k.outside _ _ _ h nofun
  nextAttempt _ _ _ h _ := k.outside _ _ _ h nofun
  enterTransparent _ _ h _ := k.enterTransparent _ _ h
  enterRunning s n _ img a b h _ hl := k.takeMirror (s := (s.takeTables img).capture (s.startedCapture n))
    (k.enter _ _ _ _ a b h hl)
  ready _ h := h
  freePort _ h := h
  reloadFault _ _ h := h
  hold _ _ _ h _ := h
  applyNow _ _ _ h _ _ _ := (State.keepsMirror_applyImage _ _ _).law h
  applyHeld _ _ h _ _ := (State.keepsMirror_applyImage _ _ _).law h
  debounce _ _ _ h := (State.keepsMirror_doorTake _ _ _).law h
  freshness _ _ h := (State.keepsMirror_doorTake _ _ _).law h
  grant _ _ h := (State.keepsMirror_doorTake _ _ _).law h
  prewarn _ _ h := (State.keepsMirror_doorTake _ _ _).law h
  travel _ _ _ _ _ _ h _ _ := (State.keepsMirror_doorTake _ _ _).law h
  reclose _ _ _ _ h _ _ := (State.keepsMirror_doorTake _ _ _).law h
  trip _ _ _ h _ _ := (State.keepsMirror_doorTake _ _ _).law h
  retry _ _ _ _ h _ _ := (State.keepsMirror_doorTake _ _ _).law h
  settle _ _ h := (State.keepsMirror_doorTake _ _ _).law h
  lapse _ _ _ h _ := (State.keepsMirror_lapse _ _).law h
  transferExpiry _ h := (State.keepsMirror_takeTransferExpiry _).law h
  phase _ h := h

end Mirror.Kept

/-! ## The canonical form of the contents (log 7) -/

theorem Mirror.canonical_iff {m : Mirror} : m.canonical ↔ ∀ b, (m.bank b).mem.wf :=
  (BankId.forall_iff (p := fun b => (m.bank b).mem.wf) .bankA).symm

section

variable {m n : Mirror}

/-- What leaves both banks' contents as they were. -/
theorem Mirror.canonical_congr (h : m.canonical) (mem : ∀ b, (n.bank b).mem = (m.bank b).mem) : n.canonical :=
  Mirror.canonical_iff.mpr fun b => by rw [mem b]; exact Mirror.canonical_iff.mp h b

theorem Mirror.canonical_modifyBank {f : Bank → Bank} (h : m.canonical) (b : BankId)
    (hf : (m.bank b).mem.wf → (f (m.bank b)).mem.wf) : (m.modifyBank b f).canonical := by
  have wf := Mirror.canonical_iff.mp h
  refine Mirror.canonical_iff.mpr ((BankId.forall_iff b).mpr ⟨?_, ?_⟩)
  · rw [Mirror.modifyBank_same]
    exact hf (wf b)
  · rw [Mirror.modifyBank_other]
    exact wf _

theorem Mirror.canonical_store (h : m.canonical) (b : BankId) (a : Addr) (l : Lanes) (w : Word) :
    (m.store b a l w).canonical := Mirror.canonical_modifyBank h b fun wf => Contents.wf_writeLanes a l w wf

theorem Mirror.canonical_countClean (h : m.canonical) (b : BankId) : (m.countClean b).canonical :=
  Mirror.canonical_modifyBank h b id

theorem Mirror.setBack_mem (m : Mirror) (b : BankId) (a : Addr) (c : BankId) :
    ((m.setBack b a).bank c).mem = (m.bank c).mem := by
  unfold Mirror.setBack
  split
  · rw [Mirror.bank_mk]
  · rfl

theorem Mirror.canonical_copyWord (h : m.canonical) (src : BankId) (w : Word) : (m.copyWord src w).canonical :=
  Mirror.canonical_countClean (Mirror.canonical_store (Mirror.canonical_countClean h _) _ _ _ _) _

theorem Mirror.canonical_copyClean (h : m.canonical) (src : BankId) (w : Word) : (m.copyClean src w).1.canonical := by
  have copied := Mirror.canonical_copyWord h src w
  unfold Mirror.copyClean
  dsimp only
  split
  · exact Mirror.canonical_modifyBank copied _ id
  · exact copied

theorem Mirror.canonical_enter (h : m.canonical) (img : Settings) (a b : Bool) : (m.enter img a b).1.canonical := by
  refine Mirror.canonical_congr h fun c => ?_
  unfold Mirror.enter
  dsimp only
  split <;> cases c <;> rfl

end

theorem Mirror.kept_canonical : Mirror.Kept fun _ m => m.canonical where
  outside _ _ _ h _ := h
  store _ _ b a l w h := Mirror.canonical_store h b a l w
  forget _ m b a h := Mirror.canonical_modifyBank h b fun wf => Contents.wf_forget a m.free wf
  clean _ _ b h := Mirror.canonical_countClean h b
  error _ _ _ _ _ _ h := Mirror.canonical_congr h (Mirror.countError_mem _ _ _ _ _)
  setBack _ m b a h := Mirror.canonical_congr h (m.setBack_mem b a)
  copyClean _ _ src w h _ := Mirror.canonical_copyClean h src w
  startResync _ b h _ := Mirror.canonical_modifyBank h b id
  blank _ _ h := h
  enterTransparent _ _ h := h
  enter _ _ _ img a b h _ := Mirror.canonical_enter h img a b

/-! ## The laws of the mirror unit (R145, R146, R152, R156) -/

section

variable {part : PartState} {m n : Mirror} {b : BankId}

/-- The laws, said of a bank and the other instead of A and B. -/
theorem Mirror.lawful_iff : m.lawful part ↔ (∀ b, (m.bank b).count ≤ 3) ∧
    (∀ b, m.source = some (otherBank b) ↔ (m.bank b).state = .resync) ∧
    (∀ b, m.source = some b → (m.bank b).state = .inService) ∧
    ((m.source = none → m.cursor = 0) ∧ (m.source ≠ none → m.cursor < m.imageSize)) ∧
    (part = .running → 0 < m.imageSize) ∧
    (part = .running → (m.imageLost = true ↔ ∀ b, (m.bank b).state ≠ .inService)) := by
  have counts := BankId.forall_iff (p := fun b => (m.bank b).count ≤ 3) .bankA
  have copies := BankId.forall_iff (p := fun b => m.source = some (otherBank b) ↔ (m.bank b).state = .resync) .bankA
  have lost : (∀ b, (m.bank b).state ≠ .inService) ↔ m.serves .bankA = false ∧ m.serves .bankB = false := by
    rw [BankId.forall_iff .bankA, ← Bool.not_eq_true, ← Bool.not_eq_true, Mirror.serves_iff, Mirror.serves_iff]
    rfl
  rw [counts, copies, lost]
  exact ⟨fun h => ⟨h.counts, ⟨h.copyToA, h.copyToB⟩, h.source, h.cursor, h.image, h.lost⟩,
    fun ⟨counts, ⟨toA, toB⟩, source, cursor, image, lost⟩ => ⟨counts, toB, toA, source, cursor, image, lost⟩⟩

/-- The law looks at the banks' states and counts and at the copy record alone. -/
theorem Mirror.lawful.restate (h : m.lawful part) (states : ∀ b, (n.bank b).state = (m.bank b).state)
    (counts : ∀ b, (n.bank b).count ≤ 3) (source : n.source = m.source) (size : n.imageSize = m.imageSize)
    (lost : n.imageLost = m.imageLost)
    (cursor : (n.source = none → n.cursor = 0) ∧ (n.source ≠ none → n.cursor < n.imageSize)) : n.lawful part := by
  obtain ⟨-, copies, sources, -, image, loses⟩ := Mirror.lawful_iff.mp h
  refine Mirror.lawful_iff.mpr ⟨counts, fun b => ?_, fun b => ?_, cursor, ?_, ?_⟩
  · rw [source, states]; exact copies b
  · rw [source, states]; exact sources b
  · rw [size]; exact image
  · simp only [lost, states]; exact loses

/-- The same, with the copy record as it was. -/
theorem Mirror.lawful.recount (h : m.lawful part) (states : ∀ b, (n.bank b).state = (m.bank b).state)
    (counts : ∀ b, (n.bank b).count ≤ 3) (source : n.source = m.source) (cursor : n.cursor = m.cursor)
    (size : n.imageSize = m.imageSize) (lost : n.imageLost = m.imageLost) : n.lawful part :=
  h.restate states counts source size lost (by rw [source, cursor, size]; exact h.cursor)

/-- Without a copy no bank is in RESYNC, and the cursor is 0. -/
theorem Mirror.lawful_copyless (counts : ∀ b, (n.bank b).count ≤ 3) (states : ∀ b, (n.bank b).state ≠ .resync)
    (source : n.source = none) (cursor : n.cursor = 0) (size : part = .running → 0 < n.imageSize)
    (lost : part = .running → (n.imageLost = true ↔ ∀ b, (n.bank b).state ≠ .inService)) : n.lawful part :=
  Mirror.lawful_iff.mpr ⟨counts, fun b => by simp [source, states b], fun b => by simp [source],
    ⟨fun _ => cursor, fun h => absurd source h⟩, size, lost⟩

theorem Mirror.lawful.count_le (h : m.lawful part) (b : BankId) : (m.bank b).count ≤ 3 :=
  (Mirror.lawful_iff.mp h).1 b

/-- R152: while a bank is IN_SERVICE the image is not lost. -/
theorem Mirror.lawful.kept (h : m.lawful part) (running : part = .running) (hb : (m.bank b).state = .inService) :
    m.imageLost = false := by
  obtain ⟨-, -, -, -, -, loses⟩ := Mirror.lawful_iff.mp h
  rw [← Bool.not_eq_true, loses running]
  exact fun none => none b hb

/-- R146, R153: a bank put in RESYNC from the other, which is IN_SERVICE. -/
theorem Mirror.lawful_startResync (counts : ∀ b, (m.bank b).count ≤ 3)
    (ho : (m.bank (otherBank b)).state = .inService) (size : 0 < m.imageSize) (lost : m.imageLost = false) :
    (m.startResync b).lawful part := by
  have serving : ((m.startResync b).bank (otherBank b)).state = .inService := by simp [Mirror.startResync, ho]
  have filling : ((m.startResync b).bank b).state = .resync := by simp [Mirror.startResync]
  have source : (m.startResync b).source = some (otherBank b) := rfl
  refine Mirror.lawful_iff.mpr ⟨(BankId.forall_iff b).mpr ⟨by simp [Mirror.startResync], ?_⟩,
    (BankId.forall_iff b).mpr ⟨by simp [source, filling], by simp [source, serving]⟩, fun c hc => ?_,
    ⟨nofun, fun _ => by simpa [Mirror.startResync] using size⟩,
    fun _ => by simpa [Mirror.startResync] using size, fun _ => ⟨fun hl => ?_, fun none => absurd serving (none _)⟩⟩
  · simpa [Mirror.startResync] using counts (otherBank b)
  · obtain rfl := Option.some.inj hc
    exact serving
  · simp [Mirror.startResync, lost] at hl

/-! ## The laws under each operation -/

theorem Mirror.lawful_store (h : m.lawful part) (b : BankId) (a : Addr) (l : Lanes) (w : Word) :
    (m.store b a l w).lawful part := by
  refine h.recount ((BankId.forall_iff b).mpr ?_) ((BankId.forall_iff b).mpr ?_) ?_ ?_ ?_ ?_
  all_goals simp [Mirror.store, h.count_le]

theorem Mirror.lawful_forget (h : m.lawful part) (b : BankId) (a : Addr) : (m.forget b a).lawful part := by
  refine h.recount ((BankId.forall_iff b).mpr ?_) ((BankId.forall_iff b).mpr ?_) ?_ ?_ ?_ ?_
  all_goals simp [Mirror.forget, h.count_le]

theorem Mirror.lawful_counting (h : m.lawful part) (b : BankId) {n : Nat} (hn : n ≤ 3) :
    (m.counting b n).lawful part := by
  refine h.recount ((BankId.forall_iff b).mpr ?_) ((BankId.forall_iff b).mpr ?_) ?_ ?_ ?_ ?_
  all_goals simp [Mirror.counting, h.count_le, hn]

theorem Mirror.lawful_setBack (h : m.lawful part) (b : BankId) (a : Addr) : (m.setBack b a).lawful part := by
  unfold Mirror.setBack
  split
  · next back =>
    refine h.restate (fun c => by rw [Mirror.bank_mk]) (fun c => by rw [Mirror.bank_mk]; exact h.count_le c) rfl rfl rfl
      ⟨fun hn => (nomatch back.1.symm.trans hn), fun hs => ?_⟩
    exact Nat.lt_trans back.2 (h.cursor.2 hs)
  · exact h

/-- A bank FAILED and no copy: the image is lost exactly where the other bank is not IN_SERVICE. -/
theorem Mirror.lawful_failed (counts : ∀ b, (n.bank b).count ≤ 3) (failed : (n.bank b).state = .failed)
    (other : (n.bank (otherBank b)).state ≠ .resync) (source : n.source = none) (cursor : n.cursor = 0)
    (size : part = .running → 0 < n.imageSize)
    (lost : part = .running → (n.imageLost = true ↔ (n.bank (otherBank b)).state ≠ .inService)) : n.lawful part := by
  refine Mirror.lawful_copyless counts ((BankId.forall_iff b).mpr ⟨by simp [failed], other⟩) source cursor size
    fun running => (lost running).trans ?_
  simp [BankId.forall_iff b, failed]

/-- R148, R152, R156: the image is lost exactly where an error leaves no bank IN_SERVICE. -/
theorem Mirror.lawful_countError (h : m.lawful part) (b : BankId) (owner : AccessOwner) (a : Addr) (fault : BankFault) :
    (m.countError b owner a fault).1.lawful part := by
  obtain ⟨counts, copies, sources, cursor, image, -⟩ := Mirror.lawful_iff.mp h
  have ends := m.countError_ends b owner a fault
  generalize m.countError b owner a fault = r at ends ⊢
  have failing : ∀ c, ((m.failing b).bank c).count ≤ 3 :=
    (BankId.forall_iff b).mpr ⟨by simp [Mirror.failing], by simp [Mirror.failing, counts]⟩
  have size : part = .running → 0 < (m.failing b).imageSize := by simpa [Mirror.failing] using image
  cases ends with
  | counted => exact Mirror.lawful_counting h b (Nat.min_le_right _ _)
  | leaves _ _ hn ho =>
    refine Mirror.lawful_failed (b := b) failing ?_ ?_ ?_ ?_ size fun running => ?_
    all_goals simp [Mirror.failing, hn, ho, cursor.1]
    exact h.kept running ho
  | loses _ _ hn ho =>
    have settled : (m.bank (otherBank b)).state ≠ .resync := fun hr => by simp [(copies _).mpr hr] at hn
    refine Mirror.lawful_failed (b := b) (by simpa using failing) ?_ ?_ ?_ ?_ size fun _ => ?_
    all_goals simp [Mirror.failing, hn, ho, cursor.1, settled]
  | source _ _ hn =>
    have counts : ∀ c, ((m.sourceless b).bank c).count ≤ 3 :=
      (BankId.forall_iff b).mpr ⟨by simp [Mirror.sourceless, Mirror.failing],
        by simp [Mirror.sourceless, Mirror.failing, counts]⟩
    refine Mirror.lawful_failed (b := b) counts ?_ ?_ rfl rfl (by simpa [Mirror.sourceless] using size) fun _ => ?_
    all_goals simp [Mirror.sourceless, Mirror.failing]
  | target _ _ hn =>
    have ho := sources _ hn
    refine Mirror.lawful_failed (b := b) (by simpa [Mirror.copyless] using failing) ?_ ?_ rfl rfl size fun running => ?_
    all_goals simp [Mirror.copyless, Mirror.failing, ho]
    exact h.kept running ho

/-- R157: the copy complete, its target beside its source in service. -/
theorem Mirror.lawful_completeResync (h : m.lawful part) (hs : m.source = some b) :
    (m.completeResync (otherBank b)).1.lawful part := by
  have serving := (Mirror.lawful_iff.mp h).2.2.1 b hs
  refine Mirror.lawful_copyless ((BankId.forall_iff b).mpr ?_) ((BankId.forall_iff b).mpr ?_) rfl rfl ?size
    fun running => ?lost
  case lost => simp [Mirror.completeResync, h.kept running serving, BankId.forall_iff b, serving]
  case size => simpa [Mirror.completeResync] using h.image
  all_goals simp [Mirror.completeResync, serving, h.count_le]

theorem Mirror.lawful_copyClean (h : m.lawful part) (hs : m.source = some b) (w : Word) :
    (m.copyClean b w).1.lawful part := by
  have copied : (m.copyWord b w).lawful part :=
    Mirror.lawful_counting (Mirror.lawful_store (Mirror.lawful_counting h b (Nat.zero_le _)) _ _ _ _) _ (Nat.zero_le _)
  have source : (m.copyWord b w).source = m.source := by simp [Mirror.copyWord, Mirror.countClean, Mirror.store]
  have size : (m.copyWord b w).imageSize = m.imageSize := by simp [Mirror.copyWord, Mirror.countClean, Mirror.store]
  unfold Mirror.copyClean
  dsimp only
  split
  · exact Mirror.lawful_completeResync copied (source.trans hs)
  · next more =>
    refine copied.restate (fun c => by rw [Mirror.bank_mk]) (fun c => by rw [Mirror.bank_mk]; exact copied.count_le c)
      rfl rfl rfl ⟨fun hn => (nomatch hs.symm.trans (source.symm.trans hn)), fun _ => ?_⟩
    rw [size]
    exact Nat.lt_of_not_le more

/-- R153: the taken order's bank is FAILED, the other IN_SERVICE, the image not lost. -/
theorem Mirror.resyncTarget_ok (h : m.resyncTarget = .ok b) :
    m.imageLost = false ∧ (m.bank b).state = .failed ∧ (m.bank (otherBank b)).state = .inService := by
  unfold Mirror.resyncTarget at h
  split at h
  · cases h
  · split at h
    · cases h
    · next lost =>
      split at h
      · next hA hB => cases h; exact ⟨by simpa using lost, hA, hB⟩
      · next hA hB => cases h; exact ⟨by simpa using lost, hB, hA⟩
      · cases h

/-- R146: the four rows of the table. -/
theorem Mirror.lawful_enter (m : Mirror) {img : Settings} (size : 0 < img.imageSize) (a b : Bool) :
    (m.enter img a b).1.lawful part := by
  unfold Mirror.enter
  dsimp only
  split
  · exact Mirror.lawful_startResync ((BankId.forall_iff .bankA).mpr ⟨Nat.zero_le _, Nat.zero_le _⟩) rfl size rfl
  all_goals
    refine Mirror.lawful_copyless ((BankId.forall_iff .bankA).mpr ⟨Nat.zero_le _, Nat.zero_le _⟩)
      ((BankId.forall_iff .bankA).mpr ⟨nofun, nofun⟩) rfl rfl (fun _ => size) fun _ => ?_
  · exact ⟨nofun, fun none => absurd rfl (none .bankA)⟩
  · exact ⟨nofun, fun none => absurd rfl (none .bankB)⟩
  · exact ⟨fun _ => (BankId.forall_iff .bankA).mpr ⟨nofun, nofun⟩, fun _ => rfl⟩

/-- R165: the image size that a body gives. -/
theorem settingsOf_imageSize {body : List Byte} {inForce : Option Nat} {img : Settings}
    (read : settingsOf body inForce = some img) : img.imageSize = (byteAt body 22 + 1) * 1024 := by
  unfold settingsOf at read
  -- one binding for each line of the reader, of which the image size is none
  repeat
    change Option.bind _ _ = _ at read
    rw [Option.bind_eq_some_iff] at read
    obtain ⟨_, -, read⟩ := read
  obtain ⟨-, rfl⟩ := checked_eq_some.mp read
  rfl

theorem loadAttempt_imageSize {image : List Byte} {inForce : Option Nat} {img : Settings}
    (h : loadAttempt image inForce = .ok img) : 0 < img.imageSize := by
  rw [settingsOf_imageSize (settingsOf_of_loadAttempt h)]
  exact Nat.mul_pos (Nat.succ_pos _) (by decide)

end

theorem Mirror.kept_lawful : Mirror.Kept Mirror.lawful where
  outside _ _ _ h hq :=
    ⟨h.counts, h.copyToB, h.copyToA, h.source, h.cursor, fun running => absurd running hq,
      fun running => absurd running hq⟩
  store _ _ b a l w h := Mirror.lawful_store h b a l w
  forget _ _ b a h := Mirror.lawful_forget h b a
  clean _ _ b h := Mirror.lawful_counting h b (Nat.zero_le _)
  error _ _ b owner a fault h := Mirror.lawful_countError h b owner a fault
  setBack _ _ b a h := Mirror.lawful_setBack h b a
  copyClean _ _ _ w h hs := Mirror.lawful_copyClean h hs w
  startResync _ _ h target := by
    obtain ⟨lost, -, serving⟩ := Mirror.resyncTarget_ok target
    exact Mirror.lawful_startResync h.count_le serving (h.image rfl) lost
  blank _ _ _ := Mirror.lawful_copyless ((BankId.forall_iff .bankA).mpr ⟨Nat.zero_le _, Nat.zero_le _⟩)
    ((BankId.forall_iff .bankA).mpr ⟨nofun, nofun⟩) rfl rfl nofun nofun
  enterTransparent _ _ _ := Mirror.lawful_copyless ((BankId.forall_iff .bankA).mpr ⟨Nat.zero_le _, Nat.zero_le _⟩)
    ((BankId.forall_iff .bankA).mpr ⟨nofun, nofun⟩) rfl rfl nofun nofun
  enter _ m _ _ a b _ hl := m.lawful_enter (loadAttempt_imageSize hl) a b

/-- Settles O57: both are laws of the mirror unit that every operation on it keeps. -/
theorem mirrorLaws : Obligations.MirrorLaws := ⟨Mirror.kept_canonical.kept.step, Mirror.kept_lawful.kept.step⟩

end Sys2Proof.Machine
end

section
/-! SUPPORT. RESYNC (R153), and the end of a forwarded read's bank access (R148, R151, R152, R156). -/

namespace Sys2Proof.Machine

/-! ## RESYNC -/

section

variable {m : Mirror} {b : BankId}

theorem Mirror.resyncTarget_busy (h : m.bankA.state = .resync ∨ m.bankB.state = .resync) :
    m.resyncTarget = .error .busy := if_pos h

theorem Mirror.resyncTarget_found (lost : m.imageLost = false) (failed : (m.bank b).state = .failed)
    (serving : (m.bank (otherBank b)).state = .inService) : m.resyncTarget = .ok b := by
  cases b with
  | bankA =>
    have hA : m.bankA.state = .failed := failed
    have hB : m.bankB.state = .inService := serving
    simp [Mirror.resyncTarget, hA, hB, lost]
  | bankB =>
    have hB : m.bankB.state = .failed := failed
    have hA : m.bankA.state = .inService := serving
    simp [Mirror.resyncTarget, hA, hB, lost]

/-- R153: neither busy nor with a bank to put in RESYNC. -/
theorem Mirror.resyncTarget_state (busy : ¬ (m.bankA.state = .resync ∨ m.bankB.state = .resync))
    (none : ∀ b, ¬ (m.imageLost = false ∧ (m.bank b).state = .failed ∧ (m.bank (otherBank b)).state = .inService)) :
    m.resyncTarget = .error .state := by
  cases target : m.resyncTarget with
  | ok b => exact absurd (Mirror.resyncTarget_ok target) (none b)
  | error r =>
    unfold Mirror.resyncTarget at target
    rw [if_neg busy] at target
    split at target
    · exact target.symm
    · split at target <;> cases target
      rfl

variable {s : State} {master : Master} {w : Word}

theorem State.takeResync_writer (h : ¬ (s.command.holder = some master ∨ (s.role master).isService = true)) :
    s.takeResync master w = .refused .writer := if_neg h

variable (h : s.command.holder = some master ∨ (s.role master).isService = true)

include h

theorem State.takeResync_value (hw : w ≠ 1) : s.takeResync master w = .refused .badValue := by
  have unconfirmed : confirmOf w = false := beq_eq_false_iff_ne.mpr hw
  simp [State.takeResync, h, unconfirmed]

theorem State.takeResync_refused {r : OrderRefusal} (hr : s.mirror.resyncTarget = .error r) :
    s.takeResync master 1 = .refused r := by
  simp [State.takeResync, h, confirmOf, hr]

theorem State.takeResync_taken (hb : s.mirror.resyncTarget = .ok b) : s.takeResync master 1 =
    .taken (State.judgeFault { s with mirror := s.mirror.startResync b }) := by
  simp [State.takeResync, h, confirmOf, hb]

end

/-- R113: no bank FAILED and the image not lost, in RUNNING. -/
theorem judgePartFault_startResync {m : Mirror} {b : BankId} (lost : m.imageLost = false)
    (serving : (m.bank (otherBank b)).state = .inService) : judgePartFault .running (m.startResync b) = false := by
  rw [← Bool.not_eq_true, judgePartFault_iff]
  cases b with
  | bankA =>
    have hB : m.bankB.state = .inService := serving
    simp [Mirror.startResync, Mirror.modifyBank, lost, hB]
  | bankB =>
    have hA : m.bankA.state = .inService := serving
    simp [Mirror.startResync, Mirror.modifyBank, lost, hA]

/-- Settles O50: the take by its writer, its value and the bank that it finds. -/
theorem resyncOrder : Obligations.ResyncOrder := by
  intro s m addr w h writer busy can
  refine ⟨fun hw => ?writer, fun hw hv => ?value, fun hw hv hb => ?busy, fun hw hv hb hn => ?state,
    fun b hw hv hc => ?taken⟩
  case writer => exact exec_order_refused (r := .writer) rfl h (State.takeResync_writer hw)
  case value => exact exec_order_refused (r := .badValue) rfl h (State.takeResync_value hw hv)
  case busy =>
    subst hv
    exact exec_order_refused (r := .busy) rfl h (State.takeResync_refused hw (Mirror.resyncTarget_busy hb))
  case state =>
    subst hv
    exact exec_order_refused (r := .state) rfl h (State.takeResync_refused hw (Mirror.resyncTarget_state hb hn))
  case taken =>
    subst hv
    obtain ⟨lost, failed, serving⟩ := hc
    rw [exec_order_taken rfl h (State.takeResync_taken hw (Mirror.resyncTarget_found lost failed serving))]
    have running : s.part = .running := h.1.1
    unfold State.judgeFault
    simp only [running, judgePartFault_startResync lost serving]
    rfl

/-! ## PART_FAULT behind a failure (R113) -/

theorem judgePartFault_failed (part : PartState) {m : Mirror} {b : BankId} (h : (m.bank b).state = .failed) :
    judgePartFault part m = true := by
  rw [judgePartFault_iff]
  cases b with
  | bankA => exact .inr (.inl h)
  | bankB => exact .inr (.inr (.inl h))

/-! ## The end of a read -/

section

variable {s : State} {a : Access} {addr : Addr} {lanes : Lanes} {b : BankId} {retry : Bool}

theorem State.bankEnd_read (h : s.path.upstream = .waiting a (.read addr lanes b retry)) (flipped : BankWord) :
    s.bankEnd b flipped = s.readEnd a addr lanes b retry flipped := by
  simp only [State.bankEnd, h, if_true]

theorem State.bankTimeout_read (h : s.path.upstream = .waiting a (.read addr lanes b retry)) :
    s.bankTimeout b = s.readError a addr lanes b retry .readTimeout := by
  simp only [State.bankTimeout, h, if_true]

/-- R147: a read in error is an error of one of its two causes. -/
theorem exec_readErrs (h : s.path.upstream = .waiting a (.read addr lanes b retry)) {c : Instr} {detail : Nat}
    (errs : ReadErrs s.mirror b addr lanes c detail) :
    ∃ fault : BankFault, fault.code = detail ∧ exec c s = .next (s.readError a addr lanes b retry fault) := by
  cases errs with
  | parity flipped bad =>
    refine ⟨.readParity, rfl, congrArg _ ((State.bankEnd_read h flipped).trans ?_)⟩
    simp only [State.readEnd, bad]
    exact if_neg Bool.false_ne_true
  | timeout => exact ⟨.readTimeout, rfl, congrArg _ (State.bankTimeout_read h)⟩

variable {r : Mirror × List Capture} {fault : BankFault}
  (counted : s.mirror.countError b (.upstream a.master) addr fault = r)

include counted

/-- R151: a read retried on the other bank, IN_SERVICE as the count has left it. -/
theorem State.readError_retried (first : retry = false) (serving : (r.1.bank (otherBank b)).state = .inService) :
    s.readError a addr lanes b retry fault =
      (s.takeMirror r).setUpstream (.waiting a (.read addr lanes (otherBank b) true)) := by
  have serves : r.1.serves (otherBank b) = true := Mirror.serves_iff.mpr serving
  simp [State.readError, counted, first, serves]

/-- R151: a read answered ERROR. -/
theorem State.readError_answered (h : ¬ (retry = false ∧ (r.1.bank (otherBank b)).state = .inService)) :
    s.readError a addr lanes b retry fault = (s.takeMirror r).answer .error := by
  rw [← Mirror.serves_iff] at h
  simp only [State.readError, counted, State.takeMirror_mirror]
  exact if_neg (by simpa using h)

end

/-- Settles O23: the error by what its count comes to, the retry by the bank that is then left. -/
theorem bankReadEnds : Obligations.BankReadEnds := by
  intro s a addr lanes b retry h m failed n code other idle again
  refine ⟨fun flipped good => ?clean, fun c detail errs => ?_⟩
  case clean =>
    refine congrArg _ ((State.bankEnd_read h flipped).trans ?_)
    simp only [State.readEnd, good]
    rfl
  obtain ⟨fault, rfl, ends⟩ := exec_readErrs h errs
  rw [ends]
  intro erred down
  refine ⟨fun hn => ?counted, fun hn hs hsrc => ⟨fun ho => ?leaves, fun ho => ?loses⟩, fun hn hs hsrc => ?source⟩
  case counted =>
    have few : (s.mirror.bank b).count < 2 := by omega
    have counted := Mirror.countError_counted (.upstream a.master) addr fault (.inl few)
    rw [Nat.min_eq_left (by omega)] at counted
    have stands : (s.mirror.counting b n).bank other = s.mirror.bank other := Mirror.modifyBank_other _ _ _
    refine ⟨fun ⟨first, ho⟩ => ?_, fun hr => ?_⟩
    · rw [State.readError_retried counted first (by rw [stands]; exact ho), State.takeMirror_eq]
      rfl
    · rw [State.readError_answered counted (by rw [stands]; exact hr), State.takeMirror_eq]
      rfl
  all_goals
    have third : 2 ≤ (s.mirror.bank b).count := by omega
    have alive : (s.mirror.bank b).state ≠ .failed := by simp [hs]
    have rings : down = s.ring.pushAll ([erredCapture b (.upstream a.master) addr fault 3,
        failedCapture b (.upstream a.master) addr].map s.entryOf) := by
      simp only [down, erred, hn]
      rfl
    rw [rings]
  case leaves =>
    have counted := Mirror.countError_leaves (.upstream a.master) addr fault third alive hsrc ho
    have line : judgePartFault s.part (s.mirror.failing b) = true :=
      judgePartFault_failed _ (b := b) (by simp [Mirror.failing])
    have stands : (s.mirror.failing b).bank other = s.mirror.bank other := Mirror.modifyBank_other _ _ _
    cases retry with
    | false =>
      rw [State.readError_retried counted rfl (by rw [stands]; exact ho), State.takeMirror_eq, line]
      rfl
    | true =>
      rw [State.readError_answered counted (by simp), State.takeMirror_eq, line]
      rfl
  case loses =>
    have counted := Mirror.countError_loses (.upstream a.master) addr fault third alive hsrc ho
    have line : judgePartFault s.part { s.mirror.failing b with imageLost := true } = true :=
      judgePartFault_iff.mpr (.inr (.inr (.inr rfl)))
    have out : ¬ (retry = false ∧
        (({ s.mirror.failing b with imageLost := true } : Mirror).bank (otherBank b)).state = .inService) := by
      simp only [Mirror.bank_mk, Mirror.failing, Mirror.modifyBank_other]
      exact fun h => ho h.2
    rw [State.readError_answered counted out, State.takeMirror_eq, line]
    rfl
  case source =>
    have counted := Mirror.countError_source (.upstream a.master) addr fault third alive hsrc
    have line : judgePartFault s.part (s.mirror.sourceless b) = true :=
      judgePartFault_iff.mpr (.inr (.inr (.inr rfl)))
    have out : ¬ (retry = false ∧ ((s.mirror.sourceless b).bank (otherBank b)).state = .inService) := by
      simp [Mirror.sourceless]
    rw [State.readError_answered counted out, State.takeMirror_eq, line]
    rfl

end Sys2Proof.Machine
end

section
/-! SUPPORT. A copy step (R154, R156, R157). -/

namespace Sys2Proof.Machine

section

variable {s : State} {m : Mirror} {src : BankId}

/-- R154: a step runs while the upstream port is idle. -/
theorem exec_copyStep (idle : s.path.upstream = .idle) (hs : s.mirror.source = some src) {outcome : CopyOutcome}
    {r : Mirror × List Capture} (hr : s.mirror.copyStep outcome = r) :
    exec (.copyStep outcome) s = .next (s.takeMirror r) := by
  have runs : s.copyRuns = true := by simp [State.copyRuns, idle, hs]
  subst hr
  exact congrArg _ (if_pos runs)

variable (hs : m.source = some src)

include hs

theorem Mirror.copyStep_clean {flipped : BankWord} (good : (m.fetch src m.cursorAddr flipped).good .both = true) :
    m.copyStep ⟨some flipped, true⟩ = m.copyClean src (m.fetch src m.cursorAddr flipped).data := by
  simp [Mirror.copyStep, hs, good]

theorem Mirror.copyStep_unwritten {flipped : BankWord} (good : (m.fetch src m.cursorAddr flipped).good .both = true) :
    m.copyStep ⟨some flipped, false⟩ = m.copyWriteError src := by
  simp [Mirror.copyStep, hs, good]

/-- R147: a read in error is an error of one of its two causes. -/
theorem Mirror.copyStep_unread {read : Option BankWord} {detail : Nat} (errs : CopyReadErrs m src read detail)
    (written : Bool) : ∃ fault : BankFault, fault.code = detail ∧
      m.copyStep ⟨read, written⟩ = m.copyReadError src fault := by
  cases errs with
  | parity flipped bad => exact ⟨.readParity, rfl, by simp [Mirror.copyStep, hs, bad]⟩
  | timeout => exact ⟨.readTimeout, rfl, by simp [Mirror.copyStep, hs]⟩

end

section

variable {m : Mirror} {src : BankId} {w : Word}

theorem Mirror.copyClean_advances (h : m.cursor + 1 < m.imageSize) :
    m.copyClean src w = ({ m.copyWord src w with cursor := m.cursor + 1 }, []) := if_neg (by omega)

theorem Mirror.copyClean_completes (h : m.imageSize ≤ m.cursor + 1) :
    m.copyClean src w = (m.copyWord src w).completeResync (otherBank src) := if_pos h

/-- R154: what a step leaves of the part whose target write does not end. -/
def Mirror.uncopied (m : Mirror) (src : BankId) : Mirror := (m.countClean src).forget (otherBank src) m.cursorAddr

theorem Mirror.uncopied_count : ((m.uncopied src).bank (otherBank src)).count = (m.bank (otherBank src)).count := by
  simp [Mirror.uncopied, Mirror.forget, Mirror.countClean]

theorem Mirror.uncopied_state : ((m.uncopied src).bank (otherBank src)).state = (m.bank (otherBank src)).state := by
  simp [Mirror.uncopied, Mirror.forget, Mirror.countClean]

theorem Mirror.uncopied_source : (m.uncopied src).source = m.source := by
  simp [Mirror.uncopied, Mirror.forget, Mirror.countClean]

/-- The word left unknown is the cursor's alone. -/
theorem Mirror.uncopied_read {k : Nat} (hl : k ≠ laneAddr m.cursorAddr .low) (hh : k ≠ laneAddr m.cursorAddr .high) :
    ((m.uncopied src).bank (otherBank src)).mem.read k = (m.bank (otherBank src)).mem.read k := by
  simp only [Mirror.uncopied, Mirror.forget, Mirror.countClean, Mirror.bank_mk, Mirror.modifyBank_same,
    Mirror.modifyBank_other]
  exact Contents.read_forget_ne _ _ _ hl hh

end

/-- Settles O26: each outcome of the step by what it leaves of the mirror unit. -/
theorem copySteps : Obligations.CopySteps := by
  intro s src idle hs dst cur code
  refine ⟨fun flipped good => ?_, fun read written detail errs => ?_⟩
  · intro copied
    refine ⟨fun more => ?advances, fun last => ?completes, fun few => ?counted, fun third filling => ?target⟩
    case advances =>
      rw [exec_copyStep idle hs ((Mirror.copyStep_clean hs good).trans (Mirror.copyClean_advances more)),
        State.takeMirror_eq]
      refine ⟨_, rfl, ?_, ?_, ?_⟩
      all_goals cases src <;> rfl
    case completes =>
      rw [exec_copyStep idle hs ((Mirror.copyStep_clean hs good).trans (Mirror.copyClean_completes last)),
        State.takeMirror_eq]
      refine ⟨_, rfl, ?_, ?_, ?_⟩
      all_goals cases src <;> rfl
    case counted =>
      have counted := Mirror.countError_counted (m := s.mirror.uncopied src) (b := dst) .copyStep cur .writeTimeout
        (.inl (by rw [Mirror.uncopied_count]; exact few))
      have count : min (((s.mirror.uncopied src).bank dst).count + 1) 3 = (s.mirror.bank dst).count + 1 := by
        rw [Mirror.uncopied_count]
        exact Nat.min_eq_left (Nat.succ_le_succ few.le)
      rw [count] at counted
      rw [exec_copyStep idle hs ((Mirror.copyStep_unwritten hs good).trans counted), State.takeMirror_eq]
      refine ⟨_, rfl, ?_, ?_, ?_, fun k hl hh => (congrArg (Contents.read · k) ?_).trans (Mirror.uncopied_read hl hh)⟩
      all_goals cases src <;> rfl
    case target =>
      have counted := Mirror.countError_target (m := s.mirror.uncopied src) (b := dst) .copyStep cur .writeTimeout
        (by rw [Mirror.uncopied_count]; exact third.ge) (by rw [Mirror.uncopied_state, filling]; nofun)
        (by rw [Mirror.uncopied_source, hs]; simp [dst])
      have line : judgePartFault s.part ((s.mirror.uncopied src).failing dst).copyless = true :=
        judgePartFault_failed _ (b := dst) (by simp [Mirror.copyless, Mirror.failing])
      rw [exec_copyStep idle hs ((Mirror.copyStep_unwritten hs good).trans counted), State.takeMirror_eq, line]
      refine ⟨_, rfl, ?_, ?_, ?_, fun k hl hh => (congrArg (Contents.read · k) ?_).trans (Mirror.uncopied_read hl hh)⟩
      all_goals cases src <;> rfl
  · obtain ⟨fault, rfl, step⟩ := Mirror.copyStep_unread hs errs written
    refine ⟨fun few => ?counted, fun third serving => ?source⟩
    case counted =>
      have counted := Mirror.countError_counted (m := s.mirror) (b := src) .copyStep cur fault (.inl few)
      rw [Nat.min_eq_left (by omega)] at counted
      rw [exec_copyStep idle hs (step.trans counted), State.takeMirror_eq]
      refine ⟨_, rfl, ?_, ?_, ?_⟩
      all_goals cases src <;> rfl
    case source =>
      have counted := Mirror.countError_source (m := s.mirror) (b := src) .copyStep cur fault third.ge
        (by simp [serving]) hs
      have line : judgePartFault s.part (s.mirror.sourceless src) = true :=
        judgePartFault_iff.mpr (.inr (.inr (.inr rfl)))
      rw [exec_copyStep idle hs (step.trans counted), State.takeMirror_eq, line]
      refine ⟨_, rfl, ?_, ?_, ?_⟩
      all_goals cases src <;> rfl

end Sys2Proof.Machine
end

section
/-! SUPPORT. One bank's ending of a forwarded write (R147 to R149, R155): what it stores, what its count comes to, and
that the two do not meet. -/

namespace Sys2Proof.Machine

/-! ## The word that a write leaves in a bank (R147) -/

/-- A bank's word after its ending of a write: the selected lanes stored, or the word unknown. -/
def Mirror.wrote (m : Mirror) (b : BankId) (addr : Addr) (l : Lanes) (w : Word) (clean : Bool) : Mirror :=
  if clean then m.store b addr l w else m.forget b addr

/-- A bank that holds something else, with a number of free values taken. -/
def Mirror.holding (m : Mirror) (b : BankId) (mem : Contents) (free : Nat) : Mirror :=
  { m.modifyBank b fun r => { r with mem := mem } with free := free }

section

variable (m : Mirror) (b c : BankId) (mem : Contents) (free : Nat)

@[simp] theorem Mirror.holding_count : ((m.holding b mem free).bank c).count = (m.bank c).count := by
  cases b <;> cases c <;> rfl

@[simp] theorem Mirror.holding_state : ((m.holding b mem free).bank c).state = (m.bank c).state := by
  cases b <;> cases c <;> rfl

@[simp] theorem Mirror.holding_source : (m.holding b mem free).source = m.source := by cases b <;> rfl
@[simp] theorem Mirror.holding_cursor : (m.holding b mem free).cursor = m.cursor := by cases b <;> rfl
@[simp] theorem Mirror.holding_imageLost : (m.holding b mem free).imageLost = m.imageLost := by cases b <;> rfl
@[simp] theorem Mirror.holding_imageSize : (m.holding b mem free).imageSize = m.imageSize := by cases b <;> rfl
@[simp] theorem Mirror.holding_readMap : (m.holding b mem free).readMap = m.readMap := by cases b <;> rfl

variable (addr : Addr) (l : Lanes) (w : Word) (clean : Bool)

theorem Mirror.wrote_eq_holding : m.wrote b addr l w clean = m.holding b
    (if clean then (m.bank b).mem.writeLanes addr l w else (m.bank b).mem.forget addr m.free)
    (if clean then m.free else m.free + 2) := by
  cases clean <;> cases b <;> rfl

theorem Mirror.wrote_mem_clean : ((m.wrote b addr l w true).bank b).mem = (m.bank b).mem.writeLanes addr l w := by
  cases b <;> rfl

theorem Mirror.wrote_read {k : Nat} (hl : k ≠ laneAddr addr .low) (hh : k ≠ laneAddr addr .high) :
    ((m.wrote b addr l w false).bank b).mem.read k = (m.bank b).mem.read k := by
  have mem : ((m.wrote b addr l w false).bank b).mem = (m.bank b).mem.forget addr m.free := by cases b <;> rfl
  rw [mem]
  exact Contents.read_forget_ne _ _ _ hl hh

theorem Mirror.wrote_otherMem :
    ((m.wrote b addr l w clean).bank (otherBank b)).mem = (m.bank (otherBank b)).mem := by
  cases clean <;> cases b <;> rfl

/-- R149: where a bank ended the write clean, the banks may end it in either order. -/
theorem Mirror.wrote_comm {cleanA cleanB : Bool} (h : cleanA = true ∨ cleanB = true) :
    (m.wrote .bankB addr l w cleanB).wrote .bankA addr l w cleanA =
      (m.wrote .bankA addr l w cleanA).wrote .bankB addr l w cleanB := by
  cases cleanA <;> cases cleanB <;> simp at h <;> rfl

end

/-! ## The count does not look at what the banks hold -/

section

variable (m : Mirror) (b c : BankId) (owner : AccessOwner) (addr : Addr) (fault : BankFault) (mem : Contents)
  (free : Nat)

theorem Mirror.countError_holding : (m.holding b mem free).countError c owner addr fault =
    ((m.countError c owner addr fault).1.holding b mem free, (m.countError c owner addr fault).2) := by
  have ends := m.countError_ends c owner addr fault
  generalize m.countError c owner addr fault = r at ends ⊢
  cases ends with
  | counted h =>
    rw [Mirror.countError_counted owner addr fault (by simpa using h), Mirror.holding_count]
    cases b <;> cases c <;> rfl
  | leaves hc hs hn ho =>
    rw [Mirror.countError_leaves owner addr fault (by simpa using hc) (by simpa using hs) (by simpa using hn)
      (by simpa using ho)]
    cases b <;> cases c <;> rfl
  | loses hc hs hn ho =>
    rw [Mirror.countError_loses owner addr fault (by simpa using hc) (by simpa using hs) (by simpa using hn)
      (by simpa using ho)]
    cases b <;> cases c <;> rfl
  | source hc hs hn =>
    rw [Mirror.countError_source owner addr fault (by simpa using hc) (by simpa using hs) (by simpa using hn)]
    cases b <;> cases c <;> rfl
  | target hc hs hn =>
    rw [Mirror.countError_target owner addr fault (by simpa using hc) (by simpa using hs) (by simpa using hn)]
    cases b <;> cases c <;> rfl

theorem Mirror.setBack_holding : (m.holding b mem free).setBack c addr = (m.setBack c addr).holding b mem free := by
  unfold Mirror.setBack
  rw [Mirror.holding_source, Mirror.holding_cursor]
  split
  · cases b <;> rfl
  · rfl

variable (clean : Bool)

theorem Mirror.countLeg_holding : (m.holding b mem free).countLeg c owner addr clean =
    ((m.countLeg c owner addr clean).1.holding b mem free, (m.countLeg c owner addr clean).2) := by
  cases clean with
  | true =>
    have counted : (m.holding b mem free).countClean c = (m.countClean c).holding b mem free := by
      cases b <;> cases c <;> rfl
    exact congrArg (·, []) counted
  | false =>
    simp only [Mirror.countLeg, Mirror.countError_holding, Mirror.setBack_holding]
    rfl

end

/-! ## What a counted leg leaves of the banks -/

section

variable (m : Mirror) (b : BankId) (owner : AccessOwner) (addr : Addr) (clean : Bool)

@[simp] theorem Mirror.setBack_bank (c : BankId) : (m.setBack b addr).bank c = m.bank c := by
  unfold Mirror.setBack
  split
  · exact Mirror.bank_mk ..
  · rfl

@[simp] theorem Mirror.setBack_source : (m.setBack b addr).source = m.source := by unfold Mirror.setBack; split <;> rfl

@[simp] theorem Mirror.setBack_imageLost : (m.setBack b addr).imageLost = m.imageLost := by
  unfold Mirror.setBack; split <;> rfl

theorem Mirror.setBack_cursor : (m.setBack b addr).cursor =
    if m.source = some (otherBank b) ∧ addr.toNat < m.cursor then addr.toNat else m.cursor := by
  unfold Mirror.setBack; split <;> rfl

variable {m} in
theorem Mirror.setBack_copyless (h : m.source = none) : m.setBack b addr = m := if_neg (by simp [h])

theorem Mirror.countLeg_error : m.countLeg b owner addr false =
    ((m.countError b owner addr .writeTimeout).1.setBack b addr, (m.countError b owner addr .writeTimeout).2) := rfl

theorem Mirror.countLeg_count : ((m.countLeg b owner addr clean).1.bank b).count =
    if clean then 0 else min ((m.bank b).count + 1) 3 := by
  cases clean with
  | true => simp [Mirror.countLeg, Mirror.countClean]
  | false => simp [Mirror.countLeg_error, Mirror.countError_count]

theorem Mirror.countLeg_otherCount :
    ((m.countLeg b owner addr clean).1.bank (otherBank b)).count = (m.bank (otherBank b)).count := by
  cases clean with
  | true => simp [Mirror.countLeg, Mirror.countClean]
  | false => simp [Mirror.countLeg_error, Mirror.countError_otherCount]

theorem Mirror.countLeg_mem (c : BankId) : ((m.countLeg b owner addr clean).1.bank c).mem = (m.bank c).mem := by
  cases clean with
  | true => rcases BankId.eq_or_other b c with rfl | rfl <;> simp [Mirror.countLeg, Mirror.countClean]
  | false => simp [Mirror.countLeg_error, Mirror.countError_mem]

/-- The read map, the image size and the number of free values taken stand. -/
structure Mirror.KeepsRest (m n : Mirror) : Prop where
  readMap : n.readMap = m.readMap
  imageSize : n.imageSize = m.imageSize
  free : n.free = m.free

theorem Mirror.keepsRest_countError (fault : BankFault) : m.KeepsRest (m.countError b owner addr fault).1 := by
  have ends := m.countError_ends b owner addr fault
  generalize m.countError b owner addr fault = r at ends ⊢
  cases ends <;> constructor <;> simp [Mirror.counting, Mirror.failing, Mirror.sourceless, Mirror.copyless]

theorem Mirror.keepsRest_setBack : m.KeepsRest (m.setBack b addr) := by
  unfold Mirror.setBack
  split <;> exact ⟨rfl, rfl, rfl⟩

theorem Mirror.keepsRest_countLeg : m.KeepsRest (m.countLeg b owner addr clean).1 := by
  cases clean with
  | true => constructor <;> simp [Mirror.countLeg, Mirror.countClean]
  | false =>
    have counted := m.keepsRest_countError b owner addr .writeTimeout
    have back := (m.countError b owner addr .writeTimeout).1.keepsRest_setBack b addr
    exact ⟨back.readMap.trans counted.readMap, back.imageSize.trans counted.imageSize, back.free.trans counted.free⟩

/-- One bank's ending may be stored before or after another's is counted. -/
theorem Mirror.countLeg_wrote (c : BankId) (l : Lanes) (w : Word) (stored : Bool) :
    (m.wrote c addr l w stored).countLeg b owner addr clean =
      ((m.countLeg b owner addr clean).1.wrote c addr l w stored, (m.countLeg b owner addr clean).2) := by
  rw [Mirror.wrote_eq_holding, Mirror.wrote_eq_holding, Mirror.countLeg_holding, Mirror.countLeg_mem,
    (m.keepsRest_countLeg b owner addr clean).free]

end

end Sys2Proof.Machine
end

section
/-! SUPPORT. What the two endings of a forwarded write come to (R148, R149, R152, R155, R156): the captures, the banks'
states and the copy record, one bank after the other. -/

namespace Sys2Proof.Machine

/-! ## One leg -/

/-- What a count has made and what it leaves of the banks' states, the copy record and the image. -/
structure Mirror.Leaves (r : Mirror × List Capture) (made : List Capture) (states : BankId → BankState)
    (source : Option BankId) (cursor : Nat) (imageLost : Bool) : Prop where
  made : r.2 = made
  states : ∀ b, (r.1.bank b).state = states b
  source : r.1.source = source
  cursor : r.1.cursor = cursor
  imageLost : r.1.imageLost = imageLost

/-- The third error in a row. -/
def Mirror.third (m : Mirror) (b : BankId) (clean : Bool) : Bool := !clean && (m.bank b).count == 2

/-- R155: the cursor after a bank's ending of a write. -/
def Mirror.backed (m : Mirror) (b : BankId) (addr : Addr) (clean : Bool) : Nat :=
  if clean = false ∧ m.source = some (otherBank b) ∧ addr.toNat < m.cursor then addr.toNat else m.cursor

/-- The BANK_ERROR of an ending, if it is in error. -/
def Mirror.erred (m : Mirror) (b : BankId) (owner : AccessOwner) (addr : Addr) (clean : Bool) : List Capture :=
  if clean then [] else [erredCapture b owner addr .writeTimeout ((m.bank b).count + 1)]

section

variable {m : Mirror} {b : BankId} {clean : Bool} (owner : AccessOwner) (addr : Addr)

theorem Mirror.third_iff : m.third b clean = true ↔ clean = false ∧ (m.bank b).count = 2 := by
  simp [Mirror.third]

theorem Mirror.backed_copyless (h : m.source = none) : m.backed b addr clean = m.cursor :=
  if_neg fun ⟨_, hs, _⟩ => nomatch h.symm.trans hs

theorem Mirror.backed_source (h : m.source = some b) : m.backed b addr clean = m.cursor :=
  if_neg fun ⟨_, hs, _⟩ => ne_otherBank b (Option.some.inj (h.symm.trans hs))

/-- R155: the target's error below the cursor sets it back. -/
theorem Mirror.backed_target (h : m.source = some (otherBank b)) : m.backed b addr clean =
    if clean = false ∧ addr.toNat < m.cursor then addr.toNat else m.cursor := by
  simp [Mirror.backed, h]

/-- R148: an ending that makes no bank FAILED. -/
theorem Mirror.countLeg_quiet (hc : (m.bank b).count ≤ 2) (h : m.third b clean = false ∨ (m.bank b).state = .failed) :
    Mirror.Leaves (m.countLeg b owner addr clean) (m.erred b owner addr clean) (fun c => (m.bank c).state) m.source
      (m.backed b addr clean) m.imageLost := by
  cases clean with
  | true =>
    refine ⟨rfl, (BankId.forall_iff b).mpr ⟨?_, ?_⟩, ?_, ?_, ?_⟩
    all_goals simp [Mirror.countLeg, Mirror.countClean, Mirror.backed]
  | false =>
    have counted := Mirror.countError_counted owner addr .writeTimeout (m := m) (b := b) (h.imp_left fun few => by
      have : (m.bank b).count ≠ 2 := fun two => by simp [Mirror.third, two] at few
      omega)
    rw [Nat.min_eq_left (by omega)] at counted
    rw [Mirror.countLeg_error, counted]
    refine ⟨rfl, (BankId.forall_iff b).mpr ⟨?_, ?_⟩, ?_, ?_, ?_⟩
    all_goals simp [Mirror.counting, Mirror.setBack_cursor, Mirror.backed]

variable (h : m.third b clean = true) (alive : (m.bank b).state ≠ .failed)

include h alive

/-- R148: the third error in a row, with the other bank in service and no copy. -/
theorem Mirror.countLeg_leaves (hn : m.source = none) (ho : (m.bank (otherBank b)).state = .inService) :
    Mirror.Leaves (m.countLeg b owner addr clean) (m.erred b owner addr clean ++ [failedCapture b owner addr])
      (fun c => if c = b then .failed else (m.bank c).state) none m.cursor m.imageLost := by
  obtain ⟨rfl, two⟩ := Mirror.third_iff.mp h
  rw [Mirror.countLeg_error, Mirror.countError_leaves owner addr .writeTimeout two.ge alive hn ho,
    Mirror.setBack_copyless _ _ (by simpa [Mirror.failing] using hn)]
  refine ⟨by simp [Mirror.erred, two], (BankId.forall_iff b).mpr ⟨?_, ?_⟩, ?_, ?_, ?_⟩
  all_goals simp [Mirror.failing, hn]

/-- R152: the third error in a row at the last bank in service. -/
theorem Mirror.countLeg_loses (hn : m.source = none) (ho : (m.bank (otherBank b)).state ≠ .inService) :
    Mirror.Leaves (m.countLeg b owner addr clean)
      (m.erred b owner addr clean ++ [failedCapture b owner addr, lostCapture m owner addr])
      (fun c => if c = b then .failed else (m.bank c).state) none m.cursor true := by
  obtain ⟨rfl, two⟩ := Mirror.third_iff.mp h
  rw [Mirror.countLeg_error, Mirror.countError_loses owner addr .writeTimeout two.ge alive hn ho,
    Mirror.setBack_copyless _ _ (by simpa [Mirror.failing] using hn)]
  refine ⟨by simp [Mirror.erred, two], (BankId.forall_iff b).mpr ⟨?_, ?_⟩, ?_, ?_, rfl⟩
  all_goals simp [Mirror.failing, hn]

/-- R156: the third error in a row at the source of a copy. -/
theorem Mirror.countLeg_source (hn : m.source = some b) :
    Mirror.Leaves (m.countLeg b owner addr clean)
      (m.erred b owner addr clean ++ [failedCapture b owner addr, abortedCapture (otherBank b) m.cursorAddr 1,
        lostCapture m owner addr]) (fun _ => .failed) none 0 true := by
  obtain ⟨rfl, two⟩ := Mirror.third_iff.mp h
  rw [Mirror.countLeg_error, Mirror.countError_source owner addr .writeTimeout two.ge alive hn,
    Mirror.setBack_copyless _ _ rfl]
  refine ⟨by simp [Mirror.erred, two], (BankId.forall_iff b).mpr ⟨?_, ?_⟩, rfl, rfl, rfl⟩
  all_goals simp [Mirror.sourceless, Mirror.failing]

/-- R156: the third error in a row at the target of a copy. -/
theorem Mirror.countLeg_target (hn : m.source = some (otherBank b)) :
    Mirror.Leaves (m.countLeg b owner addr clean)
      (m.erred b owner addr clean ++ [failedCapture b owner addr, abortedCapture b m.cursorAddr 2])
      (fun c => if c = b then .failed else (m.bank c).state) none 0 m.imageLost := by
  obtain ⟨rfl, two⟩ := Mirror.third_iff.mp h
  rw [Mirror.countLeg_error, Mirror.countError_target owner addr .writeTimeout two.ge alive hn,
    Mirror.setBack_copyless _ _ rfl]
  refine ⟨by simp [Mirror.erred, two], (BankId.forall_iff b).mpr ⟨?_, ?_⟩, rfl, rfl, ?_⟩
  all_goals simp [Mirror.copyless, Mirror.failing]

end

end Sys2Proof.Machine
end

section
/-! SUPPORT. Both endings of a forwarded write, bank A's counted before bank B's (R149). -/

namespace Sys2Proof.Machine

/-- R149: both endings counted, with the captures of the one before those of the other. -/
def Mirror.countBoth (m : Mirror) (owner : AccessOwner) (addr : Addr) (clean : BankId → Bool) : Mirror × List Capture :=
  let r := m.countLeg .bankA owner addr (clean .bankA)
  let q := r.1.countLeg .bankB owner addr (clean .bankB)
  (q.1, r.2 ++ q.2)

section

variable {m : Mirror} {owner : AccessOwner} {addr : Addr} {clean : BankId → Bool}

/-! ## The contents and the counts -/

theorem Mirror.countBoth_mem (b : BankId) : ((m.countBoth owner addr clean).1.bank b).mem = (m.bank b).mem :=
  (Mirror.countLeg_mem _ _ _ _ _ b).trans (Mirror.countLeg_mem _ _ _ _ _ b)

theorem Mirror.countBoth_count (b : BankId) : ((m.countBoth owner addr clean).1.bank b).count =
    if clean b then 0 else min ((m.bank b).count + 1) 3 := by
  have stands := m.countLeg_otherCount .bankA owner addr (clean .bankA)
  cases b with
  | bankA => exact (Mirror.countLeg_otherCount _ .bankB _ _ _).trans (Mirror.countLeg_count _ _ _ _ _)
  | bankB =>
    refine (Mirror.countLeg_count _ _ _ _ _).trans ?_
    rw [show ((m.countLeg .bankA owner addr (clean .bankA)).1.bank .bankB).count = (m.bank .bankB).count from stands]

theorem Mirror.keepsRest_countBoth : m.KeepsRest (m.countBoth owner addr clean).1 := by
  have first := m.keepsRest_countLeg .bankA owner addr (clean .bankA)
  have second := (m.countLeg .bankA owner addr (clean .bankA)).1.keepsRest_countLeg .bankB owner addr (clean .bankB)
  exact ⟨second.readMap.trans first.readMap, second.imageSize.trans first.imageSize, second.free.trans first.free⟩

/-! ## From the first leg to the second -/

section

variable {made made' : List Capture} {states states' : BankId → BankState} {source source' : Option BankId}
  {cursor cursor' : Nat} {lost lost' : Bool}

/-- What bank B's leg finds that bank A's has left: bank B's count is as it was. -/
structure Mirror.Between (m n : Mirror) (states : BankId → BankState) (source : Option BankId) (cursor : Nat)
    (lost : Bool) : Prop where
  count : (n.bank .bankB).count = (m.bank .bankB).count
  states : ∀ b, (n.bank b).state = states b
  source : n.source = source
  cursor : n.cursor = cursor
  imageLost : n.imageLost = lost

theorem Mirror.Leaves.between {clean : Bool}
    (h : Mirror.Leaves (m.countLeg .bankA owner addr clean) made states source cursor lost) :
    Mirror.Between m (m.countLeg .bankA owner addr clean).1 states source cursor lost :=
  ⟨Mirror.countLeg_otherCount m .bankA _ _ _, h.states, h.source, h.cursor, h.imageLost⟩

/-- The two legs together. -/
theorem Mirror.Leaves.both
    (first : Mirror.Leaves (m.countLeg .bankA owner addr (clean .bankA)) made states source cursor lost)
    (second : Mirror.Leaves ((m.countLeg .bankA owner addr (clean .bankA)).1.countLeg .bankB owner addr (clean .bankB))
      made' states' source' cursor' lost') :
    Mirror.Leaves (m.countBoth owner addr clean) (made ++ made') states' source' cursor' lost' :=
  ⟨congrArg₂ (· ++ ·) first.made second.made, second.states, second.source, second.cursor, second.imageLost⟩

/-- The same, in other words. -/
theorem Mirror.Leaves.said {r : Mirror × List Capture} (h : Mirror.Leaves r made states source cursor lost)
    (made_eq : made = made') (states_eq : ∀ b, states b = states' b) (source_eq : source = source')
    (cursor_eq : cursor = cursor') (lost_eq : lost = lost') : Mirror.Leaves r made' states' source' cursor' lost' := by
  obtain rfl : states = states' := funext states_eq
  subst made_eq source_eq cursor_eq lost_eq
  exact h

variable {n : Mirror} {c : Bool} (h : Mirror.Between m n states source cursor lost) (k : Master)

include h

theorem Mirror.Between.third_eq : n.third .bankB c = m.third .bankB c := by simp only [Mirror.third, h.count]

theorem Mirror.Between.erred_eq : n.erred .bankB owner addr c = m.erred .bankB owner addr c := by
  simp only [Mirror.erred, h.count]

theorem Mirror.Between.quiet (hB : (m.bank .bankB).count ≤ 2) (t : m.third .bankB c = false ∨ states .bankB = .failed) :
    Mirror.Leaves (n.countLeg .bankB owner addr c) (m.erred .bankB owner addr c) states source
      (if c = false ∧ source = some .bankA ∧ addr.toNat < cursor then addr.toNat else cursor) lost :=
  (Mirror.countLeg_quiet owner addr (h.count.trans_le hB) (t.imp h.third_eq.trans (h.states _).trans)).said h.erred_eq
    h.states h.source (by rw [Mirror.backed, h.source, h.cursor]; rfl) h.imageLost

variable (t : m.third .bankB c = true) (alive : states .bankB ≠ .failed)

include t alive

theorem Mirror.Between.leaves (hn : source = none) (ho : states .bankA = .inService) :
    Mirror.Leaves (n.countLeg .bankB owner addr c) (m.erred .bankB owner addr c ++ [failedCapture .bankB owner addr])
      (fun b => if b = .bankB then .failed else states b) none cursor lost :=
  (Mirror.countLeg_leaves owner addr (h.third_eq.trans t) (by rwa [h.states]) (h.source.trans hn)
    ((h.states _).trans ho)).said (by rw [h.erred_eq]) (fun b => by rw [h.states]) rfl h.cursor h.imageLost

theorem Mirror.Between.loses (hn : source = none) (ho : states .bankA ≠ .inService) :
    Mirror.Leaves (n.countLeg .bankB (.upstream k) addr c) (m.erred .bankB (.upstream k) addr c ++
        [failedCapture .bankB (.upstream k) addr, lostCapture m (.upstream k) addr])
      (fun b => if b = .bankB then .failed else states b) none cursor true :=
  (Mirror.countLeg_loses (.upstream k) addr (h.third_eq.trans t) (by rwa [h.states]) (h.source.trans hn)
    ((h.states .bankA).trans_ne ho)).said (by rw [h.erred_eq]; rfl) (fun b => by rw [h.states]) rfl h.cursor rfl

theorem Mirror.Between.fromB (hn : source = some .bankB) :
    Mirror.Leaves (n.countLeg .bankB (.upstream k) addr c) (m.erred .bankB (.upstream k) addr c ++
        [failedCapture .bankB (.upstream k) addr, abortedCapture .bankA (BitVec.ofNat 18 cursor) 1,
          lostCapture m (.upstream k) addr]) (fun _ => .failed) none 0 true :=
  (Mirror.countLeg_source (.upstream k) addr (h.third_eq.trans t) (by rwa [h.states]) (h.source.trans hn)).said
    (by rw [h.erred_eq, Mirror.cursorAddr, h.cursor]; rfl) (fun _ => rfl) rfl rfl rfl

theorem Mirror.Between.toB (hn : source = some .bankA) :
    Mirror.Leaves (n.countLeg .bankB owner addr c) (m.erred .bankB owner addr c ++
        [failedCapture .bankB owner addr, abortedCapture .bankB (BitVec.ofNat 18 cursor) 2])
      (fun b => if b = .bankB then .failed else states b) none 0 lost :=
  (Mirror.countLeg_target owner addr (h.third_eq.trans t) (by rwa [h.states]) (h.source.trans hn)).said
    (by rw [h.erred_eq, Mirror.cursorAddr, h.cursor]) (fun b => by rw [h.states]) rfl rfl h.imageLost

end

/-! ## The ways that two endings can go -/

section

variable (k : Master)

/-- Without a copy, both banks in service: the image is lost where both fail. -/
theorem Mirror.countBoth_alone (hA : (m.bank .bankA).count ≤ 2) (hB : (m.bank .bankB).count ≤ 2)
    (hn : m.source = none) (sA : (m.bank .bankA).state = .inService)
    (sB : (m.bank .bankB).state = .inService) :
    let third (b : BankId) := m.third b (clean b)
    let down (b : BankId) := if third b then [failedCapture b (.upstream k) addr] else []
    Mirror.Leaves (m.countBoth (.upstream k) addr clean)
      (m.erred .bankA (.upstream k) addr (clean .bankA) ++ down .bankA ++
        m.erred .bankB (.upstream k) addr (clean .bankB) ++ down .bankB ++
        if third .bankA && third .bankB then [lostCapture m (.upstream k) addr] else [])
      (fun b => if third b then .failed else .inService) none m.cursor
      (m.imageLost || (third .bankA && third .bankB)) := by
  intro third down
  cases tA : m.third .bankA (clean .bankA) with
  | false =>
    have first := Mirror.countLeg_quiet (.upstream k) addr hA (.inl tA)
    rw [Mirror.backed_copyless _ hn] at first
    cases tB : m.third .bankB (clean .bankB) with
    | false =>
      refine (first.both (first.between.quiet hB (.inl tB))).said ?_ (fun b => ?_) hn (if_neg (by simp [hn])) ?_
      · simp [third, down, tA, tB]
      · cases b <;> simp [third, tA, tB, sA, sB]
      · simp [third, tA]
    | true =>
      refine (first.both (first.between.leaves tB (by simp [sB]) hn sA)).said ?_ (fun b => ?_) rfl rfl ?_
      · simp [third, down, tA, tB]
      · cases b <;> simp [third, tA, tB, sA]
      · simp [third, tA]
  | true =>
    have first := Mirror.countLeg_leaves (.upstream k) addr tA (by simp [sA]) hn sB
    cases tB : m.third .bankB (clean .bankB) with
    | false =>
      refine (first.both (first.between.quiet hB (.inl tB))).said ?_ (fun b => ?_) rfl (if_neg (by simp)) ?_
      · simp [third, down, tA, tB]
      · cases b <;> simp [third, tA, tB, sB]
      · simp [third, tB]
    | true =>
      refine (first.both (first.between.loses k tB (by simp [sB]) rfl (by simp))).said ?_ (fun b => ?_) rfl rfl ?_
      · simp [third, down, tA, tB]
      · cases b <;> simp [third, tA, tB]
      · simp [third, tA, tB]

/-- R155: no third error while a copy runs; the target's error below the cursor sets it back. -/
theorem Mirror.countBoth_copying (hA : (m.bank .bankA).count ≤ 2) (hB : (m.bank .bankB).count ≤ 2)
    {src : BankId} (hs : m.source = some src) (few : ∀ b, m.third b (clean b) = false) :
    Mirror.Leaves (m.countBoth (.upstream k) addr clean)
      (m.erred .bankA (.upstream k) addr (clean .bankA) ++ m.erred .bankB (.upstream k) addr (clean .bankB))
      (fun b => (m.bank b).state) (some src)
      (if clean (otherBank src) = false ∧ addr.toNat < m.cursor then addr.toNat else m.cursor) m.imageLost := by
  have first := Mirror.countLeg_quiet (.upstream k) addr hA (.inl (few .bankA))
  refine (first.both (first.between.quiet hB (.inl (few .bankB)))).said rfl (fun _ => rfl) hs ?_ rfl
  cases src with
  | bankA =>
    rw [Mirror.backed_source _ hs]
    exact if_congr (and_congr_right' (and_iff_right hs)) rfl rfl
  | bankB => exact (if_neg (by simp [hs])).trans (Mirror.backed_target (b := .bankA) _ hs)

/-- R156: a copy's target fails, bank B. -/
theorem Mirror.countBoth_toB (hA : (m.bank .bankA).count ≤ 2) (hs : m.source = some .bankA)
    (sB : (m.bank .bankB).state = .resync)
    (tA : m.third .bankA (clean .bankA) = false) (tB : m.third .bankB (clean .bankB) = true) :
    Mirror.Leaves (m.countBoth (.upstream k) addr clean)
      (m.erred .bankA (.upstream k) addr (clean .bankA) ++ (m.erred .bankB (.upstream k) addr (clean .bankB) ++
        [failedCapture .bankB (.upstream k) addr, abortedCapture .bankB (BitVec.ofNat 18 m.cursor) 2]))
      (fun b => if b = .bankB then .failed else (m.bank b).state) none 0 m.imageLost := by
  have first := Mirror.countLeg_quiet (.upstream k) addr hA (.inl tA)
  rw [Mirror.backed_source _ hs] at first
  exact first.both (first.between.toB tB (by simp [sB]) hs)

/-- R156: a copy's target fails, bank A. -/
theorem Mirror.countBoth_toA (hB : (m.bank .bankB).count ≤ 2) (hs : m.source = some .bankB)
    (sA : (m.bank .bankA).state = .resync)
    (tA : m.third .bankA (clean .bankA) = true) (tB : m.third .bankB (clean .bankB) = false) :
    Mirror.Leaves (m.countBoth (.upstream k) addr clean)
      (m.erred .bankA (.upstream k) addr (clean .bankA) ++
        [failedCapture .bankA (.upstream k) addr, abortedCapture .bankA (BitVec.ofNat 18 m.cursor) 2] ++
        m.erred .bankB (.upstream k) addr (clean .bankB))
      (fun b => if b = .bankA then .failed else (m.bank b).state) none 0 m.imageLost := by
  have first := Mirror.countLeg_target (.upstream k) addr tA (by simp [sA]) hs
  exact (first.both (first.between.quiet hB (.inl tB))).said rfl (fun _ => rfl) rfl (if_neg (by simp)) rfl

/-- R156: a copy's source fails, bank A; bank B, FAILED with it, is counted still (log 17). -/
theorem Mirror.countBoth_fromA (hB : (m.bank .bankB).count ≤ 2) (hs : m.source = some .bankA)
    (sA : (m.bank .bankA).state = .inService)
    (tA : m.third .bankA (clean .bankA) = true) :
    Mirror.Leaves (m.countBoth (.upstream k) addr clean)
      (m.erred .bankA (.upstream k) addr (clean .bankA) ++
        [failedCapture .bankA (.upstream k) addr, abortedCapture .bankB (BitVec.ofNat 18 m.cursor) 1,
          lostCapture m (.upstream k) addr] ++ m.erred .bankB (.upstream k) addr (clean .bankB))
      (fun _ => .failed) none 0 true := by
  have first := Mirror.countLeg_source (.upstream k) addr tA (by simp [sA]) hs
  exact (first.both (first.between.quiet hB (.inr rfl))).said rfl (fun _ => rfl) rfl (if_neg (by simp)) rfl

/-- R156: a copy's source fails, bank B, and its target, bank A, has not. -/
theorem Mirror.countBoth_fromB (hA : (m.bank .bankA).count ≤ 2) (hs : m.source = some .bankB)
    (sB : (m.bank .bankB).state = .inService)
    (tA : m.third .bankA (clean .bankA) = false) (tB : m.third .bankB (clean .bankB) = true) :
    Mirror.Leaves (m.countBoth (.upstream k) addr clean)
      (m.erred .bankA (.upstream k) addr (clean .bankA) ++ (m.erred .bankB (.upstream k) addr (clean .bankB) ++
        [failedCapture .bankB (.upstream k) addr, abortedCapture .bankA (BitVec.ofNat 18
          (if clean .bankA = false ∧ addr.toNat < m.cursor then addr.toNat else m.cursor)) 1,
          lostCapture m (.upstream k) addr]))
      (fun _ => .failed) none 0 true := by
  have first := Mirror.countLeg_quiet (.upstream k) addr hA (.inl tA)
  rw [Mirror.backed_target (b := .bankA) _ hs] at first
  exact first.both (first.between.fromB k tB (by simp [sB]) hs)

/-- R152, R156: a copy's target, bank A, fails, and then the bank that was its source. -/
theorem Mirror.countBoth_toA_loses (hs : m.source = some .bankB) (sA : (m.bank .bankA).state = .resync)
    (sB : (m.bank .bankB).state = .inService) (tA : m.third .bankA (clean .bankA) = true)
    (tB : m.third .bankB (clean .bankB) = true) :
    Mirror.Leaves (m.countBoth (.upstream k) addr clean)
      (m.erred .bankA (.upstream k) addr (clean .bankA) ++
        [failedCapture .bankA (.upstream k) addr, abortedCapture .bankA (BitVec.ofNat 18 m.cursor) 2] ++
        (m.erred .bankB (.upstream k) addr (clean .bankB) ++
          [failedCapture .bankB (.upstream k) addr, lostCapture m (.upstream k) addr]))
      (fun _ => .failed) none 0 true := by
  have first := Mirror.countLeg_target (.upstream k) addr tA (by simp [sA]) hs
  refine (first.both (first.between.loses k tB (by simp [sB]) rfl (by simp))).said rfl (fun b => ?_) rfl rfl rfl
  cases b <;> rfl

end

end

end Sys2Proof.Machine
end

section
/-! SUPPORT. The ends of a forwarded write at the part (R149): two endings in either order, and one bank's alone. -/

namespace Sys2Proof.Machine

/-! ## The word at both banks -/

/-- Both banks' endings stored. -/
def Mirror.wroteBoth (m : Mirror) (addr : Addr) (l : Lanes) (w : Word) (clean : BankId → Bool) : Mirror :=
  (m.wrote .bankA addr l w (clean .bankA)).wrote .bankB addr l w (clean .bankB)

section

variable {m : Mirror} {addr : Addr} {l : Lanes} {w : Word} {clean : BankId → Bool} {b : BankId}

theorem Mirror.wroteBoth_mem_clean (h : clean b = true) :
    ((m.wroteBoth addr l w clean).bank b).mem = (m.bank b).mem.writeLanes addr l w := by
  unfold Mirror.wroteBoth
  cases b with
  | bankA => exact (Mirror.wrote_otherMem _ .bankB _ _ _ _).trans (by rw [h]; exact Mirror.wrote_mem_clean _ _ _ _ _)
  | bankB =>
    rw [h, Mirror.wrote_mem_clean]
    exact congrArg (Contents.writeLanes · addr l w) (Mirror.wrote_otherMem _ .bankA _ _ _ _)

theorem Mirror.wroteBoth_read (h : clean b = false) {k : Nat} (hl : k ≠ laneAddr addr .low)
    (hh : k ≠ laneAddr addr .high) :
    ((m.wroteBoth addr l w clean).bank b).mem.read k = (m.bank b).mem.read k := by
  unfold Mirror.wroteBoth
  cases b with
  | bankA =>
    refine (congrArg (Contents.read · k) (Mirror.wrote_otherMem _ .bankB _ _ _ _)).trans ?_
    rw [h]
    exact Mirror.wrote_read _ _ _ _ _ hl hh
  | bankB =>
    rw [h, Mirror.wrote_read _ _ _ _ _ hl hh]
    exact congrArg (Contents.read · k) (Mirror.wrote_otherMem _ .bankA _ _ _ _)

variable (m addr l w clean b)

@[simp] theorem Mirror.wroteBoth_count : ((m.wroteBoth addr l w clean).bank b).count = (m.bank b).count := by
  simp [Mirror.wroteBoth, Mirror.wrote_eq_holding]

@[simp] theorem Mirror.wroteBoth_state : ((m.wroteBoth addr l w clean).bank b).state = (m.bank b).state := by
  simp [Mirror.wroteBoth, Mirror.wrote_eq_holding]

@[simp] theorem Mirror.wroteBoth_source : (m.wroteBoth addr l w clean).source = m.source := by
  simp [Mirror.wroteBoth, Mirror.wrote_eq_holding]

@[simp] theorem Mirror.wroteBoth_cursor : (m.wroteBoth addr l w clean).cursor = m.cursor := by
  simp [Mirror.wroteBoth, Mirror.wrote_eq_holding]

@[simp] theorem Mirror.wroteBoth_imageLost : (m.wroteBoth addr l w clean).imageLost = m.imageLost := by
  simp [Mirror.wroteBoth, Mirror.wrote_eq_holding]

@[simp] theorem Mirror.wroteBoth_imageSize : (m.wroteBoth addr l w clean).imageSize = m.imageSize := by
  simp [Mirror.wroteBoth, Mirror.wrote_eq_holding]

@[simp] theorem Mirror.wroteBoth_readMap : (m.wroteBoth addr l w clean).readMap = m.readMap := by
  simp [Mirror.wroteBoth, Mirror.wrote_eq_holding]

/-- Both endings stored and counted. -/
def Mirror.endBoth (m : Mirror) (owner : AccessOwner) (addr : Addr) (l : Lanes) (w : Word) (clean : BankId → Bool) :
    Mirror × List Capture := (m.wroteBoth addr l w clean).countBoth owner addr clean

/-- The count does not look at what the endings store. -/
theorem Mirror.endBoth_eq (owner : AccessOwner) : m.endBoth owner addr l w clean =
    ((m.countBoth owner addr clean).1.wroteBoth addr l w clean, (m.countBoth owner addr clean).2) := by
  simp only [Mirror.endBoth, Mirror.wroteBoth, Mirror.countBoth, Mirror.countLeg_wrote]

variable {m addr l w clean} in
theorem Mirror.Leaves.ended {owner : AccessOwner} {made : List Capture} {states : BankId → BankState}
    {source : Option BankId} {cursor : Nat} {lost : Bool}
    (h : Mirror.Leaves (m.countBoth owner addr clean) made states source cursor lost) :
    Mirror.Leaves (m.endBoth owner addr l w clean) made states source cursor lost := by
  rw [Mirror.endBoth_eq]
  exact ⟨h.made, fun b => (Mirror.wroteBoth_state ..).trans (h.states b), (Mirror.wroteBoth_source ..).trans h.source,
    (Mirror.wroteBoth_cursor ..).trans h.cursor, (Mirror.wroteBoth_imageLost ..).trans h.imageLost⟩

variable (owner : AccessOwner)

theorem Mirror.endBoth_readMap : (m.endBoth owner addr l w clean).1.readMap = m.readMap := by
  rw [Mirror.endBoth_eq, Mirror.wroteBoth_readMap, Mirror.keepsRest_countBoth.readMap]

theorem Mirror.endBoth_imageSize : (m.endBoth owner addr l w clean).1.imageSize = m.imageSize := by
  rw [Mirror.endBoth_eq, Mirror.wroteBoth_imageSize, Mirror.keepsRest_countBoth.imageSize]

variable {m l w clean b}

/-- R147, R148: a bank that ended the write clean. -/
theorem Mirror.endBoth_clean (h : clean b = true) :
    ((m.endBoth owner addr l w clean).1.bank b).mem = (m.bank b).mem.writeLanes addr l w ∧
      ((m.endBoth owner addr l w clean).1.bank b).count = 0 := by
  rw [Mirror.endBoth_eq, Mirror.wroteBoth_mem_clean h, Mirror.countBoth_mem, Mirror.wroteBoth_count,
    Mirror.countBoth_count, h]
  exact ⟨rfl, rfl⟩

/-- R147, R148: a bank that ended the write in error. -/
theorem Mirror.endBoth_error (h : clean b = false) (hc : (m.bank b).count ≤ 2) :
    ((m.endBoth owner addr l w clean).1.bank b).count = (m.bank b).count + 1 ∧
      ∀ k, k ≠ laneAddr addr .low → k ≠ laneAddr addr .high →
        ((m.endBoth owner addr l w clean).1.bank b).mem.read k = (m.bank b).mem.read k := by
  rw [Mirror.endBoth_eq, Mirror.wroteBoth_count, Mirror.countBoth_count, h]
  refine ⟨Nat.min_eq_left (Nat.succ_le_succ hc), fun k hl hh => ?_⟩
  rw [Mirror.wroteBoth_read h hl hh, Mirror.countBoth_mem]

end

/-! ## Takes of the mirror unit one after another -/

section

variable (s : State)

theorem State.captures_pushAll (cs : List Capture) :
    s.captures cs = { s with ring := s.ring.pushAll (cs.map s.entryOf) } := by
  rw [State.captures_eq, State.captures_ring]

theorem State.takeMirror_setUpstream (u : Upstream) (r : Mirror × List Capture) :
    (s.setUpstream u).takeMirror r = (s.takeMirror r).setUpstream u := by
  simp only [State.takeMirror_eq]
  rfl

/-- What stood in the mirror unit before a take is replaced. -/
theorem State.takeMirror_over (n : Mirror) (r : Mirror × List Capture) :
    State.takeMirror { s with mirror := n } r = s.takeMirror r := rfl

/-- Two takes are one. -/
theorem State.takeMirror_takeMirror (r q : Mirror × List Capture) :
    (s.takeMirror r).takeMirror q = s.takeMirror (q.1, r.2 ++ q.2) := by
  simp only [State.takeMirror_eq, List.map_append, Ring.pushAll, List.foldl_append]
  rfl

/-- What follows a write does not look at the port, and the answer replaces what stood there. -/
theorem State.afterWrite_setUpstream (u : Upstream) (after : AfterWrite) (r : Response) :
    ((s.setUpstream u).afterWrite after).answer r = (s.afterWrite after).answer r := by
  cases after with
  | answerOnly => rfl
  | sensorTake d w arrival =>
    simp only [State.afterWrite, State.sensorTake, State.captures_pushAll]
    rfl

end

/-! ## The endings -/

section

variable {s : State} {a : Access} {addr : Addr} {l : Lanes} {w : Word} {after : AfterWrite}

/-- A bank's ending of the write that the port waits for. -/
theorem exec_endsWrite {legA legB : Leg} (h : s.path.upstream = .waiting a (.write addr l w legA legB after))
    {b : BankId} {clean : Bool} {c : Instr} (ends : EndsWrite b clean c) :
    exec c s = .next (s.writeEnd a addr l w legA legB after b clean) := by
  cases ends with
  | clean flipped => exact congrArg Host.Outcome.next (by simp only [State.bankEnd, h])
  | error => exact congrArg Host.Outcome.next (by simp only [State.bankTimeout, h])

variable (s a addr l w after) (inA inB cleanA cleanB : Bool)

theorem writeResponse_counted : writeResponse (.counted inA cleanA) (.counted inB cleanB) =
    if (inA && cleanA) || (inB && cleanB) then .done none else .error := by
  cases inA <;> cases cleanA <;> cases inB <;> cases cleanB <;> rfl

/-- R149: bank A's ending, counted at once, while bank B's is outstanding. -/
def State.endedA (s : State) (a : Access) (addr : Addr) (l : Lanes) (w : Word) (after : AfterWrite)
    (inA inB cleanA : Bool) : State :=
  (s.takeMirror ((s.mirror.wrote .bankA addr l w cleanA).countLeg .bankA (.upstream a.master) addr cleanA)).setUpstream
    (.waiting a (.write addr l w (.counted inA cleanA) (.outstanding inB) after))

/-- R149: bank B's ending, held while bank A's is outstanding (log 17). -/
def State.endedB (s : State) (a : Access) (addr : Addr) (l : Lanes) (w : Word) (after : AfterWrite)
    (inA inB cleanB : Bool) : State :=
  State.setUpstream { s with mirror := s.mirror.wrote .bankB addr l w cleanB }
    (.waiting a (.write addr l w (.outstanding inA) (.ended inB cleanB) after))

/-- R149: the write answered after both endings. -/
def State.endedBoth (s : State) (a : Access) (addr : Addr) (l : Lanes) (w : Word) (after : AfterWrite)
    (inA inB : Bool) (clean : BankId → Bool) : State :=
  ((s.takeMirror (s.mirror.endBoth (.upstream a.master) addr l w clean)).afterWrite after).answer
    (if (inA && clean .bankA) || (inB && clean .bankB) then .done none else .error)

theorem State.writeEnd_firstA : s.writeEnd a addr l w (.outstanding inA) (.outstanding inB) after .bankA cleanA =
    s.endedA a addr l w after inA inB cleanA := rfl

theorem State.writeEnd_firstB : s.writeEnd a addr l w (.outstanding inA) (.outstanding inB) after .bankB cleanB =
    s.endedB a addr l w after inA inB cleanB := rfl

theorem State.writeEnd_lastB : s.writeEnd a addr l w (.counted inA cleanA) (.outstanding inB) after .bankB cleanB =
    ((State.takeMirror { s with mirror := s.mirror.wrote .bankB addr l w cleanB }
      ((s.mirror.wrote .bankB addr l w cleanB).countLeg .bankB (.upstream a.master) addr cleanB)).afterWrite
        after).answer (writeResponse (.counted inA cleanA) (.counted inB cleanB)) := rfl

theorem State.writeEnd_lastA : s.writeEnd a addr l w (.outstanding inA) (.ended inB cleanB) after .bankA cleanA =
    (((s.takeMirror ((s.mirror.wrote .bankA addr l w cleanA).countLeg .bankA (.upstream a.master) addr
        cleanA)).takeMirror ((s.takeMirror ((s.mirror.wrote .bankA addr l w cleanA).countLeg .bankA
          (.upstream a.master) addr cleanA)).mirror.countLeg .bankB (.upstream a.master) addr cleanB)).afterWrite
        after).answer (writeResponse (.counted inA cleanA) (.counted inB cleanB)) := rfl

variable (clean : BankId → Bool)

/-- Bank B's ending after bank A's. -/
theorem State.writeEnd_afterA :
    (s.endedA a addr l w after inA inB (clean .bankA)).writeEnd a addr l w (.counted inA (clean .bankA))
        (.outstanding inB) after .bankB (clean .bankB) =
      s.endedBoth a addr l w after inA inB clean := by
  rw [State.writeEnd_lastB, writeResponse_counted]
  simp only [State.takeMirror_over, State.endedA, State.takeMirror_setUpstream, State.takeMirror_takeMirror,
    State.afterWrite_setUpstream, State.setUpstream_mirror, State.takeMirror_mirror]
  simp only [State.endedBoth, Mirror.endBoth, Mirror.countBoth, Mirror.wroteBoth, Mirror.countLeg_wrote]

/-- Bank A's ending after bank B's: the same, where one of the two is clean. -/
theorem State.writeEnd_afterB (h : clean .bankA = true ∨ clean .bankB = true) :
    (s.endedB a addr l w after inA inB (clean .bankB)).writeEnd a addr l w (.outstanding inA)
        (.ended inB (clean .bankB)) after .bankA (clean .bankA) =
      s.endedBoth a addr l w after inA inB clean := by
  rw [State.writeEnd_lastA, writeResponse_counted]
  simp only [State.takeMirror_takeMirror, State.takeMirror_mirror, State.endedB, State.setUpstream_mirror,
    State.takeMirror_setUpstream, State.takeMirror_over, State.afterWrite_setUpstream,
    Mirror.wrote_comm _ _ _ _ h]
  rfl

/-- Made to one bank alone. -/
theorem State.writeEnd_alone (b : BankId) (clean : Bool) :
    s.writeEnd a addr l w (if b = .bankA then .outstanding true else .unused)
        (if b = .bankB then .outstanding true else .unused) after b clean =
      ((s.takeMirror ((s.mirror.wrote b addr l w clean).countLeg b (.upstream a.master) addr clean)).afterWrite
        after).answer (if clean then .done none else .error) := by
  cases b <;> cases clean <;> rfl

end

/-! ## The captures as entries of the ring (R158) -/

section

variable {s : State} {a : Access} {addr : Addr} {b : BankId}

theorem State.map_erred (m : Mirror) (clean : Bool) :
    (m.erred b (.upstream a.master) addr clean).map s.entryOf = if clean then [] else
      [s.entryNow 20 a.master.val addr 3 (bankCode b + 256 * ((m.bank b).count + 1))] := by
  cases clean <;> rfl

@[simp] theorem State.entryOf_failed : s.entryOf (failedCapture b (.upstream a.master) addr) =
    s.entryNow 21 a.master.val addr 0 (bankCode b) := rfl

@[simp] theorem State.entryOf_aborted (cursor detail : Nat) :
    s.entryOf (abortedCapture b (BitVec.ofNat 18 cursor) detail) = s.entryNow 23 15 (BitVec.ofNat 18 cursor) detail (bankCode b) := rfl

@[simp] theorem State.entryOf_lost (m : Mirror) : s.entryOf (lostCapture m (.upstream a.master) addr) =
    s.entryNow 24 15 addr 1 0 := rfl

end

/-! ## The two halves of O24 -/

/-- Whether each bank ended the write clean. -/
def endsOf (cleanA cleanB : Bool) : BankId → Bool
  | .bankA => cleanA
  | .bankB => cleanB

section

variable {s : State} {a : Access} {addr : Addr} {l : Lanes} {w : Word} {after : AfterWrite} {inA inB : Bool}
  {clean : BankId → Bool} {cA cB : Instr}
  (h : s.path.upstream = .waiting a (.write addr l w (.outstanding inA) (.outstanding inB) after))
  (endsA : EndsWrite .bankA (clean .bankA) cA) (endsB : EndsWrite .bankB (clean .bankB) cB)

include h endsA endsB

theorem exec_endsWrite_AB : exec cA s = .next (s.endedA a addr l w after inA inB (clean .bankA)) ∧
    exec cB (s.endedA a addr l w after inA inB (clean .bankA)) = .next (s.endedBoth a addr l w after inA inB clean) :=
  ⟨(exec_endsWrite h endsA).trans (congrArg _ (State.writeEnd_firstA ..)),
    (exec_endsWrite rfl endsB).trans (congrArg _ (State.writeEnd_afterA ..))⟩

theorem exec_endsWrite_BA (one : clean .bankA = true ∨ clean .bankB = true) :
    exec cB s = .next (s.endedB a addr l w after inA inB (clean .bankB)) ∧
    exec cA (s.endedB a addr l w after inA inB (clean .bankB)) = .next (s.endedBoth a addr l w after inA inB clean) :=
  ⟨(exec_endsWrite h endsB).trans (congrArg _ (State.writeEnd_firstB ..)),
    (exec_endsWrite rfl endsA).trans (congrArg _ (State.writeEnd_afterB _ _ _ _ _ _ _ _ _ one))⟩

end

/-! ## One bank alone (R149) -/

section

variable {s : State} {a : Access} {addr : Addr} {l : Lanes} {w : Word} {b : BankId} {after : AfterWrite}
  (h : s.path.upstream = .waiting a (.write addr l w
    (if b = .bankA then .outstanding true else .unused) (if b = .bankB then .outstanding true else .unused) after))

include h

theorem exec_clean_alone (flipped : BankWord) : exec (.bankAccessEnd b flipped) s = .next (((s.takeMirror
    (s.mirror.modifyBank b fun r => { r with count := 0, mem := r.mem.writeLanes addr l w }, [])).afterWrite
      after).answer (.done none)) := by
  rw [exec_endsWrite h (.clean flipped), State.writeEnd_alone]
  cases b <;> rfl

/-- R155: an error there sets no cursor back, for no copy runs behind it. -/
theorem exec_timeout_alone {r : Mirror × List Capture} (still : r.1.source = none)
    (counted : (s.mirror.forget b addr).countError b (.upstream a.master) addr .writeTimeout = r) :
    exec (.bankCompletionTimeout b) s = .next (((s.takeMirror r).afterWrite after).answer .error) := by
  rw [exec_endsWrite h .error, State.writeEnd_alone]
  have leg : (s.mirror.wrote b addr l w false).countLeg b (.upstream a.master) addr false = r := by
    subst counted
    exact Prod.ext (Mirror.setBack_copyless _ _ still) rfl
  rw [leg]
  rfl

variable (hn : s.mirror.source = none)

include hn

theorem exec_timeout_counted (few : (s.mirror.bank b).count < 2) :
    exec (.bankCompletionTimeout b) s = .next (((s.takeMirror
      ((s.mirror.forget b addr).counting b ((s.mirror.bank b).count + 1),
        [erredCapture b (.upstream a.master) addr .writeTimeout ((s.mirror.bank b).count + 1)])).afterWrite
          after).answer .error) := by
  have count : ((s.mirror.forget b addr).bank b).count = (s.mirror.bank b).count := by simp [Mirror.forget]
  refine exec_timeout_alone h (by simp [Mirror.counting, Mirror.forget, hn]) ?_
  rw [Mirror.countError_counted _ _ _ (.inl (count.trans_lt few)), count, Nat.min_eq_left (by omega)]

variable (third : (s.mirror.bank b).count = 2) (serving : (s.mirror.bank b).state = .inService)

include third serving

theorem exec_timeout_leaves (ho : (s.mirror.bank (otherBank b)).state = .inService) :
    exec (.bankCompletionTimeout b) s = .next (((s.takeMirror ((s.mirror.forget b addr).failing b,
      [erredCapture b (.upstream a.master) addr .writeTimeout 3, failedCapture b (.upstream a.master) addr])).afterWrite
        after).answer .error) := by
  refine exec_timeout_alone h (by simp [Mirror.failing, Mirror.forget, hn]) ?_
  refine Mirror.countError_leaves _ _ _ ?_ ?_ ?_ ?_
  all_goals simp [Mirror.forget, third, serving, hn, ho]

theorem exec_timeout_loses (ho : (s.mirror.bank (otherBank b)).state ≠ .inService) :
    exec (.bankCompletionTimeout b) s = .next (((s.takeMirror
      ({ (s.mirror.forget b addr).failing b with imageLost := true },
        [erredCapture b (.upstream a.master) addr .writeTimeout 3, failedCapture b (.upstream a.master) addr,
          lostCapture (s.mirror.forget b addr) (.upstream a.master) addr])).afterWrite after).answer .error) := by
  refine exec_timeout_alone h (by simp [Mirror.failing, Mirror.forget, hn]) ?_
  refine Mirror.countError_loses _ _ _ ?_ ?_ ?_ ?_
  all_goals simp [Mirror.forget, third, serving, hn, ho]

end

/-- Settles O24: two endings by `State.writeEnd_afterA` and `State.writeEnd_afterB`, their outcome by the ways that two
counts can go; one bank's ending by its own count. -/
theorem bankWriteEnds : Obligations.BankWriteEnds := by
  refine ⟨fun s a addr l w inA inB cleanA cleanB after cA cB h endsA endsB => ?both,
    fun s a addr l w b after h => ?alone⟩
  case both =>
    intro response
    have ab := exec_endsWrite_AB (clean := endsOf cleanA cleanB) h endsA endsB
    refine ⟨fun one => ?_, ?_⟩
    · have ba := exec_endsWrite_BA (clean := endsOf cleanA cleanB) h endsA endsB one
      exact ⟨_, _, _, ab.1, ab.2, ba.1, ba.2, rfl, rfl, rfl, rfl⟩
    · intro m clean third err down lost hA hB
      have clean_eq : clean = endsOf cleanA cleanB := by
        funext b
        cases b <;> rfl
      have third_eq : ∀ b, m.third b (clean b) = third b := fun _ => rfl
      have err_eq : ∀ b, (m.erred b (.upstream a.master) addr (clean b)).map s.entryOf = err b := fun b =>
        State.map_erred m (clean b)
      have down_eq : ∀ b, down b = if third b then [s.entryNow 21 a.master.val addr 0 (bankCode b)] else [] :=
        fun _ => rfl
      rw [← clean_eq] at ab
      clear_value clean third err down
      subst clean_eq
      refine ⟨_, _, (m.endBoth (.upstream a.master) addr l w (endsOf cleanA cleanB)).1,
        (m.endBoth (.upstream a.master) addr l w (endsOf cleanA cleanB)).2.map s.entryOf, ab.1, ab.2, ?_,
        Mirror.endBoth_readMap .., Mirror.endBoth_imageSize .., fun b hb => Mirror.endBoth_clean _ _ hb,
        fun b hb => Mirror.endBoth_error _ _ hb (by cases b <;> assumption), fun hn sA sB => ?_,
        fun src hs ssrc sdst => ?_⟩
      · rw [State.endedBoth, State.takeMirror_eq]
        rfl
      · have left := (Mirror.countBoth_alone (clean := endsOf cleanA cleanB) (addr := addr) a.master hA hB hn sA
          sB).ended (l := l) (w := w)
        simp only [third_eq] at left
        refine ⟨?_, left.states, left.source, left.cursor, left.imageLost⟩
        rw [left.made]
        simp only [List.map_append, err_eq, down_eq, apply_ite (List.map s.entryOf), List.map_cons, List.map_nil,
          State.entryOf_failed, State.entryOf_lost]
        rfl
      · intro dst back aborted
        refine ⟨fun tS tD => ?_, fun tS tD => ?_, fun tS => ?_⟩
        · have few : ∀ b, m.third b (endsOf cleanA cleanB b) = false := (BankId.forall_iff src).mpr
            ⟨(third_eq _).trans tS, (third_eq _).trans tD⟩
          have left := (Mirror.countBoth_copying (addr := addr) a.master hA hB hs few).ended (l := l) (w := w)
          refine ⟨?_, left.states, left.source, left.cursor, left.imageLost⟩
          rw [left.made]
          simp only [List.map_append, err_eq]
        · cases src with
          | bankA =>
            have left := (Mirror.countBoth_toB (addr := addr) a.master hA hs sdst ((third_eq _).trans tS)
              ((third_eq _).trans tD)).ended (l := l) (w := w)
            refine ⟨?_, (left.states _).trans ssrc, left.states _, left.source, left.cursor, left.imageLost⟩
            have tB : third .bankB = true := tD
            rw [left.made]
            simp [err_eq, down_eq, tB, dst, aborted, otherBank]
          | bankB =>
            have left := (Mirror.countBoth_toA (addr := addr) a.master hB hs sdst ((third_eq _).trans tD)
              ((third_eq _).trans tS)).ended (l := l) (w := w)
            refine ⟨?_, (left.states _).trans ssrc, left.states _, left.source, left.cursor, left.imageLost⟩
            have tA : third .bankA = true := tD
            rw [left.made]
            simp [err_eq, down_eq, tA, dst, aborted, otherBank]
        · cases src with
          | bankA =>
            have left := (Mirror.countBoth_fromA (addr := addr) a.master hB hs ssrc ((third_eq _).trans tS)).ended
              (l := l) (w := w)
            refine ⟨?_, left.states, left.source, left.cursor, left.imageLost⟩
            rw [left.made]
            simp [err_eq, down_eq, tS, dst, aborted, otherBank, lost]
          | bankB =>
            cases tA : third .bankA with
            | true =>
              have left := (Mirror.countBoth_toA_loses (addr := addr) a.master hs sdst ssrc ((third_eq _).trans tA)
                ((third_eq _).trans tS)).ended (l := l) (w := w)
              refine ⟨?_, left.states, left.source, left.cursor, left.imageLost⟩
              rw [left.made]
              simp [err_eq, down_eq, tS, tA, dst, aborted, otherBank, lost]
            | false =>
              have left := (Mirror.countBoth_fromB (addr := addr) a.master hA hs ssrc ((third_eq _).trans tA)
                ((third_eq _).trans tS)).ended (l := l) (w := w)
              refine ⟨?_, left.states, left.source, left.cursor, left.imageLost⟩
              rw [left.made]
              simp [err_eq, down_eq, tS, dst, back, aborted, otherBank, lost]
  case alone =>
    intro n erred down ends
    refine ⟨fun flipped => ?_, fun hn => ⟨(s.mirror.bank b).mem.forget addr s.mirror.free, s.mirror.free + 2, ?_⟩⟩
    · rw [exec_clean_alone h flipped, State.takeMirror_eq]
      rfl
    intro left
    refine ⟨fun k hl hh => Contents.read_forget_ne _ _ _ hl hh, fun few => ?_, fun third serving =>
      ⟨fun ho => ?_, fun ho => ?_⟩⟩
    · rw [exec_timeout_counted h hn (by omega), State.takeMirror_eq]
      cases b <;> rfl
    · rw [exec_timeout_leaves h hn (by omega) serving ho, State.takeMirror_eq]
      simp only [left, down, erred, third]
      cases b <;> rfl
    · rw [exec_timeout_loses h hn (by omega) serving ho, State.takeMirror_eq]
      simp only [left, down, erred, third]
      cases b <;> rfl

end Sys2Proof.Machine
end

section
/-! SUPPORT. CAPTURE_RELEASE (R162): the count that its word gives, and the order. -/

namespace Sys2Proof.Machine

/-- R162: the words whose count is 1 to 64, under clear bits 15 to 7. -/
theorem releaseCountOf_good {w : Word} (h : w &&& 0xFF80 = 0 ∧ 1 ≤ field w 0 7 ∧ field w 0 7 ≤ 64) :
    releaseCountOf w = some (field w 0 7) := by
  obtain ⟨clear, count⟩ := h
  rw [releaseCountOf, if_neg (not_not.mpr clear), if_pos count]

theorem releaseCountOf_bad {w : Word} (h : ¬ (w &&& 0xFF80 = 0 ∧ 1 ≤ field w 0 7 ∧ field w 0 7 ≤ 64)) :
    releaseCountOf w = none := by
  unfold releaseCountOf
  split
  · rfl
  · next clear => exact if_neg fun count => h ⟨not_not.mp clear, count⟩

section

variable {s : State} {m : Master} {w : Word}

theorem State.takeCaptureRelease_writer (h : ¬ ((s.role m).isStation = true ∨ (s.role m).isService = true)) :
    s.takeCaptureRelease m w = .refused .writer := if_neg (by rwa [Bool.or_eq_true])

theorem State.takeCaptureRelease_value (h : (s.role m).isStation = true ∨ (s.role m).isService = true)
    (hw : releaseCountOf w = none) : s.takeCaptureRelease m w = .refused .badValue := by
  rw [State.takeCaptureRelease, if_pos (Bool.or_eq_true _ _ ▸ h), hw]

theorem State.takeCaptureRelease_taken {n : Nat} (h : (s.role m).isStation = true ∨ (s.role m).isService = true)
    (hw : releaseCountOf w = some n) : s.takeCaptureRelease m w = .taken { s with ring := s.ring.release n } := by
  rw [State.takeCaptureRelease, if_pos (Bool.or_eq_true _ _ ▸ h), hw]

end

/-- Settles O49: the take by its writer, then by the count of its word. -/
theorem captureReleaseOrder : Obligations.CaptureReleaseOrder := by
  refine fun s m addr w h => ⟨fun hm => ?_, fun hm bad => ?_, fun hm good => ?_⟩
  · exact exec_order_refused (r := .writer) rfl h (State.takeCaptureRelease_writer hm)
  · exact exec_order_refused (r := .badValue) rfl h (State.takeCaptureRelease_value hm (releaseCountOf_bad bad))
  · exact exec_order_taken rfl h (State.takeCaptureRelease_taken hm (releaseCountOf_good good))

end Sys2Proof.Machine
end

section
/-! SUPPORT. The laws of the capture ring (R159) and of the upstream port (R116): the takes that leave the port as it
stands and the ring within its bounds, and then every step. -/

namespace Sys2Proof.Machine

/-! ## What leaves the port alone -/

/-- R116, R159: the upstream port stands with its response, and a ring within its bounds stays within them. -/
structure State.KeepsPort (s t : State) : Prop where
  upstream : t.path.upstream = s.path.upstream
  response : t.path.response = s.path.response
  ring : s.ring.lawful → t.ring.lawful

section

variable {s t u : State}

theorem State.KeepsPort.refl (s : State) : s.KeepsPort s := ⟨rfl, rfl, id⟩

theorem State.KeepsPort.trans (h : s.KeepsPort t) (h' : t.KeepsPort u) : s.KeepsPort u :=
  ⟨h'.upstream.trans h.upstream, h'.response.trans h.response, h'.ring ∘ h.ring⟩

theorem State.KeepsPort.foldl {α : Type} {f : State → α → State} (h : ∀ (t : State) (x : α), t.KeepsPort (f t x))
    (l : List α) (s : State) : s.KeepsPort (l.foldl f s) :=
  List.foldlRecOn (motive := s.KeepsPort) _ _ (.refl s) fun t ht x _ => ht.trans (h t x)

variable (s)

/-- R159: a capture is an entry within the capacity, or a drop that is counted up to its bound. -/
theorem State.keepsPort_capture (c : Capture) : s.KeepsPort (s.capture c) := ⟨rfl, rfl, Ring.lawful_push _⟩

theorem State.keepsPort_captures (cs : List Capture) : s.KeepsPort (s.captures cs) :=
  .foldl State.keepsPort_capture cs s

theorem State.keepsPort_setYard (y : Yard) : s.KeepsPort (s.setYard y) := ⟨rfl, rfl, id⟩

theorem State.keepsPort_endTake (before : Yard) : s.KeepsPort (State.endTake before s) := ⟨rfl, rfl, id⟩

theorem State.keepsPort_doorTake (f : Yard → Env → Yard) (cs : List Capture) : s.KeepsPort (s.doorTake f cs) :=
  ((s.keepsPort_setYard _).trans (State.keepsPort_captures _ cs)).trans (State.keepsPort_endTake _ s.yard)

theorem State.keepsPort_sensorTake (d : Nat) (w : Word) (arrival : Nat) : s.KeepsPort (s.sensorTake d w arrival) :=
  ((s.keepsPort_setYard _).trans (State.keepsPort_captures _ _)).trans (State.keepsPort_endTake _ s.yard)

theorem State.keepsPort_takeMirror (r : Mirror × List Capture) : s.KeepsPort (s.takeMirror r) := by
  have stored : s.KeepsPort { s with mirror := r.1 } := ⟨rfl, rfl, id⟩
  exact (stored.trans (State.keepsPort_captures _ r.2)).trans ⟨rfl, rfl, id⟩

/-! ### Command (R85 to R94) -/

theorem State.keepsPort_setRole (m : Master) (r : Role) : s.KeepsPort (s.setRole m r) := ⟨rfl, rfl, id⟩

theorem State.keepsPort_changeHolder (src : CaptureSource) (new : Option Master) (detail : Nat) :
    s.KeepsPort (s.changeHolder src new detail) := ⟨rfl, rfl, Ring.lawful_push _⟩

theorem State.keepsPort_endTransfer (src : CaptureSource) (requester : Master) (detail : Nat) :
    s.KeepsPort (s.endTransfer src requester detail) := ⟨rfl, rfl, Ring.lawful_push _⟩

theorem State.keepsPort_lapse (m : Master) : s.KeepsPort (s.lapse m) := by
  have first : s.KeepsPort (s.lapseFirst m) := (s.keepsPort_setRole m _).trans (State.keepsPort_capture _ _)
  rw [State.lapse_eq]
  split
  · split
    · exact first.trans (State.keepsPort_endTransfer _ _ _ _)
    · split
      · exact first.trans (State.keepsPort_changeHolder _ _ _ _)
      · exact first
  · split
    · exact first.trans (State.keepsPort_changeHolder _ _ _ _)
    · exact first

theorem State.keepsPort_judgeHeartbeat (m : Master) : s.KeepsPort (s.judgeHeartbeat m) := by
  unfold State.judgeHeartbeat
  split
  · split
    · exact s.keepsPort_lapse m
    · exact .refl s
  · exact .refl s

theorem State.keepsPort_dropRequester : s.KeepsPort s.dropRequester := by
  unfold State.dropRequester
  split
  · split
    · exact .refl s
    · exact s.keepsPort_endTransfer _ _ _
  · exact .refl s

theorem State.keepsPort_dropHolder : s.KeepsPort s.dropHolder := by
  unfold State.dropHolder
  split
  · split
    · exact .refl s
    · split <;> exact s.keepsPort_changeHolder _ _ _
  · exact .refl s

theorem State.keepsPort_judgeTransfer : s.KeepsPort s.judgeTransfer := by
  unfold State.judgeTransfer
  split
  · split
    · exact s.keepsPort_endTransfer _ _ _
    · exact .refl s
  · exact .refl s

theorem State.keepsPort_takeTransferExpiry : s.KeepsPort s.takeTransferExpiry := by
  unfold State.takeTransferExpiry
  split
  · exact s.keepsPort_endTransfer _ _ _
  · exact .refl s

/-! ### The apply (R170) -/

theorem State.keepsPort_setLoader (l : Loader) : s.KeepsPort { s with loader := l } := ⟨rfl, rfl, id⟩

theorem State.keepsPort_replaceTables (img : Settings) : s.KeepsPort (s.replaceTables img) := ⟨rfl, rfl, id⟩

theorem State.keepsPort_discardSlot (m : Master) : s.KeepsPort (s.discardSlot m) := by
  unfold State.discardSlot
  split
  · exact ⟨rfl, rfl, Ring.lawful_push _⟩
  · exact .refl s

theorem State.keepsPort_adjustMasters (old : State) (img : Settings) : s.KeepsPort (s.adjustMasters old img) := by
  have heartbeats := State.KeepsPort.foldl State.keepsPort_judgeHeartbeat masterNumbers s
  have requester := heartbeats.trans (State.keepsPort_dropRequester _)
  have holder := requester.trans (State.keepsPort_dropHolder _)
  exact (holder.trans (State.keepsPort_judgeTransfer _)).trans (State.keepsPort_setYard _ _)

theorem State.keepsPort_finishApply (before : List Door) (detail : Nat) : s.KeepsPort (s.finishApply before detail) :=
  (s.keepsPort_setYard _).trans ((State.keepsPort_capture _ _).trans
    ((State.keepsPort_setYard _ _).trans (State.keepsPort_endTake _ _)))

theorem State.keepsPort_applyImage (img : Settings) (detail : Nat) : s.KeepsPort (s.applyImage img detail) := by
  have slots := (s.keepsPort_replaceTables img).trans (.foldl State.keepsPort_discardSlot masterNumbers _)
  have masters := slots.trans (State.keepsPort_adjustMasters _ s img)
  exact masters.trans (State.keepsPort_finishApply _ s.yard.doors detail)

/-! ### The orders' takes (R132), and the entry to RUNNING (R158, R167) -/

theorem State.OrderTake.keepsPort {m : Master} {addr : Addr} {w : Word} (take : s.OrderTake m addr w t) :
    s.KeepsPort t := by
  cases take with
  | mode v => exact ⟨rfl, rfl, Ring.lawful_push _⟩
  | release n => exact ⟨rfl, rfl, Ring.lawful_release n⟩
  | vacantRequest => exact s.keepsPort_changeHolder _ _ _
  | handOver => exact s.keepsPort_changeHolder _ _ _
  | relinquish => exact s.keepsPort_changeHolder _ _ _
  | endTransfer => exact s.keepsPort_endTransfer _ _ _
  | attach => exact ⟨rfl, rfl, Ring.lawful_push _⟩
  | mismatch => exact ⟨rfl, rfl, Ring.lawful_push _⟩
  | _ => exact ⟨rfl, rfl, id⟩

theorem State.keepsPort_enterRunning (img : Settings) (attempts : Nat) (a b : Bool) :
    s.KeepsPort (s.enterRunning img attempts a b) := by
  have tables : s.KeepsPort (s.takeTables img) := ⟨rfl, rfl, fun _ => ⟨Nat.zero_le _, Nat.zero_le _⟩⟩
  have started := tables.trans (State.keepsPort_capture _ ((s.takeTables img).startedCapture attempts))
  exact (started.trans (State.keepsPort_takeMirror _ (s.mirror.enter img a b))).trans (State.keepsPort_endTake _ _)

end

/-! ## The two laws -/

/-- A law that the port's own changes keep, and so do the takes that leave the port alone, is kept by every step. -/
theorem State.kept_of_keepsPort {law : State → Prop} (stands : ∀ {s t : State}, s.KeepsPort t → law s → law t)
    (answer : ∀ s r, law s → law (s.answer r)) (setUpstream : ∀ s u, law s → law (s.setUpstream u))
    (freePort : ∀ s, law s → law { s with path := { s.path with upstream := .idle } })
    (beginReset : ∀ s kind, law s → law (s.beginReset kind)) : Kept law where
  pending _ _ := stands ⟨rfl, rfl, id⟩
  clock _ := stands ⟨rfl, rfl, id⟩
  capture s c := stands (s.keepsPort_capture c)
  answer := answer
  setUpstream := setUpstream
  setSlot _ _ _ := stands ⟨rfl, rfl, id⟩
  setMeter _ _ _ := stands ⟨rfl, rfl, id⟩
  station s _ _ y h _ := stands ((s.keepsPort_setYard y).trans (State.keepsPort_endTake _ s.yard)) h
  order _ _ _ _ _ h _ take := stands take.keepsPort h
  sensor s d w arrival := stands (s.keepsPort_sensorTake d w arrival)
  store _ _ _ _ _ := stands ⟨rfl, rfl, id⟩
  forget _ _ _ := stands ⟨rfl, rfl, id⟩
  clean _ _ := stands ⟨rfl, rfl, id⟩
  countLeg s _ _ _ _ := stands (s.keepsPort_takeMirror _)
  countError s _ _ _ _ := stands (s.keepsPort_takeMirror _)
  copyStep s _ := stands (s.keepsPort_takeMirror _)
  beginReset := beginReset
  release s _ h _ := stands (s := s) ⟨rfl, rfl, id⟩ h
  nextAttempt s _ _ h _ := stands (s := s) ⟨rfl, rfl, id⟩ h
  enterTransparent s _ h _ := stands (s := s) ⟨rfl, rfl, id⟩ h
  enterRunning s n _ img a b h _ _ := stands (s.keepsPort_enterRunning img n a b) h
  ready _ := stands ⟨rfl, rfl, id⟩
  freePort := freePort
  reloadFault _ _ := stands ⟨rfl, rfl, Ring.lawful_push _⟩
  hold s _ img h _ := stands (s.keepsPort_setLoader { reload := .applyPending img, lastReloadFailed := false }) h
  applyNow s _ img h _ _ _ := stands
    ((s.keepsPort_setLoader { reload := .idle, lastReloadFailed := false }).trans
      (State.keepsPort_applyImage _ img 1)) h
  applyHeld s img h _ _ := stands
    ((s.keepsPort_setLoader { s.loader with reload := .idle }).trans (State.keepsPort_applyImage _ img 2)) h
  debounce s _ _ := stands (s.keepsPort_doorTake _ _)
  freshness s _ := stands (s.keepsPort_doorTake _ _)
  grant s _ := stands (s.keepsPort_doorTake _ _)
  prewarn s _ := stands (s.keepsPort_doorTake _ _)
  travel s _ _ _ _ _ h _ _ := stands (s.keepsPort_doorTake _ _) h
  reclose s _ _ _ h _ _ := stands (s.keepsPort_doorTake _ _) h
  trip s _ _ h _ _ := stands (s.keepsPort_doorTake _ _) h
  retry s _ _ _ h _ _ := stands (s.keepsPort_doorTake _ _) h
  settle s _ := stands (s.keepsPort_doorTake _ _)
  lapse s m _ h _ := stands (s.keepsPort_lapse m) h
  transferExpiry s := stands s.keepsPort_takeTransferExpiry
  phase _ := stands ⟨rfl, rfl, id⟩

/-- R159: the bounds of the ring. -/
theorem State.kept_ringLawful : Kept fun s => s.ring.lawful :=
  State.kept_of_keepsPort (fun keeps => keeps.ring) (fun _ _ h => h) (fun _ _ h => h) (fun _ h => h)
    fun _ _ _ => ⟨Nat.zero_le _, Nat.zero_le _⟩

theorem State.KeepsPort.portLawful {s t : State} (keeps : s.KeepsPort t) (h : s.portLawful) : t.portLawful := by
  rw [State.portLawful, keeps.upstream, keeps.response]
  exact h

/-- R116: a response is given as the port becomes idle, and goes as an access takes the port or a reset begins. -/
theorem State.kept_portLawful : Kept State.portLawful :=
  State.kept_of_keepsPort State.KeepsPort.portLawful (fun _ _ _ => .inl rfl) (fun _ _ _ => .inr rfl)
    (fun _ _ => .inl rfl) fun _ _ _ => .inr rfl

end Sys2Proof.Machine
end

section
/-! SUPPORT. The part state under each command (R118, R166, R167): an access, a bank's ending and every other take but a
reset's and a load's leave it as it is. -/

namespace Sys2Proof.Machine

/-! ## The stages of an access (R117) -/

/-- The part state of what a stage leaves. -/
def Stage.part : Stage → PartState
  | .ended s => s.part
  | .goesOn s _ => s.part

theorem Stage.part_andThen {st : Stage} {next : State → Access → Stage} (h : ∀ t b, (next t b).part = t.part) :
    (st.andThen next).part = st.part := by
  cases st with
  | ended t => rfl
  | goesOn t b => exact h t b

section

variable (s : State) (a : Access) (f : Found)

theorem State.abandonSlot_part (m : Master) : (s.abandonSlot m).part = s.part := (Kept.abandonSlot_passed s m).2

theorem State.assemble_part (l : Lane) (b : Byte) : (s.assemble a l b).part = s.part := by
  unfold State.assemble
  split
  · rfl
  · split
    · split <;> rfl
    · exact s.abandonSlot_part a.master

theorem State.laneStage_part : (s.laneStage a f).part = s.part := by
  unfold State.laneStage
  split
  · split
    · rfl
    · split
      · exact s.assemble_part a _ _
      · rfl
  · exact s.abandonSlot_part a.master

theorem State.matrix_part : (s.matrix a f).part = s.part := by
  unfold State.matrix
  split
  · split <;> rfl
  · rfl

theorem State.unauthorized_part : (s.unauthorized a f).part = s.part := by
  unfold State.unauthorized
  split
  · split <;> rfl
  · split
    · split
      · exact s.matrix_part a f
      · rfl
    · exact s.matrix_part a f
    · exact s.matrix_part a f

theorem State.masterStage_part : (s.masterStage a f).part = s.part := by
  unfold State.masterStage
  dsimp only
  split
  · rfl
  · split
    · exact s.matrix_part a f
    · exact s.unauthorized_part a f

theorem State.payToken_part (rule : Nat) (m : Fin 8) : (s.payToken a rule m).part = s.part := by
  unfold State.payToken
  dsimp only
  split
  · rfl
  · split <;> rfl

theorem State.ruleStage_part : (s.ruleStage a f).part = s.part := by
  unfold State.ruleStage
  split
  · rfl
  · next i r _ =>
    cases h : r.action with
    | meter m => exact s.payToken_part a i m
    | _ => rfl

theorem State.admission_part : (s.admission a f).part = s.part := by
  have checks : ∀ (t : State) (b : Access), ((t.masterStage b f).andThen fun u c => u.ruleStage c f).part = t.part :=
    fun t b => (Stage.part_andThen fun u c => u.ruleStage_part c f).trans (t.masterStage_part b f)
  exact (Stage.part_andThen checks).trans (s.laneStage_part a f)

/-! ## The processing of a kind (R128 to R132) -/

theorem State.afterWrite_part (after : AfterWrite) : (s.afterWrite after).part = s.part := by
  cases after with
  | answerOnly => rfl
  | sensorTake d w arrival => exact (s.keepsMirror_sensorTake d w arrival).part

theorem State.settleWrite_part (addr : Addr) (l : Lanes) (w : Word) (legA legB : Leg) (after : AfterWrite) :
    (s.settleWrite a addr l w legA legB after).part = s.part := by
  unfold State.settleWrite
  split
  · exact s.afterWrite_part after
  · rfl

theorem State.forwardWrite_part (addr : Addr) (l : Lanes) (w : Word) (after : AfterWrite) (r : Response) :
    (s.forwardWrite a addr l w after r).part = s.part := by
  unfold State.forwardWrite
  split
  · exact s.afterWrite_part after
  · exact s.settleWrite_part a addr l w _ _ after

theorem State.forwardRead_part (addr : Addr) (l : Lanes) : (s.forwardRead a addr l).part = s.part := by
  unfold State.forwardRead
  split
  · rfl
  · split <;> rfl

theorem State.plainRead_part (orig : Access) : (s.plainRead orig a).part = s.part := by
  unfold State.plainRead
  split
  · exact s.forwardRead_part orig _ _
  · rfl

theorem State.plainWrite_part (orig : Access) (w : Word) : (s.plainWrite orig a w).part = s.part := by
  unfold State.plainWrite
  split
  · exact s.forwardWrite_part orig _ _ _ _ _
  · rfl

theorem State.stationWrite_part (d : Nat) (w : Word) : (s.stationWrite a d w).part = s.part := by
  unfold State.stationWrite
  split <;> rfl

theorem State.OrderTake.part {s t : State} {m : Master} {addr : Addr} {w : Word} (take : s.OrderTake m addr w t) :
    t.part = s.part := by
  rcases take.keepsMirror with same | ⟨-, -, part, -⟩
  · exact same.part
  · exact part

variable {a f}

theorem State.orderWrite_part (orig : Access) (offset : Nat) (w : Word) (hr : (s.role a.master).mayOrder offset) :
    (s.orderWrite orig a offset w).part = s.part := by
  unfold State.orderWrite
  split
  · next t ht => exact (t.forwardWrite_part _ _ _ _ _ _).trans (State.takeOrder_take hr (.inl ht)).part
  · rfl
  · next t ht => exact (State.takeOrder_take hr (.inr ht)).part

theorem State.process_part (orig : Access)
    (hr : a.isWrite = true → f.kind = .order → (s.role a.master).mayOrder f.offset) :
    (s.process orig a f).part = s.part := by
  unfold State.process
  split
  · split
    · exact s.plainRead_part a orig
    · exact s.plainRead_part a orig
    · exact s.plainRead_part a orig
    · rfl
    · rfl
    · rfl
    · rfl
  · next w hw =>
    split
    · exact s.plainWrite_part a orig w
    · exact s.forwardWrite_part orig _ _ _ _ _
    · next hk => exact s.orderWrite_part orig _ w (hr (Access.isWrite_iff.mpr ⟨w, hw⟩) hk)
    · exact s.stationWrite_part a _ w
    · rfl
    · rfl
    · rfl

/-- R117: an access leaves the part RUNNING that it has found RUNNING. -/
theorem State.runAccess_part (a : Access) : (s.runAccess a).part = s.part := by
  have stages := s.admission_part a (s.lookup a.addr)
  unfold State.runAccess
  dsimp only
  cases h : s.admission a (s.lookup a.addr) with
  | ended t => rw [h] at stages; exact stages
  | goesOn t b =>
    obtain ⟨part, mayOrder⟩ := Kept.admission_goesOn h
    exact (t.process_part a mayOrder).trans part

end

/-! ## The bank ports (R147 to R151) -/

section

variable (s : State)

theorem State.countLeg_part (b : BankId) (owner : AccessOwner) (addr : Addr) (l : Leg) :
    (s.countLeg b owner addr l).1.part = s.part := by
  unfold State.countLeg
  split
  · exact s.takeMirror_part _
  · rfl

theorem State.countLegs_part (owner : AccessOwner) (addr : Addr) (legA legB : Leg) :
    (s.countLegs owner addr legA legB).1.part = s.part := by
  unfold State.countLegs
  dsimp only
  split
  · exact (State.countLeg_part _ _ _ _ _).trans (s.countLeg_part _ _ _ _)
  · exact s.countLeg_part _ _ _ _

theorem State.writeEnd_part (a : Access) (addr : Addr) (l : Lanes) (w : Word) (legA legB : Leg) (after : AfterWrite)
    (b : BankId) (clean : Bool) : (s.writeEnd a addr l w legA legB after b clean).part = s.part := by
  have counted : ∀ (m : Mirror) (owner : AccessOwner) (endA endB lA lB : Leg),
      ((({ s with mirror := m } : State).countLegs owner addr endA endB).1.settleWrite a addr l w lA lB after).part =
        s.part := fun m owner endA endB lA lB =>
    (State.settleWrite_part _ a addr l w lA lB after).trans
      (State.countLegs_part { s with mirror := m } owner addr endA endB)
  unfold State.writeEnd
  cases b <;> dsimp only <;> split
  · exact counted _ _ _ _ _ _
  · rfl
  · exact counted _ _ _ _ _ _
  · rfl

theorem State.readError_part (a : Access) (addr : Addr) (l : Lanes) (b : BankId) (retry : Bool) (fault : BankFault) :
    (s.readError a addr l b retry fault).part = s.part := by
  unfold State.readError
  dsimp only
  split
  · exact s.takeMirror_part _
  · exact s.takeMirror_part _

theorem State.readEnd_part (a : Access) (addr : Addr) (l : Lanes) (b : BankId) (retry : Bool) (flipped : BankWord) :
    (s.readEnd a addr l b retry flipped).part = s.part := by
  unfold State.readEnd
  dsimp only
  split
  · rfl
  · exact s.readError_part a addr l b retry _

theorem State.reloadEnd_part (image : List Byte) : (s.reloadEnd image).part = s.part := by
  unfold State.reloadEnd
  split
  · next img _ =>
    unfold State.reloadGood
    split
    · exact (State.keepsMirror_applyImage _ img 1).part
    · rfl
  · rfl

end

end Sys2Proof.Machine
end

section
/-! SUPPORT. The part outside RUNNING (R3, R20, R48, R65, R102, R118, R119, R168): what finds it there leaves its doors,
its groups and its loader at their reset values, and only a load that ends good brings it to RUNNING. -/

namespace Sys2Proof.Machine

section

variable {s t : State}

/-- The law says nothing of the RUNNING part. -/
theorem State.dormant_of_running (h : s.part = .running) : s.dormant := fun hp => absurd h hp

/-- A take that leaves the part state, the doors, the groups and the reload state, and forwards no access. -/
theorem State.dormant.stays (h : s.dormant) (part : t.part = s.part) (yard : t.yard = s.yard)
    (reload : t.loader.reload = s.loader.reload)
    (upstream : ∀ a w, t.path.upstream = .waiting a w → s.path.upstream = .waiting a w) : t.dormant := fun hp => by
  obtain ⟨blank, idle, waits⟩ := h (part ▸ hp)
  exact ⟨yard.trans blank, reload.trans idle, fun a w hw => waits a w (upstream a w hw)⟩

/-- A take outside RUNNING that leaves the doors, the groups, the reload state and the port, whatever the part
state that follows. -/
theorem State.dormant.elsewhere (h : s.dormant) (outside : s.part ≠ .running) (yard : t.yard = s.yard)
    (reload : t.loader.reload = s.loader.reload) (upstream : t.path.upstream = s.path.upstream) :
    t.dormant := fun _ => by
  obtain ⟨blank, idle, waits⟩ := h outside
  exact ⟨yard.trans blank, reload.trans idle, fun a w hw => waits a w (upstream ▸ hw)⟩

/-- What finds the part RUNNING and leaves its part state leaves the law, whatever it does to the rest. -/
theorem State.dormant_of_staysRunning (running : s.part = .running) (part : t.part = s.part) : t.dormant :=
  State.dormant_of_running (part.trans running)

/-- R118, R119: a write or a read waits for the banks in RUNNING alone. -/
theorem State.dormant.running_of_waiting (h : s.dormant) {a : Access} {w : Waiting}
    (hu : s.path.upstream = .waiting a w) (hw : w ≠ .transparent) : s.part = .running := by
  by_contra hp
  obtain ⟨-, -, waits⟩ := h hp
  exact hw (waits a w hu)

/-- R3: a timer that no blank record has runs in RUNNING alone. -/
theorem State.dormant.running_of_door (h : s.dormant) {α : Type} {d : Nat} {get : Door → Option α}
    (blank : get Door.blank = none) {v : α} (hv : (s.door? d).bind get = some v) : s.part = .running := by
  by_contra hp
  obtain ⟨yard, -, -⟩ := h hp
  obtain ⟨x, hx, found⟩ := Option.bind_eq_some_iff.mp hv
  rw [State.door?, yard] at hx
  rw [List.eq_of_mem_replicate (List.mem_of_getElem? hx), blank] at found
  cases found

/-! ## Resets and accesses -/

theorem State.dormant_beginReset (s : State) (kind : ResetCause) : (s.beginReset kind).dormant := by
  refine fun _ => ⟨rfl, rfl, fun a w hw => ?_⟩
  replace hw : s.path.upstream.hold = .waiting a w := hw
  cases hu : s.path.upstream <;> rw [hu] at hw <;> cases hw

/-- R118, R119: an access is held, or goes on to bank A. -/
theorem State.dormant.present (h : s.dormant) (a : Access) : (s.present a).dormant := by
  unfold State.present
  split
  · exact h.stays rfl rfl rfl fun _ _ hw => nomatch hw
  · exact h.stays rfl rfl rfl fun _ _ hw => nomatch hw
  · next hp =>
    intro outside
    obtain ⟨blank, idle, -⟩ := h outside
    refine ⟨blank, idle, fun b w hw => ?_⟩
    cases hw
    rfl
  · next hp => exact State.dormant_of_staysRunning hp (s.runAccess_part a)

theorem State.dormant.arrive (h : s.dormant) (a : Access) : (s.arrive a).dormant := by
  unfold State.arrive
  split
  · exact h.present a
  · exact h

/-! ## Loads (R167) -/

theorem State.dormant.openPort (h : s.dormant) : s.openPort.dormant := by
  unfold State.openPort
  dsimp only
  split
  · have freed : ({ s with
        lines := { s.lines with ready := true }
        path := { s.path with upstream := .idle } } : State).dormant := h.stays rfl rfl rfl fun _ _ hw => nomatch hw
    exact freed.present _
  · exact h.stays rfl rfl rfl fun _ _ hw => hw

theorem State.dormant.loadEnd (h : s.dormant) {n : Nat} (hp : s.part = .loading n) (image : List Byte) (a b : Bool) :
    (s.loadEnd n image a b).dormant := by
  have outside : s.part ≠ .running := by rw [hp]; exact nofun
  unfold State.loadEnd
  split
  · next img _ => exact (State.dormant_of_running (s.enterRunning_part img n a b)).openPort
  · unfold State.loadFault
    split
    · exact h.elsewhere outside rfl rfl rfl
    · exact State.dormant.openPort (h.elsewhere (t := s.enterTransparent) outside rfl rfl rfl)

/-! ## The bank ports -/

theorem State.dormant.bankEnd (h : s.dormant) (b : BankId) (flipped : BankWord) : (s.bankEnd b flipped).dormant := by
  unfold State.bankEnd
  split
  · next hu => exact State.dormant_of_staysRunning (h.running_of_waiting hu nofun) (s.writeEnd_part _ _ _ _ _ _ _ _ _)
  · next hu =>
    split
    · exact State.dormant_of_staysRunning (h.running_of_waiting hu nofun) (s.readEnd_part _ _ _ _ _ _)
    · exact h
  · split
    · unfold State.transparentEnd
      split
      · exact h.stays rfl rfl rfl fun _ _ hw => nomatch hw
      · dsimp only
        split <;> exact h.stays rfl rfl rfl fun _ _ hw => nomatch hw
    · exact h
  · exact h
  · exact h

theorem State.dormant.bankTimeout (h : s.dormant) (b : BankId) : (s.bankTimeout b).dormant := by
  unfold State.bankTimeout
  split
  · next hu => exact State.dormant_of_staysRunning (h.running_of_waiting hu nofun) (s.writeEnd_part _ _ _ _ _ _ _ _ _)
  · next hu =>
    split
    · exact State.dormant_of_staysRunning (h.running_of_waiting hu nofun) (s.readError_part _ _ _ _ _ _)
    · exact h
  · split
    · unfold State.transparentTimeout
      split <;> exact h.stays rfl rfl rfl fun _ _ hw => nomatch hw
    · exact h
  · exact h
  · exact h

theorem State.dormant.takeMirror (h : s.dormant) (r : Mirror × List Capture) : (s.takeMirror r).dormant := by
  rw [State.takeMirror_eq]
  exact h.stays rfl rfl rfl fun _ _ hw => hw

/-! ## Expiries -/

theorem State.dormant.atExpiry (h : s.dormant) {timer : Option Nat} {take : State → State}
    (ht : ∀ n, timer = some n → (take s).dormant) : (s.atExpiry timer take).dormant := by
  unfold State.atExpiry State.reached
  cases timer with
  | none => exact h
  | some n =>
    dsimp only
    split
    · exact ht n rfl
    · exact h

/-- The expiry of a door's timer that no blank record has. -/
theorem State.dormant.doorExpiry (h : s.dormant) {d : Nat} {get : Door → Option Nat} (blank : get Door.blank = none)
    (f : Yard → Env → Yard) (cs : List Capture) : (s.atExpiry (s.doorTimer d get) (·.doorTake f cs)).dormant :=
  h.atExpiry fun _ ht => State.dormant_of_staysRunning (h.running_of_door blank ht) (s.keepsMirror_doorTake f cs).part

theorem State.lapse_loader (s : State) (m : Master) : (s.lapse m).loader = s.loader := by
  rw [State.lapse_eq]
  split
  · split
    · rfl
    · split <;> rfl
  · split <;> rfl

theorem State.dormant.lapse (h : s.dormant) (m : Master) : (s.lapse m).dormant :=
  h.stays (s.keepsMirror_lapse m).part (s.lapse_yard m) (congrArg Loader.reload (s.lapse_loader m)) fun _ _ hw =>
    (s.keepsPort_lapse m).upstream ▸ hw

theorem State.dormant.takeTransferExpiry (h : s.dormant) : s.takeTransferExpiry.dormant := by
  unfold State.takeTransferExpiry
  split
  · exact h.stays rfl rfl rfl fun _ _ hw => hw
  · exact h

/-! ## Every step -/

/-- A command: the rows that are not named in a case of their own are the accesses (log 1). -/
theorem State.dormant.exec {i : Instr} (h : s.dormant) (he : Machine.exec i s = .next t) : t.dormant := by
  have becomes : ∀ {u : State}, (.next u : Host.Outcome State Fault Refusal) = .next t → u.dormant → t.dormant :=
    fun hu hd => Host.Outcome.next.inj hu ▸ hd
  cases i with
  | powerOn => exact becomes he (s.dormant_beginReset _)
  | reset => exact becomes he (s.dormant_beginReset _)
  | resetRelease strap =>
    refine becomes he ?_
    split
    · next hp => exact h.elsewhere (by rw [hp]; exact nofun) rfl rfl rfl
    · exact h
  | loadAttemptEnd image a b =>
    simp only [Machine.exec, execLoadAttemptEnd] at he
    split at he
    · next hp => exact becomes he (h.loadEnd hp image a b)
    · exact becomes he h
  | bankAccessEnd b flipped => exact becomes he (h.bankEnd b flipped)
  | bankCompletionTimeout b => exact becomes he (h.bankTimeout b)
  | copyStep outcome =>
    refine becomes he ?_
    split
    · exact h.takeMirror _
    · exact h
  | debounceExpiry d input =>
    simp only [Machine.exec, execDebounceExpiry] at he
    split at he
    · next timer ht =>
      have running := h.running_of_door (get := (·.debounceTimer input)) (by cases input <;> rfl) ht
      exact becomes he (h.atExpiry fun _ _ => State.dormant_of_staysRunning running (s.keepsMirror_doorTake _ _).part)
    · exact becomes he h
  | slotGrant g =>
    refine becomes he ?_
    split
    · next due =>
      refine State.dormant_of_staysRunning ?_ (s.keepsMirror_doorTake _ _).part
      by_contra hp
      obtain ⟨yard, -, -⟩ := h hp
      rw [yard] at due
      simp [Yard.blank, Group.blank, Group.grantDue] at due
    · exact h
  | freshnessExpiry d => exact becomes he (h.doorExpiry (get := (·.freshnessAt s.times)) rfl _ _)
  | prewarnExpiry d => exact becomes he (h.doorExpiry (get := Door.prewarnAt) rfl _ _)
  | travelExpiry d => exact becomes he (h.doorExpiry (get := Door.travelAt) rfl _ _)
  | recloseExpiry d => exact becomes he (h.doorExpiry (get := Door.recloseAt) rfl _ _)
  | tripTimerExpiry d =>
    exact becomes he (h.atExpiry fun _ ht =>
      State.dormant_of_staysRunning (h.running_of_door (get := Door.tripAt) rfl ht) (s.keepsMirror_doorTake _ _).part)
  | retryExpiry d => exact becomes he (h.doorExpiry (get := Door.retryAt) rfl _ _)
  | settleExpiry d => exact becomes he (h.doorExpiry (get := Door.settleAt) rfl _ _)
  | reloadAttemptEnd image =>
    refine becomes he ?_
    split
    · next reloads =>
      obtain ⟨running, -⟩ := reloads
      exact State.dormant_of_staysRunning running (s.reloadEnd_part image)
    · exact h
  | apply =>
    simp only [Machine.exec, execApply] at he
    split at he
    · next img due =>
      refine becomes he (State.dormant_of_staysRunning ?_ (State.keepsMirror_applyImage _ img 2).part)
      by_contra hp
      obtain ⟨-, idle, -⟩ := h hp
      simp [State.dueApply, idle] at due
    · exact becomes he h
  | heartbeatExpiry m => exact becomes he (h.atExpiry fun _ _ => h.lapse m)
  | transferTimerExpiry => exact becomes he (h.atExpiry fun _ _ => h.takeTransferExpiry)
  | flashPhaseExpiry => exact becomes he (h.atExpiry fun _ _ => h.stays rfl rfl rfl fun _ _ hw => hw)
  | refillInstant m => exact becomes he (h.atExpiry fun _ _ => h.stays rfl rfl rfl fun _ _ hw => hw)
  | _ => exact becomes he (h.arrive _)

/-- R168: every command keeps the law, and so does the tick, which moves nothing outside RUNNING. -/
theorem State.keptByStep_dormant : KeptByStep State.dormant := by
  intro s t h hs
  have queued : ∀ p, ({ s with pending := p } : State).dormant := fun _ => h
  unfold step at hs
  split at hs
  · exact (queued _).exec hs
  · obtain rfl := Host.Outcome.next.inj hs
    unfold State.tick
    split
    · next running =>
      split
      · exact State.dormant_of_running running
      · exact State.dormant_of_running running
    · exact h

end

/-- Settles O56: the ring's bounds and the port's law are kept by every take of the part; the law of the part outside
RUNNING by every command, of which the door and loader commands find nothing due there. -/
theorem ringAndPortLaws : Obligations.RingAndPortLaws :=
  ⟨State.kept_ringLawful.step, State.kept_portLawful.step, State.keptByStep_dormant⟩

end Sys2Proof.Machine
end

section
/-! SUPPORT. Resets and the start-up load (R118, R166, R167): what a reset abandons, what it leaves, the entries to
TRANSPARENT and to RUNNING, and the laws at power-on. -/

namespace Sys2Proof.Machine

/-! ## The law at power-on -/

/-- Settles O60: the door and group records are those of `Yard.blank`, which every law of the yard holds of. -/
theorem resetIsLawful : Obligations.ResetIsLawful := by
  have mirror : State.reset.mirror.lawful State.reset.part :=
    Mirror.lawful_copyless ((BankId.forall_iff .bankA).mpr ⟨Nat.zero_le _, Nat.zero_le _⟩)
      ((BankId.forall_iff .bankA).mpr ⟨nofun, nofun⟩) rfl rfl nofun nofun
  have trips : State.reset.tripLawful := State.tripLawful_iff.mpr ⟨Door.law_counts.blank _, False.elim⟩
  have positions : State.reset.positionLawful :=
    State.positionLawful_iff.mpr ⟨Door.law_position.blank _, fun _ _ held => nomatch held⟩
  have port : State.reset.path.upstream = .idle := rfl
  have dormant : State.reset.dormant := fun _ => ⟨rfl, rfl, fun _ _ waits => absurd (port.symm.trans waits) nofun⟩
  exact ⟨⟨Nat.zero_le _, Nat.zero_le _⟩, .inl port, ⟨Contents.wf_blank, Contents.wf_blank⟩, mirror, ⟨nofun, nofun⟩,
    trips, positions, Yard.kept_arbiterLawful.blank, Yard.kept_heeds.blank, dormant⟩

/-! ## RESET_RELEASE, and accesses before READY -/

theorem State.arrive_beforeReady {s : State} (hp : s.part = .inReset ∨ ∃ n, s.part = .loading n)
    (hu : s.path.upstream = .idle) (a : Access) : s.arrive a = s.setUpstream (.held a) := by
  unfold State.arrive State.present
  rw [if_pos hu]
  rcases hp with hp | ⟨n, hp⟩ <;> rw [hp]

/-- Settles O4. -/
theorem releaseLoadsAndAccessesAreHeld : Obligations.ReleaseLoadsAndAccessesAreHeld := by
  refine ⟨fun s strap hp => ?_, fun s a hp hu => ?_⟩
  · have released : (if s.part = .inReset then s.release strap else s) = s.release strap := if_pos hp
    exact congrArg Host.Outcome.next released
  · exact congrArg Host.Outcome.next (State.arrive_beforeReady hp hu a)

/-! ## What a reset abandons (R118, log 8) -/

/-- R147: a word left unknown in one bank. -/
theorem Mirror.read_forget (m : Mirror) (b c : BankId) (addr : Addr) {k : Nat} (hl : k ≠ laneAddr addr .low)
    (hh : k ≠ laneAddr addr .high) : ((m.forget b addr).bank c).mem.read k = (m.bank c).mem.read k := by
  rcases BankId.eq_or_other b c with rfl | rfl
  · simpa [Mirror.forget] using Contents.read_forget_ne _ _ _ hl hh
  · simp [Mirror.forget]

theorem Mirror.bank_forget_ne (m : Mirror) {b c : BankId} (addr : Addr) (h : c ≠ b) :
    (m.forget b addr).bank c = m.bank c := by
  obtain rfl := (BankId.eq_or_other b c).resolve_left h
  simp [Mirror.forget]

theorem Leg.isOutstanding_iff {leg : Leg} : leg.isOutstanding = true ↔ ∃ serving, leg = .outstanding serving := by
  cases leg <;> simp [Leg.isOutstanding]

/-- R118: one bank's word left unknown where its write is outstanding, and only there. -/
theorem Mirror.read_abandonLeg (m : Mirror) (b c : BankId) (addr : Addr) (leg : Leg) :
    ((¬ (c = b ∧ leg.isOutstanding = true)) →
      ((if leg.isOutstanding then m.forget b addr else m).bank c) = m.bank c) ∧
    ∀ k, k ≠ laneAddr addr .low → k ≠ laneAddr addr .high →
      ((if leg.isOutstanding then m.forget b addr else m).bank c).mem.read k = (m.bank c).mem.read k := by
  split
  · next out => exact ⟨fun other => m.bank_forget_ne addr fun hc => other ⟨hc, out⟩, fun k => m.read_forget b c addr⟩
  · exact ⟨fun _ => rfl, fun _ _ _ => rfl⟩

/-- R118: an abandoned access reaches no bank but one that its write addresses, and there its own word alone. -/
theorem Mirror.read_abandonWrites (m : Mirror) (a : Access) (w : Waiting) (b : BankId) :
    (¬ w.writes a b → ((m.abandonWrites a w).bank b) = m.bank b) ∧
      ∀ k, k ≠ laneAddr (w.addr a) .low → k ≠ laneAddr (w.addr a) .high →
        ((m.abandonWrites a w).bank b).mem.read k = (m.bank b).mem.read k := by
  cases w with
  | write addr lanes data legA legB after =>
    obtain ⟨standsA, wordA⟩ := m.read_abandonLeg .bankA b addr legA
    obtain ⟨standsB, wordB⟩ :=
      (if legA.isOutstanding then m.forget .bankA addr else m).read_abandonLeg .bankB b addr legB
    have outstanding : (Waiting.write addr lanes data legA legB after).writes a b ↔
        (b = .bankA ∧ legA.isOutstanding = true) ∨ (b = .bankB ∧ legB.isOutstanding = true) := by
      cases b <;> simp [Waiting.writes, Leg.isOutstanding_iff]
    refine ⟨fun none => ?_, fun k hl hh => (wordB k hl hh).trans (wordA k hl hh)⟩
    obtain ⟨notA, notB⟩ := not_or.mp (mt outstanding.mpr none)
    exact (standsB notB).trans (standsA notA)
  | read addr lanes bank retry => exact ⟨fun _ => rfl, fun _ _ _ => rfl⟩
  | transparent =>
    unfold Mirror.abandonWrites
    dsimp only
    split
    · next data hop =>
      have writes : a.isWrite = true := by simp [Access.isWrite, hop]
      exact ⟨fun none => m.bank_forget_ne _ fun hb => none ⟨hb, writes⟩, fun k => m.read_forget .bankA b a.addr⟩
    · exact ⟨fun _ => rfl, fun _ _ _ => rfl⟩

theorem State.beginReset_mem (s : State) (kind : ResetCause) (b : BankId) :
    ((s.beginReset kind).mirror.bank b).mem = (s.abandoned.bank b).mem := by cases b <;> rfl

theorem State.abandoned_waiting {s : State} {a : Access} {w : Waiting} (h : s.path.upstream = .waiting a w) :
    s.abandoned = s.mirror.abandonWrites a w := by
  simp only [State.abandoned, h]

theorem State.abandoned_none {s : State} (h : ∀ a w, s.path.upstream ≠ .waiting a w) : s.abandoned = s.mirror := by
  unfold State.abandoned
  split
  · next a w hw => exact absurd hw (h a w)
  · rfl
  · rfl

/-- R118, R166: POWER_ON and RESET begin a reset of some kind. -/
theorem exec_beginsReset {c : Instr} {s : State} (hc : c = .powerOn ∨ c = .reset) :
    ∃ kind, exec c s = .next (s.beginReset kind) ∧ (c = .powerOn → kind = .powerOn) ∧
      (c = .reset → kind = if s.part = .inReset then s.resetKind else .resetLine) := by
  rcases hc with rfl | rfl
  · exact ⟨.powerOn, rfl, fun _ => rfl, nofun⟩
  · exact ⟨s.lineKind, rfl, nofun, fun _ => rfl⟩

theorem State.beginReset_yard (s : State) (kind : ResetCause) : (s.beginReset kind).yard = Yard.blank := rfl

/-- R3, log 5: after a reset 96 records stand. -/
theorem State.beginReset_door (s : State) (kind : ResetCause) {d : Nat} (hd : d < 96) :
    (s.beginReset kind).door? d = some Door.blank := by
  have below : d < Config.maxDoors := hd
  rw [State.door?, State.beginReset_yard, Yard.blank, List.getElem?_replicate, if_pos below]

/-- Settles O3: the state is `State.beginReset`, of which the banks' contents are those of `State.abandoned`. -/
theorem resetBegins : Obligations.ResetBegins := by
  intro c s hc
  obtain ⟨kind, taken, powerOn, line⟩ := exec_beginsReset (s := s) hc
  refine ⟨s.beginReset kind, taken, rfl, fun _ hd => s.beginReset_door kind hd, powerOn, line, fun idle => ?_,
    fun a held => ?_, fun a w waits => ?_,
    fun none b k => ?_, fun a w waits b => ?_⟩
  · exact congrArg Upstream.hold idle
  · exact congrArg Upstream.hold held
  · exact congrArg Upstream.hold waits
  · rw [State.beginReset_mem, State.abandoned_none none]
  · obtain ⟨stands, word⟩ := s.mirror.read_abandonWrites a w b
    rw [State.beginReset_mem, State.abandoned_waiting waits]
    exact ⟨fun unwritten k => by rw [stands unwritten], word⟩

/-! ## The entry to TRANSPARENT (R146, R167) -/

/-- R118: READY high with no access held. -/
theorem State.openPort_notHeld {s : State} (h : ∀ a, s.path.upstream ≠ .held a) :
    s.openPort = { s with lines := { s.lines with ready := true } } := by
  unfold State.openPort
  dsimp only
  split
  · next a ha => exact absurd ha (h a)
  · rfl

/-- R119: an access held goes to bank A as READY goes high in TRANSPARENT. -/
theorem State.openPort_transparent {s : State} {a : Access} (hp : s.part = .transparent)
    (hu : s.path.upstream = .held a) : s.openPort = { s with
      lines := { s.lines with ready := true }
      path := { s.path with upstream := .waiting a .transparent, response := none } } := by
  unfold State.openPort State.present
  simp only [hu, hp]
  rfl

/-- Settles O5. -/
theorem faultyAttemptLeadsOn : Obligations.FaultyAttemptLeadsOn := by
  intro s n image presentA presentB f hp hf
  rw [exec_loadAttemptEnd hp]
  refine ⟨fun few => congrArg _ (State.loadEnd_again hf few), fun third => ⟨_, rfl, ?_⟩⟩
  rw [State.loadEnd_last hf (Nat.not_lt.mpr third)]
  by_cases held : ∃ a, s.path.upstream = .held a
  · obtain ⟨a, ha⟩ := held
    rw [State.openPort_transparent (s := s.enterTransparent) rfl ha]
    refine ⟨rfl, fun idle => absurd (ha.symm.trans idle) nofun, fun b hb => ?_⟩
    obtain rfl := Upstream.held.inj (ha.symm.trans hb)
    exact ⟨rfl, rfl⟩
  · rw [State.openPort_notHeld (s := s.enterTransparent) (not_exists.mp held)]
    exact ⟨rfl, fun idle => ⟨idle, rfl⟩, fun a ha => absurd ⟨a, ha⟩ held⟩

/-! ## The entry to RUNNING (R146, R158, R167) -/

/-- R103, R105: a new record has no condition that holds. -/
theorem Door.evaluate_fresh (doorsClosed : Bool) (st : DoorStatic) (start : Nat) :
    (Door.fresh st start).evaluate doorsClosed = Door.fresh st start := by
  simp [Door.evaluate, Door.fresh, Door.blank, conditions, Position.standsOpen, InputPart.blank, Seven.zip,
    Seven.normal, AlarmState.evaluate]

/-- R110: no alarm state of a new record stands. -/
theorem judgeGeneralAlarm_fresh (clock flashOn start : Nat) (doors : List DoorStatic) (now : GeneralAlarm) :
    judgeGeneralAlarm clock flashOn (doors.map fun st => Door.fresh st start) now = .off := by
  have normal : ∀ st, (Door.fresh st start).anyUnack = false ∧ (Door.fresh st start).anyActive = false := fun _ =>
    ⟨rfl, rfl⟩
  simp [judgeGeneralAlarm, normal]

/-- R112: a new record's position is UNKNOWN. -/
theorem judgeDoorsNotClosed_fresh (closed : Bool) (start : Nat) (doors : List DoorStatic) :
    judgeDoorsNotClosed closed (doors.map fun st => Door.fresh st start) = (closed && !doors.isEmpty) := by
  cases doors <;> simp [judgeDoorsNotClosed, Door.fresh, Door.blank, Drive.isIsolated]

/-- R104: the end of a take after which every door is evaluated. -/
theorem evaluateChanged_nil (closed : Bool) (doors : List Door) :
    evaluateChanged closed [] doors = doors.map (Door.evaluate closed) := by
  cases doors <;> rfl

/-- R104, R112: the end of the take that enters RUNNING leaves the new records as they are. -/
theorem State.endTakeAll_entered {u : State} {img : Settings} (hy : u.yard = Yard.entered img) :
    u.endTakeAll = { u with lines := { u.lines with
      generalAlarm := .off
      doorsNotClosed := u.env.doorsClosed && !img.doors.isEmpty } } := by
  have fresh : evaluateChanged u.env.doorsClosed [] u.yard.doors = img.doors.map fun st => Door.fresh st 0 := by
    rw [hy, evaluateChanged_nil]
    simp [Yard.entered, Door.evaluate_fresh]
  unfold State.endTakeAll State.endTake State.judgeDoorLines
  simp only [fresh, judgeGeneralAlarm_fresh, judgeDoorsNotClosed_fresh]
  rw [hy]
  rfl

/-- R146: the four rows of the table, each field by the banks that are both present and fitted. -/
theorem Mirror.enter_eq (m : Mirror) (img : Settings) (presentA presentB : Bool) :
    let useA := presentA && img.fittedA
    let useB := presentB && img.fittedB
    m.enter img presentA presentB =
      ({ bankA := { state := if useA then .inService else .notFitted, count := 0, mem := m.bankA.mem }
         bankB :=
          { state := if useB then (if useA then .resync else .inService) else .notFitted
            count := 0, mem := m.bankB.mem }
         readMap := img.readMap, imageSize := img.imageSize
         source := if useA && useB then some .bankA else none
         cursor := 0, imageLost := !useA && !useB, free := m.free },
        if useA || useB then [] else [Capture.ofPart 24 3 0]) := by
  unfold Mirror.enter
  dsimp only
  generalize (presentA && img.fittedA) = useA
  generalize (presentB && img.fittedB) = useB
  cases useA <;> cases useB <;> rfl

/-- R113: PART_FAULT at entry to RUNNING. -/
theorem Mirror.enter_partFault (m : Mirror) (img : Settings) (presentA presentB : Bool) :
    judgePartFault .running (m.enter img presentA presentB).1 =
      (!(presentA && img.fittedA) && !(presentB && img.fittedB)) := by
  rw [m.enter_eq]
  generalize (presentA && img.fittedA) = useA
  generalize (presentB && img.fittedB) = useB
  cases useA <;> cases useB <;> rfl

/-- R167: the part at entry to RUNNING. -/
theorem State.enterRunning_eq (s : State) (img : Settings) (attempts : Nat) (presentA presentB : Bool) :
    s.enterRunning img attempts presentA presentB = { s.takeTables img with
      mirror := (s.mirror.enter img presentA presentB).1
      ring :=
        { entries :=
            { kind := 1, master := 15, addr := 0, detail := s.resetCause.code
              data := BitVec.ofNat 16 attempts, time := 0 } ::
            (if (presentA && img.fittedA) || (presentB && img.fittedB) then []
             else [{ kind := 24, master := 15, addr := 0, detail := 3, data := 0, time := 0 }])
          dropped := 0 }
      lines := { s.lines with
        generalAlarm := .off
        doorsNotClosed := img.defaultMode == .doorsClosed && !img.doors.isEmpty
        partFault := !(presentA && img.fittedA) && !(presentB && img.fittedB) } } := by
  have steps : s.enterRunning img attempts presentA presentB = State.endTakeAll
    (((s.takeTables img).capture (s.startedCapture attempts)).takeMirror (s.mirror.enter img presentA presentB)) := rfl
  rw [steps, State.takeMirror_eq, State.endTakeAll_entered (img := img) rfl,
    ← s.mirror.enter_partFault img presentA presentB, s.mirror.enter_eq img presentA presentB]
  generalize (presentA && img.fittedA) = useA
  generalize (presentB && img.fittedB) = useB
  cases useA <;> cases useB <;> rfl

/-- Settles O6. -/
theorem goodAttemptEntersRunning : Obligations.GoodAttemptEntersRunning := by
  intro s n image presentA presentB img hp hl hu
  have entered := s.enterRunning_eq img n presentA presentB
  have opened : s.loadEnd n image presentA presentB = { s.enterRunning img n presentA presentB with
      lines := { (s.enterRunning img n presentA presentB).lines with ready := true } } := by
    rw [State.loadEnd_good hl, State.openPort_notHeld]
    rw [entered]
    exact fun a held => absurd (held.symm.trans hu) nofun
  rw [exec_loadAttemptEnd hp, opened, entered, s.mirror.enter_eq img presentA presentB]
  refine ⟨_, rfl, rfl, rfl, rfl, rfl, rfl, rfl, rfl, fun m => ?_, fun m => ?_, rfl, fun g => ?_, rfl, rfl, rfl, rfl,
    ?_, rfl, rfl, rfl, rfl, rfl, rfl, rfl, rfl, rfl⟩
  · simp only [State.role, State.takeTables, get_eight]
    refine ⟨trivial, ?_⟩
    cases (img.masters.get m).role <;> simp [RoleSetting.enter]
  · exact get_eight _ m
  · exact get_four _ g
  · simp

end Sys2Proof.Machine
end

section
/-! SUPPORT. Load attempts (R165, R169): the CRC bit by bit, the readers of the image's sections, the order of faults,
and how a reload's attempt ends. -/

namespace Sys2Proof.Machine

/-! ## The end of a reload's attempt -/

theorem exec_reloadAttemptEnd {s : State} (image : List Byte) (hp : s.part = .running)
    (hr : s.loader.reload = .reloading) : exec (.reloadAttemptEnd image) s = .next (s.reloadEnd image) :=
  congrArg Host.Outcome.next (if_pos ⟨hp, hr⟩)

/-- Settles O53. -/
theorem reloadAttemptsEnd : Obligations.ReloadAttemptsEnd := by
  intro s image hp hr
  rw [exec_reloadAttemptEnd image hp hr]
  refine ⟨fun f faulty => ?_, fun img good ⟨d, x, hx, bound⟩ => ?_⟩
  · simp only [State.reloadEnd, faulty]
    cases f <;> rfl
  · have busy : ¬ s.yard.still = true := fun still =>
      absurd (bound.symm.trans (Yard.still_iff.mp still d x hx)) nofun
    simp only [State.reloadEnd, good]
    exact congrArg Host.Outcome.next (if_neg busy)

/-! ## The CRC -/

/-- R165: one step of the register over a register with pending input bits at its top. -/
theorem crcShift_xor (crc pending : Word) (n : Nat) :
    crcShift (crc ^^^ pending) (n + 1) = crcShift (crcBit crc (pending.getLsbD 15) ^^^ pending <<< 1) n := by
  have top : (crc ^^^ pending).getMsbD 0 = (crc.getLsbD 15 != pending.getLsbD 15) := by
    simp [BitVec.getMsbD_eq_getLsbD]
  rw [crcShift, top, crcBit, BitVec.shiftLeft_xor_distrib]
  split
  · congr 1
    rw [BitVec.xor_assoc, BitVec.xor_comm (pending <<< 1), BitVec.xor_assoc]
  · rfl

/-- R165: the low bits of a byte, pending at the register's top, are taken in from the most significant one. -/
theorem crcShift_pendingBits (b : Byte) {n : Nat} (hn : n ≤ 8) (crc : Word) :
    crcShift (crc ^^^ b.setWidth 16 <<< (16 - n)) n =
      (List.range n).reverse.foldl (fun crc i => crcBit crc (b.getLsbD i)) crc := by
  induction n generalizing crc with
  | zero => simp [crcShift]
  | succ n ih =>
    have top : (b.setWidth 16 <<< (16 - (n + 1))).getLsbD 15 = b.getLsbD n := by
      rw [BitVec.getLsbD_shiftLeft, BitVec.getLsbD_setWidth, show 15 - (16 - (n + 1)) = n by omega]
      simp [show n < 16 by omega]
    have next : b.setWidth 16 <<< (16 - (n + 1)) <<< 1 = b.setWidth 16 <<< (16 - n) := by
      rw [← BitVec.shiftLeft_add, show 16 - (n + 1) + 1 = 16 - n by omega]
    rw [crcShift_xor, top, next, ih (by omega), List.range_succ, List.reverse_append]
    rfl

/-- R165: a byte is taken in from its most significant bit. -/
theorem crcOf_append (body : List Byte) (byte : Byte) : crcOf (body ++ [byte]) =
    [7, 6, 5, 4, 3, 2, 1, 0].foldl (fun crc i => crcBit crc (byte.getLsbD i)) (crcOf body) := by
  have folded (l : List Byte) : crcOf l = l.foldl crcByte 0xFFFF#16 := by
    have fold := crcFrom_eq_foldl l 0xFFFF#16
    rw [BitVec.toNat_ofNat, Nat.mod_eq_of_lt (by decide)] at fold
    rw [crcOf, fold, BitVec.ofNat_toNat, BitVec.setWidth_eq]
  have bits : [7, 6, 5, 4, 3, 2, 1, 0] = (List.range 8).reverse := rfl
  rw [folded, folded, List.foldl_append, List.foldl_cons, List.foldl_nil, bits]
  exact crcShift_pendingBits byte (Nat.le_refl 8) _

/-! ## The image's sections (R165) -/

/-- The timings that the general section of a body spells, each in its range. -/
structure TimingReads (b : List Byte) (timing : Timing) : Prop where
  debounce : Reads timing.debounce (byteAt b 0) 0 20
  activeLimit : Reads timing.activeLimit (byteAt b 1) 2 50
  idleLimit : Reads timing.idleLimit (wordAt b 2) 5 300
  prewarn : Reads timing.prewarn (byteAt b 4) 0 100
  reclose : Reads timing.reclose (wordAt b 5) 10 300
  retryDelay : Reads timing.retryDelay (wordAt b 7) 10 600
  tripDelay : Reads timing.tripDelay (byteAt b 9) 0 30
  retryLimit : Reads timing.retryLimit (byteAt b 10) 0 7
  heartbeat : Reads timing.heartbeat (byteAt b 11) 10 100
  transfer : Reads timing.transfer (wordAt b 12) 50 600
  flashPeriod : Reads timing.flashPeriod (byteAt b 16) 2 40
  flashOn : Reads timing.flashOn (byteAt b 17) 1 timing.flashPeriod

theorem timingReads_of_timingOf {b : List Byte} {timing : Timing} (read : timingOf b = some timing) :
    TimingReads b timing := by
  simp only [timingOf, Option.bind_eq_bind, Option.bind_eq_some_iff, Option.some.injEq, within_eq_some] at read
  obtain ⟨_, h1, _, h2, _, h3, _, h4, _, h5, _, h6, _, h7, _, h8, _, h9, _, h10, _, h11, _, h12, rfl⟩ := read
  exact ⟨h1, h2, h3, h4, h5, h6, h7, h8, h9, h10, h11, h12⟩

theorem TimingReads.timingOf {b : List Byte} {timing : Timing} (reads : TimingReads b timing) :
    timingOf b = some timing := by
  obtain ⟨h1, h2, h3, h4, h5, h6, h7, h8, h9, h10, h11, h12⟩ := reads
  simp only [Machine.timingOf, within_eq_some.mpr h1, within_eq_some.mpr h2, within_eq_some.mpr h3,
    within_eq_some.mpr h4, within_eq_some.mpr h5, within_eq_some.mpr h6, within_eq_some.mpr h7, within_eq_some.mpr h8,
    within_eq_some.mpr h9, within_eq_some.mpr h10, within_eq_some.mpr h11, within_eq_some.mpr h12,
    Option.bind_eq_bind, Option.bind_some]

theorem defaultModeOf_eq_some {v : Nat} {mode : VesselMode} :
    defaultModeOf v = some mode ↔ v = match mode with | .localControl => 1 | .doorsClosed => 2 := by
  unfold defaultModeOf
  split <;> cases mode <;> simp_all

/-- R165: the default holder byte spells VACANT or a station. -/
theorem defaultHolder_iff {v : Nat} {masters : Vector MasterSetting 8} {holder : Option Master} :
    defaultHolderOf v = some holder ∧ holderOk masters holder = true ↔
      match holder with
      | none => v = 15
      | some m => v = m.val ∧ (masters.get m).role = .station := by
  unfold defaultHolderOf
  by_cases vacant : v = Config.partMaster
  · have byte : v = 15 := vacant
    rw [if_pos vacant]
    cases holder with
    | none => simp [holderOk, byte]
    | some m =>
      have small := m.isLt
      simp only [Option.some.injEq, reduceCtorEq, false_and, false_iff]
      omega
  · have byte : v ≠ 15 := vacant
    rw [if_neg vacant]
    cases holder with
    | none => simp [byte]
    | some m =>
      simp only [Option.map_eq_some_iff, Option.some.injEq, exists_eq_right, finOf_eq_some, holderOk,
        MasterSetting.isStation, beq_iff_eq]
      exact and_congr_left' eq_comm

/-- R165: no two scanners' ranges overlap. -/
theorem rangesOk_iff {masters : Vector MasterSetting 8} : rangesOk masters = true ↔
    ∀ m k first count first' count', m ≠ k → (masters.get m).role = .scanner first count →
      (masters.get k).role = .scanner first' count' → first + count ≤ first' ∨ first' + count' ≤ first := by
  have apart (m k : Master) : (m == k || !rangesMeet (masters.get m).role (masters.get k).role) = true ↔
      ∀ first count first' count', m ≠ k → (masters.get m).role = .scanner first count →
        (masters.get k).role = .scanner first' count' → first + count ≤ first' ∨ first' + count' ≤ first := by
    generalize (masters.get m).role = r
    generalize (masters.get k).role = r'
    by_cases same : m = k
    · simp [same]
    · cases r
      case scanner f c =>
        cases r'
        case scanner g k =>
          have meets : (!rangesMeet (.scanner f c) (.scanner g k)) = true ↔ f + c ≤ g ∨ g + k ≤ f := by
            simp [rangesMeet]
            omega
          simp only [Bool.or_eq_true, beq_iff_eq, same, false_or, meets, RoleSetting.scanner.injEq]
          exact ⟨fun h _ _ _ _ _ ⟨hf, hc⟩ ⟨hg, hk⟩ => hf ▸ hc ▸ hg ▸ hk ▸ h,
            fun h => h _ _ _ _ same ⟨rfl, rfl⟩ ⟨rfl, rfl⟩⟩
        all_goals simp [rangesMeet]
      all_goals simp [rangesMeet]
  simp only [rangesOk, List.all_eq_true, mem_masterNumbers, true_implies, apart]

/-- R121, R133: a table whose disabled records give nothing, record by record. -/
theorem allSome_table {α : Type} {n : Nat} {f : Nat → Option (Option α)} {off : Nat → Prop} {on : Nat → α → Prop}
    {r : List (Option α)} (reads : ∀ i x, f i = some x ↔ (x = none ∧ off i) ∨ ∃ v, x = some v ∧ on i v) :
    allSome ((List.range n).map f) = some r ↔
      r.length = n ∧ ∀ i, i < n → (r[i]? = some none ∧ off i) ∨ ∃ v, r[i]? = some (some v) ∧ on i v := by
  rw [allSome_range]
  refine and_congr_right fun hl => ⟨fun h i hi => ?_, fun h i x hx => (reads i x).mpr ?_⟩
  · have entry : r[i]? = some r[i] := List.getElem?_eq_getElem (hl ▸ hi)
    rcases (reads i _).mp (h i _ entry) with ⟨none, unused⟩ | ⟨v, some, used⟩
    · exact .inl ⟨entry.trans (congrArg _ none), unused⟩
    · exact .inr ⟨v, entry.trans (congrArg _ some), used⟩
  · have hi : i < n := hl ▸ (List.getElem?_eq_some_iff.mp hx).1
    rcases h i hi with ⟨none, unused⟩ | ⟨v, some, used⟩
    · exact .inl ⟨Option.some.inj (hx.symm.trans none), unused⟩
    · exact .inr ⟨v, Option.some.inj (hx.symm.trans some), used⟩

theorem meterOf_eq_some {b : List Byte} {m : Fin 8} {r : MeterSetting} : meterOf b m = some r ↔
    Reads r.rate (byteAt b (569 + 2 * m.val)) 1 255 ∧ Reads r.burst (byteAt b (570 + 2 * m.val)) 1 255 := by
  unfold meterOf meterBase
  simp only [Option.bind_eq_bind, Option.bind_eq_some_iff, Option.some.injEq, within_eq_some,
    show 569 + 2 * m.val + 1 = 570 + 2 * m.val by omega]
  constructor
  · rintro ⟨_, rate, _, burst, rfl⟩
    exact ⟨rate, burst⟩
  · rintro ⟨rate, burst⟩
    exact ⟨_, rate, _, burst, rfl⟩

theorem ofNat_wordAt_eq {b : List Byte} {o : Nat} {w : Word} :
    w = BitVec.ofNat 16 (wordAt b o) ↔ w.toNat = wordAt b o := by
  rw [← BitVec.toNat_inj, BitVec.toNat_ofNat, Nat.mod_eq_of_lt (wordAt_lt b o)]

/-- R165: what the checks over several records ask. -/
theorem lastCheck_iff {masters : Vector MasterSetting 8} {holder : Option Master} :
    (stationsOk masters && holderOk masters holder && rangesOk masters) = true ↔
      stationsOk masters = true ∧ holderOk masters holder = true ∧ rangesOk masters = true := by
  simp only [Bool.and_eq_true, and_assoc]

theorem goodImage_of_settingsOf {b : List Byte} {inForce : Option Nat} {img : Settings}
    (read : settingsOf b inForce = some img) : GoodImage b inForce img := by
  unfold settingsOf at read
  simp only [Option.bind_eq_bind, Option.bind_eq_some_iff, checked_eq_some, within_eq_some, flagByte_eq_some,
    eightSome_eq_some, fourSome_eq_some, lastCheck_iff, allSome_table (fun _ _ => windowOf_eq_some)] at read
  obtain ⟨_, times, _, mode, holder, holderByte, _, count, _, ⟨length, -⟩, _, fittedA, _, fittedB, masters, readMasters,
    _, windows, _, rules, _, meters, _, slots, _, doors, ⟨stations, holds, ranges⟩, rfl⟩ := read
  obtain ⟨doorsLength, readDoors⟩ := allSome_range.mp doors
  have timing := timingReads_of_timingOf times
  exact {
    debounce := timing.debounce
    activeLimit := timing.activeLimit
    idleLimit := timing.idleLimit
    prewarn := timing.prewarn
    reclose := timing.reclose
    retryDelay := timing.retryDelay
    tripDelay := timing.tripDelay
    retryLimit := timing.retryLimit
    heartbeat := timing.heartbeat
    transfer := timing.transfer
    flashPeriod := timing.flashPeriod
    flashOn := timing.flashOn
    mode := defaultModeOf_eq_some.mp mode
    holder := defaultHolder_iff.mp ⟨holderByte, holds⟩
    doorCount := by rw [doorsLength]; exact count
    length := by rw [doorsLength]; exact beq_iff_eq.mp length
    fitted := ⟨fittedA, fittedB⟩
    imageSize := Nat.mul_comm _ _
    readMap := ofNat_wordAt_eq.mp rfl
    masters := fun m => by rw [doorsLength]; exact masterOf_eq_some.mp (readMasters m)
    stations := of_decide_eq_true stations
    ranges := rangesOk_iff.mp ranges
    windows := by rw [doorsLength]; exact windows
    rules := (allSome_table (fun _ _ => ruleOf_eq_some windows.1)).mp rules
    meters := fun m => meterOf_eq_some.mp (meters m)
    slotCounts := fun g => within_eq_some.mp (slots g)
    doors := fun d st h => doorOf_eq_some.mp (readDoors d st h) }

theorem GoodImage.settingsOf {b : List Byte} {inForce : Option Nat} {img : Settings} (good : GoodImage b inForce img) :
    settingsOf b inForce = some img := by
  have timing : timingOf b = some img.timing := TimingReads.timingOf
    ⟨good.debounce, good.activeLimit, good.idleLimit, good.prewarn, good.reclose, good.retryDelay, good.tripDelay,
      good.retryLimit, good.heartbeat, good.transfer, good.flashPeriod, good.flashOn⟩
  have mode := defaultModeOf_eq_some.mpr good.mode
  obtain ⟨holderByte, holds⟩ := defaultHolder_iff.mpr good.holder
  have count : within 1 Config.maxDoors (byteAt b 18) = some img.doors.length := within_eq_some.mpr good.doorCount
  have length : b.length = Config.bodyBase + 8 * img.doors.length := good.length
  have fittedA := flagByte_eq_some.mpr good.fitted.1
  have fittedB := flagByte_eq_some.mpr good.fitted.2
  have size : (byteAt b 22 + 1) * 1024 = img.imageSize := (Nat.mul_comm _ _).trans good.imageSize.symm
  have masters := eightSome_eq_some.mpr fun m => masterOf_eq_some.mpr (good.masters m)
  have windows := (allSome_table (fun _ _ => windowOf_eq_some)).mpr good.windows
  have rules := (allSome_table (fun _ _ => ruleOf_eq_some good.windows.1)).mpr good.rules
  have meters := eightSome_eq_some.mpr fun m => meterOf_eq_some.mpr (good.meters m)
  have slots : fourSome (slotCountOf b) = some img.slotCounts :=
    fourSome_eq_some.mpr fun g => within_eq_some.mpr (good.slotCounts g)
  have doors := allSome_range.mpr ⟨rfl, fun d st h => doorOf_eq_some.mpr (good.doors d st h)⟩
  have checks := lastCheck_iff.mpr ⟨decide_eq_true good.stations, holds, rangesOk_iff.mpr good.ranges⟩
  have readMap := ofNat_wordAt_eq.mpr good.readMap
  simp only [Machine.settingsOf, timing, mode, holderByte, count, length, fittedA, fittedB, size, masters, windows,
    rules, meters, slots, doors, checks, ← readMap, checked, beq_self_eq_true, if_true, Option.bind_eq_bind,
    Option.bind_some]

/-! ## The order of the faults (R165) -/

/-- Settles O8. -/
theorem loadAttemptFaults : Obligations.LoadAttemptFaults := by
  have reads (body : List Byte) (inForce : Option Nat) (img : Settings) :
      settingsOf body inForce = some img ↔ GoodImage body inForce img :=
    ⟨goodImage_of_settingsOf, GoodImage.settingsOf⟩
  refine ⟨⟨rfl, crcOf_append⟩, fun body inForce => ⟨reads body inForce, ?_⟩, fun image inForce => ?_⟩
  · simp only [Option.eq_none_iff_forall_ne_some, ne_eq, reads]
  · intro body
    have whole : body.length = min (wordAt image 4) (image.length - 8) := by
      simp only [body, List.length_take, List.length_drop]
    refine ⟨fun few => if_pos few, fun header => ?_⟩
    have started {rest : Except LoadFault Settings} :
        (if image.length < 8 then .error .noAcknowledge else rest) = rest := if_neg (by omega)
    refine ⟨fun bad => started.trans (if_pos bad), fun tag version => ?_⟩
    have headed : ¬ (wordAt image 0 ≠ Config.formatTag ∨ wordAt image 2 ≠ 1) := by
      rw [tag, version]
      simp [Config.formatTag]
    refine ⟨fun long => ?_, fun fits missing => ?_, fun fits present => ?_⟩
    · exact started.trans ((if_neg headed).trans (if_pos long))
    · have cut : body.length < wordAt image 4 := by omega
      exact started.trans ((if_neg headed).trans ((if_neg (Nat.not_lt.mpr fits)).trans (if_pos cut)))
    · have acknowledged : ¬ body.length < wordAt image 4 := by omega
      have judged : loadAttempt image inForce = 
          if crcOf body ≠ BitVec.ofNat 16 (wordAt image 6) then .error .crcMismatch
          else match settingsOf body inForce with
            | some settings => .ok settings
            | none => .error .rangeViolation :=
        started.trans ((if_neg headed).trans ((if_neg (Nat.not_lt.mpr fits)).trans (if_neg acknowledged)))
      refine ⟨fun mismatch => judged.trans (if_pos mismatch), fun crc => ⟨fun violation => ?_, fun img read => ?_⟩⟩
      · rw [judged, if_neg (not_not.mpr crc), violation]
      · rw [judged, if_neg (not_not.mpr crc), read]

end Sys2Proof.Machine
end

section
/-! SUPPORT. The apply (R170) outside the yard: the slots discarded (R123), the masters adjusted and command settled
(R100), each as one closed form of the part that the tables have been replaced in. -/

namespace Sys2Proof.Machine

theorem Ring.pushAll_append (r : Ring) (es fs : List Entry) : r.pushAll (es ++ fs) = (r.pushAll es).pushAll fs :=
  List.foldl_append

theorem Ring.pushAll_snoc (r : Ring) (es : List Entry) (e : Entry) : r.pushAll (es ++ [e]) = (r.pushAll es).push e :=
  r.pushAll_append es [e]

theorem nodup_masterNumbers : masterNumbers.Nodup := by decide

/-! ## Step 2: slots discarded (R123) -/

section

variable {s : State} {l : List Master} {m : Master}

/-- R123: the entry of one master's discarded slot. -/
def State.splitEntry (s : State) (m : Master) : Option Entry :=
  (s.path.slots.get m).map fun sl =>
    { kind := 8, master := 15, addr := sl.addr, detail := 2
      data := match sl.lane with | .low => sl.byte.setWidth 16 | .high => sl.byte.setWidth 16 <<< 8
      time := s.timeStamp }

/-- R123: the part after the slots of these masters have been discarded. -/
def State.discarded (s : State) (l : List Master) : State :=
  { s with
    path := { s.path with slots := eight fun k => if k ∈ l then none else s.path.slots.get k }
    ring := s.ring.pushAll (l.filterMap s.splitEntry) }

theorem State.discarded_slot (k : Master) :
    (s.discarded l).path.slots.get k = if k ∈ l then none else s.path.slots.get k := get_eight _ k

theorem State.discarded_snoc_slots (m : Master) : (s.discarded (l ++ [m])).path.slots =
    setAt (s.discarded l).path.slots m none := vector_ext_get fun k => by
  rw [State.discarded_slot, get_setAt, State.discarded_slot]
  by_cases hk : k = m <;> simp [hk]

theorem State.discardSlot_discarded (once : m ∉ l) : (s.discarded l).discardSlot m = s.discarded (l ++ [m]) := by
  have slots := s.discarded_snoc_slots (l := l) m
  have mine : (s.discarded l).path.slots.get m = s.path.slots.get m := by rw [State.discarded_slot, if_neg once]
  have ring : (s.discarded (l ++ [m])).ring = s.ring.pushAll (l.filterMap s.splitEntry ++ [m].filterMap s.splitEntry) :=
    congrArg s.ring.pushAll List.filterMap_append
  have whole : s.discarded (l ++ [m]) = { s with
      path := { s.path with slots := (s.discarded (l ++ [m])).path.slots }
      ring := (s.discarded (l ++ [m])).ring } := rfl
  rw [whole, slots, ring]
  unfold State.discardSlot
  cases hm : s.path.slots.get m with
  | none =>
    have stands : setAt (s.discarded l).path.slots m none = (s.discarded l).path.slots := vector_ext_get fun k => by
      rw [get_setAt]
      split
      · next hk => rw [hk, mine, hm]
      · rfl
    have passed : s.splitEntry m = none := by rw [State.splitEntry, hm]; rfl
    rw [mine, hm, stands, List.filterMap_cons_none passed, List.filterMap_nil, List.append_nil]
    rfl
  | some sl =>
    have made : s.splitEntry m = some (s.entryOf (abandonCapture Config.partMaster 2 sl)) := by
      rw [State.splitEntry, hm, Option.map_some]
      cases h : sl.lane <;> simp [State.entryOf, abandonCapture, inLane, h, Config.partMaster]
    rw [mine, hm, List.filterMap_cons_some made, List.filterMap_nil, Ring.pushAll_snoc]
    rfl

theorem State.discardSlots_eq : s.discardSlots = { s with
    path := { s.path with slots := Vector.replicate 8 none }
    ring := s.ring.pushAll s.splitEntries } := by
  have steps (l : List Master) (hl : l.Nodup) : l.foldl State.discardSlot s = s.discarded l := by
    induction l using List.reverseRecOn with
    | nil =>
      have same : (eight fun k => s.path.slots.get k) = s.path.slots := vector_ext_get fun k => get_eight _ k
      simp [State.discarded, Ring.pushAll, same]
    | append_singleton l m ih =>
      obtain ⟨before, -, apart⟩ := List.nodup_append.mp hl
      rw [List.foldl_append, List.foldl_cons, List.foldl_nil, ih before]
      exact State.discardSlot_discarded fun hm => apart m hm m (List.mem_singleton.mpr rfl) rfl
  have none : (eight fun k => if k ∈ masterNumbers then none else s.path.slots.get k) = Vector.replicate 8 none :=
    vector_ext_get fun k => by simp [mem_masterNumbers]
  refine (steps masterNumbers nodup_masterNumbers).trans ?_
  unfold State.discarded
  rw [none]
  rfl

end

/-! ## Step 3: command settled (R100) -/

theorem State.entryNow_congr {s u : State} (hc : u.clock = s.clock) : u.entryNow = s.entryNow := by
  funext kind master addr detail data
  rw [State.entryNow, State.entryNow, State.timeStamp, State.timeStamp, hc]

/-- A part with this command, and these entries made on the way to it. -/
def State.withHand (u : State) (h : Hand) : State :=
  { u with
    command := { u.command with holder := h.holder, transfer := h.transfer }
    ring := u.ring.pushAll h.made }

section

variable {s u : State} {img : Settings} {m : Master}

theorem State.withHand_changeHolder (hc : u.clock = s.clock) (h : Hand) (new : Option Master) (detail : Nat) :
    (u.withHand h).changeHolder .part new detail = u.withHand (h.pass s new detail) := by
  rw [State.changeHolder_part, State.entryNow_congr (show (u.withHand h).clock = s.clock from hc)]
  simp only [State.withHand, Hand.pass, Ring.pushAll_snoc]
  rfl

theorem State.withHand_endTransfer (hc : u.clock = s.clock) (h : Hand) (requester : Master) (detail : Nat) :
    (u.withHand h).endTransfer .part requester detail = u.withHand (h.drop s requester detail) := by
  rw [State.endTransfer_part, State.entryNow_congr (show (u.withHand h).clock = s.clock from hc)]
  simp only [State.withHand, Hand.drop, Ring.pushAll_snoc]

/-- R90: a lapse of a station, in the words of the statement. -/
theorem State.withHand_lapse (hc : u.clock = s.clock) (h : Hand) (m : Master) :
    (u.withHand h).lapse m = (u.setRole m (.station none)).withHand (h.lapse s m) := by
  let told : Hand := { h with made := h.made ++ [s.entryNow 16 15 0 ((u.withHand h).lapseDetail m) m.val] }
  have first : (u.withHand h).lapseFirst m = (u.setRole m (.station none)).withHand told := by
    rw [State.lapseFirst_eq, State.entryNow_congr (show (u.withHand h).clock = s.clock from hc)]
    simp only [told, State.withHand, Ring.pushAll_snoc]
    rfl
  have clock : (u.setRole m (.station none)).clock = s.clock := hc
  have held : (u.withHand h).command.holder = h.holder := rfl
  have asked : (u.withHand h).command.transfer = h.transfer := rfl
  have lapse : h.lapse s m = if h.transfer.map (·.requester) = some m then told.drop s m 4
      else if h.holder = some m then
        match h.transfer with
        | some p => told.pass s (some p.requester) 6
        | none => told.pass s none 5
      else told := rfl
  rw [lapse, State.lapse_eq, first, held, asked]
  cases ht : h.transfer with
  | none =>
    simp only [Option.map_none, reduceCtorEq, if_false]
    split
    · exact State.withHand_changeHolder clock told none 5
    · rfl
  | some p =>
    simp only [Option.map_some, Option.some.injEq]
    split
    · exact State.withHand_endTransfer clock told m 4
    · split
      · exact State.withHand_changeHolder clock told (some p.requester) 6
      · rfl

/-! ## The heartbeats judged (R89, R100 step 1) -/

/-- R100 step 1: a station that stays STATION, and whose timer meets the new limit. -/
def State.lapses (s : State) (img : Settings) (m : Master) : Bool :=
  match s.role m with
  | .station (some start) =>
    decide ((img.masters.get m).role = .station ∧ start + img.timing.heartbeat ≤ s.clock)
  | _ => false

theorem State.lapses_iff : s.lapses img m = true ↔ ∃ start, s.role m = .station (some start) ∧
    (img.masters.get m).role = .station ∧ start + img.timing.heartbeat ≤ s.clock := by
  unfold State.lapses
  split
  · next start role => simp [role]
  · next other => simpa using fun start role => absurd role (other start)

/-- R97, R100: a master's role under the new settings, before the heartbeats are judged. -/
def State.adjusted (s : State) (img : Settings) (m : Master) : Role :=
  (s.role m).adjust (img.masters.get m).role s.clock

/-- R100 step 1: what one judged heartbeat makes of command. -/
def Hand.judge (s : State) (img : Settings) (h : Hand) (m : Master) : Hand :=
  match s.role m with
  | .station (some start) =>
    if (img.masters.get m).role = RoleSetting.station ∧ start + img.timing.heartbeat ≤ s.clock then h.lapse s m
    else h
  | _ => h

theorem Hand.lapses_eq (h : Hand) : h.lapses s img = masterNumbers.foldl (Hand.judge s img) h := rfl

theorem Hand.judge_eq (h : Hand) : h.judge s img m = if s.lapses img m then h.lapse s m else h := by
  unfold Hand.judge State.lapses
  split
  · simp only [decide_eq_true_eq]
  · rfl

/-- R97: a station that is LIVE under the new settings was so before, or is added now. -/
theorem State.adjusted_live {start : Nat} (h : s.adjusted img m = .station (some start)) :
    (img.masters.get m).role = .station ∧ (s.role m = .station (some start) ∨ start = s.clock) := by
  unfold State.adjusted Role.adjust at h
  split at h
  · next new old => exact ⟨new, .inl (old.trans h)⟩
  · cases h
  · unfold RoleSetting.enter at h
    split at h
    all_goals simp_all

theorem State.judgeHeartbeat_eq (hb : 0 < img.timing.heartbeat) (hu : u.role m = s.adjusted img m)
    (ht : u.times = img.timing) (hc : u.clock = s.clock) :
    u.judgeHeartbeat m = if s.lapses img m then u.lapse m else u := by
  cases hl : s.lapses img m with
  | true =>
    obtain ⟨start, role, stays, due⟩ := State.lapses_iff.mp hl
    have live : u.role m = .station (some start) := by rw [hu, State.adjusted, role, stays]; rfl
    unfold State.judgeHeartbeat
    rw [live]
    exact if_pos (by rwa [ht, hc])
  | false =>
    unfold State.judgeHeartbeat
    split
    · next start live =>
      refine if_neg fun due => ?_
      rw [ht, hc] at due
      obtain ⟨stays, old | rfl⟩ := State.adjusted_live (hu.symm.trans live)
      · exact absurd (hl.symm.trans (State.lapses_iff.mpr ⟨start, old, stays, due⟩)) nofun
      · omega
    · rfl

/-- R100 step 1: a part after the heartbeats of these masters have been judged. -/
def State.lapsed (u s : State) (img : Settings) (l : List Master) : State :=
  { u with masters := eight fun k =>
      if k ∈ l ∧ s.lapses img k then { u.masters.get k with role := .station none } else u.masters.get k }

theorem State.lapsed_role (l : List Master) (k : Master) : (u.lapsed s img l).role k =
    if k ∈ l ∧ s.lapses img k then .station none else u.role k := by
  simp only [State.role, State.lapsed, get_eight]
  split <;> rfl

theorem State.lapsed_snoc (l : List Master) (m : Master) : u.lapsed s img (l ++ [m]) =
    if s.lapses img m then (u.lapsed s img l).setRole m (.station none) else u.lapsed s img l := by
  have masters (v : Vector MasterRec 8) (hv : ∀ k, v.get k = (u.lapsed s img (l ++ [m])).masters.get k) :
      u.lapsed s img (l ++ [m]) = { u with masters := v } := by
    rw [vector_ext_get hv]
    rfl
  split
  · next hl =>
    refine masters _ fun k => ?_
    rw [get_setAt]
    simp only [State.lapsed, get_eight, List.mem_append, List.mem_singleton]
    by_cases hk : k = m
    · subst hk
      simp [hl]
      split <;> rfl
    · simp [hk]
  · next hl =>
    refine masters _ fun k => ?_
    simp only [State.lapsed, get_eight, List.mem_append, List.mem_singleton]
    by_cases hk : k = m
    · subst hk
      simp [hl]
    · simp [hk]

theorem State.judgeHeartbeats_eq (hb : 0 < img.timing.heartbeat) (hu : ∀ k, u.role k = s.adjusted img k)
    (ht : u.times = img.timing) (hc : u.clock = s.clock) (h : Hand) {l : List Master} (hl : l.Nodup) :
    l.foldl State.judgeHeartbeat (u.withHand h) = (u.lapsed s img l).withHand (l.foldl (Hand.judge s img) h) := by
  induction l using List.reverseRecOn with
  | nil =>
    have same : (eight fun k => u.masters.get k) = u.masters := vector_ext_get fun k => get_eight _ k
    simp [State.lapsed, same]
  | append_singleton l m ih =>
    obtain ⟨before, -, apart⟩ := List.nodup_append.mp hl
    have once : m ∉ l := fun hm => apart m hm m (List.mem_singleton.mpr rfl) rfl
    have role : (u.lapsed s img l).role m = s.adjusted img m := by rw [State.lapsed_role, if_neg (once ·.1), hu]
    rw [List.foldl_append, List.foldl_append, List.foldl_cons, List.foldl_cons, List.foldl_nil, List.foldl_nil,
      ih before, Hand.judge_eq, State.lapsed_snoc]
    refine (State.judgeHeartbeat_eq (u := (u.lapsed s img l).withHand _) hb role ht hc).trans ?_
    split
    · exact State.withHand_lapse (u := u.lapsed s img l) hc _ m
    · rfl

/-! ## The requester and the holder released, the transfer judged (R100 steps 3 to 5) -/

/-- R100 step 3. -/
def Hand.releaseRequester (s : State) (img : Settings) (h : Hand) : Hand :=
  match h.transfer with
  | some p => if (img.masters.get p.requester).role = RoleSetting.station then h else h.drop s p.requester 5
  | none => h

/-- R100 step 4. -/
def Hand.releaseHolder (s : State) (img : Settings) (h : Hand) : Hand :=
  match h.holder, h.transfer with
  | some m, some p =>
    if (img.masters.get m).role = RoleSetting.station then h else h.pass s (some p.requester) 8
  | some m, none => if (img.masters.get m).role = RoleSetting.station then h else h.pass s none 7
  | none, _ => h

theorem Hand.release_eq (h : Hand) : h.release s img = (h.releaseRequester s img).releaseHolder s img := rfl

theorem State.withHand_dropRequester (hc : u.clock = s.clock)
    (hu : ∀ k, (u.role k).isStation = true ↔ (img.masters.get k).role = .station) (h : Hand) :
    (u.withHand h).dropRequester = u.withHand (h.releaseRequester s img) := by
  have asked : (u.withHand h).command.transfer = h.transfer := rfl
  unfold State.dropRequester Hand.releaseRequester
  rw [asked]
  cases h.transfer with
  | none => rfl
  | some p =>
    exact (if_congr (hu p.requester) rfl (State.withHand_endTransfer hc h _ 5)).trans (apply_ite u.withHand _ _ _).symm

theorem State.withHand_dropHolder (hc : u.clock = s.clock)
    (hu : ∀ k, (u.role k).isStation = true ↔ (img.masters.get k).role = .station) (h : Hand) :
    (u.withHand h).dropHolder = u.withHand (h.releaseHolder s img) := by
  have held : (u.withHand h).command.holder = h.holder := rfl
  have asked : (u.withHand h).command.transfer = h.transfer := rfl
  unfold State.dropHolder Hand.releaseHolder
  rw [held, asked]
  cases h.holder with
  | none => rfl
  | some m =>
    cases h.transfer with
    | none =>
      exact (if_congr (hu m) rfl (State.withHand_changeHolder hc h none 7)).trans (apply_ite u.withHand _ _ _).symm
    | some p =>
      exact (if_congr (hu m) rfl (State.withHand_changeHolder hc h (some p.requester) 8)).trans
        (apply_ite u.withHand _ _ _).symm

theorem State.withHand_expire (hc : u.clock = s.clock) (ht : u.times = img.timing) (h : Hand) :
    (u.withHand h).judgeTransfer = u.withHand (h.expire s img) := by
  have asked : (u.withHand h).command.transfer = h.transfer := rfl
  have times : (u.withHand h).times = img.timing := ht
  have clock : (u.withHand h).clock = s.clock := hc
  unfold State.judgeTransfer Hand.expire
  rw [asked, times, clock]
  split
  · split
    · exact State.withHand_endTransfer hc h _ 3
    · rfl
  · rfl

/-! ## Steps 1 to 3 together -/

/-- R100: a role that stays STATION is one under the new settings, and no other is. -/
theorem State.adjusted_isStation (k : Master) :
    (s.adjusted img k).isStation = true ↔ (img.masters.get k).role = .station := by
  unfold State.adjusted Role.adjust
  split
  · next new _ => simp [new, Role.isStation]
  · next new _ => simp [new, Role.isStation]
  · cases (img.masters.get k).role <;> simp [RoleSetting.enter, Role.isStation]

/-- R123, R170 steps 1 and 2: the part with the new tables in force and no slots. -/
def State.retabled (s : State) (img : Settings) : State :=
  { s.replaceTables img with
    path := { s.path with windows := img.windows, slots := Vector.replicate 8 none }
    ring := s.ring.pushAll s.splitEntries }

theorem State.retabled_eq (s : State) (img : Settings) : (s.replaceTables img).discardSlots = s.retabled img :=
  State.discardSlots_eq

theorem State.retabled_role (k : Master) : (s.retabled img).role k = s.adjusted img k :=
  congrArg MasterRec.role (get_eight _ k)

/-- R100, R170 steps 1 to 3: the masters adjusted and command settled. -/
def State.settled (s : State) (img : Settings) : State :=
  ((s.retabled img).lapsed s img masterNumbers).withHand (s.handAfter img)

theorem State.settled_role (k : Master) :
    (s.settled img).role k = if s.lapses img k then .station none else s.adjusted img k := by
  refine (State.lapsed_role masterNumbers k).trans ?_
  simp only [mem_masterNumbers, true_and, State.retabled_role]

theorem State.settled_isStation (k : Master) :
    ((s.settled img).role k).isStation = true ↔ (img.masters.get k).role = .station := by
  rw [State.settled_role]
  split
  · next due =>
    obtain ⟨_, -, stays, -⟩ := State.lapses_iff.mp due
    exact ⟨fun _ => stays, fun _ => rfl⟩
  · exact State.adjusted_isStation k

theorem State.adjustMasters_eq (hb : 0 < img.timing.heartbeat) :
    ((s.replaceTables img).discardSlots).adjustMasters s img = (s.settled img).setYard
      ((s.yard.replaced s.clock img).staleDoors (s.settled img).env (lostDoors s.yard.doors s.masters img)) := by
  let h : Hand := { holder := s.command.holder, transfer := s.command.transfer, made := [] }
  let u := (s.retabled img).lapsed s img masterNumbers
  have clock : u.clock = s.clock := rfl
  have heartbeats : masterNumbers.foldl State.judgeHeartbeat ((s.retabled img).withHand h) =
      u.withHand (h.lapses s img) := by
    rw [Hand.lapses_eq]
    exact State.judgeHeartbeats_eq hb State.retabled_role rfl rfl h nodup_masterNumbers
  have command : ((masterNumbers.foldl State.judgeHeartbeat (s.retabled img)).dropRequester).dropHolder.judgeTransfer =
      s.settled img := by
    rw [show s.retabled img = (s.retabled img).withHand h from rfl, heartbeats,
      State.withHand_dropRequester clock State.settled_isStation,
      State.withHand_dropHolder clock State.settled_isStation, ← Hand.release_eq, State.withHand_expire clock rfl]
    rfl
  rw [State.retabled_eq]
  unfold State.adjustMasters
  rw [command]
  rfl

end

end Sys2Proof.Machine
end

section
/-! SUPPORT. The apply's yard (R170 steps 3 to 8), operation by operation: the slot counts that every one keeps, the
record of a door that goes stale or whose timer is judged, and of one whose position is derived. -/

namespace Sys2Proof.Machine

/-! ## Slot counts (R66, R77) -/

/-- R66: every group keeps its slot count. -/
def Yard.CountsKept (y y' : Yard) : Prop := ∀ g, (y'.groups.get g).slotCount = (y.groups.get g).slotCount

section

variable {y y' y'' : Yard}

theorem Yard.CountsKept.refl (y : Yard) : Yard.CountsKept y y := fun _ => rfl

theorem Yard.CountsKept.trans (h : Yard.CountsKept y y') (k : Yard.CountsKept y' y'') : Yard.CountsKept y y'' :=
  fun g => (k g).trans (h g)

theorem Yard.CountsKept.foldl {f : Yard → Nat → Yard} (h : ∀ z d, Yard.CountsKept z (f z d)) (l : List Nat) (y : Yard) :
    Yard.CountsKept y (l.foldl f y) :=
  List.foldlRecOn (motive := Yard.CountsKept y) _ _ (Yard.CountsKept.refl y) fun z hz d _ => hz.trans (h z d)

theorem Yard.countsKept_arbiterTake (y : Yard) (d : Nat) (x : Door) (old new : Drive) :
    Yard.CountsKept y (y.arbiterTake d x old new) := fun g => by
  unfold Yard.arbiterTake
  split
  · rfl
  · rw [Yard.modifyGroup_get]
    split
    · next hg => rw [hg]
    · rfl

theorem Yard.countsKept_changeStopped (y : Yard) (e : Env) (d : Nat) (new : Drive) :
    Yard.CountsKept y (y.changeStopped e d new) := by
  unfold Yard.changeStopped
  split
  · exact Yard.CountsKept.refl y
  · next x _ =>
    rw [Yard.runTake_eq]
    exact Yard.countsKept_arbiterTake (y.modify d fun z => { z with drive := new }) d x x.drive new

theorem Yard.countsKept_goStale (y : Yard) (e : Env) (d : Nat) : Yard.CountsKept y (y.goStale e d) := by
  unfold Yard.goStale
  split
  · exact Yard.CountsKept.refl y
  · split
    · exact Yard.CountsKept.refl y
    · simp only
      split
      · split
        · exact Yard.countsKept_changeStopped ((y.modify d _).modify d _) e d _
        · exact fun _ => rfl
      · exact fun _ => rfl

theorem Yard.countsKept_judgeFreshness (y : Yard) (e : Env) (d : Nat) : Yard.CountsKept y (y.judgeFreshness e d) := by
  unfold Yard.judgeFreshness
  split
  · exact Yard.CountsKept.refl y
  · split
    · exact Yard.CountsKept.refl y
    · split
      · exact Yard.countsKept_goStale y e d
      · exact Yard.CountsKept.refl y

theorem Yard.countsKept_changeDrive (y : Yard) (e : Env) (d : Nat) (new : Drive) (completed : Bool) :
    Yard.CountsKept y (y.changeDrive e d new completed) := by
  unfold Yard.changeDrive
  split
  · exact Yard.CountsKept.refl y
  · next x _ =>
    simp only
    rw [Yard.runTake_eq]
    have taken := Yard.countsKept_arbiterTake (y.modify d fun z => { z with drive := new }) d x x.drive new
    split
    · exact taken
    · exact taken.trans (Yard.countsKept_judgeFreshness _ e d)

theorem Yard.countsKept_enforce (y : Yard) (e : Env) (d : Nat) : Yard.CountsKept y (y.enforce e d) := by
  unfold Yard.enforce
  split
  · exact Yard.CountsKept.refl y
  · split
    · exact Yard.countsKept_changeDrive y e d _ false
    · exact Yard.CountsKept.refl y

theorem Yard.countsKept_positionChange (y : Yard) (e : Env) (d : Nat) (old new : Position) :
    Yard.CountsKept y (y.positionChange e d old new) := by
  unfold Yard.positionChange
  split
  · exact Yard.CountsKept.refl y
  · next x _ =>
    have arrived : Yard.CountsKept y (if x.drive.reached new then y.changeDrive e d .resting true else y) := by
      split
      · exact Yard.countsKept_changeDrive y e d .resting true
      · exact Yard.CountsKept.refl y
    have checked := arrived.trans (Yard.countsKept_enforce _ e d)
    simp only
    split
    · exact checked
    · exact checked

theorem Yard.countsKept_rederive (y : Yard) (e : Env) (d : Nat) : Yard.CountsKept y (y.rederive e d) := by
  unfold Yard.rederive
  split
  · exact Yard.CountsKept.refl y
  · simp only
    split
    · exact Yard.CountsKept.refl y
    · exact Yard.countsKept_positionChange (y.modify d _) e d _ _

/-- R77: every group has the slot count that the image gives. -/
theorem Yard.applied_slotCount (y : Yard) (clock : Nat) (img : Settings) (lost : List Nat) (e1 e2 e3 : Env)
    (g : GroupNum) :
    ((y.applied clock img lost e1 e2 e3).groups.get g).slotCount = some (img.slotCounts.get g) := by
  have staled := Yard.CountsKept.foldl (fun z d => z.countsKept_goStale e1 d) lost (y.replaced clock img)
  have judged := Yard.CountsKept.foldl (fun z d => z.countsKept_judgeFreshness e2 d)
  have derived := Yard.CountsKept.foldl (fun z d => z.countsKept_rederive e2 d)
  have checked := Yard.CountsKept.foldl (fun z d => z.countsKept_enforce e3 d)
  refine (checked _ _ g).trans ((derived _ _ g).trans ((judged _ _ g).trans ((staled g).trans ?_)))
  exact congrArg Group.slotCount (get_four _ g)

end

/-! ## Doors that go stale (R14), and the freshness timer judged (R13) -/

section

variable {y : Yard} {t : State} {d : Nat} {x : Door}

/-- R14: the record of a door after it has been made stale; one already stale stands. -/
def Door.staled (t : State) (x : Door) : Door :=
  if x.inp.stale then x else { x.gonestale with drive := x.staleDrive t }

theorem Yard.goStale_door (hx : y.doors[d]? = some x) : (y.goStale t.env d).doors[d]? = some (x.staled t) := by
  unfold Door.staled
  split
  · next hs =>
    unfold Yard.goStale
    simp only [hx, hs, if_true]
  · next hs => exact (Yard.goStale_result (s := t.setYard y) hx (by simpa using hs)).1

/-- R13: the record of a door after its freshness timer has been judged. -/
def Door.judged (t : State) (x : Door) : Door :=
  match x.inp.freshness with
  | some start => if start + t.env.freshnessLimit x.drive ≤ t.clock then x.staled t else x
  | none => x

theorem Yard.judgeFreshness_door (hx : y.doors[d]? = some x) :
    (y.judgeFreshness t.env d).doors[d]? = some (x.judged t) := by
  unfold Yard.judgeFreshness Door.judged
  simp only [hx]
  cases x.inp.freshness with
  | none => exact hx
  | some start =>
    refine (apply_ite (fun z : Yard => z.doors[d]?) _ _ _).trans ?_
    refine (if_congr Iff.rfl (Yard.goStale_door hx) hx).trans ?_
    exact (apply_ite some _ _ _).symm

/-! ## A position derived, of a door bound nowhere (R4, R5) -/

/-- R4, R5, R41: the record of a door bound nowhere, after its position has been derived. -/
def Door.derived (t : State) (x : Door) : Door :=
  let p := t.env.positionOf x
  if p = x.position then x
  else
    { x with
      position := p
      drive := ({ x with position := p } : Door).checkedDrive t
      prot := if x.position = .closed then x.prot.cancelSettle else x.prot }

/-- No freshness timer stands in the way of the check of a door with the position that R4 gives it (log 13). -/
def Door.Checkable (t : State) (x : Door) : Prop :=
  x.drive.bound = false ∧ (InTouch t x ∨ ¬ Enforced t { x with position := t.env.positionOf x } x.hold)

theorem Yard.calm_rederive (y : Yard) (e : Env) (d : Nat) : Yard.Calm d y (y.rederive e d) :=
  have keeps := Yard.atDoor_rederive y e d
  ⟨keeps.others, keeps.length, fun x hx =>
    let ⟨w, hw, static, _, _, alarms⟩ := keeps.door x hx
    ⟨w, hw, static, alarms⟩, keeps.groups⟩

theorem Yard.rederive_closes (hx : y.doors[d]? = some x) (hc : x.Checkable t) :
    Yard.Closes d x (x.derived t) y (y.rederive t.env d) := by
  obtain ⟨idle, touch⟩ := hc
  have calm := y.calm_rederive t.env d
  suffices taken : Yard.Takes d x (x.derived t) y (y.rederive t.env d) ∧ ((x.derived t).drive.isQueued = true →
      (x.derived t).drive = x.drive ∨ (x.derived t).drive.waitsToClose = true) from ⟨taken.1, calm, taken.2⟩
  unfold Yard.rederive Door.derived
  simp only [hx]
  generalize t.env.positionOf x = p at touch ⊢
  by_cases same : p = x.position
  · rw [if_pos same, if_pos same]
    exact ⟨Yard.takes_refl hx, fun _ => .inl rfl⟩
  · rw [if_neg same, if_neg same]
    have moved : (y.modify d fun z => { z with position := p }).doors[d]? = some { x with position := p } := by
      rw [Yard.modify_get_same, hx]
      rfl
    have unreached : x.drive.reached p = false := by
      cases hd : x.drive <;> simp_all [Drive.bound, Drive.reached, Drive.direction]
    obtain ⟨z, closes, checked⟩ := Yard.enforce_closes (t := t) moved
    obtain rfl := checked.record touch
    have taken := closes.takes.after_modify hx rfl rfl rfl
    unfold Yard.positionChange
    simp only [moved, unreached, Bool.false_eq_true, if_false]
    refine ⟨?_, closes.closes⟩
    split
    · exact taken.trans (Yard.takes_modify taken.door rfl rfl rfl) (Drive.between_last _ _)
    · exact taken

/-- R170 step 6: every position derived. -/
def Yard.rederived (y : Yard) (t : State) : Yard :=
  (List.range y.doors.length).foldl (fun z d => z.rederive t.env d) y

theorem Yard.rederived_door (hx : y.doors[d]? = some x) (hc : x.Checkable t) :
    (y.rederived t).doors[d]? = some (x.derived t) := by
  have one (z : Yard) (d : Nat) (x : Door) (hx : z.doors[d]? = some x) :
      ∃ w, (z.rederive t.env d).doors[d]? = some w ∧ (x.Checkable t → w = x.derived t) := by
    obtain ⟨w, hw, -⟩ := (z.calm_rederive t.env d).door x hx
    exact ⟨w, hw, fun hc => Option.some.inj (hw.symm.trans (Yard.rederive_closes hx hc).takes.door)⟩
  obtain ⟨inside, -⟩ := List.getElem?_eq_some_iff.mp hx
  obtain ⟨z, hz, derived⟩ := (Yard.foldl_range_get (fun z d => z.calm_rederive t.env d) one y _).2 d x inside hx
  exact hz.trans (congrArg some (derived hc))

/-! ## One door from the new tables to the enforcement check (R170 steps 3 to 8) -/

/-- R100 step 6, R170 steps 3 to 5: a record of the new tables, made stale where its scanner is lost, adjusted from the
record it replaces, and its timer judged. -/
def Door.reapplied (t : State) (old : Option Door) (lost : Bool) (x : Door) : Door :=
  ((if lost then x.staled t else x).adjust t.times.retryLimit old).judged t

/-- R170 steps 6 and 8: its position derived, and checked. -/
def Door.checked (t : State) (x : Door) : Door := { x.derived t with drive := (x.derived t).checkedDrive t }

theorem Door.derived_inp (t : State) (x : Door) : (x.derived t).inp = x.inp := by
  unfold Door.derived
  simp only
  split <;> rfl

/-- R41: the check asks the same of a door before and after its position is written. -/
theorem Door.derived_enforced (t : State) (x : Door) :
    Enforced t (x.derived t) (x.derived t).hold ↔ Enforced t { x with position := t.env.positionOf x } x.hold := by
  unfold Door.derived
  simp only
  split
  · next same => rw [same]
  · rfl

theorem Yard.calm_judgeFreshness (y : Yard) (e : Env) (d : Nat) : Yard.Calm d y (y.judgeFreshness e d) :=
  (Yard.steady_judgeFreshness (Yard.fresh_true e d y)).calm

/-- R170 steps 3 to 5: the doors of lost scanners made stale, the doors adjusted, their timers judged. -/
def Yard.rejudged (y : Yard) (t : State) (lost : List Nat) (before : List Door) : Yard :=
  let z := y.staleDoors t.env lost
  (List.range z.doors.length).foldl (fun w d => w.judgeFreshness t.env d)
    { z with doors := adjustDoors t.times.retryLimit before z.doors }

theorem Yard.rejudged_length (y : Yard) (t : State) (lost : List Nat) (before : List Door) :
    (y.rejudged t lost before).doors.length = (y.staleDoors t.env lost).doors.length :=
  (Yard.foldl_length (fun z d => z.calm_judgeFreshness t.env d) _ _).trans (adjustDoors_length _ _ _)

theorem Yard.applied_eq (y : Yard) (t : State) (clock : Nat) (img : Settings) (lost : List Nat) :
    y.applied clock img lost t.env t.env t.env =
      (((y.replaced clock img).rejudged t lost y.doors).rederived t).enforceAll t.env := by
  unfold Yard.rederived
  rw [Yard.rejudged_length]
  rfl

theorem Yard.rejudged_door {lost : List Nat} (once : lost.Nodup) {before : List Door} (hx : y.doors[d]? = some x) :
    (y.rejudged t lost before).doors[d]? = some (x.reapplied t before[d]? (decide (d ∈ lost))) := by
  have staled : (y.staleDoors t.env lost).doors[d]? = some (if d ∈ lost then x.staled t else x) := by
    obtain ⟨outside, inside⟩ := Yard.foldl_get (R := fun x w => w = x.staled t) (fun z d => z.calm_goStale t.env d)
      (fun _ _ _ hx => ⟨_, Yard.goStale_door hx, rfl⟩) once y
    split
    · next hd =>
      obtain ⟨w, hw, rfl⟩ := inside d x hd hx
      exact hw
    · next hd => exact (outside d hd).trans hx
  have adjusted : (adjustDoors t.times.retryLimit before (y.staleDoors t.env lost).doors)[d]? =
      some ((if d ∈ lost then x.staled t else x).adjust t.times.retryLimit before[d]?) := by
    rw [adjustDoors_get, staled]
    rfl
  obtain ⟨w, hw, rfl⟩ := (Yard.foldl_range_get (R := fun x w => w = x.judged t)
    (fun z d => z.calm_judgeFreshness t.env d) (fun _ _ _ hx => ⟨_, Yard.judgeFreshness_door hx, rfl⟩)
    { y.staleDoors t.env lost with doors := adjustDoors t.times.retryLimit before (y.staleDoors t.env lost).doors }
    (y.staleDoors t.env lost).doors.length).2 d _ (List.getElem?_eq_some_iff.mp staled).1 adjusted
  refine hw.trans ?_
  simp only [Door.reapplied, decide_eq_true_eq]

/-- R170 steps 6 and 8 of one door. -/
theorem Yard.checked_door (hx : y.doors[d]? = some x) (hc : x.Checkable t) :
    ((y.rederived t).enforceAll t.env).doors[d]? = some (x.checked t) := by
  obtain ⟨z, hz, checked⟩ := (y.rederived t).enforceAll_each t d _ (Yard.rederived_door hx hc)
  rw [hz, checked.record]
  · rfl
  · refine hc.2.imp (fun touch => ?_) (mt (Door.derived_enforced t x).mp)
    unfold InTouch
    rw [Door.derived_inp]
    exact touch

end

end Sys2Proof.Machine
end

section
/-! SUPPORT. One door of the apply (R170), from its record before to its record after: what going stale, the adjustment,
the judged timer, the derived position and the check make of it together. -/

namespace Sys2Proof.Machine

section

variable {t : State} {x z : Door} {old : Option Door} {limit : Nat}

/-! ## Going stale and the adjustment commute (R14, R170 step 4) -/

theorem Door.staled_clampTrips (limit : Nat) (x : Door) :
    (x.clampTrips limit).staled t = (x.staled t).clampTrips limit := by
  unfold Door.staled
  split
  · next hs => rw [if_pos (show x.inp.stale = true from hs)]
  · next hs =>
    rw [if_neg (show ¬ x.inp.stale = true from hs)]
    by_cases hp : x.position = .closed
    · simp only [Door.clampTrips, Door.gonestale, Door.positionLost, hp, if_true]
      rfl
    · simp only [Door.clampTrips, Door.gonestale, Door.positionLost, hp, if_false]
      rfl

/-- R39: no LO fall takes an INDICATED door anywhere. -/
theorem Door.staled_becomeIndicated (hp : x.powered = false) :
    x.becomeIndicated.staled t = (x.staled t).becomeIndicated := by
  have same (v : Door) (hv : v.powered = false) : v.staleDrive t = v.drive := by
    unfold Door.staleDrive
    rw [sightlessFalls_indicated hv, ite_self]
  unfold Door.staled
  split
  · next hs => rw [if_pos (show x.inp.stale = true from hs)]
  · next hs =>
    rw [if_neg (show ¬ x.inp.stale = true from hs), same x hp, same x.becomeIndicated hp]
    rfl

theorem Door.staled_static (t : State) (x : Door) : (x.staled t).static = x.static := by
  unfold Door.staled
  split <;> rfl

theorem Door.staled_adjust : (x.adjust limit old).staled t = (x.staled t).adjust limit old := by
  have powered : (x.staled t).powered = x.powered := Door.powered_congr (x.staled_static t)
  unfold Door.adjust
  rw [Door.staled_clampTrips, powered]
  split
  · next becomes =>
    obtain ⟨-, hp⟩ := Bool.and_eq_true _ _ |>.mp becomes
    rw [Door.staled_becomeIndicated (by simpa using hp)]
  · rfl

/-- R14: a stale door is not made stale again. -/
theorem Door.staled_stale (hs : x.inp.stale = true) : x.staled t = x := if_pos hs

theorem Door.staled_inp (hs : x.inp.stale = false) : (x.staled t).inp = x.inp.goneStale := by
  unfold Door.staled
  rw [if_neg (by rw [hs]; nofun)]
  rfl

theorem Door.adjust_inp (limit : Nat) (old : Option Door) (x : Door) : (x.adjust limit old).inp = x.inp := by
  unfold Door.adjust
  split <;> rfl

/-! ## Doors bound nowhere stay so -/

/-- R39: where a door bound nowhere goes as it becomes stale. -/
theorem Door.staleDrive_unbound (hb : x.drive.bound = false) : x.staleDrive t =
    if x.inp.debounced.lo = true ∧ x.powered = true ∧ x.drive = .resting ∧
        t.command.mode = some .doorsClosed ∧ x.hold = true
    then .recloseWait (t.clock + t.times.reclose) else x.drive := by
  unfold Door.staleDrive
  cases hp : x.powered with
  | false => simp [sightlessFalls_indicated hp]
  | true =>
    cases hlo : x.inp.debounced.lo with
    | false => simp
    | true =>
      cases hd : x.drive with
      | resting => simp [sightlessFalls_resting hp hd]
      | queued _ _ => rw [hd] at hb; cases hb
      | warning _ _ => rw [hd] at hb; cases hb
      | moving _ _ _ => rw [hd] at hb; cases hb
      | recloseWait r => simp [sightlessFalls, hp, hd]
      | tripped r => simp [sightlessFalls, hp, hd]
      | isolated => simp [sightlessFalls, hp, hd]

theorem Door.staled_unbound (hb : x.drive.bound = false) : (x.staled t).drive.bound = false := by
  unfold Door.staled
  split
  · exact hb
  · show (x.staleDrive t).bound = false
    rw [Door.staleDrive_unbound hb]
    split
    · rfl
    · exact hb

theorem Door.adjust_unbound (hb : x.drive.bound = false) : (x.adjust limit old).drive.bound = false := by
  unfold Door.adjust
  split
  · show (if x.drive.isIsolated then Drive.isolated else .resting).bound = false
    split <;> rfl
  · exact hb

/-! ## The records that steps 3 to 5 leave -/

/-- R13: the freshness timer of a door bound nowhere meets the limit. -/
def InputPart.Due (i : InputPart) (clock limit : Nat) : Prop :=
  ∃ start, i.freshness = some start ∧ start + limit ≤ clock

theorem Door.judged_due (hb : x.drive.bound = false) (h : x.inp.Due t.clock t.times.idleLimit) :
    x.judged t = x.staled t := by
  obtain ⟨start, running, due⟩ := h
  unfold Door.judged Env.freshnessLimit
  rw [running, hb]
  exact if_pos due

theorem Door.judged_undue (hb : x.drive.bound = false) (h : ¬ x.inp.Due t.clock t.times.idleLimit) :
    x.judged t = x := by
  unfold Door.judged Env.freshnessLimit
  rw [hb]
  split
  · next start running => exact if_neg fun due => h ⟨start, running, due⟩
  · rfl

/-- R14, R100 step 6, R170 step 5: a door that goes stale, from either cause. -/
theorem Door.reapplied_stale {lost : Bool} (hb : x.drive.bound = false) (hs : x.inp.stale = false)
    (h : lost = true ∨ x.inp.Due t.clock t.times.idleLimit) :
    x.reapplied t old lost = (x.staled t).adjust t.times.retryLimit old := by
  unfold Door.reapplied
  cases lost with
  | true =>
    refine Door.judged_undue (Door.adjust_unbound (Door.staled_unbound hb)) ?_
    rintro ⟨start, running, -⟩
    rw [if_pos rfl, Door.adjust_inp, Door.staled_inp hs] at running
    cases running
  | false =>
    have due := h.resolve_left nofun
    refine (Door.judged_due (Door.adjust_unbound hb) ?_).trans Door.staled_adjust
    show (x.adjust t.times.retryLimit old).inp.Due t.clock t.times.idleLimit
    rwa [Door.adjust_inp]

theorem Door.reapplied_stands {lost : Bool} (hb : x.drive.bound = false)
    (h : ¬ (x.inp.stale = false ∧ (lost = true ∨ x.inp.Due t.clock t.times.idleLimit))) :
    x.reapplied t old lost = x.adjust t.times.retryLimit old := by
  have stands : (if lost then x.staled t else x) = x := by
    cases lost with
    | true =>
      have stale : x.inp.stale = true := by simpa using h
      simp [Door.staled_stale stale]
    | false => rfl
  unfold Door.reapplied
  rw [stands]
  by_cases due : x.inp.Due t.clock t.times.idleLimit
  · have stale : x.inp.stale = true := by simpa [due] using h
    have unchanged : (x.adjust t.times.retryLimit old).inp = x.inp := Door.adjust_inp _ _ _
    rw [Door.judged_due (Door.adjust_unbound hb) (by rwa [unchanged]), Door.staled_stale (by rwa [unchanged])]
  · exact Door.judged_undue (Door.adjust_unbound hb) (by rwa [Door.adjust_inp])

/-! ## The record that steps 6 and 8 leave -/

/-- R41: the check run twice takes a door where one check does. -/
theorem Door.checkedDrive_again (h : Enforced t z z.hold ↔ Enforced t x x.hold)
    (hd : z.drive = x.checkedDrive t) : z.checkedDrive t = x.checkedDrive t := by
  rw [Door.checkedDrive, hd]
  split
  · next rests =>
    rw [rests]
    refine if_neg fun check => ?_
    have queued : x.restDrive t = .queued .toClose .mode := if_pos (h.mp check)
    unfold Door.checkedDrive at rests
    split at rests
    · rw [queued] at rests
      cases rests
    · contradiction
  · rfl

theorem Door.checked_eq (t : State) (x : Door) : x.checked t = { x with
    position := t.env.positionOf x
    drive := ({ x with position := t.env.positionOf x } : Door).checkedDrive t
    prot := if x.position = .closed ∧ t.env.positionOf x ≠ .closed then x.prot.cancelSettle else x.prot } := by
  have enforced := x.derived_enforced t
  unfold Door.checked
  unfold Door.derived at enforced ⊢
  simp only at enforced ⊢
  split
  · next same =>
    have stands : ¬ (x.position = .closed ∧ x.position ≠ .closed) := fun h => h.2 h.1
    rw [same, if_neg stands]
  · next moved =>
    rw [if_neg moved] at enforced
    have left : (x.position = .closed ∧ t.env.positionOf x ≠ .closed) ↔ x.position = .closed :=
      ⟨fun h => h.1, fun h => ⟨h, fun hp => moved (hp.trans h.symm)⟩⟩
    simp only [left]
    rw [Door.checkedDrive_again (x := { x with position := t.env.positionOf x }) enforced rfl]

/-! ## A kept door (R19, R170) -/

/-- R19: a kept record under its new static part. -/
def Door.retabled (x : Door) (st : DoorStatic) : Door := { x with static := some st }

/-- R170 step 4: a kept door that becomes INDICATED. -/
def Door.Becomes (x : Door) (st : DoorStatic) : Prop := x.powered = true ∧ st.cls = .indicated

/-- R170 steps 1 to 5: what they make of a kept door, which goes stale or does not. -/
structure Door.Renewed (t : State) (x : Door) (st : DoorStatic) (stale : Prop) (w : Door) : Prop where
  static : w.static = some st
  alarms : w.alarms = x.alarms
  powerSeen : w.powerSeen = x.powerSeen
  seen : ¬ stale → w.inp = x.inp ∧ w.position = x.position ∧ w.prot.settle = x.prot.settle
  unseen : stale → w.inp = x.inp.goneStale ∧ w.position = .unknown ∧
    w.prot.settle = if x.position = .closed then none else x.prot.settle
  prot : w.prot = { x.prot with
    settle := w.prot.settle
    tripCount := if w.inhibit = .latched then t.times.retryLimit + 1 else min x.prot.tripCount t.times.retryLimit }
  becomes : x.Becomes st →
    w.drive = (if x.drive = .isolated then .isolated else .resting) ∧ w.hold = false ∧ w.inhibit = .none
  stands : ¬ x.Becomes st → w.inhibit = x.inhibit ∧ (¬ stale → w.hold = x.hold ∧ w.drive = x.drive) ∧
    (stale → w.hold = (x.hold && !x.inp.debounced.lo) ∧ w.drive = (x.retabled st).staleDrive t)

section

variable {st : DoorStatic}

theorem Door.adjust_becomes {v : Door} (hv : v.static = some st) (h : x.Becomes st) :
    v.adjust limit (some x) = v.becomeIndicated.clampTrips limit := by
  have unpowered : v.powered = false := by rw [Door.powered_eq_false, Door.st, hv]; exact h.2
  unfold Door.adjust
  rw [unpowered, if_pos (by simp [h.1])]

theorem Door.adjust_stands {v : Door} (hv : v.static = some st) (h : ¬ x.Becomes st) :
    v.adjust limit (some x) = v.clampTrips limit := by
  have stays : ¬ (((some x).map Door.powered).getD false && !v.powered) = true := fun becomes => h (by
    rw [Bool.and_eq_true, Bool.not_eq_true', Door.powered_eq_false, Door.st, hv] at becomes
    exact becomes)
  unfold Door.adjust
  rw [if_neg stays]

theorem Drive.isolated_or_resting (drive : Drive) : (if drive.isIsolated then Drive.isolated else .resting) =
    if drive = .isolated then .isolated else .resting := by
  cases drive <;> rfl

theorem Door.renewed_adjust {v : Door} {stale : Prop} (static : v.static = some st) (alarms : v.alarms = x.alarms)
    (powerSeen : v.powerSeen = x.powerSeen) (inhibit : v.inhibit = x.inhibit)
    (seen : ¬ stale → v.inp = x.inp ∧ v.position = x.position ∧ v.prot.settle = x.prot.settle)
    (unseen : stale → v.inp = x.inp.goneStale ∧ v.position = .unknown ∧
      v.prot.settle = if x.position = .closed then none else x.prot.settle)
    (prot : v.prot = { x.prot with settle := v.prot.settle })
    (still : ¬ stale → v.hold = x.hold ∧ v.drive = x.drive)
    (falls : stale → v.hold = (x.hold && !x.inp.debounced.lo) ∧ v.drive = (x.retabled st).staleDrive t)
    (isolated : v.drive = .isolated ↔ x.drive = .isolated) :
    Door.Renewed t x st stale (v.adjust t.times.retryLimit (some x)) := by
  by_cases becomes : x.Becomes st
  · rw [Door.adjust_becomes static becomes]
    refine ⟨static, alarms, powerSeen, seen, unseen, ?_, fun _ => ⟨?_, rfl, rfl⟩, fun stands => absurd becomes stands⟩
    · simp only [Door.clampTrips, Door.becomeIndicated]
      rw [prot]
      rfl
    · refine (Drive.isolated_or_resting v.drive).trans ?_
      simp only [isolated]
  · rw [Door.adjust_stands static becomes]
    refine ⟨static, alarms, powerSeen, seen, unseen, ?_, fun h => absurd h becomes, fun _ => ⟨inhibit, still, falls⟩⟩
    simp only [Door.clampTrips]
    rw [prot]
    rfl

theorem Door.retabled_staleDrive_isolated (hb : x.drive.bound = false) :
    (x.retabled st).staleDrive t = .isolated ↔ x.drive = .isolated := by
  rw [Door.staleDrive_unbound (x := x.retabled st) hb]
  split
  · next h =>
    have resting : x.drive = .resting := h.2.2.1
    rw [resting]
    exact ⟨nofun, nofun⟩
  · rfl

theorem Door.reapplied_renewed {lost : Bool} (hb : x.drive.bound = false) :
    Door.Renewed t x st (x.inp.stale = false ∧ (lost = true ∨ x.inp.Due t.clock t.times.idleLimit))
      ((x.retabled st).reapplied t (some x) lost) := by
  by_cases stale : x.inp.stale = false ∧ (lost = true ∨ x.inp.Due t.clock t.times.idleLimit)
  · have made : (x.retabled st).staled t = { (x.retabled st).gonestale with drive := (x.retabled st).staleDrive t } :=
      if_neg (by rw [show (x.retabled st).inp.stale = x.inp.stale from rfl, stale.1]; nofun)
    rw [Door.reapplied_stale (x := x.retabled st) hb stale.1 stale.2, made]
    refine Door.renewed_adjust rfl rfl rfl rfl (absurd stale) (fun _ => ⟨rfl, rfl, ?_⟩) ?_ (absurd stale)
      (fun _ => ⟨rfl, rfl⟩) (Door.retabled_staleDrive_isolated hb)
    · exact apply_ite Protection.settle _ _ _
    · by_cases hp : x.position = .closed
      · simp only [Door.gonestale, Door.positionLost, Door.retabled, hp, if_true]
        rfl
      · simp only [Door.gonestale, Door.positionLost, Door.retabled, hp, if_false]
  · rw [Door.reapplied_stands (x := x.retabled st) hb stale]
    exact Door.renewed_adjust rfl rfl rfl rfl (fun _ => ⟨rfl, rfl, rfl⟩) (fun h => absurd h stale) rfl
      (fun _ => ⟨rfl, rfl⟩) (fun h => absurd h stale) Iff.rfl

/-- R39: a kept door that waits to reclose after the apply: it goes stale, and a hold that an LO fall ends was set. -/
def Door.WaitsNow (t : State) (x : Door) (st : DoorStatic) (stale : Prop) : Prop :=
  stale ∧ x.inp.debounced.lo = true ∧ st.cls ≠ .indicated ∧ x.drive = .resting ∧
    t.command.mode = some .doorsClosed ∧ x.hold = true

theorem Door.retabled_powered (x : Door) (st : DoorStatic) : (x.retabled st).powered = true ↔ st.cls ≠ .indicated :=
  Door.powered_iff

section

variable {stale : Prop} {w : Door} {lost : Bool}

theorem Door.Renewed.drive_waits (r : Door.Renewed t x st stale w) (hb : x.drive.bound = false) (h : ¬ x.Becomes st)
    (waits : x.WaitsNow t st stale) : w.drive = .recloseWait (t.clock + t.times.reclose) := by
  obtain ⟨gone, lo, powered, resting, closed, held⟩ := waits
  obtain ⟨-, -, falls⟩ := r.stands h
  rw [(falls gone).2, Door.staleDrive_unbound (x := x.retabled st) hb,
    if_pos ⟨lo, (x.retabled_powered st).mpr powered, resting, closed, held⟩]

theorem Door.Renewed.drive_stays (r : Door.Renewed t x st stale w) (hb : x.drive.bound = false) (h : ¬ x.Becomes st)
    (waits : ¬ x.WaitsNow t st stale) : w.drive = x.drive := by
  obtain ⟨-, stands, falls⟩ := r.stands h
  by_cases gone : stale
  · rw [(falls gone).2, Door.staleDrive_unbound (x := x.retabled st) hb, if_neg]
    · rfl
    · rintro ⟨lo, powered, rest⟩
      exact waits ⟨gone, lo, (x.retabled_powered st).mp powered, rest⟩
  · exact (stands gone).2

/-! ## The record at the end of the take (R170 steps 6 to 8, R82 step 6) -/

/-- R170: a record with its position derived, checked, and its alarms evaluated. -/
def Door.closing (t : State) (w : Door) : Door := (w.checked t).evaluate t.env.doorsClosed

theorem Door.closing_static (t : State) (w : Door) : (w.closing t).static = w.static := by
  rw [Door.closing, Door.checked_eq]
  rfl

theorem Door.closing_inp (t : State) (w : Door) : (w.closing t).inp = w.inp := by
  rw [Door.closing, Door.checked_eq]
  rfl

theorem Door.closing_position (t : State) (w : Door) : (w.closing t).position = t.env.positionOf w := by
  rw [Door.closing, Door.checked_eq]
  rfl

theorem Door.closing_hold (t : State) (w : Door) : (w.closing t).hold = w.hold := by
  rw [Door.closing, Door.checked_eq]
  rfl

theorem Door.closing_inhibit (t : State) (w : Door) : (w.closing t).inhibit = w.inhibit := by
  rw [Door.closing, Door.checked_eq]
  rfl

theorem Door.closing_powerSeen (t : State) (w : Door) : (w.closing t).powerSeen = w.powerSeen := by
  rw [Door.closing, Door.checked_eq]
  rfl

theorem Door.closing_prot (t : State) (w : Door) : (w.closing t).prot =
    if w.position = .closed ∧ t.env.positionOf w ≠ .closed then w.prot.cancelSettle else w.prot := by
  rw [Door.closing, Door.checked_eq]
  rfl

theorem Door.closing_alarms (t : State) (w : Door) : (w.closing t).alarms =
    w.alarms.zip (fun a holds => AlarmState.evaluate holds a)
      (conditions (t.command.mode == some .doorsClosed) (w.closing t)) := by
  rw [Door.closing, Door.checked_eq]
  rfl

/-- R170 step 8: what the check makes of the drive state, read off the record that it leaves. -/
theorem Door.closing_drive (t : State) (w : Door) : (w.closing t).drive =
    if w.drive = .resting then
      if Enforced t (w.closing t) (w.closing t).hold then .queued .toClose .mode else .resting
    else w.drive := by
  rw [Door.closing, Door.checked_eq]
  rfl

theorem Door.Renewed.final_unseen (r : Door.Renewed t x st stale w) (gone : stale) : t.env.positionOf w = .unknown := by
  obtain ⟨inp, -⟩ := r.unseen gone
  exact Env.positionOf_unseen t.env (.inl (by rw [inp]; rfl))

theorem Door.Renewed.final_settle (r : Door.Renewed t x st stale w) :
    (if w.position = .closed ∧ t.env.positionOf w ≠ .closed then w.prot.cancelSettle else w.prot).settle =
      if x.position = .closed ∧ t.env.positionOf w ≠ .closed then none else x.prot.settle := by
  by_cases gone : stale
  · obtain ⟨-, position, settle⟩ := r.unseen gone
    rw [r.final_unseen gone, position, if_neg nofun, settle]
    simp only [ne_eq, reduceCtorEq, not_false_eq_true, and_true]
  · obtain ⟨-, position, settle⟩ := r.seen gone
    rw [position]
    split
    · rfl
    · exact settle

theorem Door.Renewed.closing_prot (r : Door.Renewed t x st stale w) : (w.closing t).prot = { x.prot with
    settle := if x.position = .closed ∧ (w.closing t).position ≠ .closed then none else x.prot.settle
    tripCount := if (w.closing t).inhibit = .latched then t.times.retryLimit + 1
      else min x.prot.tripCount t.times.retryLimit } := by
  rw [Door.closing_inhibit, Door.closing_position, ← r.final_settle, Door.closing_prot]
  split
  · rw [r.prot]
    rfl
  · exact r.prot

theorem Door.Renewed.closing_indicated (r : Door.Renewed t x st stale w) (h : x.Becomes st) :
    (w.closing t).drive = (if x.drive = .isolated then .isolated else .resting) ∧ (w.closing t).hold = false ∧
      (w.closing t).inhibit = .none := by
  obtain ⟨drive, hold, inhibit⟩ := r.becomes h
  have unpowered : ¬ Enforced t (w.closing t) (w.closing t).hold := fun check => by
    have static : (w.closing t).static = some st := (w.closing_static t).trans r.static
    exact Door.powered_iff.mp check.2.1 (by rw [Door.st, static]; exact h.2)
  refine ⟨?_, (w.closing_hold t).trans hold, (w.closing_inhibit t).trans inhibit⟩
  rw [Door.closing_drive, if_neg unpowered, drive]
  split
  · rw [if_neg nofun]
  · rfl

theorem Door.Renewed.closing_stands (r : Door.Renewed t x st stale w) (hb : x.drive.bound = false)
    (h : ¬ x.Becomes st) :
    (w.closing t).inhibit = x.inhibit ∧ (¬ stale → (w.closing t).hold = x.hold) ∧
      (stale → (w.closing t).hold = (x.hold && !x.inp.debounced.lo)) ∧
      (x.WaitsNow t st stale → (w.closing t).drive = .recloseWait (t.clock + t.times.reclose)) ∧
      (¬ x.WaitsNow t st stale → x.drive ≠ .resting → (w.closing t).drive = x.drive) ∧
      (¬ x.WaitsNow t st stale → x.drive = .resting →
        (Enforced t (w.closing t) (w.closing t).hold → (w.closing t).drive = .queued .toClose .mode) ∧
        (¬ Enforced t (w.closing t) (w.closing t).hold → (w.closing t).drive = .resting)) := by
  obtain ⟨inhibit, stands, falls⟩ := r.stands h
  rw [Door.closing_inhibit, Door.closing_drive]
  refine ⟨inhibit, fun seen => ?_, fun gone => ?_, fun waits => ?_, fun waits moving => ?_, fun waits resting => ?_⟩
  · exact (w.closing_hold t).trans (stands seen).1
  · exact (w.closing_hold t).trans (falls gone).1
  · rw [r.drive_waits hb h waits, if_neg nofun]
  · rw [r.drive_stays hb h waits, if_neg moving]
  · rw [r.drive_stays hb h waits, if_pos resting]
    exact ⟨fun check => if_pos check, fun passes => if_neg passes⟩

/-- R4: no position is derived from inputs that are not seen, and no check follows. -/
theorem Door.unseen_checkable (hb : w.drive.bound = false) (h : w.inp.stale = true ∨ w.inp.reported = false) :
    w.Checkable t := by
  refine ⟨hb, .inr fun check => ?_⟩
  rw [t.env.positionOf_unseen h] at check
  exact check.2.2.2.2.elim nofun nofun

theorem Door.reapplied_unbound {lost : Bool} (hb : x.drive.bound = false) :
    (x.reapplied t old lost).drive.bound = false := by
  by_cases stale : x.inp.stale = false ∧ (lost = true ∨ x.inp.Due t.clock t.times.idleLimit)
  · rw [Door.reapplied_stale hb stale.1 stale.2]
    exact Door.adjust_unbound (Door.staled_unbound hb)
  · rw [Door.reapplied_stands hb stale]
    exact Door.adjust_unbound hb

theorem Door.adjust_static (limit : Nat) (old : Option Door) (x : Door) : (x.adjust limit old).static = x.static := by
  unfold Door.adjust
  split <;> rfl

theorem Door.reapplied_static {lost : Bool} (hb : x.drive.bound = false) :
    (x.reapplied t old lost).static = x.static := by
  by_cases stale : x.inp.stale = false ∧ (lost = true ∨ x.inp.Due t.clock t.times.idleLimit)
  · rw [Door.reapplied_stale hb stale.1 stale.2, Door.adjust_static, Door.staled_static]
  · rw [Door.reapplied_stands hb stale, Door.adjust_static]

theorem Door.reapplied_reported {lost : Bool} (hb : x.drive.bound = false) :
    (x.reapplied t old lost).inp.reported = x.inp.reported := by
  by_cases stale : x.inp.stale = false ∧ (lost = true ∨ x.inp.Due t.clock t.times.idleLimit)
  · rw [Door.reapplied_stale hb stale.1 stale.2, Door.adjust_inp, Door.staled_inp stale.1]
    rfl
  · rw [Door.reapplied_stands hb stale, Door.adjust_inp]

/-- R13, log 13: a kept door short of the new active limit can be checked. -/
theorem Door.Renewed.checkable (hb : w.drive.bound = false) (active : x.inp.within t.clock t.times.activeLimit)
    (r : Door.Renewed t x st (x.inp.stale = false ∧ (lost = true ∨ x.inp.Due t.clock t.times.idleLimit)) w) :
    w.Checkable t := by
  by_cases gone : x.inp.stale = false ∧ (lost = true ∨ x.inp.Due t.clock t.times.idleLimit)
  · exact Door.unseen_checkable hb (.inl (by rw [(r.unseen gone).1]; rfl))
  · have inp := (r.seen gone).1
    cases hs : x.inp.stale with
    | true => exact Door.unseen_checkable hb (.inl (by rw [inp, hs]))
    | false =>
      refine ⟨hb, .inl ?_⟩
      unfold InTouch
      rw [inp]
      refine ⟨active, fun start running => ?_⟩
      by_contra due
      exact gone ⟨hs, .inr ⟨start, running, by omega⟩⟩

/-! ## An added door (R3, R19) -/

theorem Door.fresh_adjust (limit start : Nat) (st : DoorStatic) :
    (Door.fresh st start).adjust limit none = Door.fresh st start := by
  have count : min 0 limit = 0 := Nat.zero_min limit
  show ({ Door.fresh st start with
    prot := { (Door.fresh st start).prot with tripCount := min 0 limit } } : Door) = Door.fresh st start
  rw [count]
  rfl

/-- R4, R41: a door whose inputs are not seen is not queued by the check. -/
theorem Door.closing_unseen (h : w.inp.stale = true ∨ w.inp.reported = false) : (w.closing t).drive = w.drive := by
  have passes : ¬ Enforced t (w.closing t) (w.closing t).hold := fun check => by
    obtain ⟨-, -, -, -, stands⟩ := check
    rw [Door.closing_position, t.env.positionOf_unseen h] at stands
    exact stands.elim nofun nofun
  rw [Door.closing_drive, if_neg passes]
  split
  · next rests => exact rests.symm
  · rfl

theorem Door.derived_same (h : t.env.positionOf x = x.position) : x.derived t = x := by
  unfold Door.derived
  exact if_pos h

theorem Door.closing_fresh {start : Nat} (hs : start = t.clock) (hi : 0 < t.times.idleLimit) :
    ((Door.fresh st start).reapplied t none false).closing t = Door.fresh st start := by
  have timely : ¬ ((Door.fresh st start).inp.stale = false ∧
      (false = true ∨ (Door.fresh st start).inp.Due t.clock t.times.idleLimit)) := by
    rintro ⟨-, lost | ⟨_, running, due⟩⟩
    · cases lost
    · obtain rfl := Option.some.inj running
      omega
  have unseen : t.env.positionOf (Door.fresh st start) = .unknown := t.env.positionOf_unseen (.inr rfl)
  have derived : (Door.fresh st start).derived t = Door.fresh st start := Door.derived_same unseen
  have drive : (Door.fresh st start).checkedDrive t = .resting :=
    (if_pos rfl).trans (Door.restDrive_resting fun check => check.2.2.2.2.elim nofun nofun)
  rw [Door.reapplied_stands rfl timely, Door.fresh_adjust, Door.closing, Door.checked, derived, drive]
  exact Door.evaluate_fresh _ _ _

end

end

end

end Sys2Proof.Machine
end

section
/-! SUPPORT. The groups after an apply (R69, R77): the doors that the change of position queues, then those that the
check queues. -/

namespace Sys2Proof.Machine

section

variable {s : State} {P : Door → Prop} {f : Yard → Nat → Yard}

/-- R69: `ClosesJoin.foldl_range`, for operations that do so at the records that are there. -/
theorem ClosesJoin.foldl_range_of (hl : s.yard.arbiterLawful) (hf : ∀ y d, Yard.Calm d y (f y d))
    (hlaw : ∀ y d, y.arbiterLawful → (f y d).arbiterLawful) (hp : ∀ d x, s.door? d = some x → P x)
    (hc : ∀ y d x, y.doors[d]? = some x → P x → ∃ z, Yard.Closes d x z y (f y d)) {n : Nat} (hn : n ≤ s.doorCount) :
    ClosesJoin s (s.setYard ((List.range n).foldl f s.yard)) := by
  induction n with
  | zero => exact closesJoin_refl hl
  | succ n ih =>
    rw [List.range_succ, List.foldl_append]
    let y1 := (List.range n).foldl f s.yard
    obtain ⟨above, -⟩ := Yard.foldl_range_get (R := fun _ _ => True) hf
      (fun y d x hx => let ⟨z, hz, _⟩ := (hf y d).door x hx; ⟨z, hz, trivial⟩) s.yard n
    obtain ⟨x, hx⟩ : ∃ x, s.yard.doors[n]? = some x := ⟨_, List.getElem?_eq_getElem hn⟩
    have here : y1.doors[n]? = some x := (above n (Nat.le_refl n)).trans hx
    obtain ⟨z, closes⟩ := hc y1 n x here (hp n x hx)
    exact closes.closesJoin hl (Yard.arbiterLawful_foldl hlaw _ hl) above here (ih (by omega))

end

section

variable {t : State} {y : Yard}

/-- R69: in a group without entries, the doors that join are all that it has. -/
theorem ClosesJoin.fresh {s u : State} (h : ClosesJoin s u) {g : GroupNum}
    (holders : (s.yard.groups.get g).holders = []) (queue : (s.yard.groups.get g).queue = [])
    (none : ∀ d, s.waitsToClose g d = false) :
    u.yard.groups.get g =
      { slotCount := (s.yard.groups.get g).slotCount, holders := []
        queue := (List.range s.doorCount).filter (u.waitsToClose g) } := by
  refine (h g).trans ?_
  simp only [holders, queue, none, List.filter_nil, List.nil_append, List.append_nil, Bool.not_false, Bool.and_true]

/-- R41: a door that waits to close is left where it waits. -/
theorem Door.checkedDrive_waits {x : Door} (h : x.drive.waitsToClose = true) : x.checkedDrive t = x.drive :=
  if_neg fun rests => by
    rw [rests] at h
    cases h

/-- R41: a door that the change of its position has queued still waits after the check. -/
theorem Yard.waits_twice {g : GroupNum} {d : Nat}
    (h : (t.setYard (y.rederived t)).waitsToClose g d = true) :
    (t.setYard ((y.rederived t).enforceAll t.env)).waitsToClose g d = true := by
  cases hx : (y.rederived t).doors[d]? with
  | none => simp [State.waitsToClose, State.door?, hx] at h
  | some x =>
    obtain ⟨z, hz, checked⟩ := (y.rederived t).enforceAll_each t d x hx
    rw [State.waitsToClose_eq (t := t.setYard (y.rederived t)) hx, Bool.and_eq_true] at h
    rw [State.waitsToClose_eq (t := t.setYard ((y.rederived t).enforceAll t.env)) hz, checked.drive,
      Door.checkedDrive_waits h.2, Door.st_congr checked.static, Bool.and_eq_true]
    exact h

/-- R69, R170 steps 6 and 8: the two passes over doors at rest. -/
theorem Yard.queues_twice (hl : y.arbiterLawful) (hc : ∀ (d : Nat) (x : Door), y.doors[d]? = some x → x.Checkable t)
    (g : GroupNum) :
    let first := t.setYard (y.rederived t)
    let last := t.setYard ((y.rederived t).enforceAll t.env)
    last.yard.groups.get g =
      { slotCount := (y.groups.get g).slotCount, holders := []
        queue := (List.range y.doors.length).filter (first.waitsToClose g) ++
          (List.range y.doors.length).filter (fun d => last.waitsToClose g d && !first.waitsToClose g d) } := by
  intro first last
  have rest : y.AtRest := Yard.atRest_of_still hl (Yard.still_iff.mpr fun d x hx => (hc d x hx).1)
  have idle (d : Nat) : (t.setYard y).waitsToClose g d = false := by
    cases hx : y.doors[d]? with
    | none => simp only [State.waitsToClose, State.door?, State.setYard_yard, hx]
    | some x =>
      have queued := (Drive.idle_of_not_bound (rest.doors d x hx)).2
      rw [State.waitsToClose_eq (t := t.setYard y) hx, Drive.waitsToClose, queued, Bool.false_and, Bool.and_false]
  have derived : ClosesJoin (t.setYard y) first :=
    ClosesJoin.foldl_range_of (s := t.setYard y) (P := (·.Checkable t)) hl
    (fun z d => z.calm_rederive t.env d) (fun z d hz => Yard.arbiterLawful_rederive hz t.env d) hc
    (fun z d x hx hp => ⟨_, Yard.rederive_closes hx hp⟩) (Nat.le_refl _)
  have lawful : (y.rederived t).arbiterLawful :=
    Yard.arbiterLawful_foldl (fun _ d hz => Yard.arbiterLawful_rederive hz t.env d) _ hl
  have length : (y.rederived t).doors.length = y.doors.length :=
    Yard.foldl_length (fun z d => z.calm_rederive t.env d) _ y
  have checked : ClosesJoin first last := ClosesJoin.foldl_range (s := first) lawful
    (fun z d => z.calm_enforce t.env d) (fun z d hz => Yard.arbiterLawful_enforce hz t.env d)
    (fun z d x hx => let ⟨w, closes, _⟩ := Yard.enforce_closes (t := t) hx; ⟨w, closes⟩) (Nat.le_refl _)
  have before : first.yard.groups.get g =
      { slotCount := (y.groups.get g).slotCount, holders := []
        queue := (List.range y.doors.length).filter (first.waitsToClose g) } :=
    derived.fresh (rest.holders g) (rest.queue g) idle
  refine (checked g).trans ?_
  rw [before, show first.doorCount = y.doors.length from length]
  refine Group.eq_of rfl rfl ?_
  have stays (d : Nat) (hd : d ∈ (List.range y.doors.length).filter (first.waitsToClose g)) :
      first.waitsToClose g d = true ∧ last.waitsToClose g d = true :=
    have waits := (List.mem_filter.mp hd).2
    ⟨waits, Yard.waits_twice waits⟩
  have kept : ((List.range y.doors.length).filter (first.waitsToClose g)).filter
      (fun d => first.waitsToClose g d && last.waitsToClose g d) =
        (List.range y.doors.length).filter (first.waitsToClose g) := List.filter_eq_self.mpr fun d hd => by
    obtain ⟨here, there⟩ := stays d hd
    rw [here, there]
    rfl
  have none : ((List.range y.doors.length).filter (first.waitsToClose g)).filter
      (fun d => last.waiting d && !last.waitsToClose g d) = [] := List.filter_eq_nil_iff.mpr fun d hd => by
    rw [(stays d hd).2, Bool.not_true, Bool.and_false]
    nofun
  rw [kept, none, List.append_nil]

/-- R41: a door at rest that waits to close after the apply has been queued by the change of its position, or by the
check where the position stood. -/
theorem Door.derived_waits {x : Door} (hb : x.drive.bound = false) : (x.derived t).drive.waitsToClose =
    ((x.closing t).drive.waitsToClose && decide (t.env.positionOf x ≠ x.position)) := by
  by_cases same : t.env.positionOf x = x.position
  · have idle : x.drive.waitsToClose = false := by
      rw [Drive.waitsToClose, (Drive.idle_of_not_bound hb).2, Bool.false_and]
    rw [Door.derived_same same, idle]
    simp [same]
  · have moved : (x.derived t).drive = (x.closing t).drive := by
      rw [Door.closing, Door.checked_eq]
      unfold Door.derived
      simp only [same, if_false]
      rfl
    rw [moved]
    simp [same]

end

end Sys2Proof.Machine
end

section
/-! SUPPORT. The apply (R170) of a part whose doors are bound nowhere: the part that it leaves, clause by clause. -/

namespace Sys2Proof.Machine

/-! ## The new tables, record by record (R19) -/

theorem replaceDoors_getElem? (clock k : Nat) : ∀ (doors : List Door) (new : List DoorStatic),
    (replaceDoors clock doors new)[k]? = (new[k]?).map fun st =>
      match doors[k]? with
      | some x => x.retabled st
      | none => Door.fresh st clock
  | _, [] => by simp [replaceDoors]
  | [], st :: rest => by
    cases k with
    | zero => rfl
    | succ k => simpa [replaceDoors] using replaceDoors_getElem? clock k [] rest
  | x :: doors, st :: rest => by
    cases k with
    | zero => rfl
    | succ k => simpa [replaceDoors] using replaceDoors_getElem? clock k doors rest

theorem replaceDoors_length (clock : Nat) : ∀ (doors : List Door) (new : List DoorStatic),
    (replaceDoors clock doors new).length = new.length
  | _, [] => by simp [replaceDoors]
  | [], st :: rest => by simp [replaceDoors, replaceDoors_length clock [] rest]
  | x :: doors, st :: rest => by simp [replaceDoors, replaceDoors_length clock doors rest]

section

variable {s : State} {img : Settings} {d : Nat} {x : Door} {st : DoorStatic}

/-- R19, R100 step 6: the doors that lost scanners owned. -/
def State.lost (s : State) (img : Settings) : List Nat := lostDoors s.yard.doors s.masters img

theorem State.nodup_lost (s : State) (img : Settings) : (s.lost img).Nodup := List.nodup_range.filter _

theorem Role.losesDoors_iff {old : Role} {new : RoleSetting} : old.losesDoors new = true ↔
    ∃ first count auth, old = .scanner first count auth ∧ new ≠ .scanner first count := by
  unfold Role.losesDoors
  split
  · simp
  · next other => exact ⟨nofun, fun ⟨f, k, auth, h, _⟩ => absurd h (other f k auth)⟩

theorem State.mem_lost (hx : s.door? d = some x) : d ∈ s.lost img ↔
    ∃ m first count auth, x.owner = some m ∧ s.role m = .scanner first count auth ∧
      (img.masters.get m).role ≠ .scanner first count := by
  have hx' : s.yard.doors[d]? = some x := hx
  have inside : d < s.yard.doors.length := (List.getElem?_eq_some_iff.mp hx').1
  simp only [State.lost, lostDoors, List.mem_filter, List.mem_range, inside, true_and, hx']
  cases x.owner with
  | none => simp
  | some m => exact Role.losesDoors_iff.trans (by simp [State.role])

theorem State.not_mem_lost (hd : s.doorCount ≤ d) : d ∉ s.lost img := fun h =>
  absurd (List.mem_range.mp (List.mem_filter.mp h).1) (Nat.not_lt.mpr hd)

/-- R13, R100: what makes a door stale at an apply. -/
theorem goesStale_iff (hx : s.door? d = some x) : GoesStale s img x ↔ x.inp.stale = false ∧
    (decide (d ∈ s.lost img) = true ∨ x.inp.Due (s.settled img).clock (s.settled img).times.idleLimit) := by
  rw [decide_eq_true_eq, State.mem_lost hx]
  rfl

/-- R170 steps 1 to 5: the yard before the positions are derived. -/
def State.readied (s : State) (img : Settings) : Yard :=
  (s.yard.replaced s.clock img).rejudged (s.settled img) (s.lost img) s.yard.doors

theorem State.readied_length (s : State) (img : Settings) : (s.readied img).doors.length = img.doors.length :=
  (Yard.rejudged_length _ _ _ _).trans ((Yard.foldl_length (fun z d => z.calm_goStale _ d) _ _).trans
    (replaceDoors_length _ _ _))

theorem State.readied_kept (hd : img.doors[d]? = some st) (hx : s.door? d = some x) (hb : x.drive.bound = false) :
    ∃ w, (s.readied img).doors[d]? = some w ∧ Door.Renewed (s.settled img) x st (GoesStale s img x) w ∧
      w.drive.bound = false ∧ (x.inp.within s.clock img.timing.activeLimit → w.Checkable (s.settled img)) := by
  have hx' : s.yard.doors[d]? = some x := hx
  have replaced : (s.yard.replaced s.clock img).doors[d]? = some (x.retabled st) := by
    refine (replaceDoors_getElem? _ _ _ _).trans ?_
    rw [hd, hx']
    rfl
  have readied := Yard.rejudged_door (t := s.settled img) (s.nodup_lost img) (before := s.yard.doors) replaced
  rw [hx'] at readied
  have unbound := Door.reapplied_unbound (t := s.settled img) (old := some x) (lost := decide (d ∈ s.lost img))
    (show (x.retabled st).drive.bound = false from hb)
  have renewed := Door.reapplied_renewed (t := s.settled img) (st := st) (lost := decide (d ∈ s.lost img)) hb
  exact ⟨_, readied, propext (goesStale_iff hx) ▸ renewed, unbound, fun active => renewed.checkable unbound active⟩

theorem State.readied_added (hd : img.doors[d]? = some st) (hx : s.door? d = none) :
    ∃ w, (s.readied img).doors[d]? = some w ∧ w.static = some st ∧ w.inp.reported = false ∧ w.drive.bound = false ∧
      (0 < img.timing.idleLimit → w.closing (s.settled img) = Door.fresh st s.clock) := by
  have hx' : s.yard.doors[d]? = none := hx
  have replaced : (s.yard.replaced s.clock img).doors[d]? = some (Door.fresh st s.clock) := by
    refine (replaceDoors_getElem? _ _ _ _).trans ?_
    rw [hd, hx']
    rfl
  have outside : decide (d ∈ s.lost img) = false :=
    decide_eq_false (State.not_mem_lost (List.getElem?_eq_none_iff.mp hx'))
  have readied := Yard.rejudged_door (t := s.settled img) (s.nodup_lost img) (before := s.yard.doors) replaced
  rw [hx', outside] at readied
  exact ⟨_, readied, Door.reapplied_static rfl, Door.reapplied_reported rfl, Door.reapplied_unbound rfl,
    Door.closing_fresh (t := s.settled img) (start := s.clock) rfl⟩

/-- R170: every door can be checked, where the kept ones are short of the new active limit. -/
theorem State.readied_checkable (still : ∀ d x, s.door? d = some x → x.drive.bound = false)
    (active : ∀ d x, s.door? d = some x → x.inp.within s.clock img.timing.activeLimit) (d : Nat) (w : Door)
    (hw : (s.readied img).doors[d]? = some w) : w.Checkable (s.settled img) := by
  have inside : d < img.doors.length := s.readied_length img ▸ (List.getElem?_eq_some_iff.mp hw).1
  have hd := List.getElem?_eq_getElem inside
  cases hx : s.door? d with
  | some x =>
    obtain ⟨v, hv, -, -, checkable⟩ := State.readied_kept hd hx (still d x hx)
    obtain rfl := Option.some.inj (hv.symm.trans hw)
    exact checkable (active d x hx)
  | none =>
    obtain ⟨v, hv, -, unseen, unbound, -⟩ := State.readied_added hd hx
    obtain rfl := Option.some.inj (hv.symm.trans hw)
    exact Door.unseen_checkable unbound (.inr unseen)

/-! ## The part after the apply -/

/-- R170: the part at the end of the take, before its alarms and lines are judged. -/
def State.appliedPart (s : State) (img : Settings) (detail : Nat) : State :=
  { s.settled img with
    yard := ((s.readied img).rederived (s.settled img)).enforceAll (s.settled img).env
    ring := (s.settled img).ring.push (s.entryNow 25 15 0 detail 0) }

theorem State.applyImage_eq (hb : 0 < img.timing.heartbeat) (detail : Nat) :
    s.applyImage img detail = (s.appliedPart img detail).endTakeAll := by
  have yard := s.yard.applied_eq (s.settled img) s.clock img (s.lost img)
  unfold State.applyImage
  rw [State.adjustMasters_eq hb]
  unfold State.appliedPart State.readied
  rw [← yard]
  rfl

theorem State.env_of_yard_ring (u : State) (y : Yard) (r : Ring) : 
    ({ u with yard := y, ring := r } : State).env = u.env := rfl

theorem State.appliedPart_env (detail : Nat) : (s.appliedPart img detail).env = (s.settled img).env :=
  State.env_of_yard_ring _ _ _

theorem State.endTakeAll_groups (u : State) : u.endTakeAll.yard.groups = u.yard.groups := rfl

theorem State.endTakeAll_lines (u : State) : LinesJudged u.endTakeAll u.lines.generalAlarm := State.linesJudged
  { u with yard := { u.yard with doors := evaluateChanged u.env.doorsClosed [] u.yard.doors } }

/-- R170: a door whose record can be checked. -/
theorem State.appliedPart_door {detail : Nat} {w : Door} (hw : (s.readied img).doors[d]? = some w)
    (hc : w.Checkable (s.settled img)) :
    (s.appliedPart img detail).endTakeAll.door? d = some (w.closing (s.settled img)) := by
  have door : (s.appliedPart img detail).door? d = some (w.checked (s.settled img)) := Yard.checked_door hw hc
  rw [State.endTakeAll_door door, State.appliedPart_env, Door.closing]

theorem State.appliedPart_doorCount {detail : Nat} :
    (s.appliedPart img detail).endTakeAll.doorCount = img.doors.length := by
  have evaluated : (s.appliedPart img detail).endTakeAll.yard.doors.length =
      (s.appliedPart img detail).yard.doors.length := by
    rw [State.endTakeAll, State.endTake_yard_doors, evaluateChanged_nil, List.length_map]
  refine evaluated.trans ((Yard.foldl_length (fun z d => z.calm_enforce _ d) _ _).trans ?_)
  exact (Yard.foldl_length (fun z d => z.calm_rederive _ d) _ _).trans (s.readied_length img)

theorem State.appliedPart_lines {detail : Nat} : LinesJudged (s.appliedPart img detail).endTakeAll
    (match s.lines.generalAlarm with
      | .flashing p e =>
        if s.times.flashPeriod = img.timing.flashPeriod ∧ s.times.flashOn = img.timing.flashOn then .flashing p e
        else .flashing true (s.clock + img.timing.flashOn)
      | now => now) := by
  have lines : (s.appliedPart img detail).lines.generalAlarm = (match s.lines.generalAlarm with
      | .flashing p e =>
        if s.times.flashPeriod = img.timing.flashPeriod ∧ s.times.flashOn = img.timing.flashOn then .flashing p e
        else .flashing true (s.clock + img.timing.flashOn)
      | now => now) := by
    show s.lines.generalAlarm.repattern s.times img.timing s.clock = _
    cases s.lines.generalAlarm <;> rfl
  rw [← lines]
  exact State.endTakeAll_lines _

theorem State.appliedPart_slotCount {detail : Nat} (g : GroupNum) :
    ((s.appliedPart img detail).endTakeAll.yard.groups.get g).slotCount = some (img.slotCounts.get g) := by
  have yard := s.yard.applied_eq (s.settled img) s.clock img (s.lost img)
  have counts := s.yard.applied_slotCount s.clock img (s.lost img) (s.settled img).env (s.settled img).env
    (s.settled img).env g
  rw [yard] at counts
  rw [State.endTakeAll_groups]
  exact counts

theorem State.settled_behaviour (m : Master) :
    ((s.settled img).masters.get m).behaviour = (img.masters.get m).behaviour := by
  have kept : ((s.settled img).masters.get m).behaviour = ((s.retabled img).masters.get m).behaviour := by
    refine (congrArg MasterRec.behaviour (get_eight _ m)).trans ?_
    split <;> rfl
  exact kept.trans (congrArg MasterRec.behaviour (get_eight _ m))

/-! ## The groups (R69, R77) -/

theorem State.readied_lawful (hl : s.yard.arbiterLawful) (still : ∀ d x, s.door? d = some x → x.drive.bound = false) :
    (s.readied img).arbiterLawful :=
  have rests := (Yard.resettled_replaced hl (Yard.still_iff.mpr still) s.clock img).staleDoors (s.settled img).env
    (s.lost img)
  Yard.arbiterLawful_foldl (fun _ d h => Yard.arbiterLawful_judgeFreshness h (s.settled img).env d) _
    (rests.arbiterLawful_adjust (s.settled img).times.retryLimit)

/-- R69: whether a door's position is another after a take. -/
def State.moved (s t : State) (d : Nat) : Bool := (s.door? d).map (·.position) != (t.door? d).map (·.position)

/-- R41, log 24: a door that waits to close after the apply was queued by the change of its position, or by the check
where its position stood. -/
theorem State.readied_moved {w : Door} {t : State} (still : ∀ d x, s.door? d = some x → x.drive.bound = false)
    (hw : (s.readied img).doors[d]? = some w) (ht : t.door? d = some (w.closing (s.settled img)))
    (waits : (w.closing (s.settled img)).drive.waitsToClose = true) :
    w.drive.bound = false ∧ s.moved t d = decide ((s.settled img).env.positionOf w ≠ w.position) := by
  have inside : d < img.doors.length := s.readied_length img ▸ (List.getElem?_eq_some_iff.mp hw).1
  have hd := List.getElem?_eq_getElem inside
  have blind (idle : w.drive.bound = false) (h : w.inp.stale = true ∨ w.inp.reported = false) : False := by
    rw [Door.closing_unseen h, Drive.waitsToClose, (Drive.idle_of_not_bound idle).2] at waits
    cases waits
  cases hx : s.door? d with
  | none =>
    obtain ⟨v, hv, -, unseen, unbound, -⟩ := State.readied_added hd hx
    obtain rfl := Option.some.inj (hv.symm.trans hw)
    exact (blind unbound (.inr unseen)).elim
  | some x =>
    obtain ⟨v, hv, renewed, unbound, -⟩ := State.readied_kept hd hx (still d x hx)
    obtain rfl := Option.some.inj (hv.symm.trans hw)
    refine ⟨unbound, ?_⟩
    by_cases gone : GoesStale s img x
    · exact (blind unbound (.inl (by rw [(renewed.unseen gone).1]; rfl))).elim
    · obtain ⟨-, position, -⟩ := renewed.seen gone
      rw [State.moved, hx, ht, Option.map_some, Option.map_some, Door.closing_position, position]
      rw [Bool.eq_iff_iff, bne_iff_ne, decide_eq_true_eq, ne_eq, Option.some.injEq, eq_comm]

/-- R170 step 6: the part with the positions derived, and nothing checked yet. -/
def State.rederivedPart (s : State) (img : Settings) : State :=
  (s.settled img).setYard ((s.readied img).rederived (s.settled img))

/-- R170 step 8: the part with every door checked. -/
def State.checkedPart (s : State) (img : Settings) : State :=
  (s.settled img).setYard (((s.readied img).rederived (s.settled img)).enforceAll (s.settled img).env)

theorem State.appliedPart_yard (detail : Nat) : (s.appliedPart img detail).yard = (s.checkedPart img).yard := rfl

theorem State.appliedPart_waits (detail : Nat) (g : GroupNum) (d : Nat) :
    (s.appliedPart img detail).endTakeAll.waitsToClose g d = (s.checkedPart img).waitsToClose g d := by
  have door : (s.appliedPart img detail).door? d = (s.checkedPart img).door? d :=
    congrArg (fun y : Yard => y.doors[d]?) (State.appliedPart_yard detail)
  exact ((State.endTake_lists _ (s.appliedPart img detail) d).2.2 g).trans ((State.lists_congr door).2.2 g)

/-- A door of the part before, as the two passes see it. -/
theorem State.readied_waits {w : Door} {g : GroupNum} (hw : (s.readied img).doors[d]? = some w)
    (hc : w.Checkable (s.settled img)) :
    (s.rederivedPart img).waitsToClose g d =
        (w.st.cls == .powered g && (w.derived (s.settled img)).drive.waitsToClose) ∧
      (s.checkedPart img).waitsToClose g d =
        (w.st.cls == .powered g && (w.closing (s.settled img)).drive.waitsToClose) := by
  have first : (s.rederivedPart img).door? d = some (w.derived (s.settled img)) := Yard.rederived_door hw hc
  have last : (s.checkedPart img).door? d = some (w.checked (s.settled img)) := Yard.checked_door hw hc
  have static : (w.derived (s.settled img)).static = w.static := by
    unfold Door.derived
    simp only
    split <;> rfl
  rw [State.waitsToClose_eq first, State.waitsToClose_eq last, Door.st_congr static,
    Door.st_congr (show (w.checked (s.settled img)).static = w.static from static)]
  exact ⟨rfl, rfl⟩

theorem State.appliedPart_groups {detail : Nat} {t : State} (ht : t = (s.appliedPart img detail).endTakeAll)
    (hl : s.yard.arbiterLawful) (still : ∀ d x, s.door? d = some x → x.drive.bound = false)
    (active : ∀ d x, s.door? d = some x → x.inp.within s.clock img.timing.activeLimit) (g : GroupNum) :
    t.yard.groups.get g =
      { slotCount := some (img.slotCounts.get g), holders := []
        queue := (List.range t.doorCount).filter (fun d => t.waitsToClose g d && s.moved t d) ++
          (List.range t.doorCount).filter fun d => t.waitsToClose g d && !s.moved t d } := by
  have checkable := State.readied_checkable (img := img) still active
  have twice := Yard.queues_twice (State.readied_lawful (img := img) hl still) checkable g
  have last : t.yard.groups.get g = (s.checkedPart img).yard.groups.get g := by
    rw [ht, State.endTakeAll_groups, State.appliedPart_yard]
  have counts : ((s.readied img).groups.get g).slotCount = some (img.slotCounts.get g) := by
    have slots : (t.yard.groups.get g).slotCount = some (img.slotCounts.get g) := ht ▸ State.appliedPart_slotCount g
    exact (congrArg Group.slotCount (last.trans twice)).symm.trans slots
  have count : t.doorCount = (s.readied img).doors.length := by
    rw [ht, State.appliedPart_doorCount, State.readied_length]
  have waits (d : Nat) : t.waitsToClose g d = (s.checkedPart img).waitsToClose g d := by
    rw [ht, State.appliedPart_waits]
  have parts (d : Nat) (hd : d ∈ List.range t.doorCount) :
      (s.rederivedPart img).waitsToClose g d = (t.waitsToClose g d && s.moved t d) := by
    have inside : d < (s.readied img).doors.length := count ▸ List.mem_range.mp hd
    have hw := List.getElem?_eq_getElem inside
    have hc := checkable d _ hw
    have door := ht ▸ State.appliedPart_door (detail := detail) hw hc
    obtain ⟨derived, checked⟩ := State.readied_waits (g := g) hw hc
    rw [derived, waits, checked, Door.derived_waits hc.1, Bool.and_assoc]
    refine congrArg (_ && ·) ?_
    cases closes : ((s.readied img).doors[d].closing (s.settled img)).drive.waitsToClose with
    | false => rfl
    | true => rw [(State.readied_moved still hw door closes).2]
  refine last.trans (twice.trans ?_)
  rw [counts, ← count]
  refine Group.eq_of rfl rfl ?_
  refine congrArg₂ _ (List.filter_congr fun d hd => parts d hd) (List.filter_congr fun d hd => ?_)
  show ((s.checkedPart img).waitsToClose g d && !(s.rederivedPart img).waitsToClose g d) = _
  rw [parts d hd, waits]
  cases (s.checkedPart img).waitsToClose g d <;> rfl

/-! ## The masters (R97, R100, R125) -/

theorem State.lapses_station {m : Master} (h : s.lapses img m = true) : (img.masters.get m).role = .station := by
  obtain ⟨_, -, stays, -⟩ := State.lapses_iff.mp h
  exact stays

theorem State.settled_role_of_ne {m : Master} (h : (img.masters.get m).role ≠ .station) :
    (s.settled img).role m = (s.role m).adjust (img.masters.get m).role s.clock := by
  rw [State.settled_role, if_neg (mt State.lapses_station h)]
  rfl

theorem State.settled_scanner {m : Master} {f k : Nat} (h : (img.masters.get m).role = .scanner f k) :
    (s.role m = .scanner f k true → (s.settled img).role m = .scanner f k true) ∧
      (s.role m ≠ .scanner f k true → (s.settled img).role m = .scanner f k false) := by
  rw [State.settled_role_of_ne (by rw [h]; nofun), h]
  refine ⟨fun old => by rw [old]; simp [Role.adjust], fun other => ?_⟩
  cases hr : s.role m with
  | scanner g c auth =>
    have unauthorized : (auth && f == g && k == c) = false := by
      rw [Bool.eq_false_iff]
      intro same
      simp only [Bool.and_eq_true, beq_iff_eq] at same
      obtain ⟨⟨rfl, rfl⟩, rfl⟩ := same
      exact other hr
    simp only [Role.adjust, unauthorized]
  | absent => rfl
  | station _ => rfl
  | service => rfl
  | observer => rfl

theorem State.settled_station {m : Master} (h : (img.masters.get m).role = .station) :
    (∀ start, s.role m = .station (some start) → (s.settled img).role m =
        if start + img.timing.heartbeat ≤ s.clock then .station none else .station (some start)) ∧
      (s.role m = .station none → (s.settled img).role m = .station none) ∧
      ((s.role m).isStation = false → (s.settled img).role m = .station (some s.clock)) := by
  rw [State.settled_role]
  unfold State.lapses State.adjusted
  rw [h]
  refine ⟨fun start old => ?_, fun old => ?_, fun other => ?_⟩
  · rw [old]
    simp only [true_and, decide_eq_true_eq]
    rfl
  · rw [old]
    rfl
  · cases hr : s.role m with
    | station _ => rw [hr] at other; cases other
    | absent => rfl
    | scanner _ _ _ => rfl
    | service => rfl
    | observer => rfl

/-! ## The commands -/

/-- R169: what either command applies, in a part whose doors are bound nowhere. -/
theorem exec_applies {c : Instr} {detail : Nat} {failed : Bool}
    (still : ∀ d x, s.door? d = some x → x.drive.bound = false)
    (h : (c = .apply ∧ s.loader.reload = .applyPending img ∧ detail = 2 ∧ failed = s.loader.lastReloadFailed) ∨
      (∃ image, c = .reloadAttemptEnd image ∧ s.part = .running ∧ s.loader.reload = .reloading ∧
        loadAttempt image (some s.mirror.imageSize) = .ok img ∧ detail = 1 ∧ failed = false)) :
    exec c s = .next
      (State.applyImage { s with loader := { reload := .idle, lastReloadFailed := failed } } img detail) := by
  have rests : s.yard.still = true := Yard.still_iff.mpr still
  rcases h with ⟨rfl, pending, rfl, rfl⟩ | ⟨image, rfl, hp, hr, good, rfl, rfl⟩
  · have due : s.dueApply = some img := by
      unfold State.dueApply
      rw [pending]
      exact if_pos rests
    show execApply s = _
    unfold execApply
    rw [due]
    rfl
  · rw [exec_reloadAttemptEnd image hp hr]
    simp only [State.reloadEnd, good, State.reloadGood, rests, if_true]
    rfl

/-- R100, R123, R170: the part before the alarms and lines are judged, field by field. -/
theorem State.appliedPart_eq (detail : Nat) : s.appliedPart img detail = { s with
    timing := some img.timing
    path := { s.path with windows := img.windows, slots := Vector.replicate 8 none }
    rules := img.rules
    masters := (s.settled img).masters
    meters := eight fun m => Meter.full (img.meters.get m) s.clock
    yard := (s.checkedPart img).yard
    ring := ((s.ring.pushAll s.splitEntries).pushAll (s.handAfter img).made).push (s.entryNow 25 15 0 detail 0)
    command := { s.command with holder := (s.handAfter img).holder, transfer := (s.handAfter img).transfer }
    lines := { s.lines with generalAlarm := s.lines.generalAlarm.repattern s.times img.timing s.clock } } := rfl

/-- R104, R110, R112: the end of a take that evaluates every door changes the yard and the two door lines alone. -/
theorem State.endTakeAll_eq (u : State) : u.endTakeAll = { u with
    yard := u.endTakeAll.yard
    lines := { u.lines with
      generalAlarm := u.endTakeAll.lines.generalAlarm, doorsNotClosed := u.endTakeAll.lines.doorsNotClosed } } := rfl

/-- The part that the apply leaves, but for the masters, the meters, the yard and the door lines. -/
theorem State.appliedPart_rest {detail : Nat} {t : State} (ht : t = (s.appliedPart img detail).endTakeAll) :
    t = { s with
      timing := some img.timing
      path := { s.path with windows := img.windows, slots := Vector.replicate 8 none }
      rules := img.rules
      masters := t.masters
      meters := t.meters
      yard := t.yard
      ring := ((s.ring.pushAll s.splitEntries).pushAll (s.handAfter img).made).push (s.entryNow 25 15 0 detail 0)
      command := { s.command with holder := (s.handAfter img).holder, transfer := (s.handAfter img).transfer }
      lines := { s.lines with
        generalAlarm := t.lines.generalAlarm, doorsNotClosed := t.lines.doorsNotClosed } } := by
  have whole := State.endTakeAll_eq (s.appliedPart img detail)
  rw [← ht, State.appliedPart_eq] at whole
  rw [whole]

theorem State.endTakeAll_masters (u : State) : u.endTakeAll.masters = u.masters := rfl

theorem State.endTakeAll_meters (u : State) : u.endTakeAll.meters = u.meters := rfl

theorem State.appliedPart_masters (detail : Nat) :
    (s.appliedPart img detail).endTakeAll.masters = (s.settled img).masters :=
  State.endTakeAll_masters _

theorem State.appliedPart_meters (detail : Nat) (m : Fin 8) : (s.appliedPart img detail).endTakeAll.meters.get m =
    { rate := (img.meters.get m).rate, burst := (img.meters.get m).burst
      tokens := (img.meters.get m).burst, exceeded := false, start := s.clock, refills := 0 } := by
  have table : (s.appliedPart img detail).meters = eight fun m => Meter.full (img.meters.get m) s.clock := rfl
  rw [State.endTakeAll_meters, table, get_eight]
  rfl

/-! ## The doors (R19, R170) -/

/-- R19: every door has the static part that the image gives it. -/
theorem State.appliedPart_static {detail : Nat} {t : State} (ht : t = (s.appliedPart img detail).endTakeAll)
    (still : ∀ d x, s.door? d = some x → x.drive.bound = false) (hd : img.doors[d]? = some st) :
    DoorAfter d t fun z => z.static = some st := by
  obtain ⟨w, hw, static⟩ : ∃ w, (s.readied img).doors[d]? = some w ∧ w.static = some st := by
    cases hx : s.door? d with
    | some x =>
      obtain ⟨w, hw, renewed, -⟩ := State.readied_kept hd hx (still d x hx)
      exact ⟨w, hw, renewed.static⟩
    | none =>
      obtain ⟨w, hw, static, -⟩ := State.readied_added hd hx
      exact ⟨w, hw, static⟩
  have derived : Yard.StaticKept (s.readied img) ((s.readied img).rederived (s.settled img)) :=
    Yard.StaticKept.forSelected (fun z d => (z.calm_rederive (s.settled img).env d).staticKept) .all
  have checked : Yard.StaticKept ((s.readied img).rederived (s.settled img)) (s.checkedPart img).yard :=
    Yard.StaticKept.forSelected (fun z d => (z.calm_enforce (s.settled img).env d).staticKept) .all
  have kept := (checked d).trans (derived d)
  rw [hw, Option.map_some, static] at kept
  obtain ⟨z, hz, hs⟩ := Option.map_eq_some_iff.mp kept
  have door : (s.appliedPart img detail).door? d = some z := hz
  exact ⟨z.evaluate (s.appliedPart img detail).env.doorsClosed, ht ▸ State.endTakeAll_door door, hs⟩

/-- R3, R19, R20, R48, R102: an added door. -/
theorem State.appliedPart_added {detail : Nat} {t : State} (ht : t = (s.appliedPart img detail).endTakeAll)
    (hd : img.doors[d]? = some st) (hn : s.doorCount ≤ d) (hi : 0 < img.timing.idleLimit) :
    t.door? d = some (Door.fresh st s.clock) := by
  obtain ⟨w, hw, -, unseen, unbound, fresh⟩ := State.readied_added hd (List.getElem?_eq_none_iff.mpr hn)
  rw [ht, State.appliedPart_door hw (Door.unseen_checkable unbound (.inr unseen)), fresh hi]

/-- R170: a kept door short of the new active limit (log 13). -/
theorem State.appliedPart_kept {detail : Nat} {t : State} (ht : t = (s.appliedPart img detail).endTakeAll)
    (hd : img.doors[d]? = some st) (hx : s.door? d = some x) (hb : x.drive.bound = false)
    (active : x.inp.within s.clock img.timing.activeLimit) :
    ∃ w, Door.Renewed (s.settled img) x st (GoesStale s img x) w ∧ t.door? d = some (w.closing (s.settled img)) := by
  obtain ⟨w, hw, renewed, -, checkable⟩ := State.readied_kept hd hx hb
  exact ⟨w, renewed, ht ▸ State.appliedPart_door hw (checkable active)⟩

theorem State.settled_env (s : State) (img : Settings) : (s.settled img).clock = s.clock ∧
    (s.settled img).times = img.timing ∧ (s.settled img).command.mode = s.command.mode := ⟨rfl, rfl, rfl⟩

theorem State.endTakeAll_env (u : State) : u.endTakeAll.env = u.env := rfl

/-! ## The loader takes no part -/

theorem State.handAfter_loader (s : State) (img : Settings) (l : Loader) :
    ({ s with loader := l } : State).handAfter img = s.handAfter img := rfl

theorem State.splitEntries_loader (s : State) (l : Loader) :
    ({ s with loader := l } : State).splitEntries = s.splitEntries := rfl

/-! ## The statement's words -/

section

variable {u : State} {stale : Prop}

theorem Door.waitsNow_iff (mode : u.command.mode = s.command.mode) : x.WaitsNow u st stale ↔
    stale ∧ x.inp.debounced.lo = true ∧ st.cls ≠ .indicated ∧ x.drive = .resting ∧
      s.command.mode = some .doorsClosed ∧ x.hold = true := by
  unfold Door.WaitsNow
  rw [mode]

theorem enforced_of_mode (mode : u.command.mode = s.command.mode) (z : Door) (hold : Bool) :
    Enforced u z hold ↔ Enforced s z hold := by
  unfold Enforced
  rw [mode]

end

end

/-- Settles O54: each clause read off the part that `State.applyImage_eq` gives, with the reload state that the command
leaves. -/
theorem applyReplacesTheTables : Obligations.ApplyReplacesTheTables := by
  intro s c img detail failed still commands timed
  have applied := exec_applies still commands
  rw [State.applyImage_eq timed] at applied
  obtain ⟨r, hr⟩ : ∃ r : State, r = { s with loader := { reload := .idle, lastReloadFailed := failed } } := ⟨_, rfl⟩
  rw [← hr] at applied
  obtain ⟨t, ht⟩ : ∃ t, t = (r.appliedPart img detail).endTakeAll := ⟨_, rfl⟩
  rw [← ht] at applied
  have rests : ∀ d x, r.door? d = some x → x.drive.bound = false := by
    rw [hr]
    exact still
  have role (m : Master) : t.role m = (r.settled img).role m := by
    rw [ht, State.role, State.appliedPart_masters, State.role]
  have before (m : Master) : r.role m = s.role m := by
    rw [hr]
    rfl
  have clock : r.clock = s.clock := by rw [hr]
  refine ⟨t, applied, ?_, ?_, fun m => ?_, fun g => ?_, fun lawful active g => ?_, fun m => ?_, ?_, fun d st hd => ?_⟩
  · have rest := State.appliedPart_rest ht
    rw [hr, State.handAfter_loader, State.splitEntries_loader] at rest
    exact rest
  · have lines := State.appliedPart_lines (s := r) (img := img) (detail := detail)
    rw [← ht, hr] at lines
    exact lines
  · rw [ht, State.appliedPart_meters, clock]
  · rw [ht, State.appliedPart_slotCount]
  · have groups := State.appliedPart_groups ht (by rw [hr]; exact lawful) rests (by rw [hr]; exact active) g
    rw [hr] at groups
    exact groups
  · rw [role, ht, State.appliedPart_masters, ← before, ← clock]
    refine ⟨State.settled_behaviour m, fun h => ?_, fun h => ?_, fun h => ?_, fun f k h => State.settled_scanner h,
      fun h => State.settled_station h⟩
    all_goals
      rw [State.settled_role_of_ne (by rw [h]; nofun), h]
      rfl
  · rw [ht, State.appliedPart_doorCount]
  · obtain ⟨z, hz, static⟩ := State.appliedPart_static ht rests hd
    refine ⟨z, hz, static, fun added idle => ?_, fun x hx active => ?_⟩
    · have fresh := State.appliedPart_added ht hd (by rw [hr]; exact added) idle
      rw [clock] at fresh
      exact Option.some.inj (hz.symm.trans fresh)
    · have idle := still d x hx
      have there : r.door? d = some x := by rw [hr]; exact hx
      obtain ⟨w, renewed, door⟩ := State.appliedPart_kept ht hd there idle (by rw [clock]; exact active)
      obtain rfl := Option.some.inj (hz.symm.trans door)
      have goes : GoesStale r img x ↔ GoesStale s img x := by
        rw [hr]
        rfl
      have env : t.env = (r.settled img).env := by rw [ht, State.endTakeAll_env, State.appliedPart_env]
      obtain ⟨now, times, mode⟩ := r.settled_env img
      have mode : (r.settled img).command.mode = s.command.mode := by rw [mode, hr]
      rw [propext goes] at renewed
      have prot := renewed.closing_prot
      have alarms := (w.closing_alarms (r.settled img)).trans (by rw [renewed.alarms])
      rw [times] at prot
      rw [mode] at alarms
      refine ⟨fun seen => ?_, fun gone => ?_, ?_, (w.closing_powerSeen _).trans renewed.powerSeen, alarms, prot,
        renewed.closing_indicated, fun stands => ?_⟩
      · rw [Door.closing_inp]
        exact (renewed.seen seen).1
      · rw [Door.closing_inp]
        exact (renewed.unseen gone).1
      · rw [env, Door.closing_position]
        exact (Env.positionOf_congr _ (w.closing_static _) (w.closing_inp _)).symm
      · have final := renewed.closing_stands idle stands
        rw [Door.waitsNow_iff mode, propext (enforced_of_mode mode _ _), now, clock, times] at final
        exact final

end Sys2Proof.Machine
end

section
/-! SUPPORT. The step's other branch, a command waiting in the queue (log 2); the empty queue's is `step_of_empty`. -/

namespace Sys2Proof.Machine

/-- The queue's part in a step: only its front is taken, and `exec` sees the rest. -/
theorem step_of_front {s : State} {c : Instr} {rest : List Instr} (h : s.pending = c :: rest) :
    step s = exec c { s with pending := rest } := by
  simp only [step, h]

/-- Settles O1: the branch of `step` that a waiting command selects. -/
theorem frontCommandIsExecuted : Obligations.FrontCommandIsExecuted := by
  intro c s rest waiting
  exact step_of_front waiting

end Sys2Proof.Machine
end
